-- ==== Sys2Proof/Word.lean ====
section
/-! DEFINITION. The word types: a byte of memory and a 32-bit instruction word. -/

namespace Sys2Proof

/-- One byte of memory (R52). -/
abbrev Byte := BitVec 8

/-- One instruction word; every instruction in scope is 32 bits long (R70). -/
abbrev Word32 := BitVec 32

/-- A 5-bit register number: `vd`, `vs1`, `vs2`, `rd`, `rs1` or `rs2` (R75). -/
abbrev RegNo := BitVec 5

end Sys2Proof
end

