-- ==== Sys2Proof/Config.lean ====
section
/-! DEFINITION. What an implementation or a platform fixes (the parameters of 00_scope.md R8), as plain
data, and the values the spec leaves free, as opaque constants without a body. -/

namespace Sys2Proof

/-- XLEN, the width of an `x` register and of `pc` (R8): 32 or 64. -/
inductive Xlen where
  | x32
  | x64
deriving DecidableEq, Repr

/-- XLEN in bits (R8). -/
def Xlen.bits : Xlen → Nat
  | .x32 => 32
  | .x64 => 64

/-- The scalar floating-point formats of the hart, by the widest of them (R8, R231): `absent`, or single
precision only, or up to double, or up to quad precision. -/
inductive FloatUnit where
  | absent
  | flen32
  | flen64
  | flen128
deriving DecidableEq, Repr

/-- SELEN, the minimum width of a sub-element: one of 1, 2, 4, 8 (R8, R104). -/
inductive Selen where
  | s1
  | s2
  | s4
  | s8
deriving DecidableEq, Repr

/-- The three candidate layouts of `vtype` (R30). -/
inductive VtypeLayout where
  | l08
  | l09
  | l10
deriving DecidableEq, Repr

/-- Where the mask bit of element `i` lies (R38): at bit `i * MLEN` before v0.9, at bit `i` from v0.9 on. -/
inductive MaskFormat where
  | perMlen
  | perBit
deriving DecidableEq, Repr

/-- What Base.inactive and Base.tail do to an element whose policy bit is 1 (R13): leave it, overwrite it
with ones, or choose between the two afresh for each element. -/
inductive AgnosticPolicy where
  | undisturbed
  | allOnes
  | free
deriving DecidableEq, Repr

/-- The choice of `setvl` for VLMAX < AVL < 2 * VLMAX (R106): the default minimum, or a free choice. -/
inductive SetvlPolicy where
  | minimum
  | free
deriving DecidableEq, Repr

/-- RedBitwiseExt, the extension of a bitwise reduction's result (R173). -/
inductive RedBitwiseExt where
  | zero
  | sign
deriving DecidableEq, Repr

/-- FpRedSingleExt, the bits above a single-width floating-point reduction's result (R174). Decision D11
lists `nanbox` and `zero`, R8 lists `nanbox` and `draw`: the model admits all three (log 19). -/
inductive FpRedSingleExt where
  | nanbox
  | zero
  /-- Bits drawn afresh for each element. -/
  | draw
deriving DecidableEq, Repr

/-- Where the elements of a register group lie (R13): element `i` at bit `i * SEW` of the group, or in the places a base
with striping gives them (U8: SLEN "is hidden inside `elem`"), of which nothing is known (log 30). -/
inductive ElemLayout where
  | flat
  | base
deriving DecidableEq, Repr

/-- The base instructions that belong to RegularArith only if the implementation says so (R153); `vadd.vv`
and `vsll.vx` always belong. -/
inductive RegularExtra where
  | vaddVX
  | vaddVI
  | vsllVV
  | vsllVI
  /-- A base arithmetic instruction without a row in the opcode table, by the number `BaseOp.regular` gives it. -/
  | base (n : Nat)
deriving DecidableEq, Repr

/-- A slot of the OP-V format (R71): the `funct6` and `funct3` of a row. -/
structure DotSlot where
  funct6 : BitVec 6
  funct3 : BitVec 3
deriving DecidableEq, Repr

/-- DotEncoding, the bit patterns of the three dot products (R8, R78). -/
structure DotEncoding where
  vdotu : DotSlot
  vdot : DotSlot
  vfdot : DotSlot
deriving DecidableEq, Repr

/-- The default DotEncoding (R78, decision D3). -/
def DotEncoding.default : DotEncoding where
  vdotu := ⟨0b111000#6, 0b000#3⟩
  vdot := ⟨0b111001#6, 0b000#3⟩
  vfdot := ⟨0b111001#6, 0b001#3⟩

/-- Some instructions in some settings, for a point that Base decides (R13): the words with `word &&& mask = value`, in
the settings with `vtype &&& vtypeMask = vtypeValue`. A check on the word and `vtype` alone can be written as rows of
this form. -/
structure BaseMatch where
  mask : Word32
  value : Word32
  vtypeMask : BitVec 64
  vtypeValue : BitVec 64
deriving DecidableEq, Repr

/-- The parameters of an implementation (R8). ELEN is `8 * 2^elenExp` and VLEN is `2^vlenExp`: any power of
two of at least 8, and any power of two below 2^XLEN, since `vl` is XLEN bits wide and holds up to VLMAX (R26;
DEDUCED, log 2). -/
structure Config where
  xlen : Xlen
  elenExp : Nat
  vlenExp : Fin xlen.bits
  selen : Selen
  float : FloatUnit
  /-- Whether 16 belongs to FpWidths (R231). -/
  half : Bool
  layout : VtypeLayout
  maskFormat : MaskFormat
  agnostic : AgnosticPolicy
  setvl : SetvlPolicy
  redBitwise : RedBitwiseExt
  fpRedSingle : FpRedSingleExt
  /-- The members of RegularArith beyond `vadd.vv` and `vsll.vx` (R153). -/
  regular : List RegularExtra
  /-- DotEncoding (R8, R78). -/
  dot : DotEncoding
  /-- `elem` of Base (R13; log 30). -/
  elements : ElemLayout
  /-- What Base.legal accepts although a check that the spec names fails (R13; log 31). -/
  baseAccepts : List BaseMatch
  /-- What Base.legal rejects beyond the checks the spec names (R13; log 31). -/
  baseRejects : List BaseMatch
  /-- Where Base.exec with EDIV = 1 is not what the spec's general-knowledge passages say: there it is free (R13;
  log 35). -/
  baseOther : List BaseMatch
deriving DecidableEq, Repr

/-- XLEN in bits (R8). -/
def Config.XLEN (c : Config) : Nat := c.xlen.bits

/-- ELEN in bits: the largest supported SEW (R8). -/
def Config.ELEN (c : Config) : Nat := 8 * 2 ^ c.elenExp

/-- VLEN: bits in one vector register (R8). -/
def Config.VLEN (c : Config) : Nat := 2 ^ c.vlenExp.val

/-- SELEN in bits (R104). -/
def Config.SELEN (c : Config) : Nat :=
  match c.selen with
  | .s1 => 1
  | .s2 => 2
  | .s4 => 4
  | .s8 => 8

/-- FLEN in bits; 0 when the hart has no floating point (R8, R25). -/
def Config.FLEN (c : Config) : Nat :=
  match c.float with
  | .absent => 0
  | .flen32 => 32
  | .flen64 => 64
  | .flen128 => 128

/-- The configuration of the spec's sample programs (95_test_vectors.md Part 3) and the defaults of R8:
XLEN = 32, VLEN = 64, ELEN = 64, SELEN = 8, FLEN = 32 with half precision, layout L10, mask bit `i`. -/
def Config.default : Config where
  xlen := .x32
  elenExp := 3
  vlenExp := ⟨6, by decide⟩
  selen := .s8
  float := .flen32
  half := true
  layout := .l10
  maskFormat := .perBit
  agnostic := .free
  setvl := .minimum
  redBitwise := .zero
  fpRedSingle := .nanbox
  regular := []
  dot := .default
  elements := .flat
  baseAccepts := []
  baseRejects := []
  baseOther := []

/-- A range of byte addresses: `base` to `base + size - 1`. -/
structure Region where
  base : Nat
  size : Nat
deriving DecidableEq, Repr

/-- The vector mask logical instructions (R126). -/
inductive MaskLogic where
  | and
  | nand
  | andnot
  | xor
  | or
  | nor
  | ornot
  | xnor
deriving DecidableEq, Repr

/-- How a vector load or store forms its addresses (R123, R124). -/
inductive AddrMode where
  | unitStride
  | strided
  | indexed
  /-- Loads only. -/
  | faultOnlyFirst
deriving DecidableEq, Repr

/-- The instructions of 41_unaffected.md, which have no row in the opcode table (R77). -/
inductive UnaffectedOp where
  /-- R123. -/
  | load (mode : AddrMode)
  /-- R124. -/
  | store (mode : AddrMode)
  /-- R125: the vector AMO number `n`, which writes the old value to its register if `writesBack`. -/
  | amo (n : Nat) (writesBack : Bool)
  /-- R126. -/
  | maskLogical (k : MaskLogic)
  /-- R127. -/
  | vpopc
  /-- R128. -/
  | vfirst
  /-- R129. -/
  | vmsbf
  /-- R130. -/
  | vmsif
  /-- R131. -/
  | vmsof
  /-- R132. -/
  | viota
  /-- R133. -/
  | vid
  /-- R134: the integer extract. -/
  | vextXV
  /-- R134: the element insert of earlier drafts. -/
  | vinsVX
  /-- R135. -/
  | vfmvFS
  /-- R135. -/
  | vfmvSF
  /-- R136. -/
  | vmvXS
  /-- R136. -/
  | vmvSX
  /-- R137. -/
  | vslideupVX
  | vslideupVI
  | vslidedownVX
  | vslidedownVI
  /-- R137, decision D32. -/
  | vslide1upVX
  | vslide1downVX
  /-- R138. -/
  | vcompress
deriving DecidableEq, Repr

/-- The operand forms of a base arithmetic instruction (R71): those of the class rule R151, and the form with an `f`
register. -/
inductive ArithForm where
  | vv
  | vx
  | vi
  | vf
deriving DecidableEq, Repr

/-- What a word that has no row in the opcode table can be to the Base decoder (R77, R84). -/
inductive BaseOp where
  /-- An instruction of 41_unaffected.md. -/
  | unaffected (op : UnaffectedOp)
  /-- A base arithmetic instruction that computes each element from the elements of the same index (R151, R153): number
  `n`, a shift or not (R74), fixed-point or not (R36). The word's `funct3` says the form, and whether it is a
  floating-point instruction (R71). -/
  | regular (n : Nat) (shift fixedPoint : Bool)
  /-- R33, R253: `x[rd] <- csr`. -/
  | csrr
  /-- R33, R253: `csr <- x[rs1]`. -/
  | csrw
  /-- A base vector instruction in none of the source's classes and of no form above (R153). -/
  | unclassified
deriving DecidableEq, Repr

/-- One row of the Base decoder of R77 and R84: words with `word &&& mask = value` are `op`. -/
structure BaseRow where
  mask : Word32
  value : Word32
  op : BaseOp
deriving DecidableEq, Repr

/-- What the platform supplies (R8, R54, R61, R84, R275). -/
structure Platform where
  /-- RESET_PC (R270). -/
  resetPc : Nat
  /-- HALT_PC (R275); `none` when the platform names none. -/
  haltPc : Option Nat
  /-- The set of addresses that hold memory (R54). -/
  memory : List Region
  /-- The program text: the bytes at its addresses, which rise strictly. It is fixed for the whole run and is no
  part of the hart (R17, R61). -/
  text : List Host.Cell
  /-- The Base decoder; empty when Base provides none (R84). -/
  baseRows : List BaseRow
deriving DecidableEq, Repr

/-- The platform of `State.reset` (DESIGN CHOICE, log 4): execution starts at 0, the whole 32-bit space
holds memory, there is no program text, no HALT_PC is named and Base provides no decoder. -/
def Platform.default : Platform where
  resetPc := 0
  haltPc := none
  memory := [⟨0, 2 ^ 32⟩]
  text := []
  baseRows := []

/-! ### Free values: nothing is known of these but that they are functions of their arguments. -/

/-- The content of a byte of memory that is not loaded and that nothing has written (R41: "unspecified elsewhere"; log 6). -/
opaque Config.initialByte : Nat → Byte

/-- Whether the agnostic choice number `count` leaves element `i` of the group at register `r` alone rather than
overwriting it with ones (R13; log 8). -/
opaque Config.agnosticKeeps : (count r i : Nat) → Bool

/-- The bits that `FpRedSingleExt.draw` puts above the result of element `i` in the instruction that makes
the agnostic choices number `count` (R8; log 19). -/
opaque Config.drawnBits : (count i sew : Nat) → BitVec sew

/-- The implementation's `setvl` for VLMAX < AVL < 2 * VLMAX, before it is brought into the interval
R106 allows; "a function of (AVL, VLMAX) only" (log 10). -/
opaque Config.setvlChoice : (avl vlmax : Nat) → Nat

/-- FpNumerics.dot of R232 where exact_when_representable does not fix it (log 12). -/
opaque Config.rawDot (se a : Nat) (frm : BitVec 3) (acc : BitVec a) (as bs : List (BitVec se)) :
    BitVec a × BitVec 5

/-- FpNumerics.usum of R232 where exact_when_representable does not fix it (log 12). -/
opaque Config.rawUsum (f : Nat) (frm : BitVec 3) (acc : BitVec f) (xs : List (BitVec f)) :
    BitVec f × BitVec 5

/-- One floating-point addition where IEEE 754 does not give the result: the payload of a NaN, and the rounding
under a value of `frm` that names no rounding mode (R232; log 12). -/
opaque Config.rawAdd (f : Nat) (frm : BitVec 3) (a b : BitVec f) : BitVec f × BitVec 5

/-- `op_I(w)` of R151 for the base arithmetic instruction number `n`: the result, and what it ORs into `vxsat`
and `fflags`, from two inputs and the old destination. R153 leaves the instruction to the base (log 32). -/
opaque Config.regularOp (n w : Nat) (frm : BitVec 3) (vxrm : BitVec 2) (a b old : BitVec w) :
    BitVec w × BitVec 1 × BitVec 5

/-- `scalar_I(x, w)` of R151: the base's treatment of the scalar, from an `x` or an `f` register, at element width
`w` (log 32). -/
opaque Config.regularScalar {width : Nat} (n w : Nat) (x : BitVec width) : BitVec w

/-- The operation of the vector AMO number `n` on an element of `w` bits: what it stores, from the value in memory and
the element of its register (R125; log 20). -/
opaque Config.amoOp (n w : Nat) (old data : BitVec w) : BitVec w

/-- The places of the `count` elements of `w` bits in a group of LMUL = `num / den` registers, for a base that does not
lay them out flat (R13; log 30). -/
opaque Config.elemOrder (num den w count : Nat) : Equiv.Perm (Fin count)

/-- The result of a floating-point minimum where R188 states none: an operand is a signalling NaN or
both are NaNs (log 13). -/
opaque Config.rawMin (f : Nat) (a b : BitVec f) : BitVec f

/-- The result of a floating-point maximum where R189 states none (log 13). -/
opaque Config.rawMax (f : Nat) (a b : BitVec f) : BitVec f

/-- The conversion of a NaN to a wider format, whose payload R232 does not state (log 14). -/
opaque Config.widenNaN (se f : Nat) (x : BitVec se) : BitVec f

/-- What `vfmv.s.f` moves when the `f` register does not hold a value boxed for SEW (R135; log 21). -/
opaque Config.unboxed (sew : Nat) : BitVec sew

end Sys2Proof
end

