-- ==== Sys2Proof/Syntax.lean ====
section
/-! DEFINITION. The instructions: one constructor per row of spec/opcode_table.json, operands in the
assembler's order (R75, R85). A `vm` operand of 1 means unmasked, 0 means masked by `v0` (R71). -/

namespace Sys2Proof

/-- The instructions of the opcode table. -/
inductive Instr where
  -- configuration (R72, R106, R107)
  | vsetvli (rd rs1 : RegNo) (zimm : BitVec 11)
  | vsetvl (rd rs1 rs2 : RegNo)
  -- regular arithmetic (R76, R153 to R155)
  | vaddVV (vd vs2 vs1 : RegNo) (vm : BitVec 1)
  | vaddVX (vd vs2 rs1 : RegNo) (vm : BitVec 1)
  | vaddVI (vd vs2 : RegNo) (imm5 : BitVec 5) (vm : BitVec 1)
  | vsllVV (vd vs2 vs1 : RegNo) (vm : BitVec 1)
  | vsllVX (vd vs2 rs1 : RegNo) (vm : BitVec 1)
  | vsllVI (vd vs2 : RegNo) (imm5 : BitVec 5) (vm : BitVec 1)
  -- add with carry, subtract with borrow (R76, R156 to R159)
  | vadcVVM (vd vs2 vs1 : RegNo) (vm : BitVec 1)
  | vadcVXM (vd vs2 rs1 : RegNo) (vm : BitVec 1)
  | vadcVIM (vd vs2 : RegNo) (imm5 : BitVec 5) (vm : BitVec 1)
  | vmadcVVM (vd vs2 vs1 : RegNo) (vm : BitVec 1)
  | vmadcVXM (vd vs2 rs1 : RegNo) (vm : BitVec 1)
  | vmadcVIM (vd vs2 : RegNo) (imm5 : BitVec 5) (vm : BitVec 1)
  | vsbcVVM (vd vs2 vs1 : RegNo) (vm : BitVec 1)
  | vsbcVXM (vd vs2 rs1 : RegNo) (vm : BitVec 1)
  | vmsbcVVM (vd vs2 vs1 : RegNo) (vm : BitVec 1)
  | vmsbcVXM (vd vs2 rs1 : RegNo) (vm : BitVec 1)
  -- register gathers (R76, R211 to R213)
  | vrgatherVV (vd vs2 vs1 : RegNo) (vm : BitVec 1)
  | vrgatherVX (vd vs2 rs1 : RegNo) (vm : BitVec 1)
  | vrgatherVI (vd vs2 : RegNo) (imm5 : BitVec 5) (vm : BitVec 1)
  -- integer reductions (R76, R176 to R185)
  | vredsumVS (vd vs2 vs1 : RegNo) (vm : BitVec 1)
  | vredandVS (vd vs2 vs1 : RegNo) (vm : BitVec 1)
  | vredorVS (vd vs2 vs1 : RegNo) (vm : BitVec 1)
  | vredxorVS (vd vs2 vs1 : RegNo) (vm : BitVec 1)
  | vredminuVS (vd vs2 vs1 : RegNo) (vm : BitVec 1)
  | vredminVS (vd vs2 vs1 : RegNo) (vm : BitVec 1)
  | vredmaxuVS (vd vs2 vs1 : RegNo) (vm : BitVec 1)
  | vredmaxVS (vd vs2 vs1 : RegNo) (vm : BitVec 1)
  | vwredsumuVS (vd vs2 vs1 : RegNo) (vm : BitVec 1)
  | vwredsumVS (vd vs2 vs1 : RegNo) (vm : BitVec 1)
  -- floating-point reductions (R76, R186 to R191)
  | vfredsumVS (vd vs2 vs1 : RegNo) (vm : BitVec 1)
  | vfredosumVS (vd vs2 vs1 : RegNo) (vm : BitVec 1)
  | vfredminVS (vd vs2 vs1 : RegNo) (vm : BitVec 1)
  | vfredmaxVS (vd vs2 vs1 : RegNo) (vm : BitVec 1)
  | vfwredsumVS (vd vs2 vs1 : RegNo) (vm : BitVec 1)
  | vfwredosumVS (vd vs2 vs1 : RegNo) (vm : BitVec 1)
  -- dot products (R78, R221, R222, R231)
  | vdotuVV (vd vs2 vs1 : RegNo) (vm : BitVec 1)
  | vdotVV (vd vs2 vs1 : RegNo) (vm : BitVec 1)
  | vfdotVV (vd vs2 vs1 : RegNo) (vm : BitVec 1)
  -- scaffold (R79, R290 to R293)
  | addi (rd rs1 : RegNo) (imm : BitVec 12)
  | lw (rd rs1 : RegNo) (imm : BitVec 12)
  | sw (rs2 rs1 : RegNo) (imm : BitVec 12)
  /-- `offset` is the 13-bit branch offset of R293, whose bit 0 is zero. -/
  | bne (rs1 rs2 : RegNo) (offset : BitVec 13)
deriving DecidableEq, Repr

end Sys2Proof
end

