-- ==== Sys2Proof/WellFormed.lean ====
section
/-! DEFINITION. Which terms of `Instr` stand for an instruction word. Every operand type has exactly the
width of its field, so the one operand that can be ill-formed is the branch offset of `bne`. -/

namespace Sys2Proof

/-- The branch offset has bit 0 zero: R293 encodes `imm[12:1]` only. -/
def offsetEven (offset : BitVec 13) : Bool := offset.getLsbD 0 == false

/-- The terms an instruction word stands for. -/
def Instr.wellFormed : Instr → Bool
  | .bne _ _ offset => offsetEven offset
  | _ => true

end Sys2Proof
end

