-- ==== Sys2Proof/Decode.lean ====
section
/-! DEFINITION. The decoder (stage 1 of R80: the word alone decides the mnemonic and the fields) and the
encoder, both written from the formats of R71, R72, R76, R78, R79 and R290 to R293. -/

namespace Sys2Proof

/-! ### The fields of a word (R71, R72) -/

def fOpcode (w : Word32) : BitVec 7 := w.extractLsb' 0 7
/-- `vd` or `rd`. -/
def fRd (w : Word32) : BitVec 5 := w.extractLsb' 7 5
def fFunct3 (w : Word32) : BitVec 3 := w.extractLsb' 12 3
/-- `vs1`, `rs1` or `imm5`. -/
def fRs1 (w : Word32) : BitVec 5 := w.extractLsb' 15 5
/-- `vs2` or `rs2`. -/
def fRs2 (w : Word32) : BitVec 5 := w.extractLsb' 20 5
def fVm (w : Word32) : BitVec 1 := w.extractLsb' 25 1
def fFunct6 (w : Word32) : BitVec 6 := w.extractLsb' 26 6
def fFunct7 (w : Word32) : BitVec 7 := w.extractLsb' 25 7
/-- The number of fields of a segment access less one, in a vector load or store word. -/
def fNf (w : Word32) : BitVec 3 := w.extractLsb' 29 3

/-- `imm_I` before its extension: `word[31:20]` (49_base_scaffold.md). -/
def fImmI (w : Word32) : BitVec 12 := w.extractLsb' 20 12
/-- `imm_S` before its extension: `word[31:25], word[11:7]`. -/
def fImmS (w : Word32) : BitVec 12 := w.extractLsb' 25 7 ++ w.extractLsb' 7 5
/-- `imm_B` before its extension: `word[31], word[7], word[30:25], word[11:8], 0`. -/
def fImmB (w : Word32) : BitVec 13 :=
  w.extractLsb' 31 1 ++ w.extractLsb' 7 1 ++ w.extractLsb' 25 6 ++ w.extractLsb' 8 4 ++ 0#1

/-! ### The decoder -/

/-- The OPIVV rows of R76 (`funct3` 000), by `funct6`. -/
def decodeOpivv (funct6 : BitVec 6) (vd vs2 vs1 : BitVec 5) (vm : BitVec 1) : Option Instr :=
  if funct6 = 0b000000#6 then some (.vaddVV vd vs2 vs1 vm)
  else if funct6 = 0b001100#6 then some (.vrgatherVV vd vs2 vs1 vm)
  else if funct6 = 0b010000#6 then some (.vadcVVM vd vs2 vs1 vm)
  else if funct6 = 0b010001#6 then some (.vmadcVVM vd vs2 vs1 vm)
  else if funct6 = 0b010010#6 then some (.vsbcVVM vd vs2 vs1 vm)
  else if funct6 = 0b010011#6 then some (.vmsbcVVM vd vs2 vs1 vm)
  else if funct6 = 0b100101#6 then some (.vsllVV vd vs2 vs1 vm)
  else if funct6 = 0b110000#6 then some (.vwredsumuVS vd vs2 vs1 vm)
  else if funct6 = 0b110001#6 then some (.vwredsumVS vd vs2 vs1 vm)
  else none

/-- The OPFVV rows of R76 (`funct3` 001), by `funct6`. -/
def decodeOpfvv (funct6 : BitVec 6) (vd vs2 vs1 : BitVec 5) (vm : BitVec 1) : Option Instr :=
  if funct6 = 0b000001#6 then some (.vfredsumVS vd vs2 vs1 vm)
  else if funct6 = 0b000011#6 then some (.vfredosumVS vd vs2 vs1 vm)
  else if funct6 = 0b000101#6 then some (.vfredminVS vd vs2 vs1 vm)
  else if funct6 = 0b000111#6 then some (.vfredmaxVS vd vs2 vs1 vm)
  else if funct6 = 0b110001#6 then some (.vfwredsumVS vd vs2 vs1 vm)
  else if funct6 = 0b110011#6 then some (.vfwredosumVS vd vs2 vs1 vm)
  else none

/-- The OPMVV rows of R76 (`funct3` 010), by `funct6`. -/
def decodeOpmvv (funct6 : BitVec 6) (vd vs2 vs1 : BitVec 5) (vm : BitVec 1) : Option Instr :=
  if funct6 = 0b000000#6 then some (.vredsumVS vd vs2 vs1 vm)
  else if funct6 = 0b000001#6 then some (.vredandVS vd vs2 vs1 vm)
  else if funct6 = 0b000010#6 then some (.vredorVS vd vs2 vs1 vm)
  else if funct6 = 0b000011#6 then some (.vredxorVS vd vs2 vs1 vm)
  else if funct6 = 0b000100#6 then some (.vredminuVS vd vs2 vs1 vm)
  else if funct6 = 0b000101#6 then some (.vredminVS vd vs2 vs1 vm)
  else if funct6 = 0b000110#6 then some (.vredmaxuVS vd vs2 vs1 vm)
  else if funct6 = 0b000111#6 then some (.vredmaxVS vd vs2 vs1 vm)
  else none

/-- The OPIVI rows of R76 (`funct3` 011), by `funct6`. -/
def decodeOpivi (funct6 : BitVec 6) (vd vs2 imm5 : BitVec 5) (vm : BitVec 1) : Option Instr :=
  if funct6 = 0b000000#6 then some (.vaddVI vd vs2 imm5 vm)
  else if funct6 = 0b001100#6 then some (.vrgatherVI vd vs2 imm5 vm)
  else if funct6 = 0b010000#6 then some (.vadcVIM vd vs2 imm5 vm)
  else if funct6 = 0b010001#6 then some (.vmadcVIM vd vs2 imm5 vm)
  else if funct6 = 0b100101#6 then some (.vsllVI vd vs2 imm5 vm)
  else none

/-- The OPIVX rows of R76 (`funct3` 100), by `funct6`. -/
def decodeOpivx (funct6 : BitVec 6) (vd vs2 rs1 : BitVec 5) (vm : BitVec 1) : Option Instr :=
  if funct6 = 0b000000#6 then some (.vaddVX vd vs2 rs1 vm)
  else if funct6 = 0b001100#6 then some (.vrgatherVX vd vs2 rs1 vm)
  else if funct6 = 0b010000#6 then some (.vadcVXM vd vs2 rs1 vm)
  else if funct6 = 0b010001#6 then some (.vmadcVXM vd vs2 rs1 vm)
  else if funct6 = 0b010010#6 then some (.vsbcVXM vd vs2 rs1 vm)
  else if funct6 = 0b010011#6 then some (.vmsbcVXM vd vs2 rs1 vm)
  else if funct6 = 0b100101#6 then some (.vsllVX vd vs2 rs1 vm)
  else none

/-- The two configuration instructions (R72, `funct3` 111). -/
def decodeOpcfg (w : Word32) : Option Instr :=
  if w.extractLsb' 31 1 = 0#1 then some (.vsetvli (fRd w) (fRs1 w) (w.extractLsb' 20 11))
  else if fFunct7 w = 0b1000000#7 then some (.vsetvl (fRd w) (fRs1 w) (fRs2 w))
  else none

/-- The words of opcode 1010111 in the rows of R72 and R76, by operand category (R71). -/
def decodeOpV (w : Word32) : Option Instr :=
  if fFunct3 w = 0b000#3 then decodeOpivv (fFunct6 w) (fRd w) (fRs2 w) (fRs1 w) (fVm w)
  else if fFunct3 w = 0b001#3 then decodeOpfvv (fFunct6 w) (fRd w) (fRs2 w) (fRs1 w) (fVm w)
  else if fFunct3 w = 0b010#3 then decodeOpmvv (fFunct6 w) (fRd w) (fRs2 w) (fRs1 w) (fVm w)
  else if fFunct3 w = 0b011#3 then decodeOpivi (fFunct6 w) (fRd w) (fRs2 w) (fRs1 w) (fVm w)
  else if fFunct3 w = 0b100#3 then decodeOpivx (fFunct6 w) (fRd w) (fRs2 w) (fRs1 w) (fVm w)
  else if fFunct3 w = 0b111#3 then decodeOpcfg w
  else none

/-- Whether a word of opcode 1010111 lies in a slot. -/
def inSlot (s : DotSlot) (w : Word32) : Bool := fFunct6 w == s.funct6 && fFunct3 w == s.funct3

/-- The three dot products, in the slots of a DotEncoding (R78). -/
def decodeDot (d : DotEncoding) (w : Word32) : Option Instr :=
  if inSlot d.vdotu w then some (.vdotuVV (fRd w) (fRs2 w) (fRs1 w) (fVm w))
  else if inSlot d.vdot w then some (.vdotVV (fRd w) (fRs2 w) (fRs1 w) (fVm w))
  else if inSlot d.vfdot w then some (.vfdotVV (fRd w) (fRs2 w) (fRs1 w) (fVm w))
  else none

/-- Stage 1 of R80 for a DotEncoding: the instruction a word stands for, `none` where the word matches no row of
the opcode table (R84). It looks at no state. -/
def decodeWith (d : DotEncoding) (w : Word32) : Option Instr :=
  if fOpcode w = 0b1010111#7 then
    match decodeOpV w with
    | some i => some i
    | none => decodeDot d w
  else if fOpcode w = 0b0010011#7 then
    if fFunct3 w = 0b000#3 then some (.addi (fRd w) (fRs1 w) (fImmI w)) else none
  else if fOpcode w = 0b0000011#7 then
    if fFunct3 w = 0b010#3 then some (.lw (fRd w) (fRs1 w) (fImmI w)) else none
  else if fOpcode w = 0b0100011#7 then
    if fFunct3 w = 0b010#3 then some (.sw (fRs2 w) (fRs1 w) (fImmS w)) else none
  else if fOpcode w = 0b1100011#7 then
    if fFunct3 w = 0b001#3 then some (.bne (fRs1 w) (fRs2 w) (fImmB w)) else none
  else none

/-- The decoder of spec/opcode_table.json, which has the default DotEncoding. -/
def decode (w : Word32) : Option Instr := decodeWith .default w

/-- The word whose bytes, from the lowest address up, are `b0` to `b3`: instruction fetch is little-endian
(R52, R70). -/
def wordOfBytes (b0 b1 b2 b3 : Byte) : Word32 := b3 ++ b2 ++ b1 ++ b0

/-- Byte `k` of a word as it is stored, byte 0 at the lowest address (R52). -/
def byteOfWord (w : Word32) (k : Nat) : Byte := w.extractLsb' (8 * k) 8

/-- The decoder over the four bytes of an instruction in memory order. -/
def decodeBytes (d : DotEncoding) (b0 b1 b2 b3 : Byte) : Option Instr := decodeWith d (wordOfBytes b0 b1 b2 b3)

/-- The instruction the decoder reads from an instruction whose bits are `w`, of which the table gives
`nbits`; the bits above are zero. -/
def decodeTableWord (nbits w : Nat) : Option Instr :=
  let word : Word32 := BitVec.ofNat 32 (w % 2 ^ nbits)
  decodeBytes .default (byteOfWord word 0) (byteOfWord word 1) (byteOfWord word 2) (byteOfWord word 3)

/-- The operation the rows of a Base decoder give a word, the first match winning (R77, R84). -/
def decodeBase (rows : List BaseRow) (w : Word32) : Option BaseOp :=
  (rows.find? fun r => w &&& r.mask == r.value).map BaseRow.op

/-! ### The encoder -/

/-- Format OP-V (R71). -/
def opV (funct6 : BitVec 6) (vm : BitVec 1) (vs2 s1 : BitVec 5) (funct3 : BitVec 3) (vd : BitVec 5) : Word32 :=
  funct6 ++ vm ++ vs2 ++ s1 ++ funct3 ++ vd ++ 0b1010111#7

/-- Format I (R290, R291). -/
def opI (imm : BitVec 12) (rs1 : BitVec 5) (funct3 : BitVec 3) (rd : BitVec 5) (opcode : BitVec 7) : Word32 :=
  imm ++ rs1 ++ funct3 ++ rd ++ opcode

/-- The word of an instruction under a DotEncoding (R71, R72, R76, R78, R79). -/
def encodeWith (d : DotEncoding) : Instr → Word32
  | .vsetvli rd rs1 zimm => 0#1 ++ zimm ++ rs1 ++ 0b111#3 ++ rd ++ 0b1010111#7
  | .vsetvl rd rs1 rs2 => 0b1000000#7 ++ rs2 ++ rs1 ++ 0b111#3 ++ rd ++ 0b1010111#7
  | .vaddVV vd vs2 vs1 vm => opV 0b000000#6 vm vs2 vs1 0b000#3 vd
  | .vrgatherVV vd vs2 vs1 vm => opV 0b001100#6 vm vs2 vs1 0b000#3 vd
  | .vadcVVM vd vs2 vs1 vm => opV 0b010000#6 vm vs2 vs1 0b000#3 vd
  | .vmadcVVM vd vs2 vs1 vm => opV 0b010001#6 vm vs2 vs1 0b000#3 vd
  | .vsbcVVM vd vs2 vs1 vm => opV 0b010010#6 vm vs2 vs1 0b000#3 vd
  | .vmsbcVVM vd vs2 vs1 vm => opV 0b010011#6 vm vs2 vs1 0b000#3 vd
  | .vsllVV vd vs2 vs1 vm => opV 0b100101#6 vm vs2 vs1 0b000#3 vd
  | .vwredsumuVS vd vs2 vs1 vm => opV 0b110000#6 vm vs2 vs1 0b000#3 vd
  | .vwredsumVS vd vs2 vs1 vm => opV 0b110001#6 vm vs2 vs1 0b000#3 vd
  | .vdotuVV vd vs2 vs1 vm => opV d.vdotu.funct6 vm vs2 vs1 d.vdotu.funct3 vd
  | .vdotVV vd vs2 vs1 vm => opV d.vdot.funct6 vm vs2 vs1 d.vdot.funct3 vd
  | .vfredsumVS vd vs2 vs1 vm => opV 0b000001#6 vm vs2 vs1 0b001#3 vd
  | .vfredosumVS vd vs2 vs1 vm => opV 0b000011#6 vm vs2 vs1 0b001#3 vd
  | .vfredminVS vd vs2 vs1 vm => opV 0b000101#6 vm vs2 vs1 0b001#3 vd
  | .vfredmaxVS vd vs2 vs1 vm => opV 0b000111#6 vm vs2 vs1 0b001#3 vd
  | .vfwredsumVS vd vs2 vs1 vm => opV 0b110001#6 vm vs2 vs1 0b001#3 vd
  | .vfwredosumVS vd vs2 vs1 vm => opV 0b110011#6 vm vs2 vs1 0b001#3 vd
  | .vfdotVV vd vs2 vs1 vm => opV d.vfdot.funct6 vm vs2 vs1 d.vfdot.funct3 vd
  | .vredsumVS vd vs2 vs1 vm => opV 0b000000#6 vm vs2 vs1 0b010#3 vd
  | .vredandVS vd vs2 vs1 vm => opV 0b000001#6 vm vs2 vs1 0b010#3 vd
  | .vredorVS vd vs2 vs1 vm => opV 0b000010#6 vm vs2 vs1 0b010#3 vd
  | .vredxorVS vd vs2 vs1 vm => opV 0b000011#6 vm vs2 vs1 0b010#3 vd
  | .vredminuVS vd vs2 vs1 vm => opV 0b000100#6 vm vs2 vs1 0b010#3 vd
  | .vredminVS vd vs2 vs1 vm => opV 0b000101#6 vm vs2 vs1 0b010#3 vd
  | .vredmaxuVS vd vs2 vs1 vm => opV 0b000110#6 vm vs2 vs1 0b010#3 vd
  | .vredmaxVS vd vs2 vs1 vm => opV 0b000111#6 vm vs2 vs1 0b010#3 vd
  | .vaddVI vd vs2 imm5 vm => opV 0b000000#6 vm vs2 imm5 0b011#3 vd
  | .vrgatherVI vd vs2 imm5 vm => opV 0b001100#6 vm vs2 imm5 0b011#3 vd
  | .vadcVIM vd vs2 imm5 vm => opV 0b010000#6 vm vs2 imm5 0b011#3 vd
  | .vmadcVIM vd vs2 imm5 vm => opV 0b010001#6 vm vs2 imm5 0b011#3 vd
  | .vsllVI vd vs2 imm5 vm => opV 0b100101#6 vm vs2 imm5 0b011#3 vd
  | .vaddVX vd vs2 rs1 vm => opV 0b000000#6 vm vs2 rs1 0b100#3 vd
  | .vrgatherVX vd vs2 rs1 vm => opV 0b001100#6 vm vs2 rs1 0b100#3 vd
  | .vadcVXM vd vs2 rs1 vm => opV 0b010000#6 vm vs2 rs1 0b100#3 vd
  | .vmadcVXM vd vs2 rs1 vm => opV 0b010001#6 vm vs2 rs1 0b100#3 vd
  | .vsbcVXM vd vs2 rs1 vm => opV 0b010010#6 vm vs2 rs1 0b100#3 vd
  | .vmsbcVXM vd vs2 rs1 vm => opV 0b010011#6 vm vs2 rs1 0b100#3 vd
  | .vsllVX vd vs2 rs1 vm => opV 0b100101#6 vm vs2 rs1 0b100#3 vd
  | .addi rd rs1 imm => opI imm rs1 0b000#3 rd 0b0010011#7
  | .lw rd rs1 imm => opI imm rs1 0b010#3 rd 0b0000011#7
  | .sw rs2 rs1 imm =>
    imm.extractLsb' 5 7 ++ rs2 ++ rs1 ++ 0b010#3 ++ imm.extractLsb' 0 5 ++ 0b0100011#7
  | .bne rs1 rs2 offset =>
    offset.extractLsb' 12 1 ++ offset.extractLsb' 5 6 ++ rs2 ++ rs1 ++ 0b001#3 ++
      offset.extractLsb' 1 4 ++ offset.extractLsb' 11 1 ++ 0b1100011#7

/-- The word of an instruction under the default DotEncoding, as spec/opcode_table.json prints it. -/
def encode (i : Instr) : Word32 := encodeWith .default i

/-- No row of R72 and R76 has the slot: `funct3` 111 belongs to the configuration instructions, and the other rows
are told apart by `funct6` and `funct3` alone (R80). -/
def DotSlot.isFree (s : DotSlot) : Bool := s.funct3 != 0b111#3 && (decodeOpV (opV s.funct6 0 0 0 s.funct3 0)).isNone

/-- A DotEncoding whose rows overlap no other row and one another (R80). -/
def DotEncoding.disjoint (d : DotEncoding) : Bool :=
  d.vdotu.isFree && d.vdot.isFree && d.vfdot.isFree && d.vdotu != d.vdot && d.vdotu != d.vfdot && d.vdot != d.vfdot

end Sys2Proof
end

