-- ==== Sys2Proof/Machine/State.lean ====
section
/-! DEFINITION. The state of the machine as plain data, the reasons a step can stop, and the state after
reset. INVENTORY.md lists every field with the rule that names it. -/

namespace Sys2Proof.Machine

/-- The contents of memory: the bytes that the platform has loaded or an instruction has stored, at strictly rising
addresses. An address that is not listed holds no value of the model's (log 6). The program text is a memory of its own
(`Platform.text`). -/
abbrev Memory := List Host.Cell

/-- The architectural state of the hart (10_state.md), for the widths of the configuration `c`. -/
structure Hart (c : Config) where
  /-- R22: the address of the instruction being executed. -/
  pc : BitVec c.XLEN
  /-- R20: the integer registers; `x[0]` is read and written through `readX` and `writeX` only. -/
  x : Vector (BitVec c.XLEN) 32
  /-- R25: the floating-point registers. -/
  f : Vector (BitVec c.FLEN) 32
  /-- R23: the vector registers. -/
  v : Vector (BitVec c.VLEN) 32
  /-- R26: the vector length, in elements. -/
  vl : BitVec c.XLEN
  /-- R28 to R32. -/
  vtype : BitVec c.XLEN
  /-- R27: the index of the first element an instruction executes. -/
  vstart : BitVec c.XLEN
  /-- R35: the dynamic rounding mode. -/
  frm : BitVec 3
  /-- R35: the accrued exception flags NV, DZ, OF, UF, NX, bit 4 down to bit 0. -/
  fflags : BitVec 5
  /-- R36: the fixed-point rounding mode. -/
  vxrm : BitVec 2
  /-- R36: the fixed-point saturation flag. -/
  vxsat : BitVec 1
  /-- R39, R52: the memory outside the program text. -/
  mem : Memory
  /-- The model's own: the addresses to which the run has stored, strictly rising (R277; log 4). -/
  stored : List Nat
  /-- The model's own: how many vector instructions have drawn agnostic choices (log 8). -/
  freeCount : Nat
deriving DecidableEq, Repr

/-- The state of the machine: the hart, and beside it the parameters of R8 that the implementation (`cfg`)
and the platform (`plat`) fix, which no step changes. -/
structure State where
  cfg : Config
  plat : Platform
  hart : Hart cfg
deriving DecidableEq, Repr

/-- The kind of access an exception reports (R241). -/
inductive Access where
  | fetch
  | load
  | store
deriving DecidableEq, Repr

/-- The synchronous exceptions of the model, each with the value it records (R241). -/
inductive Exception where
  /-- Code 2; records the instruction word. -/
  | illegalInstruction (word : Word32)
  /-- Codes 0, 4, 6; records the target of a taken branch or the address of the access. -/
  | addressMisaligned (access : Access) (addr : Nat)
  /-- Codes 1, 5, 7; records the address. -/
  | accessFault (access : Access) (addr : Nat)
deriving DecidableEq, Repr, Inhabited

/-- Why an encoding is reserved under EDIV > 1 (R244). -/
inductive ReservedReason where
  /-- R156 to R159. -/
  | carryUnderEDIV
  /-- R176. -/
  | singleWidthSumUnderEDIV
deriving DecidableEq, Repr

/-- The terminal state `Fault` of R243, which carries the `pc` of the instruction that raised it; the
state before that instruction is the state the step was given. -/
inductive Fault where
  /-- R243: an exception was raised. Raised by the fetch, by any vector instruction (vill, Base.legal), and
  by `lw`, `sw`, `bne` and the vector loads and stores. Safe: real hardware goes on at a handler, the model
  stops (log 1). -/
  | trap (e : Exception) (pc : Nat)
  /-- R244: an encoding the source reserves was executed with EDIV > 1. Raised by `vadc`, `vmadc`, `vsbc`,
  `vmsbc` and `vredsum`. Safe: nothing is claimed of what hardware does with it. -/
  | reserved (reason : ReservedReason) (word : Word32) (pc : Nat)
deriving DecidableEq, Repr

/-- The terminal state `Refused` of R245: the spec gives the instruction no meaning in the present
configuration. Every reason is safe: nothing is claimed about the run. Each carries the `pc`. -/
inductive Refusal where
  /-- An instruction of the opcode table without a meaning; raised by no arm of `exec` in this model. Safe. -/
  | notModelled (mnemonic : String)
  /-- R153: a base instruction the source does not classify, with EDIV > 1. Raised by `vadd.vx`, `vadd.vi`,
  `vsll.vv`, `vsll.vi` and `BaseOp.regular` outside RegularArith and by `BaseOp.unclassified`. Safe. -/
  | unclassifiedUnderEDIV (pc : Nat)
  /-- R153: a member of RegularArith with no base operation at width SE. Raised by `vadd.vx`, `vadd.vi`,
  `vsll.vv`, `vsll.vi` and `BaseOp.regular`, by the last with EDIV = 1 too (log 32). Safe. -/
  | noOperationAtWidth (pc : Nat)
  /-- R193: a reduction with EDIV > 1 and a `vstart` that is not 0. Raised by the reductions. Safe. -/
  | vstartAtReduction (pc : Nat)
  /-- R174, R231: the sub-element or the result has no supported floating-point format. Raised by the
  floating-point reductions, `vfdot.vv` and the floating-point scalar moves. Safe. -/
  | noFpFormat (pc : Nat)
  /-- R233: `vfdot.vv` with EDIV = 1. Safe. -/
  | fpDotUndivided (pc : Nat)
  /-- R106: `vsetvli` or `vsetvl` with `rd` and `rs1` both `x0`. Safe. -/
  | vsetvlBothX0 (pc : Nat)
  /-- R84: a word that neither the opcode table nor the Base decoder knows, a CSR that the spec does not describe, or a
  word that is no arithmetic form of R71. Raised by the step. Safe. -/
  | notInScope (pc : Nat)
  /-- R61, R292: a store that meets the program text. Raised by `sw`, the vector stores and the vector AMOs. Safe. -/
  | storeToProgramText (pc : Nat)
  /-- R61, R277: a fetch outside the program text of a byte that has been stored (DESIGN CHOICE, log 4).
  Raised by the step. Safe. -/
  | fetchOfStoredByte (pc : Nat)
deriving DecidableEq, Repr

/-- The hart after reset (R41, R270): `pc` is RESET_PC and memory lists nothing; every value the spec
leaves unspecified is zero (DESIGN CHOICE, log 3). -/
def Hart.reset (c : Config) (p : Platform) : Hart c where
  pc := BitVec.ofNat c.XLEN p.resetPc
  x := Vector.replicate 32 0
  f := Vector.replicate 32 0
  v := Vector.replicate 32 0
  vl := 0
  vtype := 0
  vstart := 0
  frm := 0
  fflags := 0
  vxrm := 0
  vxsat := 0
  mem := []
  stored := []
  freeCount := 0

/-- The machine right after reset, in the default configuration and platform. -/
def State.reset : State where
  cfg := Config.default
  plat := Platform.default
  hart := Hart.reset Config.default Platform.default

/-- The outcome of an instruction on the hart; the parameters stay as they are. -/
abbrev HartOutcome (c : Config) := Host.Outcome (Hart c) Fault Refusal

/-- What a base instruction of the families of 42 to 44 leaves behind where its effect is not the one the spec describes
(R13): the vector registers, and what it ORs into `fflags` and `vxsat`. None of them accesses memory (R51). -/
structure ArithEffect (c : Config) where
  v : Vector (BitVec c.VLEN) 32
  fflags : BitVec 5
  vxsat : BitVec 1
deriving DecidableEq, Repr

/-- What any other base instruction leaves behind (R13): also the `x` and `f` registers, and the bytes it stores, in
order. Only `vsetvli` and `vsetvl` write `vl` and `vtype` (R33). -/
structure BaseEffect (c : Config) extends ArithEffect c where
  x : Vector (BitVec c.XLEN) 32
  f : Vector (BitVec c.FLEN) 32
  stores : List (BitVec c.XLEN × BitVec (8 * 1))
deriving DecidableEq, Repr

end Sys2Proof.Machine

namespace Sys2Proof

/-- Base.exec of R13 for a base instruction of the families of 42 to 44, where the spec does not describe it:
IllegalInstruction (`none`; they raise no other exception, R240), or an effect, as a function of the word and the state
(log 35). -/
opaque Config.baseArith {c : Config} (word : Word32) (h : Machine.Hart c) : Option (Machine.ArithEffect c)

/-- Base.exec of R13 for any other base instruction, where the spec does not describe it: an exception, or an effect, as a
function of the platform, the word and the state (log 35). -/
opaque Config.baseExec {c : Config} (p : Platform) (word : Word32) (h : Machine.Hart c) :
    Except Machine.Exception (Machine.BaseEffect c)

end Sys2Proof
end

