-- ==== Sys2Proof/Machine/Ops.lean ====
section
/-! DEFINITION. The named operations over memory, registers and bits, and the one operation that takes an
exception. There is no return from an exception in this machine (R251). -/

namespace Sys2Proof.Machine

/-! ### Bits (R10, R15) -/

/-- `e` with its bits from `off` up replaced by those of `s`. -/
def insertBits {n w : Nat} (e : BitVec n) (off : Nat) (s : BitVec w) : BitVec n :=
  (e &&& ~~~((BitVec.allOnes w).setWidth n <<< off)) ||| (s.setWidth n <<< off)

/-- `e` with its pieces `0` to `count - 1` of `w` bits each replaced by `f 0` to `f (count - 1)`. -/
def pack {n w : Nat} (e : BitVec n) (count : Nat) (f : Nat → BitVec w) : BitVec n :=
  (List.range count).foldl (fun d j => insertBits d (j * w) (f j)) e

/-! ### Memory (R52) -/

/-- The byte listed at an address, if there is one. -/
def Memory.read : Memory → Nat → Option Byte
  | [], _ => none
  | (k, b) :: m, a => if a = k then some b else if a < k then none else Memory.read m a

/-- Memory with the byte at address `a` set to `b`, its addresses still strictly rising. -/
def Memory.write : Memory → Nat → Byte → Memory
  | [], a, b => [(a, b)]
  | (k, b') :: m, a, b =>
    if a = k then (a, b) :: m
    else if a < k then (a, b) :: (k, b') :: m
    else (k, b') :: Memory.write m a b

/-- The canonical form: addresses strictly rising. (An unlisted address reads as no value, so no entry can
equal it.) -/
def Memory.wf : Memory → Bool
  | [] => true
  | [_] => true
  | (a, _) :: (k, b) :: m => decide (a < k) && Memory.wf ((k, b) :: m)

/-- Whether an address lies in one of the regions. -/
def inRegions (rs : List Region) (a : Nat) : Bool :=
  rs.any fun r => decide (r.base ≤ a) && decide (a < r.base + r.size)

variable {c : Config}

/-- The address of byte `k` of an access at `addr`; address arithmetic is modulo 2^XLEN (R52). -/
def byteAddr (addr : BitVec c.XLEN) (k : Nat) : Nat := (addr + BitVec.ofNat c.XLEN k).toNat

/-- The byte of memory at an address, in the one space that fetch and data share (R52): the program text, which
nothing writes (R61), elsewhere what was stored last or loaded, or a free value (R41, R58; log 6). -/
def Hart.byteAt (h : Hart c) (p : Platform) (a : Nat) : Byte :=
  match Memory.read p.text a with
  | some b => b
  | none => (h.mem.read a).getD (Config.initialByte a)

/-- `MemRead(addr, n)` of R52, little-endian. -/
def Hart.memRead (h : Hart c) (p : Platform) (addr : BitVec c.XLEN) (n : Nat) : BitVec (8 * n) :=
  pack 0 n fun k => h.byteAt p (byteAddr addr k)

/-- `MemWrite(addr, n, v)` of R52 on the memory alone. -/
def memStore (m : Memory) (addr : BitVec c.XLEN) (n : Nat) (v : BitVec (8 * n)) : Memory :=
  (List.range n).foldl (fun m k => m.write (byteAddr addr k) (v.extractLsb' (8 * k) 8)) m

/-- Bytes stored one after the other. -/
def storeBytes (m : Memory) (stores : List (BitVec c.XLEN × BitVec (8 * 1))) : Memory :=
  stores.foldl (fun m (ab : BitVec c.XLEN × BitVec (8 * 1)) => memStore m ab.1 1 ab.2) m

/-- An address put into a strictly rising list, which it is in once. -/
def insertAddr : List Nat → Nat → List Nat
  | [], a => [a]
  | k :: l, a => if a = k then k :: l else if a < k then a :: k :: l else k :: insertAddr l a

/-- The `n` bytes at each of the addresses have been stored to. -/
def Hart.markStored (h : Hart c) (addrs : List (BitVec c.XLEN)) (n : Nat) : Hart c :=
  { h with stored := addrs.foldl (fun l a => (List.range n).foldl (fun l k => insertAddr l (byteAddr a k)) l) h.stored }

/-- Whether all bytes of an access lie in the platform's memory (R54). -/
def inMemory (p : Platform) (addr : BitVec c.XLEN) (n : Nat) : Bool :=
  (List.range n).all fun k => inRegions p.memory (byteAddr addr k)

/-- Whether some byte of an access lies in the program text (R61). -/
def meetsText (p : Platform) (addr : BitVec c.XLEN) (n : Nat) : Bool :=
  (List.range n).any fun k => (Memory.read p.text (byteAddr addr k)).isSome

/-! ### Registers -/

/-- `x[r]`; `x[0]` reads as zero (R20). -/
def Hart.readX (h : Hart c) (r : RegNo) : BitVec c.XLEN :=
  if r = 0 then 0 else h.x[r.toNat]

/-- `x[r] <- v`; a write to `x[0]` is discarded (R20). -/
def Hart.writeX (h : Hart c) (r : RegNo) (v : BitVec c.XLEN) : Hart c :=
  if r = 0 then h else { h with x := h.x.set r.toNat v }

/-- `f[r]` (R25). -/
def Hart.readF (h : Hart c) (r : RegNo) : BitVec c.FLEN := h.f[r.toNat]

/-- `f[r] <- v` (R25). -/
def Hart.writeF (h : Hart c) (r : RegNo) (v : BitVec c.FLEN) : Hart c :=
  { h with f := h.f.set r.toNat v }

/-- Vector register number `n` of a register file; there are 32 (R23), so a higher number reads as zero. -/
def vreg (v : Vector (BitVec c.VLEN) 32) (n : Nat) : BitVec c.VLEN := (v[n]?).getD 0

def Hart.setV (h : Hart c) (v : Vector (BitVec c.VLEN) 32) : Hart c := { h with v := v }
def Hart.setVl (h : Hart c) (n : BitVec c.XLEN) : Hart c := { h with vl := n }
def Hart.setVtype (h : Hart c) (t : BitVec c.XLEN) : Hart c := { h with vtype := t }
def Hart.setMem (h : Hart c) (m : Memory) : Hart c := { h with mem := m }
/-- The hart as an instruction sees it that does not access memory. -/
def Hart.withoutMem (h : Hart c) : Hart c := { h with mem := [], stored := [] }

def Hart.setPc (h : Hart c) (a : BitVec c.XLEN) : Hart c := { h with pc := a }

/-- `pc <- pc + 4`, modulo 2^XLEN (R22). -/
def Hart.advance (h : Hart c) : Hart c := h.setPc (h.pc + 4)

/-- `fflags <- fflags | flags`. -/
def Hart.accrue (h : Hart c) (flags : BitVec 5) : Hart c := { h with fflags := h.fflags ||| flags }

/-- `vxsat <- vxsat | s` (R36, R151). -/
def Hart.saturate (h : Hart c) (s : BitVec 1) : Hart c := { h with vxsat := h.vxsat ||| s }

/-- What every completing vector instruction does last: `vstart <- 0` (R27), `pc <- pc + 4` (R22), and the
model's count of agnostic choices moves on (log 8). -/
def Hart.finish (h : Hart c) : Hart c :=
  { h with vstart := 0, pc := h.pc + 4, freeCount := h.freeCount + 1 }

/-! ### Stopping -/

/-- The cause code of an exception (R241). -/
def Exception.code : Exception → Nat
  | .illegalInstruction _ => 2
  | .addressMisaligned .fetch _ => 0
  | .addressMisaligned .load _ => 4
  | .addressMisaligned .store _ => 6
  | .accessFault .fetch _ => 1
  | .accessFault .load _ => 5
  | .accessFault .store _ => 7

/-- The value an exception records (R241). -/
def Exception.info : Exception → Nat
  | .illegalInstruction w => w.toNat
  | .addressMisaligned _ a => a
  | .accessFault _ a => a

/-- Taking an exception, `raise` of R243: the instruction makes none of its writes and the run ends in
`Fault(code, info, pc)`. No state is saved and no handler is entered (R249). -/
def Hart.raise (h : Hart c) (e : Exception) : HartOutcome c := .fault (.trap e h.pc.toNat)

/-- `reserved(reason)` of R244. -/
def Hart.reservedEncoding (h : Hart c) (reason : ReservedReason) (word : Word32) : HartOutcome c :=
  .fault (.reserved reason word h.pc.toNat)

/-- `refuse(reason)` of R245. -/
def Hart.refuse (h : Hart c) (reason : Nat → Refusal) : HartOutcome c := .refused (reason h.pc.toNat)

/-- An outcome of the hart with `vtype` set to `t` where the instruction goes on. -/
def withVtype (t : BitVec c.XLEN) (r : HartOutcome c) : HartOutcome c :=
  match r with
  | .next h => .next (h.setVtype t)
  | .fault f => .fault f
  | .refused r => .refused r

/-- The cause code of a fault: a reserved encoding is reported as an illegal instruction (R244). -/
def faultCode : Fault → Nat
  | .trap e _ => e.code
  | .reserved _ _ _ => 2

/-- An outcome of the hart as an outcome of the machine: the parameters stay as they are. -/
def State.onHart (s : State) (r : HartOutcome s.cfg) : Host.Outcome State Fault Refusal :=
  match r with
  | .next h => .next ⟨s.cfg, s.plat, h⟩
  | .fault r => .fault r
  | .refused r => .refused r

end Sys2Proof.Machine
end

