-- ==== Sys2Proof/Machine/Operands.lean ====
section
/-! DEFINITION. What a vector instruction reads and writes: the fields of `vtype`, the widths derived from
EDIV, elements, sub-elements, masks, the policy for masked-off and tail elements, the static checks of
Base, and the loop over a destination group. -/

namespace Sys2Proof.Machine

variable {c : Config}

/-! ### `vtype` (R28 to R32) -/

/-- LMUL, the register grouping factor (R31). -/
inductive Lmul where
  | m1
  | m2
  | m4
  | m8
  | mf2
  | mf4
  | mf8
deriving DecidableEq, Repr

/-- LMUL as a fraction: its numerator, which is also how many registers a group has. -/
def Lmul.num : Lmul → Nat
  | .m1 => 1
  | .m2 => 2
  | .m4 => 4
  | .m8 => 8
  | .mf2 | .mf4 | .mf8 => 1

/-- LMUL as a fraction: its denominator. -/
def Lmul.den : Lmul → Nat
  | .m1 | .m2 | .m4 | .m8 => 1
  | .mf2 => 2
  | .mf4 => 4
  | .mf8 => 8

/-- `vlmul[2:0]`, with `vlmul[2]` zero in layout L08 (R30). -/
def vlmulField {n : Nat} (l : VtypeLayout) (t : BitVec n) : BitVec 3 :=
  match l with
  | .l08 => 0#1 ++ t.extractLsb' 0 2
  | .l09 => t.extractLsb' 5 1 ++ t.extractLsb' 0 2
  | .l10 => t.extractLsb' 0 3

/-- `vsew[2:0]` (R30). -/
def vsewField {n : Nat} (l : VtypeLayout) (t : BitVec n) : BitVec 3 :=
  match l with
  | .l08 | .l09 => t.extractLsb' 2 3
  | .l10 => t.extractLsb' 3 3

/-- `vediv[1:0]` (R30). -/
def vedivField {n : Nat} (l : VtypeLayout) (t : BitVec n) : BitVec 2 :=
  match l with
  | .l08 => t.extractLsb' 5 2
  | .l09 | .l10 => t.extractLsb' 8 2

/-- `vta`, which layout L08 does not have (R30). -/
def vtaField {n : Nat} (l : VtypeLayout) (t : BitVec n) : Bool :=
  match l with
  | .l08 => false
  | .l09 | .l10 => t.getLsbD 6

/-- `vma`, which layout L08 does not have (R30). -/
def vmaField {n : Nat} (l : VtypeLayout) (t : BitVec n) : Bool :=
  match l with
  | .l08 => false
  | .l09 | .l10 => t.getLsbD 7

/-- Whether the bits between the last listed field and `vill`, reserved by R30, are zero. -/
def reservedZero {n : Nat} (l : VtypeLayout) (t : BitVec n) : Bool :=
  match l with
  | .l08 => t.extractLsb' 7 (n - 8) == 0
  | .l09 | .l10 => t.extractLsb' 10 (n - 11) == 0

/-- LMUL as `vlmul` selects it; 100 is reserved (R31). -/
def decodeLmul (vlmul : BitVec 3) : Option Lmul :=
  if vlmul = 0b000#3 then some .m1
  else if vlmul = 0b001#3 then some .m2
  else if vlmul = 0b010#3 then some .m4
  else if vlmul = 0b011#3 then some .m8
  else if vlmul = 0b111#3 then some .mf2
  else if vlmul = 0b110#3 then some .mf4
  else if vlmul = 0b101#3 then some .mf8
  else none

/-- SEW = 8 * 2^vsew (R31). -/
def decodeSew (vsew : BitVec 3) : Nat := 8 * 2 ^ vsew.toNat

/-- EDIV = 2^vediv (R28, R100). -/
def decodeEdiv (vediv : BitVec 2) : Nat := 2 ^ vediv.toNat

/-- A supported setting of `vtype`, in the terms the rules use: SEW, LMUL, EDIV and the policy bits. -/
structure VConf where
  sew : Nat
  lmul : Lmul
  ediv : Nat
  vta : Bool
  vma : Bool
deriving DecidableEq, Repr

/-- SE = SEW / EDIV, the width of a sub-element (R15, R100). -/
def VConf.se (vc : VConf) : Nat := vc.sew / vc.ediv

/-- VLMAX = LMUL * VLEN / SEW, whatever EDIV is (R13, R108). -/
def VConf.vlmax (c : Config) (vc : VConf) : Nat := vc.lmul.num * c.VLEN / (vc.lmul.den * vc.sew)

/-- The limits of R106's `supported(t)`: SEW at most ELEN, "the base's LMUL/SEW limits" (PRESUMED, log 11: when
LMUL is a fraction SEW is at most LMUL * ELEN, and an element fits one register, so SEW is at most VLEN or
LMUL * VLEN), and SEW / EDIV at least SELEN (R104). -/
def VConf.withinLimits (c : Config) (vc : VConf) : Bool :=
  decide (vc.sew * vc.lmul.den ≤ min c.ELEN c.VLEN) && decide (c.SELEN ≤ vc.se)

/-- `supported(t)` of R106 with what the value `t` then means; `none` when `t` is not supported, a `vill`
of 1 included. -/
def vconf (c : Config) (t : BitVec c.XLEN) : Option VConf :=
  if t.msb || !reservedZero c.layout t then none
  else
    match decodeLmul (vlmulField c.layout t) with
    | none => none
    | some lmul =>
      let vc : VConf :=
        { sew := decodeSew (vsewField c.layout t), lmul := lmul, ediv := decodeEdiv (vedivField c.layout t),
          vta := vtaField c.layout t, vma := vmaField c.layout t }
      if vc.withinLimits c then some vc else none

/-- `vtype` with `vediv` set to 0 (R120). -/
def clearEdiv {n : Nat} (l : VtypeLayout) (t : BitVec n) : BitVec n :=
  match l with
  | .l08 => insertBits t 5 0#2
  | .l09 | .l10 => insertBits t 8 0#2

/-- `vtype` with `vill` set and all other bits zero (R32). -/
def villOnly (n : Nat) : BitVec n := BitVec.intMin n

/-! ### The width functions of R102 -/

/-- Integer non-sum reductions. -/
def wNonsum (sew ediv : Nat) : Nat := max 8 (sew / ediv)

/-- Integer accumulator, sum. -/
def wSum (sew ediv : Nat) : Nat := max 8 (min sew (2 * (sew / ediv)))

/-- Integer accumulator, dot. -/
def wDot (sew ediv : Nat) : Nat := max 8 (min sew (4 * (sew / ediv)))

/-- FP sum/dot accumulator; `none` is the table's "-". -/
def aFp (sew ediv flen : Nat) : Option Nat :=
  if 16 ≤ sew / ediv then some (min (2 * (sew / ediv)) flen) else none

/-! ### Width changes (R11) -/

/-- `zext_n`, or `sext_n` when `signed`. -/
def extendTo {w : Nat} (signed : Bool) (n : Nat) (a : BitVec w) : BitVec n :=
  if signed then a.signExtend n else a.setWidth n

/-- `nanbox_n`: ones above the value (R11). -/
def nanbox {w : Nat} (n : Nat) (a : BitVec w) : BitVec n := insertBits (BitVec.allOnes n) 0 a

/-! ### Elements and sub-elements (R13, R15) -/

/-- Place `k` of `w` bits in the registers from `r` up: bits `k * w` to `k * w + w - 1` of their concatenation, in
register `r + k / (VLEN / w)` (R13). -/
def slotAt (v : Vector (BitVec c.VLEN) 32) (r w k : Nat) : BitVec w :=
  (vreg v (r + k / (c.VLEN / w))).extractLsb' (k % (c.VLEN / w) * w) w

/-- The register file with place `k` replaced. -/
def setSlot (v : Vector (BitVec c.VLEN) 32) (r w k : Nat) (a : BitVec w) : Vector (BitVec c.VLEN) 32 :=
  let q := r + k / (c.VLEN / w)
  v.setIfInBounds q (insertBits (vreg v q) (k % (c.VLEN / w) * w) a)

/-- The places `place 0` to `place (count - 1)` replaced by `f 0` to `f (count - 1)`. -/
def setSlots (v : Vector (BitVec c.VLEN) 32) (r w count : Nat) (place : Nat → Nat) (f : Nat → BitVec w) :
    Vector (BitVec c.VLEN) 32 :=
  (List.range count).foldl (fun v i => setSlot v r w (place i) (f i)) v

/-- The place of element `i` of `w` bits in a group of LMUL registers, `elem` of Base: flat as R13 says, or wherever a
base with striping puts it (DESIGN CHOICE, log 30). -/
def elemPlace (c : Config) (lmul : Lmul) (w i : Nat) : Nat :=
  match c.elements with
  | .flat => i
  | .base =>
    let count := lmul.num * c.VLEN / (lmul.den * w)
    if h : i < count then (Config.elemOrder lmul.num lmul.den w count ⟨i, h⟩).val else i

/-- `elem(r, w, i)` of R13 for a group of LMUL registers at `r`. -/
def Hart.elemOf (h : Hart c) (lmul : Lmul) (r : RegNo) (w i : Nat) : BitVec w :=
  slotAt h.v r.toNat w (elemPlace c lmul w i)

/-- `elem(r, SEW, i)` of R13 under the setting `vc`. -/
def Hart.elem (h : Hart c) (vc : VConf) (r : RegNo) (i : Nat) : BitVec vc.sew := h.elemOf vc.lmul r vc.sew i

/-- Element 0, of `w` bits, of the one register `r`: the scalar of a reduction (R192) and of a scalar move (R135, R136),
whatever LMUL is (PRESUMED, log 18). -/
def Hart.scalar (h : Hart c) (r : RegNo) (w : Nat) : BitVec w := h.elemOf .m1 r w 0

/-- Field `i`, of `w` bits, of a mask register; a mask is never striped (R38; log 30). -/
def Hart.field (h : Hart c) (r : RegNo) (w i : Nat) : BitVec w := slotAt h.v r.toNat w i

/-- The elements of the group at `r` replaced by `f 0` to `f (VLMAX - 1)`. -/
def Hart.setElems (h : Hart c) (vc : VConf) (r : RegNo) (f : Nat → BitVec vc.sew) : Hart c :=
  h.setV (setSlots h.v r.toNat vc.sew (vc.vlmax c) (elemPlace c vc.lmul vc.sew) f)

/-- `sub(e, j)`: sub-element `j` of an element, of `se` bits (R15). -/
def sub {w : Nat} (se : Nat) (e : BitVec w) (j : Nat) : BitVec se := e.extractLsb' (j * se) se

/-- An element whose sub-elements `0` to `ediv - 1` are `f 0` to `f (ediv - 1)` (R15, `setsub` for each). -/
def ofSubs {w se : Nat} (e : BitVec w) (ediv : Nat) (f : Nat → BitVec se) : BitVec w := pack e ediv f

/-! ### Masks (R14, R38) -/

/-- The width of one mask bit's field: MLEN = SEW / LMUL before v0.9, one bit from v0.9 on. -/
def maskStride (c : Config) (vc : VConf) : Nat :=
  match c.maskFormat with
  | .perMlen => vc.sew * vc.lmul.den / vc.lmul.num
  | .perBit => 1

/-- The mask bit of element `i` in the mask register `r`. -/
def Hart.maskBit (h : Hart c) (vc : VConf) (r : RegNo) (i : Nat) : Bool :=
  (vreg h.v r.toNat).getLsbD (i * maskStride c vc)

/-- `vm = 1 or mask(i) = 1` (R14). -/
def Hart.enabled (h : Hart c) (vc : VConf) (vm : BitVec 1) (i : Nat) : Bool :=
  vm == 1 || h.maskBit vc 0 i

def Hart.prestart (h : Hart c) (i : Nat) : Bool := decide (i < h.vstart.toNat)

def Hart.body (h : Hart c) (i : Nat) : Bool :=
  decide (h.vstart.toNat ≤ i) && decide (i < h.vl.toNat)

def Hart.active (h : Hart c) (vc : VConf) (vm : BitVec 1) (i : Nat) : Bool :=
  h.body i && h.enabled vc vm i

def Hart.inactive (h : Hart c) (vc : VConf) (vm : BitVec 1) (i : Nat) : Bool :=
  h.body i && !h.enabled vc vm i

/-! ### Masked-off and tail elements (R13) -/

/-- What the policy bit `agnostic` (vma or vta) makes of the old value of element `i` of the group at `r`: 0 leaves it,
1 leaves it or overwrites it with ones. -/
def Hart.offElem {w : Nat} (h : Hart c) (agnostic : Bool) (r : RegNo) (old : BitVec w) (i : Nat) : BitVec w :=
  if !agnostic then old
  else
    match c.agnostic with
    | .undisturbed => old
    | .allOnes => BitVec.allOnes w
    | .free => if Config.agnosticKeeps h.freeCount r.toNat i then old else BitVec.allOnes w

/-- The new value of element `i` of the destination group at `r`, `a` being what the instruction computes for an active
element: the case split that R151, R211, R224 and R231 share. -/
def Hart.newElem {w : Nat} (h : Hart c) (vc : VConf) (vm : BitVec 1) (r : RegNo) (old a : BitVec w) (i : Nat) :
    BitVec w :=
  if h.prestart i then old
  else if h.active vc vm i then a
  else if h.inactive vc vm i then h.offElem vc.vma r old i
  else h.offElem vc.vta r old i

/-- The loop over the destination group: every element `0` to VLMAX - 1 gets its new value, `a i` being
what the instruction computes for it. All elements are read before any is written. -/
def Hart.writeGroup (h : Hart c) (vc : VConf) (vd : RegNo) (vm : BitVec 1) (a : Nat → BitVec vc.sew) : Hart c :=
  h.setElems vc vd fun i => h.newElem vc vm vd (h.elem vc vd i) (a i) i

/-- A mask destination: the field of each element `0` to VLMAX - 1 becomes the bit `a i`, zero-extended to
the field, or keeps to the policy (log 17). -/
def Hart.writeMask (h : Hart c) (vc : VConf) (vd : RegNo) (vm : BitVec 1) (a : Nat → Bool) : Hart c :=
  let w := maskStride c vc
  h.setV (setSlots h.v vd.toNat w (vc.vlmax c) (fun i => i) fun i =>
    h.newElem vc vm vd (h.field vd w i) ((BitVec.ofBool (a i)).setWidth w) i)

/-- A scalar result in element 0 of the single register `vd`; the register's other elements are tail
elements (the base reductions of R192). -/
def Hart.writeScalar (h : Hart c) (vc : VConf) (vd : RegNo) (w : Nat) (a : BitVec w) : Hart c :=
  h.setV (setSlots h.v vd.toNat w (c.VLEN / w) (elemPlace c .m1 w) fun i =>
    if i = 0 then a else h.offElem vc.vta vd (h.elemOf .m1 vd w i) i)

/-- The active elements, in order (R14). -/
def Hart.activeList (h : Hart c) (vc : VConf) (vm : BitVec 1) : List Nat :=
  (List.range (vc.vlmax c)).filter (h.active vc vm)

/-! ### Base.legal (R13, R81): the checks the spec names (PRESUMED, log 16), and what the configuration accepts
or rejects beside them (log 31) -/

/-- The register number is aligned to LMUL. -/
def aligned (vc : VConf) (r : RegNo) : Bool := r.toNat % vc.lmul.num == 0

/-- A masked instruction does not write `v0`. -/
def maskedDestOk (vd : RegNo) (vm : BitVec 1) : Bool := vm == 1 || vd != 0

/-- The groups of LMUL registers at `r` and `q` have no register in common. -/
def disjointGroups (vc : VConf) (r q : RegNo) : Bool :=
  decide (r.toNat + vc.lmul.num ≤ q.toNat) || decide (q.toNat + vc.lmul.num ≤ r.toNat)

/-- Base.legal for two vector sources and a destination group. -/
def legalVV (vc : VConf) (vd vs2 vs1 : RegNo) (vm : BitVec 1) : Bool :=
  aligned vc vd && aligned vc vs2 && aligned vc vs1 && maskedDestOk vd vm

/-- Base.legal for one vector source and a destination group. -/
def legalV (vc : VConf) (vd vs2 : RegNo) (vm : BitVec 1) : Bool :=
  aligned vc vd && aligned vc vs2 && maskedDestOk vd vm

/-- Whether a point that Base decides is settled by the rows for the word under the `vtype` value `t`. -/
def baseMatches (rows : List BaseMatch) (word : Word32) (t : BitVec c.XLEN) : Bool :=
  rows.any fun r => word &&& r.mask == r.value && t.setWidth 64 &&& r.vtypeMask == r.vtypeValue

/-- Base.legal: the checks the spec names, where the configuration does not say otherwise (R13; log 31). -/
def baseLegal (c : Config) (word : Word32) (t : BitVec c.XLEN) (named : Bool) : Bool :=
  baseMatches c.baseAccepts word t || (named && !baseMatches c.baseRejects word t)

/-- The first two checks of R81 for the `vtype` value `t`, then the instruction: `t` must be supported (so `vill` is
0), and Base.legal must hold; otherwise IllegalInstruction is raised with the instruction's word. -/
def Hart.vectorAt (h : Hart c) (t : BitVec c.XLEN) (word : Word32) (legal : VConf → Bool)
    (body : VConf → HartOutcome c) : HartOutcome c :=
  match vconf c t with
  | none => h.raise (.illegalInstruction word)
  | some vc => if baseLegal c word t (legal vc) then body vc else h.raise (.illegalInstruction word)

/-! ### Base.exec (R13), where the spec does not describe it (log 35) -/

/-- Whether Base.exec with EDIV = 1 is the base's own, and not the one the spec describes. -/
def baseTakes (c : Config) (vc : VConf) (word : Word32) (t : BitVec c.XLEN) : Bool :=
  vc.ediv == 1 && baseMatches c.baseOther word t

/-- An instruction of the floating-point categories OPFVV and OPFVF (R71). -/
def isFloatWord (word : Word32) : Bool := fFunct3 word == 0b001#3 || fFunct3 word == 0b101#3

/-- Base.exec for a base instruction of the families of 42 to 44: it writes vector registers, `fflags` if it is a
floating-point instruction and `vxsat` if it is a fixed-point one, and no more (R35, R36). It neither sees nor writes
memory, and raises no exception but IllegalInstruction (R51, R240). -/
def Hart.baseVector (h : Hart c) (word : Word32) (fixedPoint : Bool) : HartOutcome c :=
  match Config.baseArith word h.withoutMem with
  | none => h.raise (.illegalInstruction word)
  | some e =>
    .next (((h.setV e.v).saturate (if fixedPoint then e.vxsat else 0)).accrue
      (if isFloatWord word then e.fflags else 0)).finish

/-- Base.exec for any other base vector instruction. A store of its must not meet the program text (R61). -/
def Hart.baseAny (h : Hart c) (p : Platform) (word : Word32) : HartOutcome c :=
  match Config.baseExec p word h with
  | .error e => h.raise e
  | .ok e =>
    if e.stores.any fun ab => meetsText p ab.1 1 then h.refuse .storeToProgramText
    else
      let g := { h with
        x := e.x
        f := e.f
        v := e.v
        fflags := h.fflags ||| e.fflags
        vxsat := h.vxsat ||| e.vxsat
        mem := storeBytes h.mem e.stores }
      .next (g.markStored (e.stores.map fun ab => ab.1) 1).finish

/-- A base vector instruction of the opcode table (R81): its own rule, unless EDIV = 1 and Base.exec is the base's own. -/
def Hart.vector (h : Hart c) (word : Word32) (legal : VConf → Bool) (body : VConf → HartOutcome c) : HartOutcome c :=
  h.vectorAt h.vtype word legal fun vc => if baseTakes c vc word h.vtype then h.baseVector word false else body vc

/-- An instruction that the source adds (R81): its own rule for every EDIV. -/
def Hart.vectorNew (h : Hart c) (word : Word32) (legal : VConf → Bool) (body : VConf → HartOutcome c) :
    HartOutcome c := h.vectorAt h.vtype word legal body

end Sys2Proof.Machine
end

