-- ==== Sys2Proof/Machine/Flags.lean ====
section
/-! DEFINITION. The flags. The floating-point instructions OR the flags of every element they compute into `fflags`
(R35, R174, R231). `vxsat` is written by the members of RegularArith that have no row in the opcode table only
(R36, R151). -/

namespace Sys2Proof.Machine

variable {c : Config}

/-- NV, the invalid-operation flag of `fflags`. R35 lists NV, DZ, OF, UF, NX and numbers no bit; that NV is bit 4 and
each of the others the bit below the one before it is the family's order (PRESUMED, log 22). -/
def flagNV : BitVec 5 := 0b10000#5

/-- OF, the overflow flag (R35), as bit 2 (PRESUMED, log 22). -/
def flagOF : BitVec 5 := 0b00100#5

/-- NX, the inexact flag (R35), as bit 0 (PRESUMED, log 22). -/
def flagNX : BitVec 5 := 0b00001#5

/-- The flags of the elements `0` to `count - 1` that `on` selects, OR-ed together. -/
def orFlags (count : Nat) (on : Nat → Bool) (flags : Nat → BitVec 5) : BitVec 5 :=
  (List.range count).foldl (fun acc i => if on i then acc ||| flags i else acc) 0

/-- The flags of all active elements (R174, R231). -/
def Hart.activeFlags (h : Hart c) (vc : VConf) (vm : BitVec 1) (flags : Nat → BitVec 5) : BitVec 5 :=
  orFlags (vc.vlmax c) (h.active vc vm) flags

end Sys2Proof.Machine
end

