-- ==== Sys2Proof/Machine/Arith.lean ====
section
/-! DEFINITION. Regular vector arithmetic under EDIV (42_arith_under_ediv.md, R150 to R155). With EDIV = 1
the one sub-element is the element and each instruction is the base instruction (R110). -/

namespace Sys2Proof.Machine

variable {c : Config}

/-- `op_vadd(w)` of R154. -/
def opVadd {w : Nat} (a b : BitVec w) : BitVec w := a + b

/-- `op_vsll(w)` of R155. -/
def opVsll {w : Nat} (a : BitVec w) (amount : Nat) : BitVec w := a <<< amount

/-- `scalar_vsll(x, w)` of R155: the low log2(w) bits of the amount; `w` is a power of two. -/
def scalarVsll (amount w : Nat) : Nat := amount % w

/-- The class rule R151: sub-element `j` of each active element `i` becomes `op i j`. -/
def Hart.regular (h : Hart c) (vc : VConf) (vd : RegNo) (vm : BitVec 1) (op : Nat → Nat → BitVec vc.se) :
    HartOutcome c :=
  .next (h.writeGroup vc vd vm fun i => ofSubs (h.elem vc vd i) vc.ediv (op i)).finish

/-- Sub-element `j` of element `i` of the group at `r`. -/
def Hart.subElem (h : Hart c) (vc : VConf) (r : RegNo) (i j : Nat) : BitVec vc.se :=
  sub vc.se (h.elem vc r i) j

/-- R153 for an instruction that belongs to RegularArith only if the implementation says so: with EDIV > 1
it is refused outside the class, and refused at SE < 8, where the base has no operation for it. -/
def Hart.ifRegular (h : Hart c) (vc : VConf) (member : RegularExtra) (run : HartOutcome c) : HartOutcome c :=
  if vc.ediv = 1 then run
  else if !c.regular.contains member then h.refuse .unclassifiedUnderEDIV
  else if vc.se < 8 then h.refuse .noOperationAtWidth
  else run

/-- `vadd.vv` (R154). -/
def execVaddVV (vd vs2 vs1 : RegNo) (vm : BitVec 1) (s : State) : Host.Outcome State Fault Refusal :=
  let h := s.hart
  s.onHart <| h.vector (encodeWith s.cfg.dot (.vaddVV vd vs2 vs1 vm)) (legalVV · vd vs2 vs1 vm) fun vc =>
    h.regular vc vd vm fun i j => opVadd (h.subElem vc vs2 i j) (h.subElem vc vs1 i j)

/-- `vadd.vx` (R151, R153): the scalar is `x[rs1]`, truncated or sign-extended to the width of the operation
(PRESUMED, log 9). -/
def execVaddVX (vd vs2 rs1 : RegNo) (vm : BitVec 1) (s : State) : Host.Outcome State Fault Refusal :=
  let h := s.hart
  s.onHart <| h.vector (encodeWith s.cfg.dot (.vaddVX vd vs2 rs1 vm)) (legalV · vd vs2 vm) fun vc =>
    h.ifRegular vc .vaddVX <|
      h.regular vc vd vm fun i j => opVadd (h.subElem vc vs2 i j) ((h.readX rs1).signExtend vc.se)

/-- `vadd.vi` (R151, R153): the immediate is sign-extended (R74). -/
def execVaddVI (vd vs2 : RegNo) (imm5 : BitVec 5) (vm : BitVec 1) (s : State) :
    Host.Outcome State Fault Refusal :=
  let h := s.hart
  s.onHart <| h.vector (encodeWith s.cfg.dot (.vaddVI vd vs2 imm5 vm)) (legalV · vd vs2 vm) fun vc =>
    h.ifRegular vc .vaddVI <|
      h.regular vc vd vm fun i j => opVadd (h.subElem vc vs2 i j) (imm5.signExtend vc.se)

/-- `vsll.vv` (R151, R153): each amount is a sub-element of `vs1`, of which the low bits count (R155). -/
def execVsllVV (vd vs2 vs1 : RegNo) (vm : BitVec 1) (s : State) : Host.Outcome State Fault Refusal :=
  let h := s.hart
  s.onHart <| h.vector (encodeWith s.cfg.dot (.vsllVV vd vs2 vs1 vm)) (legalVV · vd vs2 vs1 vm) fun vc =>
    h.ifRegular vc .vsllVV <|
      h.regular vc vd vm fun i j =>
        opVsll (h.subElem vc vs2 i j) (scalarVsll (h.subElem vc vs1 i j).toNat vc.se)

/-- `vsll.vx` (R155). -/
def execVsllVX (vd vs2 rs1 : RegNo) (vm : BitVec 1) (s : State) : Host.Outcome State Fault Refusal :=
  let h := s.hart
  s.onHart <| h.vector (encodeWith s.cfg.dot (.vsllVX vd vs2 rs1 vm)) (legalV · vd vs2 vm) fun vc =>
    h.regular vc vd vm fun i j => opVsll (h.subElem vc vs2 i j) (scalarVsll (h.readX rs1).toNat vc.se)

/-- `vsll.vi` (R151, R153): the immediate is an unsigned amount (R74). -/
def execVsllVI (vd vs2 : RegNo) (imm5 : BitVec 5) (vm : BitVec 1) (s : State) :
    Host.Outcome State Fault Refusal :=
  let h := s.hart
  s.onHart <| h.vector (encodeWith s.cfg.dot (.vsllVI vd vs2 imm5 vm)) (legalV · vd vs2 vm) fun vc =>
    h.ifRegular vc .vsllVI <|
      h.regular vc vd vm fun i j => opVsll (h.subElem vc vs2 i j) (scalarVsll imm5.toNat vc.se)

end Sys2Proof.Machine
end

