-- ==== Sys2Proof/Machine/Fp.lean ====
section
/-! DEFINITION. FpNumerics of R232. `dot` and `usum` are free but for exact_when_representable; `osum` is the left fold
of IEEE 754 addition rounded with `frm`; `min` and `max` choose as R188 says; the conversion to a wider format is
exact. Where none of these gives the result, an opaque constant of Config does (log 12 to 14). -/

namespace Sys2Proof.Machine

/-! ### Formats: IEEE 754 binary16, 32, 64 and 128 (R231, GK12; log 15) -/

/-- The width of the exponent field of a format. -/
def expBits (w : Nat) : Nat :=
  if w = 16 then 5 else if w = 32 then 8 else if w = 64 then 11 else 15

/-- The width of the fraction field of a format. -/
def fracBits (w : Nat) : Nat := w - 1 - expBits w

/-- The smallest positive number of a format is `2 ^ -(quantum w)`. -/
def quantum (w : Nat) : Nat := 2 ^ (expBits w - 1) - 2 + fracBits w

/-- The exponent field. -/
def fpExp {w : Nat} (b : BitVec w) : Nat := (b.extractLsb' (fracBits w) (expBits w)).toNat

/-- The fraction field. -/
def fpFrac {w : Nat} (b : BitVec w) : Nat := (b.extractLsb' 0 (fracBits w)).toNat

/-- A number that is neither infinite nor a NaN. -/
def fpFinite {w : Nat} (b : BitVec w) : Bool := fpExp b != 2 ^ expBits w - 1

def fpNaN {w : Nat} (b : BitVec w) : Bool := !fpFinite b && fpFrac b != 0

/-- A NaN whose leading fraction bit is 0. -/
def fpSignalling {w : Nat} (b : BitVec w) : Bool := fpNaN b && !b.getLsbD (fracBits w - 1)

/-- The magnitude of a finite number in units of `2 ^ -(quantum w)`. -/
def fpMagnitude {w : Nat} (b : BitVec w) : Nat :=
  if fpExp b = 0 then fpFrac b else (2 ^ fracBits w + fpFrac b) * 2 ^ (fpExp b - 1)

/-- The value of a finite number in units of `2 ^ -(quantum w)`. -/
def fpUnits {w : Nat} (b : BitVec w) : Int :=
  if b.msb then -(fpMagnitude b : Int) else (fpMagnitude b : Int)

/-- The exponent and fraction fields of an infinity. -/
def infFields (w : Nat) : Nat := (2 ^ expBits w - 1) * 2 ^ fracBits w

/-- A number of a format from its sign and its other fields. -/
def fpOf (w : Nat) (negative : Bool) (fields : Nat) : BitVec w :=
  BitVec.ofNat w ((if negative then 2 ^ (w - 1) else 0) + fields)

/-- The exponent and fraction fields of the number `k * 2 ^ -(quantum w)`, if the format has it. -/
def encodeMagnitude (w k : Nat) : Option Nat :=
  if k < 2 ^ (fracBits w + 1) then some k
  else
    let t := Nat.log2 k - fracBits w
    if k % 2 ^ t = 0 ∧ t + 1 < 2 ^ expBits w - 1 then some (t * 2 ^ fracBits w + k / 2 ^ t) else none

/-- The number `n * 2 ^ -(quantum w + shift)` in the format of `w` bits, if the format has it; `negZero`
is the sign of a zero. -/
def encodeUnits (w shift : Nat) (negZero : Bool) (n : Int) : Option (BitVec w) :=
  if n.natAbs % 2 ^ shift = 0 then
    (encodeMagnitude w (n.natAbs / 2 ^ shift)).map fun k =>
      fpOf w (if n = 0 then negZero else decide (n < 0)) k
  else none

/-- The sums of all sub-lists: every partial sum in every order. -/
def partialSums (terms : List Int) : List Int :=
  terms.foldl (fun sums t => sums ++ sums.map (· + t)) [0]

/-- exact_when_representable of R232: the sum of the terms, in units of `2 ^ -(quantum w + shift)`, if it
and every partial sum is a number of the format. -/
def exactSum (w shift : Nat) (negZero : Bool) (terms : List Int) : Option (BitVec w) :=
  if (partialSums terms).all fun s => (encodeUnits w shift false s).isSome then
    encodeUnits w shift negZero terms.sum
  else none

/-! ### FpNumerics (R232) -/

/-- FpNumerics.usum: no order is fixed. -/
def fpUsum (f : Nat) (frm : BitVec 3) (acc : BitVec f) (xs : List (BitVec f)) : BitVec f × BitVec 5 :=
  let raw := Config.rawUsum f frm acc xs
  if (acc :: xs).all fpFinite then
    match exactSum f 0 raw.1.msb ((acc :: xs).map fpUnits) with
    | some r => (r, 0)
    | none => raw
  else raw

/-- Whether rounding takes the magnitude `q + r / m` up to `q + 1`, for `0 < r < m`. The numbers of the rounding
modes in `frm` are those of the RISC-V family (PRESUMED, log 12): 0 to nearest, ties to even; 1 towards zero;
2 down; 3 up; 4 to nearest, ties away from zero. -/
def roundsUp (frm : BitVec 3) (negative : Bool) (q r m : Nat) : Bool :=
  if frm = 0 then decide (m < 2 * r) || (2 * r == m && q % 2 == 1)
  else if frm = 1 then false
  else if frm = 2 then negative
  else if frm = 3 then !negative
  else decide (m ≤ 2 * r)

/-- The exponent and fraction fields of `k * 2 ^ -(quantum w)` rounded to the format, with OF and NX (R35). A number
too large for the format becomes infinite or the largest finite number, as the rounding mode says. -/
def roundMagnitude (w : Nat) (frm : BitVec 3) (negative : Bool) (k : Nat) : Nat × BitVec 5 :=
  let t := Nat.log2 k - fracBits w
  let q := k / 2 ^ t
  let r := k % 2 ^ t
  let fields := t * 2 ^ fracBits w + q + (if r ≠ 0 ∧ roundsUp frm negative q r (2 ^ t) = true then 1 else 0)
  if infFields w ≤ fields then
    (if roundsUp frm negative 1 1 2 then infFields w else infFields w - 1, flagOF ||| flagNX)
  else (fields, if r = 0 then 0 else flagNX)

/-- A quiet NaN whose sign and payload are those of `raw`. -/
def quietNaN {w : Nat} (raw : BitVec w) : BitVec w :=
  raw ||| BitVec.ofNat w (infFields w + 2 ^ (fracBits w - 1))

/-- Whether a sum of two finite numbers that is exactly zero is -0: as the operands if their signs agree, otherwise
only when rounding down (IEEE 754); free where `frm` names no rounding mode. -/
def zeroSumNegative {f : Nat} (frm : BitVec 3) (a b raw : BitVec f) : Bool :=
  if a.msb = b.msb then a.msb else if 4 < frm.toNat then raw.msb else frm == 2

/-- One IEEE 754 addition rounded with `frm`: NaN operands and opposite infinities give a quiet NaN, an infinity
stays, and finite numbers are added exactly and rounded once (R232, GK16; log 12). -/
def fpAdd (f : Nat) (frm : BitVec 3) (a b : BitVec f) : BitVec f × BitVec 5 :=
  let raw := Config.rawAdd f frm a b
  if fpNaN a || fpNaN b then (quietNaN raw.1, if fpSignalling a || fpSignalling b then flagNV else 0)
  else if !fpFinite a && !fpFinite b && a.msb != b.msb then (quietNaN raw.1, flagNV)
  else if !fpFinite a then (a, 0)
  else if !fpFinite b then (b, 0)
  else
    let sum := fpUnits a + fpUnits b
    if sum = 0 then (fpOf f (zeroSumNegative frm a b raw.1) 0, 0)
    else
      let r := roundMagnitude f frm (decide (sum < 0)) sum.natAbs
      if r.2 ≠ 0 ∧ 4 < frm.toNat then raw else (fpOf f (decide (sum < 0)) r.1, r.2)

/-- FpNumerics.osum: `((acc + x0) + x1) + ...`, the flags of all the additions OR-ed. -/
def fpOsum (f : Nat) (frm : BitVec 3) (acc : BitVec f) (xs : List (BitVec f)) : BitVec f × BitVec 5 :=
  xs.foldl (fun r x => let s := fpAdd f frm r.1 x; (s.1, r.2 ||| s.2)) (acc, 0)

/-- FpNumerics.dot: neither the order nor the rounding of the products is fixed. -/
def fpDot (se a : Nat) (frm : BitVec 3) (acc : BitVec a) (as bs : List (BitVec se)) : BitVec a × BitVec 5 :=
  let raw := Config.rawDot se a frm acc as bs
  if fpFinite acc && as.all fpFinite && bs.all fpFinite then
    let scale := max (2 * quantum se) (quantum a)
    let products := List.zipWith (fun x y => fpUnits x * fpUnits y * 2 ^ (scale - 2 * quantum se)) as bs
    match exactSum a (scale - quantum a) raw.1.msb (fpUnits acc * 2 ^ (scale - quantum a) :: products) with
    | some r => (r, 0)
    | none => raw
  else raw

/-- The order of the numbers of a format, infinities included, with -0.0 below +0.0 (R188). -/
def fpKey {w : Nat} (b : BitVec w) : Int :=
  let magnitude := (b.extractLsb' 0 (w - 1)).toNat
  if b.msb then -(magnitude : Int) - 1 else (magnitude : Int)

/-- A minimum or maximum of two operands (R188, R189): `better` chooses between two numbers, a number is
preferred to a quiet NaN, a signalling NaN sets NV; `raw` is the result the spec does not state. -/
def fpPick {f : Nat} (better : Int → Int → Bool) (raw : BitVec f → BitVec f → BitVec f) (a b : BitVec f) :
    BitVec f × BitVec 5 :=
  if fpSignalling a || fpSignalling b then (raw a b, flagNV)
  else if fpNaN a && fpNaN b then (raw a b, 0)
  else if fpNaN a then (b, 0)
  else if fpNaN b then (a, 0)
  else (if better (fpKey a) (fpKey b) then a else b, 0)

/-- FpNumerics.min, folded over the scalar and the elements. -/
def fpMin (f : Nat) (acc : BitVec f) (xs : List (BitVec f)) : BitVec f × BitVec 5 :=
  xs.foldl (fun r x => let s := fpPick (fun a b => decide (a ≤ b)) (Config.rawMin f) r.1 x; (s.1, r.2 ||| s.2))
    (acc, 0)

/-- FpNumerics.max, folded over the scalar and the elements. -/
def fpMax (f : Nat) (acc : BitVec f) (xs : List (BitVec f)) : BitVec f × BitVec 5 :=
  xs.foldl (fun r x => let s := fpPick (fun a b => decide (b ≤ a)) (Config.rawMax f) r.1 x; (s.1, r.2 ||| s.2))
    (acc, 0)

/-- `widen_F` of R232: the exact conversion from `se` to `f` bits, the identity when the two are equal. -/
def fpWiden (se f : Nat) (x : BitVec se) : BitVec f :=
  if se = f then x.setWidth f
  else if fpFinite x then
    (encodeUnits f 0 x.msb (fpUnits x * 2 ^ (quantum f - quantum se))).getD 0
  else if fpNaN x then Config.widenNaN se f x
  else fpOf f x.msb (infFields f)

/-! ### Supported formats (R231) -/

/-- FpWidths: the widths of the floating-point formats the hart supports. -/
def fpWidths (c : Config) : List Nat :=
  let wide :=
    match c.float with
    | .absent => []
    | .flen32 => [32]
    | .flen64 => [32, 64]
    | .flen128 => [32, 64, 128]
  if c.half && !wide.isEmpty then 16 :: wide else wide

/-- The requirement of R174 and R231 on the width `se` of the inputs and `f` of the result. -/
def fpFormatOk (c : Config) (se f : Nat) : Bool :=
  (fpWidths c).contains se && decide (se ≤ c.FLEN) && (fpWidths c).contains f && decide (se ≤ f)

end Sys2Proof.Machine
end

