-- ==== Sys2Proof/Machine/Unaffected.lean ====
section
/-! DEFINITION. The base instructions that EDIV does not affect (41_unaffected.md), as the one-line descriptions of
R123 to R138 give them (PRESUMED, log 20). They have no row in the opcode table (R77); the step reaches them through
the rows of the platform's Base decoder (R84). Each runs with EDIV taken as 1 whatever `vtype` says (R120). -/

namespace Sys2Proof.Machine

variable {c : Config}

/-! ### Loads and stores: whole SEW-bit elements (R50, R123, R124) -/

/-- The registers and the segment size of a vector load or store word. -/
structure MemOperands where
  mode : AddrMode
  /-- `vd`, or `vs3` of a store. -/
  data : RegNo
  rs1 : RegNo
  /-- The stride register or the index group. -/
  rs2 : RegNo
  vm : BitVec 1
  /-- How many fields a segment has. -/
  nf : Nat
deriving DecidableEq, Repr

def memOperands (mode : AddrMode) (w : Word32) : MemOperands where
  mode := mode
  data := fRd w
  rs1 := fRs1 w
  rs2 := fRs2 w
  vm := fVm w
  nf := (fNf w).toNat + 1

/-- The address of field `k` of element `i`. The index of an indexed access has SEW bits and is zero-extended, or
truncated, to XLEN (PRESUMED, log 20: the spec says neither). -/
def Hart.elemAddr (h : Hart c) (vc : VConf) (o : MemOperands) (i k : Nat) : BitVec c.XLEN :=
  let size := vc.sew / 8
  let base := h.readX o.rs1
  match o.mode with
  | .unitStride | .faultOnlyFirst => base + BitVec.ofNat c.XLEN ((i * o.nf + k) * size)
  | .strided => base + BitVec.ofNat c.XLEN i * h.readX o.rs2 + BitVec.ofNat c.XLEN (k * size)
  | .indexed => base + (h.elem vc o.rs2 i).setWidth c.XLEN + BitVec.ofNat c.XLEN (k * size)

/-- The register number of field `k`'s group. -/
def fieldReg (vc : VConf) (o : MemOperands) (k : Nat) : RegNo := o.data + BitVec.ofNat 5 (k * vc.lmul.num)

/-- The accesses of the active elements in the order in which they are made: by rising element, and within an element by
rising field. So of two elements of a store that meet in memory the later one's bytes stay (DESIGN CHOICE, log 33: the
order is the base's, R50). -/
def Hart.accesses (h : Hart c) (vc : VConf) (o : MemOperands) : List (Nat × Nat) :=
  (h.activeList vc o.vm).flatMap fun i => (List.range o.nf).map fun k => (i, k)

/-- The exception an element access of `size` bytes raises, if any: element-size alignment (R55), then memory (R54). What
exceptions there are and what they record is the base's (R121, R241): that they are those of `lw` and `sw`, that they
record the address of the element's first byte whichever of its bytes is outside memory, and that an element which is
both misaligned and outside memory reports the first, is the model's choice (DESIGN CHOICE, log 33). -/
def accessProblem (p : Platform) (access : Access) (addr : BitVec c.XLEN) (size : Nat) : Option Exception :=
  if addr.toNat % size ≠ 0 then some (.addressMisaligned access addr.toNat)
  else if !inMemory p addr size then some (.accessFault access addr.toNat)
  else none

/-- The first access in order that raises an exception, with its element index. -/
def Hart.firstProblem (h : Hart c) (p : Platform) (access : Access) (vc : VConf) (o : MemOperands) :
    Option (Nat × Exception) :=
  (h.accesses vc o).findSome? fun ik =>
    (accessProblem p access (h.elemAddr vc o ik.1 ik.2) (vc.sew / 8)).map fun e => (ik.1, e)

/-- Base.legal of a load or store: the fields' groups are aligned, together no more than 8 registers, and exist. The spec
names the alignment only; the two limits on the number of fields are PRESUMED (log 16). -/
def legalMem (vc : VConf) (o : MemOperands) : Bool :=
  aligned vc o.data && decide (o.nf * vc.lmul.num ≤ 8) && decide (o.data.toNat + o.nf * vc.lmul.num ≤ 32) &&
    (o.mode != .indexed || aligned vc o.rs2)

/-- The loaded elements in their groups. Addresses, indices and the mask are those of `h`, for every field: the writes
take effect together (R242). -/
def Hart.loadFields (h : Hart c) (p : Platform) (vc : VConf) (o : MemOperands) : Hart c :=
  (List.range o.nf).foldl (fun g k =>
    let r := fieldReg vc o k
    g.setElems vc r fun i =>
      h.newElem vc o.vm r (g.elem vc r i) ((h.memRead p (h.elemAddr vc o i k) (vc.sew / 8)).setWidth vc.sew) i) h

/-- A vector load (R123). A fault-only-first load raises the exception of any of its elements, like the other forms:
only `vsetvli` and `vsetvl` write `vl` (R26, R33; log 20). -/
def Hart.vectorLoad (h : Hart c) (p : Platform) (vc : VConf) (o : MemOperands) : HartOutcome c :=
  match h.firstProblem p .load vc o with
  | none => .next (h.loadFields p vc o).finish
  | some (_, e) => h.raise e

/-- A vector store (R124); like `sw` it does not write the program text (R61). The spec orders the checks of `sw`
only (R292); here the exceptions of all elements, a later one's too, come before the refusal of a store that meets
the text (DESIGN CHOICE, log 33). -/
def Hart.vectorStore (h : Hart c) (p : Platform) (vc : VConf) (o : MemOperands) : HartOutcome c :=
  match h.firstProblem p .store vc o with
  | some (_, e) => h.raise e
  | none =>
    let size := vc.sew / 8
    let addrs := (h.accesses vc o).map fun ik => h.elemAddr vc o ik.1 ik.2
    if addrs.any fun a => meetsText p a size then h.refuse .storeToProgramText
    else
      .next (((h.setMem ((h.accesses vc o).foldl (fun m ik =>
        memStore m (h.elemAddr vc o ik.1 ik.2) size ((h.elem vc (fieldReg vc o ik.2) ik.1).setWidth (8 * size)))
        h.mem)).markStored addrs size).finish)

/-! ### Vector AMOs (R125, R60): the atomic operation on whole elements (PRESUMED, log 20) -/

/-- The registers of a vector AMO word: it addresses memory as an indexed access does. -/
def amoOperands (w : Word32) : MemOperands := { memOperands .indexed w with nf := 1 }

/-- The element in memory at the address of element `i`, when memory is `m`. -/
def Hart.amoOld (h : Hart c) (p : Platform) (vc : VConf) (o : MemOperands) (m : Memory) (i : Nat) : BitVec vc.sew :=
  ((h.setMem m).memRead p (h.elemAddr vc o i 0) (vc.sew / 8)).setWidth vc.sew

/-- Memory after the AMOs number `n` of the elements `is`, one after the other. The addresses and the data are those of
the hart before the instruction. -/
def Hart.amoMem (h : Hart c) (p : Platform) (vc : VConf) (o : MemOperands) (n : Nat) (is : List Nat) : Memory :=
  is.foldl (fun m i =>
    memStore m (h.elemAddr vc o i 0) (vc.sew / 8)
      ((Config.amoOp n vc.sew (h.amoOld p vc o m i) (h.elem vc o.data i)).setWidth (8 * (vc.sew / 8)))) h.mem

/-- A vector AMO: each active element in order replaces the element at its address and, if `writesBack`, the element of
its register by what memory held. Its checks are those of a vector store. -/
def Hart.vectorAmo (h : Hart c) (p : Platform) (vc : VConf) (o : MemOperands) (n : Nat) (writesBack : Bool) :
    HartOutcome c :=
  match h.firstProblem p .store vc o with
  | some (_, e) => h.raise e
  | none =>
    let is := h.activeList vc o.vm
    let addrs := is.map fun i => h.elemAddr vc o i 0
    if addrs.any fun a => meetsText p a (vc.sew / 8) then h.refuse .storeToProgramText
    else
      let g := (h.setMem (h.amoMem p vc o n is)).markStored addrs (vc.sew / 8)
      .next (if writesBack then
        g.writeGroup vc o.data o.vm fun i => h.amoOld p vc o (h.amoMem p vc o n (is.filter (· < i))) i
      else g).finish

/-! ### Mask instructions (R126 to R133): one bit per element -/

def maskLogic (k : MaskLogic) (a b : Bool) : Bool :=
  match k with
  | .and => a && b
  | .nand => !(a && b)
  | .andnot => a && !b
  | .xor => a != b
  | .or => a || b
  | .nor => !(a || b)
  | .ornot => a || !b
  | .xnor => a == b

/-- The active elements below VLMAX whose mask bit in `r` is set, in order. With `vstart` not 0 `vpopc`, `vfirst`,
`vmsbf`, `vmsif` and `vmsof` run, and count and look from `vstart` on (PRESUMED, log 34: the spec does not say
whether they do). -/
def Hart.setElements (h : Hart c) (vc : VConf) (vm : BitVec 1) (r : RegNo) : List Nat :=
  (List.range (vc.vlmax c)).filter fun i => h.active vc vm i && h.maskBit vc r i

/-- The count that `viota` writes to element `i`: the set mask bits of `r` in the elements below `i` (R132), those
below `vstart` included. A masked `viota` counts the bits of elements that `v0` enables (PRESUMED, log 34: the rule's
words do not mention `v0`). -/
def Hart.iotaCount (h : Hart c) (vc : VConf) (vm : BitVec 1) (r : RegNo) (i : Nat) : Nat :=
  ((List.range i).filter fun k => h.enabled vc vm k && h.maskBit vc r k).length

/-! ### The instructions -/

/-- A slide up by `offset` elements (R137). That the elements below `offset` keep their values is the model's (PRESUMED,
log 20). -/
def Hart.slideUp (h : Hart c) (vc : VConf) (vd vs2 : RegNo) (vm : BitVec 1) (offset : Nat) : Hart c :=
  h.setElems vc vd fun i =>
    let old := h.elem vc vd i
    if i < offset ∧ i < h.vl.toNat then old else h.newElem vc vm vd old (h.elem vc vs2 (i - offset)) i

/-- A slide down by `offset` elements (R137). That source elements from `vl` to VLMAX - 1 are moved like the others, and
that zeros come in from VLMAX on, is the model's (PRESUMED, log 20). -/
def Hart.slideDown (h : Hart c) (vc : VConf) (vd vs2 : RegNo) (vm : BitVec 1) (offset : Nat) : Hart c :=
  h.writeGroup vc vd vm fun i =>
    if i + offset < vc.vlmax c then h.elem vc vs2 (i + offset) else 0

/-- R138: the elements below `vl` whose bit in the mask register `vs1` is set, packed from element 0. With `vstart`
not 0 it runs, takes its source elements from 0 on and leaves the destination elements below `vstart` alone. The
destination elements from the packed count on, those below `vl` too, which R14 calls body, are treated as tail elements
(PRESUMED, log 34: the spec is silent on both). -/
def Hart.compress (h : Hart c) (vc : VConf) (vd vs2 vs1 : RegNo) : Hart c :=
  let chosen := (List.range h.vl.toNat).filter (h.maskBit vc vs1)
  h.setElems vc vd fun i =>
    let old := h.elem vc vd i
    match chosen[i]? with
    | some k => h.newElem vc 1 vd old (h.elem vc vs2 k) i
    | none => if h.prestart i then old else h.offElem vc.vta vd old i

/-- A floating-point scalar of SEW bits in an `f` register: the value must be NaN-boxed (R135). -/
def Hart.unboxF (h : Hart c) (r : RegNo) (sew : Nat) : BitVec sew :=
  if nanbox c.FLEN ((h.readF r).setWidth sew) = h.readF r then (h.readF r).setWidth sew else Config.unboxed sew

/-- Element 0 of `vd` (R135, R136), when it is in the body: with `vstart` > 0 it lies below `vstart` and is not
touched (R27), with `vl` = 0 there is no body (log 18). -/
def Hart.moveToElem0 (h : Hart c) (vc : VConf) (vd : RegNo) (a : BitVec vc.sew) : Hart c :=
  if h.body 0 then h.writeScalar vc vd vc.sew a else h

/-- The element insert of R134: element `k` of the group at `vd`, if the group has it and it does not lie below
`vstart` (R27; PRESUMED, log 20). -/
def Hart.insertElem (h : Hart c) (vc : VConf) (vd : RegNo) (k : Nat) (a : BitVec vc.sew) : Hart c :=
  if k < vc.vlmax c ∧ ¬ h.prestart k then h.setV (setSlot h.v vd.toNat vc.sew (elemPlace c vc.lmul vc.sew k) a)
  else h

/-- Base.legal of an instruction of 41_unaffected.md, as far as the spec names its checks (log 16). -/
def legalUnaffected (op : UnaffectedOp) (w : Word32) (vc : VConf) : Bool :=
  match op with
  | .load mode => legalMem vc (memOperands mode w) && maskedDestOk (fRd w) (fVm w)
  | .store mode => mode != .faultOnlyFirst && legalMem vc (memOperands mode w)
  | .amo _ writesBack => legalMem vc (amoOperands w) && (!writesBack || maskedDestOk (fRd w) (fVm w))
  | .viota | .vid => aligned vc (fRd w) && maskedDestOk (fRd w) (fVm w)
  | .vslideupVX | .vslideupVI | .vslidedownVX | .vslidedownVI | .vslide1upVX | .vslide1downVX =>
    legalV vc (fRd w) (fRs2 w) (fVm w)
  | .vmsbf | .vmsif | .vmsof => maskedDestOk (fRd w) (fVm w)
  | .vcompress => aligned vc (fRd w) && aligned vc (fRs2 w)
  | .vextXV => aligned vc (fRs2 w)
  | .vinsVX => aligned vc (fRd w)
  | .maskLogical _ | .vpopc | .vfirst | .vfmvFS | .vfmvSF | .vmvXS | .vmvSX => true

/-- What an instruction of 41_unaffected.md does with EDIV = 1. The moves and the extract to `x[rd]` and `f[rd]` run with
`vstart` not 0 too, and read an element that lies below it (PRESUMED, log 34). The scalar that `vmv.s.x`, the slides by
1 and the element insert put into an element is `x[rs1]`, truncated or sign-extended to SEW bits (PRESUMED, log 9: the
spec says neither); `vmv.x.s` with SEW above XLEN gives the low XLEN bits (PRESUMED, log 9). The offset of a slide is
all of `x[rs1]`, or the immediate, unsigned (PRESUMED, log 20). The floating-point moves are refused where SEW bits have no format (DESIGN CHOICE, log 21: R135
leaves the check to the base). -/
def Hart.runUnaffected (h : Hart c) (p : Platform) (op : UnaffectedOp) (w : Word32) (vc : VConf) : HartOutcome c :=
  let vd := fRd w
  let vs2 := fRs2 w
  let s1 := fRs1 w
  let vm := fVm w
  let hits := h.setElements vc vm vs2
  match op with
  | .load mode => h.vectorLoad p vc (memOperands mode w)
  | .store mode => h.vectorStore p vc (memOperands mode w)
  | .amo n writesBack => h.vectorAmo p vc (amoOperands w) n writesBack
  | .maskLogical k =>
    .next (h.writeMask vc vd 1 fun i => maskLogic k (h.maskBit vc vs2 i) (h.maskBit vc s1 i)).finish
  | .vpopc => .next (h.writeX vd (BitVec.ofNat c.XLEN hits.length)).finish
  | .vfirst =>
    .next (h.writeX vd (match hits.head? with
      | some i => BitVec.ofNat c.XLEN i
      | none => BitVec.allOnes c.XLEN)).finish
  | .vmsbf => .next (h.writeMask vc vd vm fun i => hits.all fun j => decide (i < j)).finish
  | .vmsif => .next (h.writeMask vc vd vm fun i => hits.all fun j => decide (i ≤ j)).finish
  | .vmsof => .next (h.writeMask vc vd vm fun i => hits.head? == some i).finish
  | .viota =>
    .next (h.writeGroup vc vd vm fun i => BitVec.ofNat vc.sew (h.iotaCount vc vm vs2 i)).finish
  | .vid => .next (h.writeGroup vc vd vm fun i => BitVec.ofNat vc.sew i).finish
  | .vextXV =>
    .next (h.writeX vd (if (h.readX s1).toNat < vc.vlmax c then
      (h.elem vc vs2 (h.readX s1).toNat).setWidth c.XLEN else 0)).finish
  | .vinsVX => .next (h.insertElem vc vd (h.readX vs2).toNat ((h.readX s1).signExtend vc.sew)).finish
  | .vfmvFS =>
    if fpFormatOk c vc.sew vc.sew then .next (h.writeF vd (nanbox c.FLEN (h.scalar vs2 vc.sew))).finish
    else h.refuse .noFpFormat
  | .vfmvSF =>
    if fpFormatOk c vc.sew vc.sew then .next (h.moveToElem0 vc vd (h.unboxF s1 vc.sew)).finish
    else h.refuse .noFpFormat
  | .vmvXS => .next (h.writeX vd ((h.scalar vs2 vc.sew).signExtend c.XLEN)).finish
  | .vmvSX => .next (h.moveToElem0 vc vd ((h.readX s1).signExtend vc.sew)).finish
  | .vslideupVX => .next (h.slideUp vc vd vs2 vm (h.readX s1).toNat).finish
  | .vslideupVI => .next (h.slideUp vc vd vs2 vm s1.toNat).finish
  | .vslidedownVX => .next (h.slideDown vc vd vs2 vm (h.readX s1).toNat).finish
  | .vslidedownVI => .next (h.slideDown vc vd vs2 vm s1.toNat).finish
  | .vslide1upVX =>
    .next (h.writeGroup vc vd vm fun i =>
      if i = 0 then (h.readX s1).signExtend vc.sew else h.elem vc vs2 (i - 1)).finish
  | .vslide1downVX =>
    .next (h.writeGroup vc vd vm fun i =>
      if i + 1 = h.vl.toNat then (h.readX s1).signExtend vc.sew else h.elem vc vs2 (i + 1)).finish
  | .vcompress => .next (h.compress vc vd vs2 s1).finish

/-- `exec(I) under vtype` of R120: Base.exec under `vtype` with `vediv` set to 0; `vtype` itself keeps its value. -/
def Hart.execUnaffected (h : Hart c) (p : Platform) (op : UnaffectedOp) (w : Word32) : HartOutcome c :=
  let t := clearEdiv c.layout h.vtype
  h.vectorAt t w (legalUnaffected op w) fun vc =>
    if baseTakes c vc w t then withVtype h.vtype ((h.setVtype t).baseAny p w) else h.runUnaffected p op w vc

end Sys2Proof.Machine
end

