-- ==== Sys2Proof/Machine/Base.lean ====
section
/-! DEFINITION. What the rows of the platform's Base decoder can name (R77, R84): the instructions of 41_unaffected.md,
the arithmetic instructions that the class rule R151 covers and no row of the opcode table names, and the CSR accesses
of R33 and R253. -/

namespace Sys2Proof.Machine

variable {c : Config}

/-! ### Control and status registers (R33, R35, R36; the numbers of `fflags`, `frm` and `fcsr`, where the parts of `fcsr`
and `vcsr` lie, and the format of an access are PRESUMED, log 22) -/

/-- Whether `vcsr` and `vlenb` exist: "v0.9 and later" (R33). -/
def hasVcsr (c : Config) : Bool := c.layout != .l08

/-- The value of the control register with number `n`, if the spec describes one with it, zero-extended to XLEN bits. R35
says that `fcsr` holds `frm` and `fflags` and not where: `frm` in bits 7:5, `fflags` in bits 4:0 and zeros above are the
family's, and so are `vxrm` in bits 2:1 and `vxsat` in bit 0 of `vcsr` (PRESUMED, log 22). -/
def Hart.readCsr (h : Hart c) (n : BitVec 12) : Option (BitVec c.XLEN) :=
  if n = 0x001#12 then some (h.fflags.setWidth c.XLEN)
  else if n = 0x002#12 then some (h.frm.setWidth c.XLEN)
  else if n = 0x003#12 then some ((h.frm ++ h.fflags).setWidth c.XLEN)
  else if n = 0x008#12 then some h.vstart
  else if n = 0x009#12 then some (h.vxsat.setWidth c.XLEN)
  else if n = 0x00A#12 then some (h.vxrm.setWidth c.XLEN)
  else if n = 0x00F#12 && hasVcsr c then some ((h.vxrm ++ h.vxsat).setWidth c.XLEN)
  else if n = 0xC20#12 then some h.vl
  else if n = 0xC21#12 then some h.vtype
  else if n = 0xC22#12 && hasVcsr c then some (BitVec.ofNat c.XLEN (c.VLEN / 8))
  else none

/-- The hart after a write of `a` to the writable control register with number `n`; `vl`, `vtype` and `vlenb` are read-only
(R33). A register narrower than XLEN takes its fields, where `readCsr` has them, from the low bits of `a`; the bits of `a`
above them are dropped (PRESUMED, log 22: the spec does not say what becomes of them). -/
def Hart.writeCsr (h : Hart c) (n : BitVec 12) (a : BitVec c.XLEN) : Option (Hart c) :=
  if n = 0x001#12 then some { h with fflags := a.setWidth 5 }
  else if n = 0x002#12 then some { h with frm := a.setWidth 3 }
  else if n = 0x003#12 then some { h with frm := a.extractLsb' 5 3, fflags := a.setWidth 5 }
  else if n = 0x008#12 then some { h with vstart := a }
  else if n = 0x009#12 then some { h with vxsat := a.setWidth 1 }
  else if n = 0x00A#12 then some { h with vxrm := a.setWidth 2 }
  else if n = 0x00F#12 && hasVcsr c then some { h with vxrm := a.extractLsb' 1 2, vxsat := a.setWidth 1 }
  else none

/-- A CSR read. The spec gives the format of no CSR access: the number in `word[31:20]` and `rd` in `word[11:7]` are the
family's (PRESUMED, log 22). A number the spec does not describe is outside its scope. -/
def Hart.runCsrr (h : Hart c) (w : Word32) : HartOutcome c :=
  match h.readCsr (fImmI w) with
  | some a => .next (h.writeX (fRd w) a).advance
  | none => h.refuse .notInScope

/-- A CSR write, of the register whose number is `word[31:20]` from `x[rs1]`, `rs1` in `word[19:15]` (PRESUMED, log 22). A
read-only register makes the instruction illegal (PRESUMED, log 22). -/
def Hart.runCsrw (h : Hart c) (w : Word32) : HartOutcome c :=
  match h.writeCsr (fImmI w) (h.readX (fRs1 w)), h.readCsr (fImmI w) with
  | some h', _ => .next h'.advance
  | none, some _ => h.raise (.illegalInstruction w)
  | none, none => h.refuse .notInScope

/-! ### The class rule R151 for a base instruction without a row -/

/-- The operand form that a word's `funct3` selects (R71); OPCFG is none. -/
def arithForm (w : Word32) : Option ArithForm :=
  if fFunct3 w = 0b000#3 ∨ fFunct3 w = 0b001#3 ∨ fFunct3 w = 0b010#3 then some .vv
  else if fFunct3 w = 0b011#3 then some .vi
  else if fFunct3 w = 0b100#3 ∨ fFunct3 w = 0b110#3 then some .vx
  else if fFunct3 w = 0b101#3 then some .vf
  else none

/-- The second operand of sub-element `j` of element `i` (R71, R151): a sub-element of `vs1`, the scalar of an `x` or an
`f` register, or the immediate, sign-extended except for a shift (R74). -/
def Hart.regularInput (h : Hart c) (vc : VConf) (n : Nat) (form : ArithForm) (shift : Bool) (s1 : RegNo) (i j : Nat) :
    BitVec vc.se :=
  match form with
  | .vv => h.subElem vc s1 i j
  | .vx => Config.regularScalar n vc.se (h.readX s1)
  | .vf => Config.regularScalar n vc.se (h.readF s1)
  | .vi => extendTo (!shift) vc.se s1

/-- What `op_I(SE)` gives for sub-element `j` of element `i`: the result and what it sets in `vxsat` and `fflags`. The
function itself, and how a scalar reaches it, are the base's and free (R151, R153; log 32). -/
def Hart.regularSub (h : Hart c) (vc : VConf) (n : Nat) (form : ArithForm) (shift : Bool) (vd vs2 s1 : RegNo)
    (i j : Nat) : BitVec vc.se × BitVec 1 × BitVec 5 :=
  Config.regularOp n vc.se h.frm h.vxrm (h.subElem vc vs2 i j) (h.regularInput vc n form shift s1 i j)
    (h.subElem vc vd i j)

/-- The sub-elements of the active elements, element by element. -/
def Hart.activeSubs (h : Hart c) (vc : VConf) (vm : BitVec 1) : List (Nat × Nat) :=
  (h.activeList vc vm).flatMap fun i => (List.range vc.ediv).map fun j => (i, j)

/-- R151 for base arithmetic instruction number `n`: a fixed-point one ORs `vxsat`, a floating-point one `fflags`, over
all active sub-elements; no other sets a flag (R36). -/
def Hart.regularBase (h : Hart c) (vc : VConf) (n : Nat) (form : ArithForm) (shift fixedPoint float : Bool)
    (vd vs2 s1 : RegNo) (vm : BitVec 1) : HartOutcome c :=
  let r := fun ij : Nat × Nat => h.regularSub vc n form shift vd vs2 s1 ij.1 ij.2
  let subs := h.activeSubs vc vm
  let vxsat := subs.foldl (fun s ij => s ||| (r ij).2.1) 0
  let fflags := subs.foldl (fun f ij => f ||| (r ij).2.2) 0
  .next ((((h.writeGroup vc vd vm fun i => ofSubs (h.elem vc vd i) vc.ediv fun j => (r (i, j)).1).saturate
    (if fixedPoint then vxsat else 0)).accrue (if float then fflags else 0)).finish)

/-- Base.legal of a base arithmetic instruction (log 16). -/
def legalForm (form : ArithForm) (vc : VConf) (vd vs2 s1 : RegNo) (vm : BitVec 1) : Bool :=
  match form with
  | .vv => legalVV vc vd vs2 s1 vm
  | .vx | .vf | .vi => legalV vc vd vs2 vm

/-- R153 for a base arithmetic instruction: with EDIV > 1 it must belong to RegularArith; a floating-point one needs a
format of SE bits, the others SE of at least 8. R153 says so for EDIV > 1; that a floating-point one without a format of
SEW bits is refused with EDIV = 1 too, where Base.exec decides (R81), is the model's choice (DESIGN CHOICE, log 32). -/
def Hart.execRegular (h : Hart c) (n : Nat) (shift fixedPoint : Bool) (w : Word32) : HartOutcome c :=
  match arithForm w with
  | none => h.refuse .notInScope
  | some form =>
    h.vectorAt h.vtype w (fun vc => legalForm form vc (fRd w) (fRs2 w) (fRs1 w) (fVm w)) fun vc =>
      if baseTakes c vc w h.vtype then h.baseVector w fixedPoint
      else
        h.ifRegular vc (.base n) <|
          if isFloatWord w && !fpFormatOk c vc.se vc.se then h.refuse .noOperationAtWidth
          else h.regularBase vc n form shift fixedPoint (isFloatWord w) (fRd w) (fRs2 w) (fRs1 w) (fVm w)

/-! ### The Base decoder's instructions -/

/-- A base vector instruction that the source does not classify (R153): refused with EDIV > 1; with EDIV = 1 it is
Base.exec, of which the spec says nothing (R7, R81), and free (log 35). Of the checks of Base.legal, which come before the
refusal (R81), only what `baseRejects` says is made: what its registers mean is not known, so that neither their alignment
nor a masked `v0` can be checked (DESIGN CHOICE, log 31). -/
def Hart.execUnclassified (h : Hart c) (p : Platform) (w : Word32) : HartOutcome c :=
  h.vectorAt h.vtype w (fun _ => true) fun vc =>
    if 1 < vc.ediv then h.refuse .unclassifiedUnderEDIV else h.baseAny p w

/-- An instruction of the Base decoder (R81, R84). The CSR accesses do not depend on `vtype`. -/
def execBase (op : BaseOp) (w : Word32) (s : State) : Host.Outcome State Fault Refusal :=
  s.onHart <|
    match op with
    | .unaffected op => s.hart.execUnaffected s.plat op w
    | .regular n shift fixedPoint => s.hart.execRegular n shift fixedPoint w
    | .csrr => s.hart.runCsrr w
    | .csrw => s.hart.runCsrw w
    | .unclassified => s.hart.execUnclassified s.plat w

end Sys2Proof.Machine
end

