-- ==== Sys2Proof/Machine/Carry.lean ====
section
/-! DEFINITION. Add with carry and subtract with borrow (R156 to R160): reserved with EDIV > 1, the base
instructions with EDIV = 1. -/

namespace Sys2Proof.Machine

variable {c : Config}

/-- R156 to R159: `reserved(CarryUnderEDIV)` with EDIV > 1. -/
def Hart.unlessDivided (h : Hart c) (vc : VConf) (reason : ReservedReason) (word : Word32)
    (run : HartOutcome c) : HartOutcome c :=
  if 1 < vc.ediv then h.reservedEncoding reason word else run

/-- `v0.mask[i]` as a number: the carry or borrow into element `i`. -/
def Hart.carryIn (h : Hart c) (vc : VConf) (i : Nat) : Nat := (h.maskBit vc 0 i).toNat

/-- The carry or borrow into element `i` of `vmadc` and `vmsbc`; their forms with `vm` = 1 have none
(R157, R159). -/
def Hart.carryInIf (h : Hart c) (vc : VConf) (vm : BitVec 1) (i : Nat) : Nat :=
  if vm = 1 then 0 else h.carryIn vc i

/-- Base.legal of `vadc` and `vsbc`: they have no form with `vm` = 1 and do not write `v0` (log 16). -/
def legalCarry (vc : VConf) (vd : RegNo) (vm : BitVec 1) : Bool :=
  aligned vc vd && vm == 0 && vd != 0

/-- Base.legal of `vmadc` and `vmsbc`: the forms with `vm` = 1 are of "later base drafts" than that of
layout L08 (log 16). -/
def legalMaskCarry (c : Config) (vm : BitVec 1) : Bool := vm == 0 || c.layout != .l08

/-- A carry instruction that writes elements: every body element is written, `v0` being an operand and not
a mask. -/
def Hart.carryElems (h : Hart c) (vc : VConf) (vd : RegNo) (a : Nat → BitVec vc.sew) : HartOutcome c :=
  .next (h.writeGroup vc vd 1 a).finish

/-- A carry instruction that writes a mask. -/
def Hart.carryMask (h : Hart c) (vc : VConf) (vd : RegNo) (a : Nat → Bool) : HartOutcome c :=
  .next (h.writeMask vc vd 1 a).finish

/-- `vs2[i] + operand + carry` at the width of the element (R156). -/
def addCarry {w : Nat} (a b : BitVec w) (carry : Nat) : BitVec w := a + b + BitVec.ofNat w carry

/-- `vs2[i] - operand - borrow` at the width of the element (R158). -/
def subBorrow {w : Nat} (a b : BitVec w) (borrow : Nat) : BitVec w := a - b - BitVec.ofNat w borrow

/-- The carry out of `vs2[i] + operand + carry` (R157). -/
def carryOut {w : Nat} (a b : BitVec w) (carry : Nat) : Bool := decide (2 ^ w ≤ a.toNat + b.toNat + carry)

/-- The borrow out of `vs2[i] - operand - borrow` (R159). -/
def borrowOut {w : Nat} (a b : BitVec w) (borrow : Nat) : Bool := decide (a.toNat < b.toNat + borrow)

/-- `vadc.vvm` (R156). -/
def execVadcVVM (vd vs2 vs1 : RegNo) (vm : BitVec 1) (s : State) : Host.Outcome State Fault Refusal :=
  let h := s.hart
  let word := encodeWith s.cfg.dot (.vadcVVM vd vs2 vs1 vm)
  s.onHart <| h.vector word (fun vc => legalCarry vc vd vm && aligned vc vs2 && aligned vc vs1) fun vc =>
    h.unlessDivided vc .carryUnderEDIV word <|
      h.carryElems vc vd fun i => addCarry (h.elem vc vs2 i) (h.elem vc vs1 i) (h.carryIn vc i)

/-- `vadc.vxm` (R156). -/
def execVadcVXM (vd vs2 rs1 : RegNo) (vm : BitVec 1) (s : State) : Host.Outcome State Fault Refusal :=
  let h := s.hart
  let word := encodeWith s.cfg.dot (.vadcVXM vd vs2 rs1 vm)
  s.onHart <| h.vector word (fun vc => legalCarry vc vd vm && aligned vc vs2) fun vc =>
    h.unlessDivided vc .carryUnderEDIV word <|
      h.carryElems vc vd fun i =>
        addCarry (h.elem vc vs2 i) ((h.readX rs1).signExtend vc.sew) (h.carryIn vc i)

/-- `vadc.vim` (R156). -/
def execVadcVIM (vd vs2 : RegNo) (imm5 : BitVec 5) (vm : BitVec 1) (s : State) :
    Host.Outcome State Fault Refusal :=
  let h := s.hart
  let word := encodeWith s.cfg.dot (.vadcVIM vd vs2 imm5 vm)
  s.onHart <| h.vector word (fun vc => legalCarry vc vd vm && aligned vc vs2) fun vc =>
    h.unlessDivided vc .carryUnderEDIV word <|
      h.carryElems vc vd fun i => addCarry (h.elem vc vs2 i) (imm5.signExtend vc.sew) (h.carryIn vc i)

/-- `vmadc.vvm`, and `vmadc.vv` with `vm` = 1 (R157). -/
def execVmadcVVM (vd vs2 vs1 : RegNo) (vm : BitVec 1) (s : State) : Host.Outcome State Fault Refusal :=
  let h := s.hart
  let word := encodeWith s.cfg.dot (.vmadcVVM vd vs2 vs1 vm)
  s.onHart <| h.vector word (fun vc => legalMaskCarry s.cfg vm && aligned vc vs2 && aligned vc vs1) fun vc =>
    h.unlessDivided vc .carryUnderEDIV word <|
      h.carryMask vc vd fun i => carryOut (h.elem vc vs2 i) (h.elem vc vs1 i) (h.carryInIf vc vm i)

/-- `vmadc.vxm`, and `vmadc.vx` with `vm` = 1 (R157). -/
def execVmadcVXM (vd vs2 rs1 : RegNo) (vm : BitVec 1) (s : State) : Host.Outcome State Fault Refusal :=
  let h := s.hart
  let word := encodeWith s.cfg.dot (.vmadcVXM vd vs2 rs1 vm)
  s.onHart <| h.vector word (fun vc => legalMaskCarry s.cfg vm && aligned vc vs2) fun vc =>
    h.unlessDivided vc .carryUnderEDIV word <|
      h.carryMask vc vd fun i =>
        carryOut (h.elem vc vs2 i) ((h.readX rs1).signExtend vc.sew) (h.carryInIf vc vm i)

/-- `vmadc.vim`, and `vmadc.vi` with `vm` = 1 (R157). -/
def execVmadcVIM (vd vs2 : RegNo) (imm5 : BitVec 5) (vm : BitVec 1) (s : State) :
    Host.Outcome State Fault Refusal :=
  let h := s.hart
  let word := encodeWith s.cfg.dot (.vmadcVIM vd vs2 imm5 vm)
  s.onHart <| h.vector word (fun vc => legalMaskCarry s.cfg vm && aligned vc vs2) fun vc =>
    h.unlessDivided vc .carryUnderEDIV word <|
      h.carryMask vc vd fun i => carryOut (h.elem vc vs2 i) (imm5.signExtend vc.sew) (h.carryInIf vc vm i)

/-- `vsbc.vvm` (R158). -/
def execVsbcVVM (vd vs2 vs1 : RegNo) (vm : BitVec 1) (s : State) : Host.Outcome State Fault Refusal :=
  let h := s.hart
  let word := encodeWith s.cfg.dot (.vsbcVVM vd vs2 vs1 vm)
  s.onHart <| h.vector word (fun vc => legalCarry vc vd vm && aligned vc vs2 && aligned vc vs1) fun vc =>
    h.unlessDivided vc .carryUnderEDIV word <|
      h.carryElems vc vd fun i => subBorrow (h.elem vc vs2 i) (h.elem vc vs1 i) (h.carryIn vc i)

/-- `vsbc.vxm` (R158). -/
def execVsbcVXM (vd vs2 rs1 : RegNo) (vm : BitVec 1) (s : State) : Host.Outcome State Fault Refusal :=
  let h := s.hart
  let word := encodeWith s.cfg.dot (.vsbcVXM vd vs2 rs1 vm)
  s.onHart <| h.vector word (fun vc => legalCarry vc vd vm && aligned vc vs2) fun vc =>
    h.unlessDivided vc .carryUnderEDIV word <|
      h.carryElems vc vd fun i =>
        subBorrow (h.elem vc vs2 i) ((h.readX rs1).signExtend vc.sew) (h.carryIn vc i)

/-- `vmsbc.vvm`, and `vmsbc.vv` with `vm` = 1 (R159). -/
def execVmsbcVVM (vd vs2 vs1 : RegNo) (vm : BitVec 1) (s : State) : Host.Outcome State Fault Refusal :=
  let h := s.hart
  let word := encodeWith s.cfg.dot (.vmsbcVVM vd vs2 vs1 vm)
  s.onHart <| h.vector word (fun vc => legalMaskCarry s.cfg vm && aligned vc vs2 && aligned vc vs1) fun vc =>
    h.unlessDivided vc .carryUnderEDIV word <|
      h.carryMask vc vd fun i => borrowOut (h.elem vc vs2 i) (h.elem vc vs1 i) (h.carryInIf vc vm i)

/-- `vmsbc.vxm`, and `vmsbc.vx` with `vm` = 1 (R159). -/
def execVmsbcVXM (vd vs2 rs1 : RegNo) (vm : BitVec 1) (s : State) : Host.Outcome State Fault Refusal :=
  let h := s.hart
  let word := encodeWith s.cfg.dot (.vmsbcVXM vd vs2 rs1 vm)
  s.onHart <| h.vector word (fun vc => legalMaskCarry s.cfg vm && aligned vc vs2) fun vc =>
    h.unlessDivided vc .carryUnderEDIV word <|
      h.carryMask vc vd fun i =>
        borrowOut (h.elem vc vs2 i) ((h.readX rs1).signExtend vc.sew) (h.carryInIf vc vm i)

end Sys2Proof.Machine
end

