-- ==== Sys2Proof/Machine/Configure.lean ====
section
/-! DEFINITION. `vsetvli` and `vsetvl` (R106, R107). -/

namespace Sys2Proof.Machine

variable {c : Config}

/-- `setvl(AVL, VLMAX)` of R106. A free choice is brought into the interval the rule states. -/
def setvl (c : Config) (avl vlmax : Nat) : Nat :=
  if avl ≤ vlmax then avl
  else if 2 * vlmax ≤ avl then vlmax
  else
    match c.setvl with
    | .minimum => vlmax
    | .free => min vlmax (max ((avl + 1) / 2) (Config.setvlChoice avl vlmax))

/-- The common pseudocode of R106 and R107: `t` is the requested `vtype`. -/
def Hart.setVectorConfig (h : Hart c) (rd rs1 : RegNo) (t : BitVec c.XLEN) : HartOutcome c :=
  if rs1 = 0 ∧ rd = 0 then h.refuse .vsetvlBothX0
  else
    match vconf c t with
    | none => .next (((((h.setVtype (villOnly c.XLEN)).setVl 0).writeX rd 0)).finish)
    | some vc =>
      let vlmax := vc.vlmax c
      let avl := if rs1 = 0 then vlmax else (h.readX rs1).toNat
      let vl := BitVec.ofNat c.XLEN (setvl c avl vlmax)
      .next ((((h.setVtype t).setVl vl).writeX rd vl).finish)

/-- `vsetvli rd, rs1, vtypei`: the requested `vtype` is `zimm`, zero-extended (R73, R106). -/
def execVsetvli (rd rs1 : RegNo) (zimm : BitVec 11) (s : State) : Host.Outcome State Fault Refusal :=
  s.onHart (s.hart.setVectorConfig rd rs1 (zimm.setWidth s.cfg.XLEN))

/-- `vsetvl rd, rs1, rs2`: the requested `vtype` is all of `x[rs2]` (R107). -/
def execVsetvl (rd rs1 rs2 : RegNo) (s : State) : Host.Outcome State Fault Refusal :=
  s.onHart (s.hart.setVectorConfig rd rs1 (s.hart.readX rs2))

end Sys2Proof.Machine
end

