-- ==== Sys2Proof/Machine/Dot.lean ====
section
/-! DEFINITION. The dot products (45_int_dot.md, 46_fp_dot.md). -/

namespace Sys2Proof.Machine

variable {c : Config}

/-- The new value of element `i` of an integer dot product (R224): the low `W` bits of the old destination,
plus the products of the sub-elements, modulo 2^W, extended to SEW. -/
def Hart.dotElem (h : Hart c) (vc : VConf) (signed : Bool) (vd vs2 vs1 : RegNo) (i : Nat) : BitVec vc.sew :=
  let w := wDot vc.sew vc.ediv
  let acc := (List.range vc.ediv).foldl
    (fun acc j => acc + extendTo signed w (h.subElem vc vs2 i j) * extendTo signed w (h.subElem vc vs1 i j))
    ((h.elem vc vd i).setWidth w)
  extendTo signed vc.sew acc

/-- `vdotu.vv` (R221). -/
def execVdotuVV (vd vs2 vs1 : RegNo) (vm : BitVec 1) (s : State) : Host.Outcome State Fault Refusal :=
  let h := s.hart
  s.onHart <| h.vectorNew (encodeWith s.cfg.dot (.vdotuVV vd vs2 vs1 vm)) (legalVV · vd vs2 vs1 vm) fun vc =>
    .next (h.writeGroup vc vd vm (h.dotElem vc false vd vs2 vs1)).finish

/-- `vdot.vv` (R222). -/
def execVdotVV (vd vs2 vs1 : RegNo) (vm : BitVec 1) (s : State) : Host.Outcome State Fault Refusal :=
  let h := s.hart
  s.onHart <| h.vectorNew (encodeWith s.cfg.dot (.vdotVV vd vs2 vs1 vm)) (legalVV · vd vs2 vs1 vm) fun vc =>
    .next (h.writeGroup vc vd vm (h.dotElem vc true vd vs2 vs1)).finish

/-- FpNumerics.dot on element `i` with the accumulator width `a` (R231). -/
def Hart.fpDotElem (h : Hart c) (vc : VConf) (a : Nat) (vd vs2 vs1 : RegNo) (i : Nat) : BitVec a × BitVec 5 :=
  fpDot vc.se a h.frm ((h.elem vc vd i).setWidth a)
    ((List.range vc.ediv).map (h.subElem vc vs2 i)) ((List.range vc.ediv).map (h.subElem vc vs1 i))

/-- `vfdot.vv` (R231): refused at EDIV = 1 (R233) and without formats for SE and A (D12). -/
def execVfdotVV (vd vs2 vs1 : RegNo) (vm : BitVec 1) (s : State) : Host.Outcome State Fault Refusal :=
  let h := s.hart
  s.onHart <| h.vectorNew (encodeWith s.cfg.dot (.vfdotVV vd vs2 vs1 vm)) (legalVV · vd vs2 vs1 vm) fun vc =>
    if vc.ediv = 1 then h.refuse .fpDotUndivided
    else
      match aFp vc.sew vc.ediv s.cfg.FLEN with
      | none => h.refuse .noFpFormat
      | some a =>
        if !fpFormatOk s.cfg vc.se a then h.refuse .noFpFormat
        else
          .next (((h.writeGroup vc vd vm fun i => nanbox vc.sew (h.fpDotElem vc a vd vs2 vs1 i).1).accrue
            (h.activeFlags vc vm fun i => (h.fpDotElem vc a vd vs2 vs1 i).2)).finish)

end Sys2Proof.Machine
end

