-- ==== Sys2Proof/Machine/Gather.lean ====
section
/-! DEFINITION. Register gathers (44_gather_under_ediv.md): within each element when EDIV > 1 (R211), across
the whole group when EDIV = 1 (R216). -/

namespace Sys2Proof.Machine

variable {c : Config}

/-- The base gather of element `k` of the group at `vs2`: zero from VLMAX on (R216). -/
def Hart.gatherElem (h : Hart c) (vc : VConf) (vs2 : RegNo) (k : Nat) : BitVec vc.sew :=
  if k < vc.vlmax c then h.elem vc vs2 k else 0

/-- The gather of sub-element `k` of element `i` of the group at `vs2`: zero from EDIV on (R210, R211). -/
def Hart.gatherSub (h : Hart c) (vc : VConf) (vs2 : RegNo) (i k : Nat) : BitVec vc.se :=
  if k < vc.ediv then h.subElem vc vs2 i k else 0

/-- A gather: `indexElem i` is the index for element `i` when EDIV = 1, `indexSub i j` that for sub-element
`j` of element `i` when EDIV > 1. -/
def Hart.gather (h : Hart c) (vc : VConf) (vd vs2 : RegNo) (vm : BitVec 1) (indexElem : Nat → Nat)
    (indexSub : Nat → Nat → Nat) : HartOutcome c :=
  .next (h.writeGroup vc vd vm fun i =>
    if vc.ediv = 1 then h.gatherElem vc vs2 (indexElem i)
    else ofSubs 0 vc.ediv fun j => h.gatherSub vc vs2 i (indexSub i j)).finish

/-- `vrgather.vv` (R211): the indices are the unsigned elements or sub-elements of `vs1`. -/
def execVrgatherVV (vd vs2 vs1 : RegNo) (vm : BitVec 1) (s : State) : Host.Outcome State Fault Refusal :=
  let h := s.hart
  s.onHart <| h.vector (encodeWith s.cfg.dot (.vrgatherVV vd vs2 vs1 vm))
    (fun vc => legalVV vc vd vs2 vs1 vm && disjointGroups vc vd vs2 && disjointGroups vc vd vs1) fun vc =>
    h.gather vc vd vs2 vm (fun i => (h.elem vc vs1 i).toNat) (fun i j => (h.subElem vc vs1 i j).toNat)

/-- `vrgather.vx` (R212): one index, all XLEN bits of `x[rs1]`, unsigned. That it is all of `x[rs1]` with EDIV = 1 too,
also where SEW is below XLEN, is the model's (PRESUMED, log 9: D14 and R212 say so for EDIV > 1, R216 gives no width). -/
def execVrgatherVX (vd vs2 rs1 : RegNo) (vm : BitVec 1) (s : State) : Host.Outcome State Fault Refusal :=
  let h := s.hart
  s.onHart <| h.vector (encodeWith s.cfg.dot (.vrgatherVX vd vs2 rs1 vm))
    (fun vc => legalV vc vd vs2 vm && disjointGroups vc vd vs2) fun vc =>
    h.gather vc vd vs2 vm (fun _ => (h.readX rs1).toNat) (fun _ _ => (h.readX rs1).toNat)

/-- `vrgather.vi` (R213): one index, the immediate, zero-extended. -/
def execVrgatherVI (vd vs2 : RegNo) (imm5 : BitVec 5) (vm : BitVec 1) (s : State) :
    Host.Outcome State Fault Refusal :=
  let h := s.hart
  s.onHart <| h.vector (encodeWith s.cfg.dot (.vrgatherVI vd vs2 imm5 vm))
    (fun vc => legalV vc vd vs2 vm && disjointGroups vc vd vs2) fun vc =>
    h.gather vc vd vs2 vm (fun _ => imm5.toNat) (fun _ _ => imm5.toNat)

end Sys2Proof.Machine
end

