-- ==== Sys2Proof/Machine/Reduce.lean ====
section
/-! DEFINITION. The reductions (43_reductions_under_ediv.md): within each element when EDIV > 1 (R171, R174),
over the whole vector when EDIV = 1 (R192, R194). -/

namespace Sys2Proof.Machine

variable {c : Config}

/-- An integer operation at every width (R177 to R185). -/
abbrev RedOp := (w : Nat) → BitVec w → BitVec w → BitVec w

def redAnd : RedOp := fun _ a b => a &&& b
def redOr : RedOp := fun _ a b => a ||| b
def redXor : RedOp := fun _ a b => a ^^^ b
def redAdd : RedOp := fun _ a b => a + b
def redMinu : RedOp := fun _ a b => if a.toNat ≤ b.toNat then a else b
def redMin : RedOp := fun _ a b => if a.toInt ≤ b.toInt then a else b
def redMaxu : RedOp := fun _ a b => if b.toNat ≤ a.toNat then a else b
def redMax : RedOp := fun _ a b => if b.toInt ≤ a.toInt then a else b

/-- Whether `RedBitwiseExt` sign-extends (R173). -/
def bitwiseSigned (c : Config) : Bool := c.redBitwise == .sign

/-! ### What all reductions share -/

/-- Base.legal of a reduction: with EDIV = 1 only `vs2` is a group (R192); with EDIV > 1 all three are
(DEDUCED, log 16). -/
def legalReduction (vc : VConf) (vd vs2 vs1 : RegNo) (vm : BitVec 1) : Bool :=
  if vc.ediv = 1 then aligned vc vs2 else legalVV vc vd vs2 vs1 vm

/-- The `vstart` rule of the reductions: with EDIV > 1 a `vstart` that is not 0 is refused (R193), with
EDIV = 1 it is illegal (GK16). -/
def Hart.ifStartZero (h : Hart c) (vc : VConf) (word : Word32) (run : HartOutcome c) : HartOutcome c :=
  if h.vstart = 0 then run
  else if vc.ediv = 1 then h.raise (.illegalInstruction word)
  else h.refuse .vstartAtReduction

/-! ### Integer reductions -/

/-- The new value of element `i` with EDIV > 1 (R171): the scalar is the low `w` bits of element `i` of
`vs1` (R172); the result is extended to SEW (R173). -/
def Hart.redElem (h : Hart c) (vc : VConf) (op : RedOp) (w : Nat) (signed : Bool) (vs2 vs1 : RegNo) (i : Nat) :
    BitVec vc.sew :=
  extendTo signed vc.sew <|
    (List.range vc.ediv).foldl (fun acc j => op w acc (extendTo signed w (h.subElem vc vs2 i j)))
      ((h.elem vc vs1 i).setWidth w)

/-- The result with EDIV = 1 (R192): the scalar is element 0 of `vs1`, the active elements of `vs2` are
folded into it at width `w`. -/
def Hart.redWhole (h : Hart c) (vc : VConf) (op : RedOp) (w : Nat) (signed : Bool) (vs2 vs1 : RegNo)
    (vm : BitVec 1) : BitVec w :=
  (h.activeList vc vm).foldl (fun acc i => op w acc (extendTo signed w (h.elem vc vs2 i))) (h.scalar vs1 w)

/-- A whole-vector result in element 0 of `vd`; with `vl` = 0 nothing is written (PRESUMED, log 18). -/
def Hart.writeWhole (h : Hart c) (vc : VConf) (vd : RegNo) (w : Nat) (a : BitVec w) : Hart c :=
  if h.vl = 0 then h else h.writeScalar vc vd w a

/-- An integer reduction: `w1` is its width with EDIV = 1, `w` with EDIV > 1. -/
def Hart.intReduction (h : Hart c) (vc : VConf) (word : Word32) (op : RedOp) (w1 w : Nat) (signed : Bool)
    (vd vs2 vs1 : RegNo) (vm : BitVec 1) : HartOutcome c :=
  h.ifStartZero vc word <|
    if vc.ediv = 1 then .next (h.writeWhole vc vd w1 (h.redWhole vc op w1 signed vs2 vs1 vm)).finish
    else .next (h.writeGroup vc vd vm (h.redElem vc op w signed vs2 vs1)).finish

/-- A single-width reduction that is not a sum (R177 to R183). -/
def Hart.nonsumReduction (h : Hart c) (vc : VConf) (word : Word32) (op : RedOp) (signed : Bool)
    (vd vs2 vs1 : RegNo) (vm : BitVec 1) : HartOutcome c :=
  h.intReduction vc word op vc.sew (wNonsum vc.sew vc.ediv) signed vd vs2 vs1 vm

/-- The base's limit on a widening reduction: with EDIV = 1 its result of 2 * SEW bits must fit ELEN and one
register (PRESUMED, log 16). -/
def widenFits (c : Config) (vc : VConf) : Bool := vc.ediv != 1 || decide (2 * vc.sew ≤ min c.ELEN c.VLEN)

/-- A widening sum (R184, R185). -/
def Hart.wideningSum (h : Hart c) (vc : VConf) (word : Word32) (signed : Bool) (vd vs2 vs1 : RegNo)
    (vm : BitVec 1) : HartOutcome c :=
  h.intReduction vc word redAdd (2 * vc.sew) (wSum vc.sew vc.ediv) signed vd vs2 vs1 vm

/-- `vredsum.vs`: reserved with EDIV > 1 (R176), the base sum with EDIV = 1. -/
def execVredsumVS (vd vs2 vs1 : RegNo) (vm : BitVec 1) (s : State) : Host.Outcome State Fault Refusal :=
  let h := s.hart
  let word := encodeWith s.cfg.dot (.vredsumVS vd vs2 vs1 vm)
  s.onHart <| h.vector word (legalReduction · vd vs2 vs1 vm) fun vc =>
    h.unlessDivided vc .singleWidthSumUnderEDIV word <|
      h.nonsumReduction vc word redAdd false vd vs2 vs1 vm

/-- `vredand.vs` (R177). -/
def execVredandVS (vd vs2 vs1 : RegNo) (vm : BitVec 1) (s : State) : Host.Outcome State Fault Refusal :=
  let h := s.hart
  let word := encodeWith s.cfg.dot (.vredandVS vd vs2 vs1 vm)
  s.onHart <| h.vector word (legalReduction · vd vs2 vs1 vm) fun vc =>
    h.nonsumReduction vc word redAnd (bitwiseSigned s.cfg) vd vs2 vs1 vm

/-- `vredor.vs` (R178). -/
def execVredorVS (vd vs2 vs1 : RegNo) (vm : BitVec 1) (s : State) : Host.Outcome State Fault Refusal :=
  let h := s.hart
  let word := encodeWith s.cfg.dot (.vredorVS vd vs2 vs1 vm)
  s.onHart <| h.vector word (legalReduction · vd vs2 vs1 vm) fun vc =>
    h.nonsumReduction vc word redOr (bitwiseSigned s.cfg) vd vs2 vs1 vm

/-- `vredxor.vs` (R179). -/
def execVredxorVS (vd vs2 vs1 : RegNo) (vm : BitVec 1) (s : State) : Host.Outcome State Fault Refusal :=
  let h := s.hart
  let word := encodeWith s.cfg.dot (.vredxorVS vd vs2 vs1 vm)
  s.onHart <| h.vector word (legalReduction · vd vs2 vs1 vm) fun vc =>
    h.nonsumReduction vc word redXor (bitwiseSigned s.cfg) vd vs2 vs1 vm

/-- `vredminu.vs` (R180). -/
def execVredminuVS (vd vs2 vs1 : RegNo) (vm : BitVec 1) (s : State) : Host.Outcome State Fault Refusal :=
  let h := s.hart
  let word := encodeWith s.cfg.dot (.vredminuVS vd vs2 vs1 vm)
  s.onHart <| h.vector word (legalReduction · vd vs2 vs1 vm) fun vc =>
    h.nonsumReduction vc word redMinu false vd vs2 vs1 vm

/-- `vredmin.vs` (R181). -/
def execVredminVS (vd vs2 vs1 : RegNo) (vm : BitVec 1) (s : State) : Host.Outcome State Fault Refusal :=
  let h := s.hart
  let word := encodeWith s.cfg.dot (.vredminVS vd vs2 vs1 vm)
  s.onHart <| h.vector word (legalReduction · vd vs2 vs1 vm) fun vc =>
    h.nonsumReduction vc word redMin true vd vs2 vs1 vm

/-- `vredmaxu.vs` (R182). -/
def execVredmaxuVS (vd vs2 vs1 : RegNo) (vm : BitVec 1) (s : State) : Host.Outcome State Fault Refusal :=
  let h := s.hart
  let word := encodeWith s.cfg.dot (.vredmaxuVS vd vs2 vs1 vm)
  s.onHart <| h.vector word (legalReduction · vd vs2 vs1 vm) fun vc =>
    h.nonsumReduction vc word redMaxu false vd vs2 vs1 vm

/-- `vredmax.vs` (R183). -/
def execVredmaxVS (vd vs2 vs1 : RegNo) (vm : BitVec 1) (s : State) : Host.Outcome State Fault Refusal :=
  let h := s.hart
  let word := encodeWith s.cfg.dot (.vredmaxVS vd vs2 vs1 vm)
  s.onHart <| h.vector word (legalReduction · vd vs2 vs1 vm) fun vc =>
    h.nonsumReduction vc word redMax true vd vs2 vs1 vm

/-- `vwredsumu.vs` (R184). -/
def execVwredsumuVS (vd vs2 vs1 : RegNo) (vm : BitVec 1) (s : State) : Host.Outcome State Fault Refusal :=
  let h := s.hart
  let word := encodeWith s.cfg.dot (.vwredsumuVS vd vs2 vs1 vm)
  s.onHart <| h.vector word (fun vc => legalReduction vc vd vs2 vs1 vm && widenFits s.cfg vc) fun vc =>
    h.wideningSum vc word false vd vs2 vs1 vm

/-- `vwredsum.vs` (R185). -/
def execVwredsumVS (vd vs2 vs1 : RegNo) (vm : BitVec 1) (s : State) : Host.Outcome State Fault Refusal :=
  let h := s.hart
  let word := encodeWith s.cfg.dot (.vwredsumVS vd vs2 vs1 vm)
  s.onHart <| h.vector word (fun vc => legalReduction vc vd vs2 vs1 vm && widenFits s.cfg vc) fun vc =>
    h.wideningSum vc word true vd vs2 vs1 vm

/-! ### Floating-point reductions (R174) -/

/-- A function of FpNumerics on a scalar and a list, at every format width and rounding mode. -/
abbrev FpRedOp := (f : Nat) → BitVec 3 → BitVec f → List (BitVec f) → BitVec f × BitVec 5

/-- The result on element `i` with EDIV > 1: the scalar is the low `f` bits of element `i` of `vs1`, the
sub-elements of `vs2` are converted to `f` bits. -/
def Hart.fpRedElem (h : Hart c) (vc : VConf) (op : FpRedOp) (f : Nat) (vs2 vs1 : RegNo) (i : Nat) :
    BitVec f × BitVec 5 :=
  op f h.frm ((h.elem vc vs1 i).setWidth f)
    ((List.range vc.ediv).map fun j => fpWiden vc.se f (h.subElem vc vs2 i j))

/-- The result with EDIV = 1 (R192): the scalar is element 0 of `vs1` at `f` bits, the active elements of
`vs2` are converted to `f` bits. -/
def Hart.fpRedWhole (h : Hart c) (vc : VConf) (op : FpRedOp) (f : Nat) (vs2 vs1 : RegNo) (vm : BitVec 1) :
    BitVec f × BitVec 5 :=
  op f h.frm (h.scalar vs1 f) ((h.activeList vc vm).map fun i => fpWiden vc.sew f (h.elem vc vs2 i))

/-- A floating-point reduction with inputs of SE bits and a result of `f` bits, which `box i` brings to
SEW bits for element `i` when EDIV > 1. The format is required before `vstart` is looked at, in the order R174 is
written (DEDUCED, log 27). R174 is about EDIV > 1; that the format is required with EDIV = 1 too is the model's
(DESIGN CHOICE, log 27). -/
def Hart.fpReduction (h : Hart c) (vc : VConf) (word : Word32) (op : FpRedOp) (f : Nat)
    (box : Nat → BitVec f → BitVec vc.sew) (vd vs2 vs1 : RegNo) (vm : BitVec 1) : HartOutcome c :=
  if !fpFormatOk c vc.se f then h.refuse .noFpFormat
  else
    h.ifStartZero vc word <|
      if vc.ediv = 1 then
        let r := h.fpRedWhole vc op f vs2 vs1 vm
        .next ((h.writeWhole vc vd f r.1).accrue (if h.vl = 0 then 0 else r.2)).finish
      else
        .next ((h.writeGroup vc vd vm fun i => box i (h.fpRedElem vc op f vs2 vs1 i).1).accrue
          (h.activeFlags vc vm fun i => (h.fpRedElem vc op f vs2 vs1 i).2)).finish

/-- The result of element `i` at SEW bits, the bits above it as FpRedSingleExt says (R174). -/
def Hart.boxSingle (h : Hart c) {f : Nat} (sew i : Nat) (a : BitVec f) : BitVec sew :=
  match c.fpRedSingle with
  | .nanbox => nanbox sew a
  | .zero => a.setWidth sew
  | .draw => insertBits (Config.drawnBits h.freeCount i sew) 0 a

/-- A single-width floating-point reduction (R186 to R189): `F` = SE. -/
def Hart.fpSingle (h : Hart c) (vc : VConf) (word : Word32) (op : FpRedOp) (vd vs2 vs1 : RegNo) (vm : BitVec 1) :
    HartOutcome c :=
  h.fpReduction vc word op vc.se (h.boxSingle vc.sew) vd vs2 vs1 vm

/-- The result width of a widening floating-point sum: `A` of R102 when EDIV > 1, 2 * SEW when EDIV = 1. -/
def fpWideWidth (c : Config) (vc : VConf) : Option Nat :=
  if vc.ediv = 1 then some (2 * vc.sew) else aFp vc.sew vc.ediv c.FLEN

/-- A widening floating-point sum (R190, R191), NaN-boxed to SEW. -/
def Hart.fpWidening (h : Hart c) (vc : VConf) (word : Word32) (op : FpRedOp) (vd vs2 vs1 : RegNo)
    (vm : BitVec 1) : HartOutcome c :=
  match fpWideWidth c vc with
  | none => h.refuse .noFpFormat
  | some f => h.fpReduction vc word op f (fun _ => nanbox vc.sew) vd vs2 vs1 vm

/-- `vfredsum.vs` (R186): unordered. -/
def execVfredsumVS (vd vs2 vs1 : RegNo) (vm : BitVec 1) (s : State) : Host.Outcome State Fault Refusal :=
  let h := s.hart
  let word := encodeWith s.cfg.dot (.vfredsumVS vd vs2 vs1 vm)
  s.onHart <| h.vector word (legalReduction · vd vs2 vs1 vm) fun vc =>
    h.fpSingle vc word fpUsum vd vs2 vs1 vm

/-- `vfredosum.vs` (R187): ordered, the scalar first, then the sub-elements from the least significant. -/
def execVfredosumVS (vd vs2 vs1 : RegNo) (vm : BitVec 1) (s : State) : Host.Outcome State Fault Refusal :=
  let h := s.hart
  let word := encodeWith s.cfg.dot (.vfredosumVS vd vs2 vs1 vm)
  s.onHart <| h.vector word (legalReduction · vd vs2 vs1 vm) fun vc =>
    h.fpSingle vc word fpOsum vd vs2 vs1 vm

/-- `vfredmin.vs` (R188). -/
def execVfredminVS (vd vs2 vs1 : RegNo) (vm : BitVec 1) (s : State) : Host.Outcome State Fault Refusal :=
  let h := s.hart
  let word := encodeWith s.cfg.dot (.vfredminVS vd vs2 vs1 vm)
  s.onHart <| h.vector word (legalReduction · vd vs2 vs1 vm) fun vc =>
    h.fpSingle vc word (fun f _ => fpMin f) vd vs2 vs1 vm

/-- `vfredmax.vs` (R189). -/
def execVfredmaxVS (vd vs2 vs1 : RegNo) (vm : BitVec 1) (s : State) : Host.Outcome State Fault Refusal :=
  let h := s.hart
  let word := encodeWith s.cfg.dot (.vfredmaxVS vd vs2 vs1 vm)
  s.onHart <| h.vector word (legalReduction · vd vs2 vs1 vm) fun vc =>
    h.fpSingle vc word (fun f _ => fpMax f) vd vs2 vs1 vm

/-- `vfwredsum.vs` (R190): unordered. -/
def execVfwredsumVS (vd vs2 vs1 : RegNo) (vm : BitVec 1) (s : State) : Host.Outcome State Fault Refusal :=
  let h := s.hart
  let word := encodeWith s.cfg.dot (.vfwredsumVS vd vs2 vs1 vm)
  s.onHart <| h.vector word (fun vc => legalReduction vc vd vs2 vs1 vm && widenFits s.cfg vc) fun vc =>
    h.fpWidening vc word fpUsum vd vs2 vs1 vm

/-- `vfwredosum.vs` (R191): ordered. -/
def execVfwredosumVS (vd vs2 vs1 : RegNo) (vm : BitVec 1) (s : State) : Host.Outcome State Fault Refusal :=
  let h := s.hart
  let word := encodeWith s.cfg.dot (.vfwredosumVS vd vs2 vs1 vm)
  s.onHart <| h.vector word (fun vc => legalReduction vc vd vs2 vs1 vm && widenFits s.cfg vc) fun vc =>
    h.fpWidening vc word fpOsum vd vs2 vs1 vm

end Sys2Proof.Machine
end

