-- ==== Sys2Proof/Machine/Scaffold.lean ====
section
/-! DEFINITION. The scaffold instructions of the base integer ISA (49_base_scaffold.md). They touch no
vector state and no flag. -/

namespace Sys2Proof.Machine

/-- `addi rd, rs1, imm` (R290). -/
def execAddi (rd rs1 : RegNo) (imm : BitVec 12) (s : State) : Host.Outcome State Fault Refusal :=
  s.onHart (.next ((s.hart.writeX rd (s.hart.readX rs1 + imm.signExtend s.cfg.XLEN)).advance))

/-- The address of `lw` and `sw`: `(x[rs1] + imm) mod 2^XLEN` (R291, R292). -/
def Hart.scaffoldAddr {c : Config} (h : Hart c) (rs1 : RegNo) (imm : BitVec 12) : BitVec c.XLEN :=
  h.readX rs1 + imm.signExtend c.XLEN

/-- `lw rd, imm(rs1)` (R291): alignment before access. -/
def execLw (rd rs1 : RegNo) (imm : BitVec 12) (s : State) : Host.Outcome State Fault Refusal :=
  let h := s.hart
  let addr := h.scaffoldAddr rs1 imm
  s.onHart <|
    if addr.toNat % 4 ≠ 0 then h.raise (.addressMisaligned .load addr.toNat)
    else if !inMemory s.plat addr 4 then h.raise (.accessFault .load addr.toNat)
    else .next ((h.writeX rd ((h.memRead s.plat addr 4).signExtend s.cfg.XLEN)).advance)

/-- `sw rs2, imm(rs1)` (R292): alignment, then access, then the program text. -/
def execSw (rs2 rs1 : RegNo) (imm : BitVec 12) (s : State) : Host.Outcome State Fault Refusal :=
  let h := s.hart
  let addr := h.scaffoldAddr rs1 imm
  s.onHart <|
    if addr.toNat % 4 ≠ 0 then h.raise (.addressMisaligned .store addr.toNat)
    else if !inMemory s.plat addr 4 then h.raise (.accessFault .store addr.toNat)
    else if meetsText s.plat addr 4 then h.refuse .storeToProgramText
    else .next (((h.setMem (memStore h.mem addr 4 ((h.readX rs2).setWidth (8 * 4)))).markStored [addr] 4).advance)

/-- `bne rs1, rs2, offset` (R293): only a taken branch checks its target. -/
def execBne (rs1 rs2 : RegNo) (offset : BitVec 13) (s : State) : Host.Outcome State Fault Refusal :=
  let h := s.hart
  let target := h.pc + offset.signExtend s.cfg.XLEN
  s.onHart <|
    if h.readX rs1 = h.readX rs2 then .next h.advance
    else if target.toNat % 4 ≠ 0 then h.raise (.addressMisaligned .fetch target.toNat)
    else .next (h.setPc target)

end Sys2Proof.Machine
end

