-- ==== Sys2Proof/Machine/Dispatch.lean ====
section
/-! DEFINITION. The dispatch: one arm per instruction, each one call of its meaning. -/

namespace Sys2Proof.Machine

/-- The meaning of an instruction. -/
def exec (i : Instr) (s : State) : Host.Outcome State Fault Refusal :=
  match i with
  | .vsetvli rd rs1 zimm => Sys2Proof.Machine.execVsetvli rd rs1 zimm s
  | .vsetvl rd rs1 rs2 => Sys2Proof.Machine.execVsetvl rd rs1 rs2 s
  | .vaddVV vd vs2 vs1 vm => Sys2Proof.Machine.execVaddVV vd vs2 vs1 vm s
  | .vaddVX vd vs2 rs1 vm => Sys2Proof.Machine.execVaddVX vd vs2 rs1 vm s
  | .vaddVI vd vs2 imm5 vm => Sys2Proof.Machine.execVaddVI vd vs2 imm5 vm s
  | .vsllVV vd vs2 vs1 vm => Sys2Proof.Machine.execVsllVV vd vs2 vs1 vm s
  | .vsllVX vd vs2 rs1 vm => Sys2Proof.Machine.execVsllVX vd vs2 rs1 vm s
  | .vsllVI vd vs2 imm5 vm => Sys2Proof.Machine.execVsllVI vd vs2 imm5 vm s
  | .vadcVVM vd vs2 vs1 vm => Sys2Proof.Machine.execVadcVVM vd vs2 vs1 vm s
  | .vadcVXM vd vs2 rs1 vm => Sys2Proof.Machine.execVadcVXM vd vs2 rs1 vm s
  | .vadcVIM vd vs2 imm5 vm => Sys2Proof.Machine.execVadcVIM vd vs2 imm5 vm s
  | .vmadcVVM vd vs2 vs1 vm => Sys2Proof.Machine.execVmadcVVM vd vs2 vs1 vm s
  | .vmadcVXM vd vs2 rs1 vm => Sys2Proof.Machine.execVmadcVXM vd vs2 rs1 vm s
  | .vmadcVIM vd vs2 imm5 vm => Sys2Proof.Machine.execVmadcVIM vd vs2 imm5 vm s
  | .vsbcVVM vd vs2 vs1 vm => Sys2Proof.Machine.execVsbcVVM vd vs2 vs1 vm s
  | .vsbcVXM vd vs2 rs1 vm => Sys2Proof.Machine.execVsbcVXM vd vs2 rs1 vm s
  | .vmsbcVVM vd vs2 vs1 vm => Sys2Proof.Machine.execVmsbcVVM vd vs2 vs1 vm s
  | .vmsbcVXM vd vs2 rs1 vm => Sys2Proof.Machine.execVmsbcVXM vd vs2 rs1 vm s
  | .vrgatherVV vd vs2 vs1 vm => Sys2Proof.Machine.execVrgatherVV vd vs2 vs1 vm s
  | .vrgatherVX vd vs2 rs1 vm => Sys2Proof.Machine.execVrgatherVX vd vs2 rs1 vm s
  | .vrgatherVI vd vs2 imm5 vm => Sys2Proof.Machine.execVrgatherVI vd vs2 imm5 vm s
  | .vredsumVS vd vs2 vs1 vm => Sys2Proof.Machine.execVredsumVS vd vs2 vs1 vm s
  | .vredandVS vd vs2 vs1 vm => Sys2Proof.Machine.execVredandVS vd vs2 vs1 vm s
  | .vredorVS vd vs2 vs1 vm => Sys2Proof.Machine.execVredorVS vd vs2 vs1 vm s
  | .vredxorVS vd vs2 vs1 vm => Sys2Proof.Machine.execVredxorVS vd vs2 vs1 vm s
  | .vredminuVS vd vs2 vs1 vm => Sys2Proof.Machine.execVredminuVS vd vs2 vs1 vm s
  | .vredminVS vd vs2 vs1 vm => Sys2Proof.Machine.execVredminVS vd vs2 vs1 vm s
  | .vredmaxuVS vd vs2 vs1 vm => Sys2Proof.Machine.execVredmaxuVS vd vs2 vs1 vm s
  | .vredmaxVS vd vs2 vs1 vm => Sys2Proof.Machine.execVredmaxVS vd vs2 vs1 vm s
  | .vwredsumuVS vd vs2 vs1 vm => Sys2Proof.Machine.execVwredsumuVS vd vs2 vs1 vm s
  | .vwredsumVS vd vs2 vs1 vm => Sys2Proof.Machine.execVwredsumVS vd vs2 vs1 vm s
  | .vfredsumVS vd vs2 vs1 vm => Sys2Proof.Machine.execVfredsumVS vd vs2 vs1 vm s
  | .vfredosumVS vd vs2 vs1 vm => Sys2Proof.Machine.execVfredosumVS vd vs2 vs1 vm s
  | .vfredminVS vd vs2 vs1 vm => Sys2Proof.Machine.execVfredminVS vd vs2 vs1 vm s
  | .vfredmaxVS vd vs2 vs1 vm => Sys2Proof.Machine.execVfredmaxVS vd vs2 vs1 vm s
  | .vfwredsumVS vd vs2 vs1 vm => Sys2Proof.Machine.execVfwredsumVS vd vs2 vs1 vm s
  | .vfwredosumVS vd vs2 vs1 vm => Sys2Proof.Machine.execVfwredosumVS vd vs2 vs1 vm s
  | .vdotuVV vd vs2 vs1 vm => Sys2Proof.Machine.execVdotuVV vd vs2 vs1 vm s
  | .vdotVV vd vs2 vs1 vm => Sys2Proof.Machine.execVdotVV vd vs2 vs1 vm s
  | .vfdotVV vd vs2 vs1 vm => Sys2Proof.Machine.execVfdotVV vd vs2 vs1 vm s
  | .addi rd rs1 imm => Sys2Proof.Machine.execAddi rd rs1 imm s
  | .lw rd rs1 imm => Sys2Proof.Machine.execLw rd rs1 imm s
  | .sw rs2 rs1 imm => Sys2Proof.Machine.execSw rs2 rs1 imm s
  | .bne rs1 rs2 offset => Sys2Proof.Machine.execBne rs1 rs2 offset s

end Sys2Proof.Machine
end

