-- ==== Sys2Proof/Machine/Fetch.lean ====
section
/-! DEFINITION. Fetching an instruction's bytes and running the word they make. -/

namespace Sys2Proof.Machine

/-- The word at `pc`: four bytes, little-endian, of the memory that fetch and data share (R52, R55, R70). -/
def Hart.fetchWord {c : Config} (h : Hart c) (p : Platform) : Word32 :=
  let b := fun k => h.byteAt p (byteAddr h.pc k)
  wordOfBytes (b 0) (b 1) (b 2) (b 3)

/-- Whether some byte of a fetch at `pc` lies outside the program text and has been stored: it is modified code (R277). -/
def Hart.fetchesStored {c : Config} (h : Hart c) (p : Platform) : Bool :=
  (List.range 4).any fun k =>
    (Memory.read p.text (byteAddr h.pc k)).isNone && h.stored.contains (byteAddr h.pc k)

/-- The word the next step runs. -/
def State.fetchWord (s : State) : Word32 := s.hart.fetchWord s.plat

/-- A word of the opcode table runs as its instruction; another is handed to the Base decoder, and refused
when that does not know it (R80, R84). -/
def execWord (w : Word32) (s : State) : Host.Outcome State Fault Refusal :=
  match decodeWith s.cfg.dot w with
  | some i => exec i s
  | none =>
    match decodeBase s.plat.baseRows w with
    | some op => execBase op w s
    | none => s.onHart (s.hart.refuse .notInScope)

/-- Fetch, then execute (R248): a `pc` outside memory raises AccessFault(fetch) (R54, R241). A fetch of bytes that have
been stored is refused, so that no fetch sees stale or fresh modified code (R277; DESIGN CHOICE, log 4). -/
def fetchAndRun (s : State) : Host.Outcome State Fault Refusal :=
  if !inMemory s.plat s.hart.pc 4 then s.onHart (s.hart.raise (.accessFault .fetch s.hart.pc.toNat))
  else if s.hart.fetchesStored s.plat then s.onHart (s.hart.refuse .fetchOfStoredByte)
  else execWord s.fetchWord s

/-- The platform with the word `w` as program text at `pc`, `pc` in memory, and no halt at `pc`, which a fetch at
`pc` needs. -/
def placeWord {c : Config} (p : Platform) (pc : BitVec c.XLEN) (w : Word32) : Platform :=
  { p with
    haltPc := if p.haltPc = some pc.toNat then none else p.haltPc
    memory := if inMemory p pc 4 then p.memory else ⟨0, 2 ^ c.XLEN⟩ :: p.memory
    text := memStore p.text pc 4 w }

end Sys2Proof.Machine
end

