-- ==== Sys2Proof/Machine/Step.lean ====
section
/-! DEFINITION. One step of the machine. -/

namespace Sys2Proof.Machine

/-- One step: at HALT_PC the run has ended and the state stays (R275, log 7); otherwise the instruction at
`pc` is fetched and run. -/
def step (s : State) : Host.Outcome State Fault Refusal :=
  if s.plat.haltPc = some s.hart.pc.toNat then .next s else fetchAndRun s

/-- The state with the instruction of bits `w` stored where `step` fetches its next instruction. -/
def State.withFetchWord (s : State) (nbits w : Nat) : State where
  cfg := s.cfg
  plat := placeWord s.plat s.hart.pc (BitVec.ofNat 32 (w % 2 ^ nbits))
  hart := s.hart

end Sys2Proof.Machine
end

