-- ==== Sys2Proof/Safety.lean ====
section
/-! DEFINITION. The terms statements use: the invariant of the machine, what an instruction leaves
unchanged, and the result in a destination group. -/

namespace Sys2Proof

/-! ### Classes of instructions -/

/-- The mask and the match of an instruction's row of spec/opcode_table.json (R72, R76, R78, R79). -/
def opcodeRow : Instr → Word32 × Word32
  | .vsetvli _ _ _ => (0x8000707F#32, 0x00007057#32)
  | .vsetvl _ _ _ => (0xFE00707F#32, 0x80007057#32)
  | .vaddVV _ _ _ _ => (0xFC00707F#32, 0x00000057#32)
  | .vaddVX _ _ _ _ => (0xFC00707F#32, 0x00004057#32)
  | .vaddVI _ _ _ _ => (0xFC00707F#32, 0x00003057#32)
  | .vsllVV _ _ _ _ => (0xFC00707F#32, 0x94000057#32)
  | .vsllVX _ _ _ _ => (0xFC00707F#32, 0x94004057#32)
  | .vsllVI _ _ _ _ => (0xFC00707F#32, 0x94003057#32)
  | .vadcVVM _ _ _ _ => (0xFC00707F#32, 0x40000057#32)
  | .vadcVXM _ _ _ _ => (0xFC00707F#32, 0x40004057#32)
  | .vadcVIM _ _ _ _ => (0xFC00707F#32, 0x40003057#32)
  | .vmadcVVM _ _ _ _ => (0xFC00707F#32, 0x44000057#32)
  | .vmadcVXM _ _ _ _ => (0xFC00707F#32, 0x44004057#32)
  | .vmadcVIM _ _ _ _ => (0xFC00707F#32, 0x44003057#32)
  | .vsbcVVM _ _ _ _ => (0xFC00707F#32, 0x48000057#32)
  | .vsbcVXM _ _ _ _ => (0xFC00707F#32, 0x48004057#32)
  | .vmsbcVVM _ _ _ _ => (0xFC00707F#32, 0x4C000057#32)
  | .vmsbcVXM _ _ _ _ => (0xFC00707F#32, 0x4C004057#32)
  | .vrgatherVV _ _ _ _ => (0xFC00707F#32, 0x30000057#32)
  | .vrgatherVX _ _ _ _ => (0xFC00707F#32, 0x30004057#32)
  | .vrgatherVI _ _ _ _ => (0xFC00707F#32, 0x30003057#32)
  | .vredsumVS _ _ _ _ => (0xFC00707F#32, 0x00002057#32)
  | .vredandVS _ _ _ _ => (0xFC00707F#32, 0x04002057#32)
  | .vredorVS _ _ _ _ => (0xFC00707F#32, 0x08002057#32)
  | .vredxorVS _ _ _ _ => (0xFC00707F#32, 0x0C002057#32)
  | .vredminuVS _ _ _ _ => (0xFC00707F#32, 0x10002057#32)
  | .vredminVS _ _ _ _ => (0xFC00707F#32, 0x14002057#32)
  | .vredmaxuVS _ _ _ _ => (0xFC00707F#32, 0x18002057#32)
  | .vredmaxVS _ _ _ _ => (0xFC00707F#32, 0x1C002057#32)
  | .vwredsumuVS _ _ _ _ => (0xFC00707F#32, 0xC0000057#32)
  | .vwredsumVS _ _ _ _ => (0xFC00707F#32, 0xC4000057#32)
  | .vfredsumVS _ _ _ _ => (0xFC00707F#32, 0x04001057#32)
  | .vfredosumVS _ _ _ _ => (0xFC00707F#32, 0x0C001057#32)
  | .vfredminVS _ _ _ _ => (0xFC00707F#32, 0x14001057#32)
  | .vfredmaxVS _ _ _ _ => (0xFC00707F#32, 0x1C001057#32)
  | .vfwredsumVS _ _ _ _ => (0xFC00707F#32, 0xC4001057#32)
  | .vfwredosumVS _ _ _ _ => (0xFC00707F#32, 0xCC001057#32)
  | .vdotuVV _ _ _ _ => (0xFC00707F#32, 0xE0000057#32)
  | .vdotVV _ _ _ _ => (0xFC00707F#32, 0xE4000057#32)
  | .vfdotVV _ _ _ _ => (0xFC00707F#32, 0xE4001057#32)
  | .addi _ _ _ => (0x0000707F#32, 0x00000013#32)
  | .lw _ _ _ => (0x0000707F#32, 0x00002003#32)
  | .sw _ _ _ => (0x0000707F#32, 0x00002023#32)
  | .bne _ _ _ => (0x0000707F#32, 0x00001063#32)

/-- The vector instructions of R81: all but `vsetvli`, `vsetvl` and the scaffold. -/
def Instr.isVector : Instr → Bool
  | .vsetvli _ _ _ | .vsetvl _ _ _ | .addi _ _ _ | .lw _ _ _ | .sw _ _ _ | .bne _ _ _ => false
  | _ => true

/-- The instructions that may write `fflags` (R35, R174, R231). -/
def Instr.isFloat : Instr → Bool
  | .vfredsumVS _ _ _ _ | .vfredosumVS _ _ _ _ | .vfredminVS _ _ _ _ | .vfredmaxVS _ _ _ _
  | .vfwredsumVS _ _ _ _ | .vfwredosumVS _ _ _ _ | .vfdotVV _ _ _ _ => true
  | _ => false

/-- The instructions that the source adds (R78). -/
def Instr.isNew : Instr → Bool
  | .vdotuVV _ _ _ _ | .vdotVV _ _ _ _ | .vfdotVV _ _ _ _ => true
  | _ => false

/-- The instructions of the opcode table that store (R292). -/
def Instr.isStore : Instr → Bool
  | .sw _ _ _ => true
  | _ => false

/-- `vsetvli` and `vsetvl`. -/
def Instr.isConfig : Instr → Bool
  | .vsetvli _ _ _ | .vsetvl _ _ _ => true
  | _ => false

end Sys2Proof

namespace Sys2Proof.Machine

variable {c : Config}

/-! ### The invariant -/

/-- `vtype` is one that `vsetvli` and `vsetvl` leave: a supported value, or `vill` alone (R32, R106). -/
def Hart.vtypeLegal (h : Hart c) : Prop := (∃ vc, vconf c h.vtype = some vc) ∨ h.vtype = villOnly c.XLEN

/-- `vl` is at most VLMAX (R26), and zero while `vtype` is not supported (R32). -/
def Hart.vlBounded (h : Hart c) : Prop :=
  match vconf c h.vtype with
  | some vc => h.vl.toNat ≤ vc.vlmax c
  | none => h.vl = 0

/-- What every step keeps: `pc` is a multiple of 4 (R22), `x[0]` reads as zero (R20), memory has its
canonical form and lists addresses of XLEN bits only (R52), `vtype` is legal (R32) and `vl` is bounded (R26). -/
structure Inv (s : State) : Prop where
  pcAligned : s.hart.pc.toNat % 4 = 0
  xZero : s.hart.readX 0 = 0
  memWf : s.hart.mem.wf = true
  memBounded : ∀ e ∈ s.hart.mem, e.1 < 2 ^ s.cfg.XLEN
  vtypeLegal : s.hart.vtypeLegal
  vlBounded : s.hart.vlBounded

/-! ### Frames -/

/-- All state but `pc`, `vstart`, the vector registers and `fflags` is as before; memory is compared byte by
byte, over any program text. -/
structure SameControl (h t : Hart c) : Prop where
  x : t.x = h.x
  f : t.f = h.f
  vl : t.vl = h.vl
  vtype : t.vtype = h.vtype
  frm : t.frm = h.frm
  vxrm : t.vxrm = h.vxrm
  vxsat : t.vxsat = h.vxsat
  mem : ∀ (p : Platform) a, t.byteAt p a = h.byteAt p a

/-- All vector and floating-point state is as before: what the scaffold instructions leave alone. -/
structure SameVector (h t : Hart c) : Prop where
  v : t.v = h.v
  f : t.f = h.f
  vl : t.vl = h.vl
  vtype : t.vtype = h.vtype
  vstart : t.vstart = h.vstart
  frm : t.frm = h.frm
  fflags : t.fflags = h.fflags
  vxrm : t.vxrm = h.vxrm
  vxsat : t.vxsat = h.vxsat

/-- The integer registers after `x[rd]` was written with `a`: a write to `x[0]` is discarded (R20). -/
def XWritten (h t : Hart c) (rd : RegNo) (a : BitVec c.XLEN) : Prop :=
  ∀ q, t.readX q = if q = rd ∧ rd ≠ 0 then a else h.readX q

/-- A completed vector instruction that writes no flag: `vstart` is zero, `pc` has moved past the
instruction, and only vector registers may differ otherwise. -/
structure Completed (h t : Hart c) : Prop where
  same : SameControl h t
  fflags : t.fflags = h.fflags
  vstart : t.vstart = 0
  pc : t.pc = h.pc + 4

/-- A completed floating-point vector instruction, which ORs `flags` into `fflags`. -/
structure CompletedFp (h t : Hart c) (flags : BitVec 5) : Prop where
  same : SameControl h t
  fflags : t.fflags = h.fflags ||| flags
  vstart : t.vstart = 0
  pc : t.pc = h.pc + 4

/-! ### Results -/

/-- What the base may do to a masked-off or tail element (R13): leave it, or, when its policy bit says
agnostic, overwrite it with ones. -/
def offAllowed {w : Nat} (agnostic : Bool) (old new : BitVec w) : Prop :=
  new = old ∨ (agnostic = true ∧ new = BitVec.allOnes w)

/-- `tail(i)` of R14 for an element that is not `prestart(i)`. -/
def Hart.tail (h : Hart c) (i : Nat) : Bool := !h.prestart i && !h.body i

/-- The destination of element `i`, before and after, for an instruction whose active elements satisfy
`result` (the case split of R151 by the predicates of R14). -/
structure ElemResult {w : Nat} (h : Hart c) (vc : VConf) (vm : BitVec 1) (i : Nat) (old new : BitVec w)
    (result : BitVec w → Prop) : Prop where
  prestart : h.prestart i = true → new = old
  active : h.active vc vm i = true → result new
  inactive : h.inactive vc vm i = true → offAllowed vc.vma old new
  tail : h.tail i = true → offAllowed vc.vta old new

/-- The vector registers after an instruction with the destination group `vd`: each element below VLMAX has
its result, the rest of the group's bits and every other register are unchanged. -/
structure GroupResult (h t : Hart c) (vc : VConf) (vd : RegNo) (vm : BitVec 1)
    (result : Nat → BitVec vc.sew → Prop) : Prop where
  elems : ∀ i, i < vc.vlmax c → ElemResult h vc vm i (h.elem vc vd i) (t.elem vc vd i) (result i)
  beyond : ∀ i, vc.vlmax c ≤ i → i < vc.lmul.num * (c.VLEN / vc.sew) → t.elem vc vd i = h.elem vc vd i
  others : ∀ n, n < vd.toNat ∨ vd.toNat + vc.lmul.num ≤ n → vreg t.v n = vreg h.v n

/-- The vector registers after an instruction that writes a mask: the mask field of each element below VLMAX
has its result, and every other register is unchanged. -/
structure MaskResult (h t : Hart c) (vc : VConf) (vd : RegNo) (vm : BitVec 1) (result : Nat → Bool) : Prop where
  elems : ∀ i, i < vc.vlmax c →
    ElemResult h vc vm i (h.field vd (maskStride c vc) i) (t.field vd (maskStride c vc) i)
      fun new => new = (BitVec.ofBool (result i)).setWidth (maskStride c vc)
  beyond : ∀ i, vc.vlmax c ≤ i → i < c.VLEN / maskStride c vc →
    t.field vd (maskStride c vc) i = h.field vd (maskStride c vc) i
  others : ∀ n, n ≠ vd.toNat → vreg t.v n = vreg h.v n

/-- The vector registers after a whole-vector reduction (R192): element 0 of `vd`, of `w` bits, is `a`, the
other elements of that register are tail elements, every other register is unchanged. -/
structure ScalarResult (h t : Hart c) (vc : VConf) (vd : RegNo) (w : Nat) (a : BitVec w) : Prop where
  elem0 : t.scalar vd w = a
  rest : ∀ i, 0 < i → i < c.VLEN / w → offAllowed vc.vta (h.elemOf .m1 vd w i) (t.elemOf .m1 vd w i)
  others : ∀ n, n ≠ vd.toNat → vreg t.v n = vreg h.v n

/-- Sub-element `j` of `new` is `value j` for every `j` below EDIV (R15). -/
def SubsAre (vc : VConf) (new : BitVec vc.sew) (value : Nat → BitVec vc.se) : Prop :=
  ∀ j, j < vc.ediv → sub vc.se new j = value j

/-- `vsetvli` or `vsetvl` completed: `vl`, `vtype` and one integer register may differ, `vstart` is zero and
`pc` has moved past the instruction (R106). -/
structure Configured (h t : Hart c) : Prop where
  v : t.v = h.v
  f : t.f = h.f
  frm : t.frm = h.frm
  fflags : t.fflags = h.fflags
  vxrm : t.vxrm = h.vxrm
  vxsat : t.vxsat = h.vxsat
  mem : ∀ (p : Platform) a, t.byteAt p a = h.byteAt p a
  vstart : t.vstart = 0
  pc : t.pc = h.pc + 4

/-- The requested `vtype` was supported: it is in force, and `vl` and `x[rd]` hold the length `setvl` gives
(R106). -/
def ConfiguredTo (h t : Hart c) (rd rs1 : RegNo) (request : BitVec c.XLEN) (vc : VConf) : Prop :=
  Configured h t ∧ t.vtype = request ∧
    t.vl.toNat = setvl c (if rs1 = 0 then vc.vlmax c else (h.readX rs1).toNat) (vc.vlmax c) ∧
    XWritten h t rd t.vl

/-- The requested `vtype` was not supported: `vill` is set, every other bit of `vtype` is zero, and `vl` and
`x[rd]` are zero (R32, R106). -/
def ConfiguredToVill (h t : Hart c) (rd : RegNo) : Prop :=
  Configured h t ∧ t.vtype.msb = true ∧ (∀ k, k < c.XLEN - 1 → t.vtype.getLsbD k = false) ∧ t.vl = 0 ∧
    XWritten h t rd 0

/-! ### Completion: `exec` answers a next state, and what that state is -/

/-- Base leaves the instruction to the rules of the spec: Base.legal does not reject it for a reason beyond the checks the
spec names (R13; log 31), and with EDIV = 1 Base.exec is what the spec says, which for an instruction that the source
adds is no matter of Base (log 35). -/
def BaseAllows (s : State) (i : Instr) : Prop :=
  baseMatches s.cfg.baseRejects (encodeWith s.cfg.dot i) s.hart.vtype = false ∧
    (i.isNew = false → decodeEdiv (vedivField s.cfg.layout s.hart.vtype) = 1 →
      baseMatches s.cfg.baseOther (encodeWith s.cfg.dot i) s.hart.vtype = false)

/-- The same for a word that has no row in the opcode table, under the `vtype` value `t`. -/
abbrev BaseAllowsWord (c : Config) (w : Word32) (t : BitVec c.XLEN) : Prop :=
  baseMatches c.baseRejects w t = false ∧
    (decodeEdiv (vedivField c.layout t) = 1 → baseMatches c.baseOther w t = false)

/-- Where Base allows it, the instruction completes and writes the destination group `vd`. -/
def WritesGroup (i : Instr) (s : State) (vc : VConf) (vd : RegNo) (vm : BitVec 1)
    (result : Nat → BitVec vc.sew → Prop) : Prop :=
  BaseAllows s i → ∃ t, exec i s = .next ⟨s.cfg, s.plat, t⟩ ∧ Completed s.hart t ∧ GroupResult s.hart t vc vd vm result

/-- Where Base allows it, the floating-point instruction completes, writes the destination group `vd` and ORs `flags`
into `fflags`. -/
def WritesGroupFp (i : Instr) (s : State) (vc : VConf) (vd : RegNo) (vm : BitVec 1) (flags : BitVec 5)
    (result : Nat → BitVec vc.sew → Prop) : Prop :=
  BaseAllows s i → ∃ t, exec i s = .next ⟨s.cfg, s.plat, t⟩ ∧ CompletedFp s.hart t flags ∧
    GroupResult s.hart t vc vd vm result

/-- Where Base allows it, the instruction completes and writes the mask register `vd`, every body element of it. -/
def WritesMask (i : Instr) (s : State) (vc : VConf) (vd : RegNo) (result : Nat → Bool) : Prop :=
  BaseAllows s i → ∃ t, exec i s = .next ⟨s.cfg, s.plat, t⟩ ∧ Completed s.hart t ∧ MaskResult s.hart t vc vd 1 result

/-- Where Base allows it, the whole-vector reduction completes with `a` in element 0 of `vd`; with `vl` = 0 it writes
no vector register (log 18). -/
def WritesScalar (i : Instr) (s : State) (vc : VConf) (vd : RegNo) (w : Nat) (a : BitVec w) : Prop :=
  BaseAllows s i → ∃ t, exec i s = .next ⟨s.cfg, s.plat, t⟩ ∧ Completed s.hart t ∧
    (s.hart.vl ≠ 0 → ScalarResult s.hart t vc vd w a) ∧ (s.hart.vl = 0 → t.v = s.hart.v)

/-- The same for a floating-point reduction with the result and the flags `r`. -/
def WritesScalarFp (i : Instr) (s : State) (vc : VConf) (vd : RegNo) (w : Nat) (r : BitVec w × BitVec 5) : Prop :=
  BaseAllows s i → ∃ t, exec i s = .next ⟨s.cfg, s.plat, t⟩ ∧ CompletedFp s.hart t (if s.hart.vl = 0 then 0 else r.2) ∧
    (s.hart.vl ≠ 0 → ScalarResult s.hart t vc vd w r.1) ∧ (s.hart.vl = 0 → t.v = s.hart.v)

/-- The instruction raises IllegalInstruction with its own word (R241). -/
def TrapsIllegal (i : Instr) (s : State) : Prop :=
  exec i s = .fault (.trap (.illegalInstruction (encodeWith s.cfg.dot i)) s.hart.pc.toNat)

/-- The instruction raises IllegalInstruction, unless Base.legal accepts it against the checks that the spec names
(R13; log 31). -/
def IllegalForBase (i : Instr) (s : State) : Prop :=
  baseMatches s.cfg.baseAccepts (encodeWith s.cfg.dot i) s.hart.vtype = false → TrapsIllegal i s

/-- An optional member of RegularArith runs: EDIV is 1, or the implementation has the member and the base
has the operation at SE bits (R153). -/
def RegularRuns (c : Config) (vc : VConf) (m : RegularExtra) : Prop :=
  vc.ediv = 1 ∨ (c.regular.contains m = true ∧ 8 ≤ vc.se)

/-! ### Values -/

/-- The width table of R101, a row a line: SEW, EDIV, sub-element, sum, dot, and the floating-point
accumulator for FLEN = 32, 64, 128. -/
def widthTable : List (Nat × Nat × Nat × Nat × Nat × Option Nat × Option Nat × Option Nat) :=
  [(8, 2, 4, 8, 8, none, none, none), (8, 4, 2, 8, 8, none, none, none), (8, 8, 1, 8, 8, none, none, none),
    (16, 2, 8, 16, 16, none, none, none), (16, 4, 4, 8, 16, none, none, none),
    (16, 8, 2, 8, 8, none, none, none), (32, 2, 16, 32, 32, some 32, some 32, some 32),
    (32, 4, 8, 16, 32, none, none, none), (32, 8, 4, 8, 16, none, none, none),
    (64, 2, 32, 64, 64, some 32, some 64, some 64), (64, 4, 16, 32, 64, some 32, some 32, some 32),
    (64, 8, 8, 16, 32, none, none, none), (128, 2, 64, 128, 128, some 32, some 64, some 128),
    (128, 4, 32, 64, 128, some 32, some 64, some 64), (128, 8, 16, 32, 64, some 32, some 32, some 32),
    (256, 2, 128, 256, 256, some 32, some 64, some 128), (256, 4, 64, 128, 256, some 32, some 64, some 128),
    (256, 8, 32, 64, 128, some 32, some 64, some 64)]

/-- The widths of the IEEE 754 formats of GK12. -/
def fpFormats : List Nat := [16, 32, 64, 128]

/-- The real number that a finite floating-point number stands for. -/
def fpValue {w : Nat} (b : BitVec w) : ℚ := fpUnits b / 2 ^ quantum w

/-- The number `a` is below the number `b` or is `b`: infinities count, and -0.0 is below +0.0 (R188). -/
def fpBelow {w : Nat} (a b : BitVec w) : Prop :=
  if fpFinite a = true then
    if fpFinite b = true then fpUnits a < fpUnits b ∨ (fpUnits a = fpUnits b ∧ (b.msb = true → a.msb = true))
    else b.msb = false
  else a.msb = true ∨ (fpFinite b = false ∧ b.msb = false)

/-- The number `r` is no worse a choice than the number `x`: for a minimum it is not above it (R188), for a maximum not
below it (R189). -/
def fpNoWorse {w : Nat} (smaller : Bool) (r x : BitVec w) : Prop := if smaller then fpBelow r x else fpBelow x r

/-- The sub-elements of element `i` of the group at `r`, sub-element 0 first (R15). -/
def Hart.subs (h : Hart c) (vc : VConf) (r : RegNo) (i : Nat) : List (BitVec vc.se) :=
  (List.range vc.ediv).map fun j => sub vc.se (h.elem vc r i) j

/-- The active elements of the group at `r`, element 0 first (R14, R192). -/
def Hart.activeElems (h : Hart c) (vc : VConf) (vm : BitVec 1) (r : RegNo) : List (BitVec vc.sew) :=
  ((List.range (vc.vlmax c)).filter (h.active vc vm)).map (h.elem vc r)

/-- The low `w` bits of element `i` of the group at `r`: the scalar input of R172 and the accumulator input
of R224. -/
def Hart.lowBits (h : Hart c) (vc : VConf) (r : RegNo) (w i : Nat) : BitVec w := (h.elem vc r i).setWidth w

end Sys2Proof.Machine
end

