-- ==== Sys2Proof/Certificates/Slice0/Obligations.lean ====
section
/-! DEFINITION. The statements about the model, each a `def Obligations.<Name> : Prop`. They speak of
`vconf c vtype = some vc` where the spec says that `vtype` is supported and means the setting `vc`, and of
`legal…` where it says that the checks of Base.legal that it names hold (log 11, log 16). `Writes…`, `BaseAllows` and
`IllegalForBase` leave out the words for which a base has a Base.legal or a Base.exec of its own (log 31, log 35). -/

open Sys2Proof Sys2Proof.Machine

/-! ### Encoding -/

/-- Decoding the encoded word of any well-formed instruction gives the instruction back, under every DotEncoding whose
rows overlap no other (R8, R80), the default one among them. -/
def Obligations.DecodeEncodeRoundTrip : Prop :=
  (∀ i : Instr, i.wellFormed = true → decode (encode i) = some i) ∧
    ∀ (d : DotEncoding) (i : Instr), d.disjoint = true → i.wellFormed = true →
      decodeWith d (encodeWith d i) = some i

/-- A word that decodes is the encoding of the well-formed instruction it decodes to, under every DotEncoding. -/
def Obligations.EncodeDecodeRoundTrip : Prop :=
  ∀ (d : DotEncoding) (w : Word32) (i : Instr), decodeWith d w = some i →
    i.wellFormed = true ∧ encodeWith d i = w

/-- A word that matches a row of the opcode table decodes to an instruction of that row (R80); the table has the
default DotEncoding. -/
def Obligations.DecodeFollowsOpcodeTable : Prop :=
  ∀ (w : Word32) (r : Instr), w &&& (opcodeRow r).1 = (opcodeRow r).2 →
    ∃ i, decode w = some i ∧ opcodeRow i = opcodeRow r

/-- Words the spec prints decode to the instructions it prints beside them. -/
def Obligations.PrintedWordsDecode : Prop :=
  decode 0x211572D7 = some (.vsetvli 5 10 0x211) ∧ decode 0x806572D7 = some (.vsetvl 5 10 6) ∧
    decode 0x3210B257 = some (.vrgatherVI 4 1 1 1) ∧ decode 0x00100593 = some (.addi 11 0 1) ∧
    decode 0xFFF60613 = some (.addi 12 12 0xFFF) ∧ decode 0x00052583 = some (.lw 11 10 0) ∧
    decode 0x00D52223 = some (.sw 13 10 4) ∧ decode 0xFE061CE3 = some (.bne 12 0 0x1FF8)

/-! ### `vtype` and the widths -/

/-- What a `vtype` value means and when it is supported (R28, R30, R31, R106): EDIV, SEW, LMUL and the policy bits are
read at the places the layout says, `vill` and the reserved bits are zero, `vlmul` = 100 is reserved, and the limits
hold; those on LMUL and SEW beyond ELEN are the base's (log 11). LMUL is given by its numerator and denominator. -/
def Obligations.VtypeFieldsGiveEdivAndSew : Prop :=
  ∀ (c : Config) (t : BitVec c.XLEN) (vc : VConf),
    let vlmul :=
      match c.layout with
      | .l08 => t.toNat % 4
      | .l09 => t.toNat % 4 + 4 * (t.toNat / 32 % 2)
      | .l10 => t.toNat % 8
    vconf c t = some vc ↔
      vc.ediv = 2 ^ (t.toNat / (if c.layout = .l08 then 32 else 256) % 4) ∧
        vc.sew = 8 * 2 ^ (t.toNat / (if c.layout = .l10 then 8 else 4) % 8) ∧
        (vlmul, vc.lmul.num, vc.lmul.den) ∈
          [(0, 1, 1), (1, 2, 1), (2, 4, 1), (3, 8, 1), (5, 1, 8), (6, 1, 4), (7, 1, 2)] ∧
        vc.vta = (c.layout != .l08 && t.toNat / 64 % 2 == 1) ∧
        vc.vma = (c.layout != .l08 && t.toNat / 128 % 2 == 1) ∧
        t.toNat < (if c.layout = .l08 then 128 else 1024) ∧
        vc.sew * vc.lmul.den ≤ c.ELEN ∧ vc.sew * vc.lmul.den ≤ c.VLEN ∧ c.SELEN ≤ vc.sew / vc.ediv

/-- The width functions give every entry of the width table (R101). -/
def Obligations.WidthTable : Prop :=
  ∀ sew ediv se sum dot f32 f64 f128, (sew, ediv, se, sum, dot, f32, f64, f128) ∈ widthTable →
    sew / ediv = se ∧ wSum sew ediv = sum ∧ wDot sew ediv = dot ∧ aFp sew ediv 32 = f32 ∧
      aFp sew ediv 64 = f64 ∧ aFp sew ediv 128 = f128

/-- Every integer result width lies between SE and SEW, so every result fits in its element (R102); the
floating-point accumulator is at most SEW wide (R103). -/
def Obligations.ResultWidthsFitTheElement : Prop :=
  ∀ (c : Config) (t : BitVec c.XLEN) (vc : VConf), vconf c t = some vc → 1 < vc.ediv →
    vc.se ≤ wNonsum vc.sew vc.ediv ∧ wNonsum vc.sew vc.ediv ≤ vc.sew ∧
      wNonsum vc.sew vc.ediv ≤ wSum vc.sew vc.ediv ∧ wSum vc.sew vc.ediv ≤ wDot vc.sew vc.ediv ∧
      wDot vc.sew vc.ediv ≤ vc.sew ∧ ∀ a, aFp vc.sew vc.ediv c.FLEN = some a → a ≤ vc.sew

/-- `vsetvli` and `vsetvl` with a supported request (R106, R107): `vtype`, `vl`, `x[rd]`, and nothing else. -/
def Obligations.SupportedVtypeIsSet : Prop :=
  ∀ (s : State) (rd rs1 : RegNo) (request : BitVec s.cfg.XLEN) (vc : VConf), ¬ (rs1 = 0 ∧ rd = 0) →
    vconf s.cfg request = some vc →
    (∀ zimm : BitVec 11, zimm.setWidth s.cfg.XLEN = request → ∃ t,
        exec (.vsetvli rd rs1 zimm) s = .next ⟨s.cfg, s.plat, t⟩ ∧ ConfiguredTo s.hart t rd rs1 request vc) ∧
      ∀ rs2 : RegNo, s.hart.readX rs2 = request → ∃ t,
        exec (.vsetvl rd rs1 rs2) s = .next ⟨s.cfg, s.plat, t⟩ ∧ ConfiguredTo s.hart t rd rs1 request vc

/-- `vsetvli` and `vsetvl` with a request that is not supported: `vill`, and `vl` and `x[rd]` are zero (R32,
R106, R107). -/
def Obligations.UnsupportedVtypeSetsVill : Prop :=
  ∀ (s : State) (rd rs1 : RegNo) (request : BitVec s.cfg.XLEN), ¬ (rs1 = 0 ∧ rd = 0) →
    vconf s.cfg request = none →
    (∀ zimm : BitVec 11, zimm.setWidth s.cfg.XLEN = request → ∃ t,
        exec (.vsetvli rd rs1 zimm) s = .next ⟨s.cfg, s.plat, t⟩ ∧ ConfiguredToVill s.hart t rd) ∧
      ∀ rs2 : RegNo, s.hart.readX rs2 = request → ∃ t,
        exec (.vsetvl rd rs1 rs2) s = .next ⟨s.cfg, s.plat, t⟩ ∧ ConfiguredToVill s.hart t rd

/-- A request for sub-elements narrower than SELEN sets `vill`, clears the other bits of `vtype` and sets
`vl` to 0 (R105). -/
def Obligations.NarrowerThanSelenSetsVill : Prop :=
  ∀ (s : State) (rd rs1 rs2 : RegNo) (zimm : BitVec 11), ¬ (rs1 = 0 ∧ rd = 0) →
    (decodeSew (vsewField s.cfg.layout (zimm.setWidth s.cfg.XLEN)) /
        decodeEdiv (vedivField s.cfg.layout (zimm.setWidth s.cfg.XLEN)) < s.cfg.SELEN →
      ∃ t, exec (.vsetvli rd rs1 zimm) s = .next ⟨s.cfg, s.plat, t⟩ ∧ ConfiguredToVill s.hart t rd) ∧
    (decodeSew (vsewField s.cfg.layout (s.hart.readX rs2)) /
        decodeEdiv (vedivField s.cfg.layout (s.hart.readX rs2)) < s.cfg.SELEN →
      ∃ t, exec (.vsetvl rd rs1 rs2) s = .next ⟨s.cfg, s.plat, t⟩ ∧ ConfiguredToVill s.hart t rd)

/-- `rd` and `rs1` both `x0`: refused (R106). -/
def Obligations.BothX0IsRefused : Prop :=
  ∀ (s : State) (zimm : BitVec 11) (rs2 : RegNo),
    exec (.vsetvli 0 0 zimm) s = .refused (.vsetvlBothX0 s.hart.pc.toNat) ∧
      exec (.vsetvl 0 0 rs2) s = .refused (.vsetvlBothX0 s.hart.pc.toNat)

/-- The length `setvl` chooses, in its three ranges (R106). -/
def Obligations.SetvlRanges : Prop :=
  ∀ (c : Config) (avl vlmax : Nat),
    (avl ≤ vlmax → setvl c avl vlmax = avl) ∧
      (vlmax < avl → avl < 2 * vlmax → (avl + 1) / 2 ≤ setvl c avl vlmax ∧ setvl c avl vlmax ≤ vlmax) ∧
      (2 * vlmax ≤ avl → setvl c avl vlmax = vlmax)

/-- EDIV does not enter VLMAX or `vl` (R108): VLMAX = LMUL * VLEN / SEW, and two supported requests with the
same SEW and LMUL give the same `vl` and the same integer registers, whatever their EDIV, in `vsetvli` and in
`vsetvl`. -/
def Obligations.EdivDoesNotEnterVl : Prop :=
  ∀ (s : State) (rd rs1 : RegNo) (r1 r2 : BitVec s.cfg.XLEN) (vc1 vc2 : VConf), ¬ (rs1 = 0 ∧ rd = 0) →
    vconf s.cfg r1 = some vc1 → vconf s.cfg r2 = some vc2 → vc1.sew = vc2.sew → vc1.lmul = vc2.lmul →
    vc1.vlmax s.cfg * (vc1.lmul.den * vc1.sew) = vc1.lmul.num * s.cfg.VLEN ∧
      vc2.vlmax s.cfg = vc1.vlmax s.cfg ∧
      ∀ i1 i2, ((∃ z1 z2, z1.setWidth s.cfg.XLEN = r1 ∧ z2.setWidth s.cfg.XLEN = r2 ∧ i1 = .vsetvli rd rs1 z1 ∧
            i2 = .vsetvli rd rs1 z2) ∨
          ∃ q1 q2, s.hart.readX q1 = r1 ∧ s.hart.readX q2 = r2 ∧ i1 = .vsetvl rd rs1 q1 ∧
            i2 = .vsetvl rd rs1 q2) →
        ∃ t1 t2, exec i1 s = .next ⟨s.cfg, s.plat, t1⟩ ∧ exec i2 s = .next ⟨s.cfg, s.plat, t2⟩ ∧
          t1.vl = t2.vl ∧ ∀ q, t1.readX q = t2.readX q

/-! ### Regular arithmetic -/

/-- `vadd.vv` (R151, R154): each sub-element of an active element is the sum modulo 2^SE. With EDIV = 1, for which R151
and R154 are not written, the one sub-element is the element, by R110 and the model's reading of Base (log 9). -/
def Obligations.VaddVVAddsSubElements : Prop :=
  ∀ (s : State) (vd vs2 vs1 : RegNo) (vm : BitVec 1) (vc : VConf),
    vconf s.cfg s.hart.vtype = some vc → legalVV vc vd vs2 vs1 vm = true →
    WritesGroup (.vaddVV vd vs2 vs1 vm) s vc vd vm fun i new =>
      ∀ j, j < vc.ediv → (sub vc.se new j).toNat =
        ((sub vc.se (s.hart.elem vc vs2 i) j).toNat + (sub vc.se (s.hart.elem vc vs1 i) j).toNat) % 2 ^ vc.se

/-- `vsll.vx` (R151, R155): each sub-element of an active element is shifted left by `x[rs1]` modulo SE. With EDIV = 1,
for which R151 and R155 are not written, the one sub-element is the element, by R110 and the model's reading of Base
(log 9). -/
def Obligations.VsllVXShiftsSubElements : Prop :=
  ∀ (s : State) (vd vs2 rs1 : RegNo) (vm : BitVec 1) (vc : VConf),
    vconf s.cfg s.hart.vtype = some vc → legalV vc vd vs2 vm = true →
    WritesGroup (.vsllVX vd vs2 rs1 vm) s vc vd vm fun i new =>
      ∀ j, j < vc.ediv → (sub vc.se new j).toNat =
        (sub vc.se (s.hart.elem vc vs2 i) j).toNat * 2 ^ ((s.hart.readX rs1).toNat % vc.se) % 2 ^ vc.se

/-- `vadd.vx`, `vadd.vi`, `vsll.vv`, `vsll.vi` where they run (R151, R153, R74); how the scalar and the
immediate are brought to SE bits is the base's (log 9). -/
def Obligations.OptionalRegularForms : Prop :=
  ∀ (s : State) (vd vs2 s1 : RegNo) (vm : BitVec 1) (vc : VConf), vconf s.cfg s.hart.vtype = some vc →
    (legalV vc vd vs2 vm = true → RegularRuns s.cfg vc .vaddVX →
        WritesGroup (.vaddVX vd vs2 s1 vm) s vc vd vm fun i new => SubsAre vc new fun j =>
          sub vc.se (s.hart.elem vc vs2 i) j + (s.hart.readX s1).signExtend vc.se) ∧
      (legalV vc vd vs2 vm = true → RegularRuns s.cfg vc .vaddVI →
        WritesGroup (.vaddVI vd vs2 s1 vm) s vc vd vm fun i new => SubsAre vc new fun j =>
          sub vc.se (s.hart.elem vc vs2 i) j + s1.signExtend vc.se) ∧
      (legalVV vc vd vs2 s1 vm = true → RegularRuns s.cfg vc .vsllVV →
        WritesGroup (.vsllVV vd vs2 s1 vm) s vc vd vm fun i new => SubsAre vc new fun j =>
          sub vc.se (s.hart.elem vc vs2 i) j <<<
            ((sub vc.se (s.hart.elem vc s1 i) j).toNat % vc.se)) ∧
      (legalV vc vd vs2 vm = true → RegularRuns s.cfg vc .vsllVI →
        WritesGroup (.vsllVI vd vs2 s1 vm) s vc vd vm fun i new => SubsAre vc new fun j =>
          sub vc.se (s.hart.elem vc vs2 i) j <<< (s1.toNat % vc.se))

/-- The same four with EDIV > 1 where they do not run: refused as unclassified outside RegularArith, refused
for want of an operation at SE < 8 inside it (R153). -/
def Obligations.OptionalRegularFormsRefused : Prop :=
  ∀ (s : State) (vd vs2 s1 : RegNo) (vm : BitVec 1) (vc : VConf) (m : RegularExtra) (i : Instr),
    vconf s.cfg s.hart.vtype = some vc → 1 < vc.ediv →
    ((m = .vaddVX ∧ i = .vaddVX vd vs2 s1 vm ∧ legalV vc vd vs2 vm = true) ∨
      (m = .vaddVI ∧ i = .vaddVI vd vs2 s1 vm ∧ legalV vc vd vs2 vm = true) ∨
      (m = .vsllVV ∧ i = .vsllVV vd vs2 s1 vm ∧ legalVV vc vd vs2 s1 vm = true) ∨
      (m = .vsllVI ∧ i = .vsllVI vd vs2 s1 vm ∧ legalV vc vd vs2 vm = true)) → BaseAllows s i →
    (s.cfg.regular.contains m = false → exec i s = .refused (.unclassifiedUnderEDIV s.hart.pc.toNat)) ∧
      (s.cfg.regular.contains m = true → vc.se < 8 → exec i s = .refused (.noOperationAtWidth s.hart.pc.toNat))

/-- A divided add operates as an undivided add of narrow elements (R150, R152): with flat elements, unmasked and from
element 0,
`vadd.vv` and `vsll.vx` at (SEW, EDIV) with length `vl` and at (SE, 1) with length `vl * EDIV` leave the same
bits in the body, narrow element `k` being sub-element `k mod EDIV` of element `k / EDIV`. -/
def Obligations.DividedOperatesAsNarrow : Prop :=
  ∀ (s : State) (vd vs2 s1 : RegNo) (vc narrow : VConf) (t' n : BitVec s.cfg.XLEN),
    vconf s.cfg s.hart.vtype = some vc → vconf s.cfg t' = some narrow →
    s.cfg.elements = .flat → narrow.sew = vc.se → narrow.ediv = 1 → narrow.lmul = vc.lmul →
    n.toNat = s.hart.vl.toNat * vc.ediv → s.hart.vl.toNat ≤ vc.vlmax s.cfg → s.hart.vstart = 0 →
    ∀ i, (i = .vaddVV vd vs2 s1 1 ∧ legalVV vc vd vs2 s1 1 = true) ∨
        (i = .vsllVX vd vs2 s1 1 ∧ legalV vc vd vs2 1 = true) →
      BaseAllows s i → BaseAllows ⟨s.cfg, s.plat, (s.hart.setVtype t').setVl n⟩ i →
      ∃ t u, exec i s = .next ⟨s.cfg, s.plat, t⟩ ∧
        exec i ⟨s.cfg, s.plat, (s.hart.setVtype t').setVl n⟩ = .next ⟨s.cfg, s.plat, u⟩ ∧
        ∀ k, k < n.toNat →
          u.elemOf narrow.lmul vd vc.se k = sub vc.se (t.elem vc vd (k / vc.ediv)) (k % vc.ediv)

/-! ### Carry and borrow -/

/-- With EDIV > 1 every form of `vadc`, `vmadc`, `vsbc`, `vmsbc`, and `vredsum.vs`, is reserved (R82): it ends
in a fault with the code of IllegalInstruction, and the fault records the reason where Base.legal holds
(R244; log 16 says which checks that is). With EDIV = 1 none of them is reserved. -/
def Obligations.ReservedUnderEdiv : Prop :=
  ∀ (s : State) (vd vs2 s1 : RegNo) (vm : BitVec 1) (vc : VConf), vconf s.cfg s.hart.vtype = some vc →
    (∀ i ∈ [Instr.vadcVVM vd vs2 s1 vm, .vadcVXM vd vs2 s1 vm, .vadcVIM vd vs2 s1 vm, .vmadcVVM vd vs2 s1 vm,
          .vmadcVXM vd vs2 s1 vm, .vmadcVIM vd vs2 s1 vm, .vsbcVVM vd vs2 s1 vm, .vsbcVXM vd vs2 s1 vm,
          .vmsbcVVM vd vs2 s1 vm, .vmsbcVXM vd vs2 s1 vm, .vredsumVS vd vs2 s1 vm],
        (1 < vc.ediv → ∃ f, exec i s = .fault f ∧ faultCode f = 2) ∧
          (vc.ediv = 1 → ∀ r w pc, exec i s ≠ .fault (.reserved r w pc))) ∧
      (1 < vc.ediv → aligned vc vs2 = true → ∀ i, BaseAllows s i →
        (legalCarry vc vd vm = true ∧
            (i ∈ [Instr.vadcVXM vd vs2 s1 vm, .vadcVIM vd vs2 s1 vm, .vsbcVXM vd vs2 s1 vm] ∨
              (aligned vc s1 = true ∧ i ∈ [Instr.vadcVVM vd vs2 s1 vm, .vsbcVVM vd vs2 s1 vm]))) ∨
          (legalMaskCarry s.cfg vm = true ∧
            (i ∈ [Instr.vmadcVXM vd vs2 s1 vm, .vmadcVIM vd vs2 s1 vm, .vmsbcVXM vd vs2 s1 vm] ∨
              (aligned vc s1 = true ∧ i ∈ [Instr.vmadcVVM vd vs2 s1 vm, .vmsbcVVM vd vs2 s1 vm]))) →
        exec i s = .fault (.reserved .carryUnderEDIV (encodeWith s.cfg.dot i) s.hart.pc.toNat)) ∧
      (1 < vc.ediv → legalVV vc vd vs2 s1 vm = true → BaseAllows s (.vredsumVS vd vs2 s1 vm) →
        exec (.vredsumVS vd vs2 s1 vm) s = .fault (.reserved .singleWidthSumUnderEDIV
          (encodeWith s.cfg.dot (.vredsumVS vd vs2 s1 vm)) s.hart.pc.toNat))

/-- `vadc` and `vsbc` with EDIV = 1 (R156, R158): every body element is the sum or difference with the carry
or borrow bit of `v0`; the scalar and the immediate are sign-extended (log 9). -/
def Obligations.CarryElementsUndivided : Prop :=
  ∀ (s : State) (vd vs2 s1 : RegNo) (vc : VConf), vconf s.cfg s.hart.vtype = some vc → vc.ediv = 1 →
    legalCarry vc vd 0 = true → aligned vc vs2 = true →
    (aligned vc s1 = true → WritesGroup (.vadcVVM vd vs2 s1 0) s vc vd 1 fun i new =>
        new.toNat = ((s.hart.elem vc vs2 i).toNat + (s.hart.elem vc s1 i).toNat +
          (s.hart.maskBit vc 0 i).toNat) % 2 ^ vc.sew) ∧
      (WritesGroup (.vadcVXM vd vs2 s1 0) s vc vd 1 fun i new =>
        new.toNat = ((s.hart.elem vc vs2 i).toNat + ((s.hart.readX s1).signExtend vc.sew).toNat +
          (s.hart.maskBit vc 0 i).toNat) % 2 ^ vc.sew) ∧
      (WritesGroup (.vadcVIM vd vs2 s1 0) s vc vd 1 fun i new =>
        new.toNat = ((s.hart.elem vc vs2 i).toNat + (s1.signExtend vc.sew).toNat +
          (s.hart.maskBit vc 0 i).toNat) % 2 ^ vc.sew) ∧
      (aligned vc s1 = true → WritesGroup (.vsbcVVM vd vs2 s1 0) s vc vd 1 fun i new =>
        (new.toNat : Int) = (((s.hart.elem vc vs2 i).toNat : Int) - (s.hart.elem vc s1 i).toNat -
          (s.hart.maskBit vc 0 i).toNat) % 2 ^ vc.sew) ∧
      (WritesGroup (.vsbcVXM vd vs2 s1 0) s vc vd 1 fun i new =>
        (new.toNat : Int) = (((s.hart.elem vc vs2 i).toNat : Int) -
          ((s.hart.readX s1).signExtend vc.sew).toNat - (s.hart.maskBit vc 0 i).toNat) % 2 ^ vc.sew)

/-- `vmadc` and `vmsbc` with EDIV = 1 (R157, R159): the mask bit of every body element is the carry or borrow
out; with `vm` = 1 there is no carry or borrow in. Where the bit goes, what becomes of the rest of the mask register
and how the scalar and the immediate are brought to SEW bits is the model's reading of Base (log 9, log 16,
log 17). -/
def Obligations.CarryMasksUndivided : Prop :=
  ∀ (s : State) (vd vs2 s1 : RegNo) (vm : BitVec 1) (vc : VConf), vconf s.cfg s.hart.vtype = some vc →
    vc.ediv = 1 → legalMaskCarry s.cfg vm = true → aligned vc vs2 = true →
    (aligned vc s1 = true → WritesMask (.vmadcVVM vd vs2 s1 vm) s vc vd fun i => decide
        (2 ^ vc.sew ≤ (s.hart.elem vc vs2 i).toNat + (s.hart.elem vc s1 i).toNat +
          (if vm = 1 then 0 else (s.hart.maskBit vc 0 i).toNat))) ∧
      (WritesMask (.vmadcVXM vd vs2 s1 vm) s vc vd fun i => decide
        (2 ^ vc.sew ≤ (s.hart.elem vc vs2 i).toNat + ((s.hart.readX s1).signExtend vc.sew).toNat +
          (if vm = 1 then 0 else (s.hart.maskBit vc 0 i).toNat))) ∧
      (WritesMask (.vmadcVIM vd vs2 s1 vm) s vc vd fun i => decide
        (2 ^ vc.sew ≤ (s.hart.elem vc vs2 i).toNat + (s1.signExtend vc.sew).toNat +
          (if vm = 1 then 0 else (s.hart.maskBit vc 0 i).toNat))) ∧
      (aligned vc s1 = true → WritesMask (.vmsbcVVM vd vs2 s1 vm) s vc vd fun i => decide
        ((s.hart.elem vc vs2 i).toNat < (s.hart.elem vc s1 i).toNat +
          (if vm = 1 then 0 else (s.hart.maskBit vc 0 i).toNat))) ∧
      (WritesMask (.vmsbcVXM vd vs2 s1 vm) s vc vd fun i => decide
        ((s.hart.elem vc vs2 i).toNat < ((s.hart.readX s1).signExtend vc.sew).toNat +
          (if vm = 1 then 0 else (s.hart.maskBit vc 0 i).toNat)))

/-! ### Gathers -/

/-- `vrgather.vv` with EDIV > 1 (R211): its encoding; sub-element `j` is the sub-element of the same element of
`vs2` that sub-element `j` of `vs1` names, or zero. -/
def Obligations.GatherVVWithinElement : Prop :=
  ∀ (s : State) (vd vs2 vs1 : RegNo) (vm : BitVec 1) (vc : VConf),
    decode (0b001100#6 ++ vm ++ vs2 ++ vs1 ++ 0b000#3 ++ vd ++ 0b1010111#7) = some (.vrgatherVV vd vs2 vs1 vm) ∧
      (vconf s.cfg s.hart.vtype = some vc → 1 < vc.ediv → legalVV vc vd vs2 vs1 vm = true →
        disjointGroups vc vd vs2 = true → disjointGroups vc vd vs1 = true →
        WritesGroup (.vrgatherVV vd vs2 vs1 vm) s vc vd vm fun i new => SubsAre vc new fun j =>
          if (sub vc.se (s.hart.elem vc vs1 i) j).toNat < vc.ediv then
            sub vc.se (s.hart.elem vc vs2 i) (sub vc.se (s.hart.elem vc vs1 i) j).toNat
          else 0)

/-- `vrgather.vx` and `vrgather.vi` with EDIV > 1 (R212, R213): their encodings; every sub-element is the one
that all of `x[rs1]` or the zero-extended immediate names, or the whole element is zero. -/
def Obligations.GatherScalarSplatsWithinElement : Prop :=
  ∀ (s : State) (vd vs2 s1 : RegNo) (vm : BitVec 1) (vc : VConf),
    decode (0b001100#6 ++ vm ++ vs2 ++ s1 ++ 0b100#3 ++ vd ++ 0b1010111#7) = some (.vrgatherVX vd vs2 s1 vm) ∧
      decode (0b001100#6 ++ vm ++ vs2 ++ s1 ++ 0b011#3 ++ vd ++ 0b1010111#7) = some (.vrgatherVI vd vs2 s1 vm) ∧
      (vconf s.cfg s.hart.vtype = some vc → 1 < vc.ediv → legalV vc vd vs2 vm = true →
        disjointGroups vc vd vs2 = true →
        (WritesGroup (.vrgatherVX vd vs2 s1 vm) s vc vd vm fun i new =>
            ((s.hart.readX s1).toNat < vc.ediv → SubsAre vc new fun _ =>
              sub vc.se (s.hart.elem vc vs2 i) (s.hart.readX s1).toNat) ∧
            (vc.ediv ≤ (s.hart.readX s1).toNat → new = 0)) ∧
          WritesGroup (.vrgatherVI vd vs2 s1 vm) s vc vd vm fun i new =>
            (s1.toNat < vc.ediv → SubsAre vc new fun _ => sub vc.se (s.hart.elem vc vs2 i) s1.toNat) ∧
            (vc.ediv ≤ s1.toNat → new = 0))

/-- The gathers with EDIV = 1 (R216): across the whole register group, zero from VLMAX on. That `vrgather.vx` compares
all of `x[rs1]` with VLMAX is the model's reading of Base (log 9). -/
def Obligations.GathersUndivided : Prop :=
  ∀ (s : State) (vd vs2 s1 : RegNo) (vm : BitVec 1) (vc : VConf), vconf s.cfg s.hart.vtype = some vc →
    vc.ediv = 1 → legalV vc vd vs2 vm = true → disjointGroups vc vd vs2 = true →
    (aligned vc s1 = true → disjointGroups vc vd s1 = true →
      WritesGroup (.vrgatherVV vd vs2 s1 vm) s vc vd vm fun i new =>
        new = if vc.vlmax s.cfg ≤ (s.hart.elem vc s1 i).toNat then 0
          else s.hart.elem vc vs2 (s.hart.elem vc s1 i).toNat) ∧
      (WritesGroup (.vrgatherVX vd vs2 s1 vm) s vc vd vm fun _ new =>
        new = if vc.vlmax s.cfg ≤ (s.hart.readX s1).toNat then 0
          else s.hart.elem vc vs2 (s.hart.readX s1).toNat) ∧
      WritesGroup (.vrgatherVI vd vs2 s1 vm) s vc vd vm fun _ new =>
        new = if vc.vlmax s.cfg ≤ s1.toNat then 0 else s.hart.elem vc vs2 s1.toNat

/-! ### Integer reductions -/

/-- The minimum and maximum reductions with EDIV > 1 (R171, R172, R180 to R183): the element becomes the
minimum or maximum of the sub-elements of `vs2` and the low `W_nonsum` bits of `vs1`, read as unsigned or as
two's-complement numbers. -/
def Obligations.MinMaxReductionsDivided : Prop :=
  ∀ (s : State) (vd vs2 vs1 : RegNo) (vm : BitVec 1) (vc : VConf), vconf s.cfg s.hart.vtype = some vc →
    1 < vc.ediv → legalVV vc vd vs2 vs1 vm = true → s.hart.vstart = 0 →
    (WritesGroup (.vredminuVS vd vs2 vs1 vm) s vc vd vm fun i new =>
        new.toNat = ((s.hart.subs vc vs2 i).map BitVec.toNat).foldl min
          (s.hart.lowBits vc vs1 (wNonsum vc.sew vc.ediv) i).toNat) ∧
      (WritesGroup (.vredminVS vd vs2 vs1 vm) s vc vd vm fun i new =>
        new.toInt = ((s.hart.subs vc vs2 i).map BitVec.toInt).foldl min
          (s.hart.lowBits vc vs1 (wNonsum vc.sew vc.ediv) i).toInt) ∧
      (WritesGroup (.vredmaxuVS vd vs2 vs1 vm) s vc vd vm fun i new =>
        new.toNat = ((s.hart.subs vc vs2 i).map BitVec.toNat).foldl max
          (s.hart.lowBits vc vs1 (wNonsum vc.sew vc.ediv) i).toNat) ∧
      WritesGroup (.vredmaxVS vd vs2 vs1 vm) s vc vd vm fun i new =>
        new.toInt = ((s.hart.subs vc vs2 i).map BitVec.toInt).foldl max
          (s.hart.lowBits vc vs1 (wNonsum vc.sew vc.ediv) i).toInt

/-- The bitwise reductions with EDIV > 1 (R171 to R173, R177 to R179): bit `k` of the result is the and, or,
xor of bit `k` of the scalar and of the sub-elements at `W_nonsum` bits; sub-elements and result are extended
as `RedBitwiseExt` says. -/
def Obligations.BitwiseReductionsDivided : Prop :=
  ∀ (s : State) (vd vs2 vs1 : RegNo) (vm : BitVec 1) (vc : VConf), vconf s.cfg s.hart.vtype = some vc →
    1 < vc.ediv → legalVV vc vd vs2 vs1 vm = true → s.hart.vstart = 0 →
    let w := wNonsum vc.sew vc.ediv
    let signed := bitwiseSigned s.cfg
    let bits := fun i k => (s.hart.subs vc vs2 i).map fun e => (extendTo signed w e).getLsbD k
    (WritesGroup (.vredandVS vd vs2 vs1 vm) s vc vd vm fun i new =>
        new = extendTo signed vc.sew (new.setWidth w) ∧ ∀ k, k < w →
          new.getLsbD k = (bits i k).foldl and ((s.hart.lowBits vc vs1 w i).getLsbD k)) ∧
      (WritesGroup (.vredorVS vd vs2 vs1 vm) s vc vd vm fun i new =>
        new = extendTo signed vc.sew (new.setWidth w) ∧ ∀ k, k < w →
          new.getLsbD k = (bits i k).foldl or ((s.hart.lowBits vc vs1 w i).getLsbD k)) ∧
      WritesGroup (.vredxorVS vd vs2 vs1 vm) s vc vd vm fun i new =>
        new = extendTo signed vc.sew (new.setWidth w) ∧ ∀ k, k < w →
          new.getLsbD k = (bits i k).foldl xor ((s.hart.lowBits vc vs1 w i).getLsbD k)

/-- The widening sums with EDIV > 1 (R171, R172, R184, R185): the element becomes the exact integer sum of the
sub-elements of `vs2` and the low `W_sum` bits of `vs1`, brought into the range of `W_sum` bits. -/
def Obligations.WideningSumsDivided : Prop :=
  ∀ (s : State) (vd vs2 vs1 : RegNo) (vm : BitVec 1) (vc : VConf), vconf s.cfg s.hart.vtype = some vc →
    1 < vc.ediv → legalVV vc vd vs2 vs1 vm = true → s.hart.vstart = 0 →
    (WritesGroup (.vwredsumuVS vd vs2 vs1 vm) s vc vd vm fun i new =>
        new.toNat = ((s.hart.lowBits vc vs1 (wSum vc.sew vc.ediv) i).toNat +
          ((s.hart.subs vc vs2 i).map BitVec.toNat).sum) % 2 ^ wSum vc.sew vc.ediv) ∧
      WritesGroup (.vwredsumVS vd vs2 vs1 vm) s vc vd vm fun i new =>
        new.toInt = ((s.hart.lowBits vc vs1 (wSum vc.sew vc.ediv) i).toInt +
          ((s.hart.subs vc vs2 i).map BitVec.toInt).sum).bmod (2 ^ wSum vc.sew vc.ediv)

/-- The single-width integer reductions with EDIV = 1 (R192, R194): the scalar from element 0 of `vs1`, the
active elements of `vs2` folded into it, the result to element 0 of `vd`. That only the alignment of `vs2` is required,
so that a masked reduction into `v0` completes, and that with `vl` = 0 no register is written, is the model's reading of
Base (log 16, log 18). -/
def Obligations.IntegerReductionsUndivided : Prop :=
  ∀ (s : State) (vd vs2 vs1 : RegNo) (vm : BitVec 1) (vc : VConf), vconf s.cfg s.hart.vtype = some vc →
    vc.ediv = 1 → aligned vc vs2 = true → s.hart.vstart = 0 →
    let fold := fun op => (s.hart.activeElems vc vm vs2).foldl op (s.hart.scalar vs1 vc.sew)
    WritesScalar (.vredsumVS vd vs2 vs1 vm) s vc vd vc.sew (fold fun a b => a + b) ∧
      WritesScalar (.vredandVS vd vs2 vs1 vm) s vc vd vc.sew (fold fun a b => a &&& b) ∧
      WritesScalar (.vredorVS vd vs2 vs1 vm) s vc vd vc.sew (fold fun a b => a ||| b) ∧
      WritesScalar (.vredxorVS vd vs2 vs1 vm) s vc vd vc.sew (fold fun a b => a ^^^ b) ∧
      WritesScalar (.vredminuVS vd vs2 vs1 vm) s vc vd vc.sew (fold fun a b => if a.ule b then a else b) ∧
      WritesScalar (.vredminVS vd vs2 vs1 vm) s vc vd vc.sew (fold fun a b => if a.sle b then a else b) ∧
      WritesScalar (.vredmaxuVS vd vs2 vs1 vm) s vc vd vc.sew (fold fun a b => if b.ule a then a else b) ∧
      WritesScalar (.vredmaxVS vd vs2 vs1 vm) s vc vd vc.sew (fold fun a b => if b.sle a then a else b)

/-- The widening integer sums with EDIV = 1 (R192, R194): the scalar is 2 * SEW bits of `vs1`, the active
elements of `vs2` are extended to 2 * SEW bits and added; that 2 * SEW must fit ELEN and a register, that no other check
than the alignment of `vs2` is made, and what happens with `vl` = 0 is the model's reading of Base (log 16, log 18). -/
def Obligations.WideningSumsUndivided : Prop :=
  ∀ (s : State) (vd vs2 vs1 : RegNo) (vm : BitVec 1) (vc : VConf), vconf s.cfg s.hart.vtype = some vc →
    vc.ediv = 1 → aligned vc vs2 = true → widenFits s.cfg vc = true → s.hart.vstart = 0 →
    WritesScalar (.vwredsumuVS vd vs2 vs1 vm) s vc vd (2 * vc.sew)
        (s.hart.scalar vs1 (2 * vc.sew) +
          ((s.hart.activeElems vc vm vs2).map fun e => e.setWidth (2 * vc.sew)).sum) ∧
      WritesScalar (.vwredsumVS vd vs2 vs1 vm) s vc vd (2 * vc.sew)
        (s.hart.scalar vs1 (2 * vc.sew) +
          ((s.hart.activeElems vc vm vs2).map fun e => e.signExtend (2 * vc.sew)).sum)

/-- A reduction that starts with `vstart` not 0 does not run (R193): refused with EDIV > 1, illegal with EDIV = 1, whose
vstart rule is the base's. All sixteen reductions; `vredsum.vs` with EDIV = 1 only (with EDIV > 1 it is reserved), the
widening ones where their result fits (log 16), the floating-point ones where they have a format (R174; log 15), which
is checked first (log 27). -/
def Obligations.ReductionsNeedVstartZero : Prop :=
  ∀ (s : State) (vd vs2 vs1 : RegNo) (vm : BitVec 1) (vc : VConf) (i : Instr),
    vconf s.cfg s.hart.vtype = some vc → legalReduction vc vd vs2 vs1 vm = true → s.hart.vstart ≠ 0 →
    (i ∈ [Instr.vredandVS vd vs2 vs1 vm, .vredorVS vd vs2 vs1 vm, .vredxorVS vd vs2 vs1 vm,
          .vredminuVS vd vs2 vs1 vm, .vredminVS vd vs2 vs1 vm, .vredmaxuVS vd vs2 vs1 vm,
          .vredmaxVS vd vs2 vs1 vm] ∨
        (i ∈ [Instr.vwredsumuVS vd vs2 vs1 vm, .vwredsumVS vd vs2 vs1 vm] ∧ widenFits s.cfg vc = true) ∨
        (i ∈ [Instr.vfredsumVS vd vs2 vs1 vm, .vfredosumVS vd vs2 vs1 vm, .vfredminVS vd vs2 vs1 vm,
          .vfredmaxVS vd vs2 vs1 vm] ∧ fpFormatOk s.cfg vc.se vc.se = true) ∨
        (i ∈ [Instr.vfwredsumVS vd vs2 vs1 vm, .vfwredosumVS vd vs2 vs1 vm] ∧ widenFits s.cfg vc = true ∧
          ∃ f, (if vc.ediv = 1 then some (2 * vc.sew) else aFp vc.sew vc.ediv s.cfg.FLEN) = some f ∧
            fpFormatOk s.cfg vc.se f = true) ∨
        (i = .vredsumVS vd vs2 vs1 vm ∧ vc.ediv = 1)) → BaseAllows s i →
    (1 < vc.ediv → exec i s = .refused (.vstartAtReduction s.hart.pc.toNat)) ∧
      (vc.ediv = 1 → TrapsIllegal i s)

/-! ### Floating-point reductions -/

/-- The single-width floating-point reductions with EDIV > 1 (R174, R186 to R189): FpNumerics on the low SE bits
of `vs1` and the sub-elements of `vs2`, the result at SEW bits as FpRedSingleExt says, the flags of the active
elements in `fflags`. -/
def Obligations.FpReductionsDivided : Prop :=
  ∀ (s : State) (vd vs2 vs1 : RegNo) (vm : BitVec 1) (vc : VConf), vconf s.cfg s.hart.vtype = some vc →
    1 < vc.ediv → legalVV vc vd vs2 vs1 vm = true → s.hart.vstart = 0 → fpFormatOk s.cfg vc.se vc.se = true →
    ∀ p ∈ [(Instr.vfredsumVS vd vs2 vs1 vm, fun acc xs => fpUsum vc.se s.hart.frm acc xs),
        (.vfredosumVS vd vs2 vs1 vm, fun acc xs => fpOsum vc.se s.hart.frm acc xs),
        (.vfredminVS vd vs2 vs1 vm, fun acc xs => fpMin vc.se acc xs),
        (.vfredmaxVS vd vs2 vs1 vm, fun acc xs => fpMax vc.se acc xs)],
      let r := fun i => p.2 (s.hart.lowBits vc vs1 vc.se i) (s.hart.subs vc vs2 i)
      WritesGroupFp p.1 s vc vd vm (s.hart.activeFlags vc vm fun i => (r i).2) fun i new =>
        sub vc.se new 0 = (r i).1 ∧
          (s.cfg.fpRedSingle = .nanbox → new = nanbox vc.sew (r i).1) ∧
          (s.cfg.fpRedSingle = .zero → new = (r i).1.setWidth vc.sew)

/-- The widening floating-point sums with EDIV > 1 (R174, R190, R191): FpNumerics at `A` bits on the low `A` bits of
`vs1` and the exactly converted sub-elements of `vs2`, NaN-boxed. -/
def Obligations.FpWideningSumsDivided : Prop :=
  ∀ (s : State) (vd vs2 vs1 : RegNo) (vm : BitVec 1) (vc : VConf) (a : Nat),
    vconf s.cfg s.hart.vtype = some vc → 1 < vc.ediv → legalVV vc vd vs2 vs1 vm = true → s.hart.vstart = 0 →
    aFp vc.sew vc.ediv s.cfg.FLEN = some a → fpFormatOk s.cfg vc.se a = true →
    ∀ p ∈ [(Instr.vfwredsumVS vd vs2 vs1 vm, fun acc xs => fpUsum a s.hart.frm acc xs),
        (.vfwredosumVS vd vs2 vs1 vm, fun acc xs => fpOsum a s.hart.frm acc xs)],
      let r := fun i => p.2 (s.hart.lowBits vc vs1 a i) ((s.hart.subs vc vs2 i).map (fpWiden vc.se a))
      WritesGroupFp p.1 s vc vd vm (s.hart.activeFlags vc vm fun i => (r i).2) fun i new =>
        new = nanbox vc.sew (r i).1

/-- The single-width floating-point reductions with EDIV = 1 (R192, R194): the scalar from element 0 of `vs1`,
the active elements of `vs2`, the result to element 0 of `vd`. That only the alignment of `vs2` is required, so that a
masked reduction into `v0` completes, and that with `vl` = 0 no register is written, is the model's reading of Base
(log 16, log 18). -/
def Obligations.FpReductionsUndivided : Prop :=
  ∀ (s : State) (vd vs2 vs1 : RegNo) (vm : BitVec 1) (vc : VConf), vconf s.cfg s.hart.vtype = some vc →
    vc.ediv = 1 → aligned vc vs2 = true → s.hart.vstart = 0 → fpFormatOk s.cfg vc.sew vc.sew = true →
    let on := fun (op : BitVec vc.sew → List (BitVec vc.sew) → BitVec vc.sew × BitVec 5) =>
      op (s.hart.scalar vs1 vc.sew) (s.hart.activeElems vc vm vs2)
    WritesScalarFp (.vfredsumVS vd vs2 vs1 vm) s vc vd vc.sew (on (fpUsum vc.sew s.hart.frm)) ∧
      WritesScalarFp (.vfredosumVS vd vs2 vs1 vm) s vc vd vc.sew (on (fpOsum vc.sew s.hart.frm)) ∧
      WritesScalarFp (.vfredminVS vd vs2 vs1 vm) s vc vd vc.sew (on (fpMin vc.sew)) ∧
      WritesScalarFp (.vfredmaxVS vd vs2 vs1 vm) s vc vd vc.sew (on (fpMax vc.sew))

/-- The widening floating-point sums with EDIV = 1 (R192, R194): at 2 * SEW bits, which must fit ELEN and a register; the
checks and the case `vl` = 0 are the model's reading of Base (log 16, log 18). -/
def Obligations.FpWideningSumsUndivided : Prop :=
  ∀ (s : State) (vd vs2 vs1 : RegNo) (vm : BitVec 1) (vc : VConf), vconf s.cfg s.hart.vtype = some vc →
    vc.ediv = 1 → aligned vc vs2 = true → s.hart.vstart = 0 → widenFits s.cfg vc = true →
    fpFormatOk s.cfg vc.sew (2 * vc.sew) = true →
    let on := fun (op : BitVec (2 * vc.sew) → List (BitVec (2 * vc.sew)) → BitVec (2 * vc.sew) × BitVec 5) =>
      op (s.hart.scalar vs1 (2 * vc.sew))
        ((s.hart.activeElems vc vm vs2).map (fpWiden vc.sew (2 * vc.sew)))
    WritesScalarFp (.vfwredsumVS vd vs2 vs1 vm) s vc vd (2 * vc.sew) (on (fpUsum (2 * vc.sew) s.hart.frm)) ∧
      WritesScalarFp (.vfwredosumVS vd vs2 vs1 vm) s vc vd (2 * vc.sew) (on (fpOsum (2 * vc.sew) s.hart.frm))

/-- With EDIV > 1 a floating-point instruction whose sub-element or result has no supported format is refused
(R174, R231), whatever `vstart` is: that the format is checked before `vstart` is the model's reading (log 27), which
formats there are is log 15. With EDIV = 1 `vfdot.vv` is refused (R233). -/
def Obligations.FloatingPointRefusals : Prop :=
  ∀ (s : State) (vd vs2 vs1 : RegNo) (vm : BitVec 1) (vc : VConf), vconf s.cfg s.hart.vtype = some vc →
    (1 < vc.ediv → legalVV vc vd vs2 vs1 vm = true →
    (fpFormatOk s.cfg vc.se vc.se = false →
      ∀ i ∈ [Instr.vfredsumVS vd vs2 vs1 vm, .vfredosumVS vd vs2 vs1 vm, .vfredminVS vd vs2 vs1 vm,
          .vfredmaxVS vd vs2 vs1 vm], BaseAllows s i → exec i s = .refused (.noFpFormat s.hart.pc.toNat)) ∧
      ((∀ a, aFp vc.sew vc.ediv s.cfg.FLEN = some a → fpFormatOk s.cfg vc.se a = false) →
        ∀ i ∈ [Instr.vfwredsumVS vd vs2 vs1 vm, .vfwredosumVS vd vs2 vs1 vm, .vfdotVV vd vs2 vs1 vm],
          BaseAllows s i → exec i s = .refused (.noFpFormat s.hart.pc.toNat))) ∧
      (vc.ediv = 1 → legalVV vc vd vs2 vs1 vm = true → BaseAllows s (.vfdotVV vd vs2 vs1 vm) →
        exec (.vfdotVV vd vs2 vs1 vm) s = .refused (.fpDotUndivided s.hart.pc.toNat))

/-- exact_when_representable (R232) for the unordered sum, in the four IEEE formats: if the scalar and all
inputs are finite and every partial sum in every order is a number of the format, the result is the number
that is the exact sum, and there are no flags. -/
def Obligations.UnorderedSumExactWhenRepresentable : Prop :=
  ∀ f ∈ fpFormats, ∀ (frm : BitVec 3) (acc : BitVec f) (xs : List (BitVec f)),
    (∀ x ∈ acc :: xs, fpFinite x = true) →
    (∀ p ∈ partialSums ((acc :: xs).map fpUnits), ∃ b : BitVec f, fpFinite b = true ∧ fpUnits b = p) →
    fpFinite (fpUsum f frm acc xs).1 = true ∧
      fpUnits (fpUsum f frm acc xs).1 = ((acc :: xs).map fpUnits).sum ∧ (fpUsum f frm acc xs).2 = 0

/-- exact_when_representable (R232) for the dot product, in the four IEEE formats: if the accumulator and all inputs are
finite and every partial sum of the accumulator and the exact products, in every order, is a number of the result
format, the result is the number that is the exact sum, and there are no flags. The conversion to a wider format is
exact (R190, R191, R232): a finite number keeps its value and its sign, an infinity becomes the infinity of its sign. -/
def Obligations.DotAndWideningAreExact : Prop :=
  ∀ se ∈ fpFormats, ∀ a ∈ fpFormats, se ≤ a →
    (∀ (frm : BitVec 3) (acc : BitVec a) (as bs : List (BitVec se)), as.length = bs.length →
        fpFinite acc = true → (∀ x ∈ as ++ bs, fpFinite x = true) →
        let terms := fpValue acc :: List.zipWith (fun x y => fpValue x * fpValue y) as bs
        (∀ p : List ℚ, p.Sublist terms → ∃ b : BitVec a, fpFinite b = true ∧ fpValue b = p.sum) →
        fpFinite (fpDot se a frm acc as bs).1 = true ∧ fpValue (fpDot se a frm acc as bs).1 = terms.sum ∧
          (fpDot se a frm acc as bs).2 = 0) ∧
      ∀ x : BitVec se,
        (fpFinite x = true → fpFinite (fpWiden se a x) = true ∧ fpValue (fpWiden se a x) = fpValue x ∧
            (fpWiden se a x).msb = x.msb) ∧
          (fpFinite x = false → fpNaN x = false → fpFinite (fpWiden se a x) = false ∧
            fpNaN (fpWiden se a x) = false ∧ (fpWiden se a x).msb = x.msb)

/-- The ordered sum is the left fold of the addition, the scalar first and then the inputs in their order, the flags
OR-ed (R187, R191, R232). The addition gives the exact sum without flags where the format has it; what it gives for
infinities and NaNs, and the sign of a zero sum, are those of IEEE 754, which R232 names (log 12). The bit of `fflags`
that is NV is that of the RISC-V family (log 22). -/
def Obligations.OrderedSumIsLeftFold : Prop :=
  ∀ f ∈ fpFormats, ∀ (frm : BitVec 3),
    (∀ (acc x : BitVec f) (xs : List (BitVec f)), fpOsum f frm acc [] = (acc, 0) ∧
        fpOsum f frm acc (xs ++ [x]) = ((fpAdd f frm (fpOsum f frm acc xs).1 x).1,
          (fpOsum f frm acc xs).2 ||| (fpAdd f frm (fpOsum f frm acc xs).1 x).2)) ∧
      ∀ a b : BitVec f,
        let r := fpAdd f frm a b
        (fpFinite a = true → fpFinite b = true → ∀ c : BitVec f, fpFinite c = true →
            fpUnits c = fpUnits a + fpUnits b →
            fpFinite r.1 = true ∧ fpUnits r.1 = fpUnits a + fpUnits b ∧ r.2 = 0 ∧
              (fpUnits c = 0 → frm.toNat ≤ 4 → r.1.msb = if a.msb = b.msb then a.msb else frm == 2)) ∧
          (fpFinite a = false → fpNaN a = false → fpNaN b = false →
            (fpFinite b = true ∨ a.msb = b.msb → r = (a, 0)) ∧
              (fpFinite b = false → a.msb ≠ b.msb → fpNaN r.1 = true ∧ r.2 = flagNV)) ∧
          (fpFinite a = true → fpFinite b = false → fpNaN b = false → r = (b, 0)) ∧
          (fpNaN a = true ∨ fpNaN b = true → fpNaN r.1 = true ∧ fpSignalling r.1 = false ∧
            r.2 = if fpSignalling a || fpSignalling b then flagNV else 0)

/-- The addition rounds the exact sum `n` of two finite numbers once, as `frm` says (R187, R232): the result is the
nearest number of the format, ties to even (0) or away from zero (4), or the next one towards zero (1), below (2) or
above (3). It is finite in the modes 0 and 4 exactly where `n` is nearer to the largest finite number than to the next
magnitude, the one that an infinity's fields would stand for. Of a finite result OF and NX are set where `n` reaches that
magnitude, NX alone where `n` does not but is not exact, and no flag otherwise; with an infinite result both are set. The
numbers of the modes (log 12) and the bits that are OF and NX (log 22) are those of the RISC-V family. -/
def Obligations.AdditionRoundsAsFrmSays : Prop :=
  ∀ f ∈ fpFormats, ∀ (frm : BitVec 3) (a b : BitVec f), frm.toNat ≤ 4 → fpFinite a = true → fpFinite b = true →
    let r := fpAdd f frm a b
    let n := fpUnits a + fpUnits b
    let largest := fpMagnitude (fpOf f false (infFields f - 1))
    let next := fpMagnitude (fpOf f false (infFields f))
    (fpFinite r.1 = true →
        r.2 = (if next ≤ n.natAbs then flagOF ||| flagNX else if fpUnits r.1 = n then 0 else flagNX) ∧
          (frm = 0 ∨ frm = 4 → 2 * n.natAbs < largest + next)) ∧
      (fpFinite r.1 = true → ∀ c : BitVec f, fpFinite c = true →
        (frm = 0 ∨ frm = 4 → (fpUnits r.1 - n).natAbs ≤ (fpUnits c - n).natAbs) ∧
          (frm = 0 → (fpUnits c - n).natAbs = (fpUnits r.1 - n).natAbs → fpUnits c ≠ fpUnits r.1 →
            r.1.getLsbD 0 = false) ∧
          (frm = 4 → (fpUnits c - n).natAbs = (fpUnits r.1 - n).natAbs →
            (fpUnits c).natAbs ≤ (fpUnits r.1).natAbs) ∧
          (frm = 1 → 0 ≤ fpUnits r.1 * n ∧ (fpUnits r.1).natAbs ≤ n.natAbs ∧
            ((fpUnits c).natAbs ≤ n.natAbs → (fpUnits c).natAbs ≤ (fpUnits r.1).natAbs)) ∧
          (frm = 2 → fpUnits r.1 ≤ n ∧ (fpUnits c ≤ n → fpUnits c ≤ fpUnits r.1)) ∧
          (frm = 3 → n ≤ fpUnits r.1 ∧ (n ≤ fpUnits c → fpUnits r.1 ≤ fpUnits c))) ∧
      (fpFinite r.1 = false → fpNaN r.1 = false ∧ r.1.msb = decide (n < 0) ∧ r.2 = flagOF ||| flagNX ∧
        frm ≠ 1 ∧ (frm = 2 → n < 0) ∧ (frm = 3 → 0 < n) ∧ (frm = 0 ∨ frm = 4 → largest + next ≤ 2 * n.natAbs) ∧
        ∀ c : BitVec f, fpFinite c = true → (fpUnits c).natAbs < n.natAbs)

/-- The choice of the floating-point minimum and maximum (R188, R189). They are left folds of the choice between two
operands, the scalar first. Where the scalar is a number and no input is a signalling NaN, the result is the smallest or
largest of the numbers among them, infinities included and -0.0 below +0.0, whatever quiet NaNs stand between them, and
there are no flags; a scalar that is a quiet NaN gives way to a number. A signalling NaN sets NV (its bit: log 22). What
two NaNs give is free (log 13). -/
def Obligations.MinMaxChoosesANumber : Prop :=
  ∀ f ∈ fpFormats, ∀ p ∈ [(true, fpMin f), (false, fpMax f)], ∀ (acc x : BitVec f) (xs : List (BitVec f)),
    (p.2 acc [] = (acc, 0) ∧ p.2 acc (xs ++ [x]) =
        ((p.2 (p.2 acc xs).1 [x]).1, (p.2 acc xs).2 ||| (p.2 (p.2 acc xs).1 [x]).2)) ∧
      (fpNaN acc = false → (∀ y ∈ xs, fpSignalling y = false) →
        ∃ r ∈ acc :: xs, fpNaN r = false ∧ p.2 acc xs = (r, 0) ∧
          ∀ y ∈ acc :: xs, fpNaN y = false → fpNoWorse p.1 r y) ∧
      (fpNaN acc = true → fpSignalling acc = false → fpNaN x = false → p.2 acc (x :: xs) = p.2 x xs) ∧
      (xs ≠ [] → (∃ y ∈ acc :: xs, fpSignalling y = true) → (p.2 acc xs).2 = flagNV)

/-! ### Dot products -/

/-- `vdotu.vv` and `vdot.vv` (R221, R222, R224): the low `W_dot` bits of the old destination plus the exact sum
of the products of the sub-elements, brought into the range of `W_dot` bits and extended to SEW; the numbers
are unsigned for the one and two's-complement for the other. -/
def Obligations.IntegerDotProducts : Prop :=
  ∀ (s : State) (vd vs2 vs1 : RegNo) (vm : BitVec 1) (vc : VConf), vconf s.cfg s.hart.vtype = some vc →
    legalVV vc vd vs2 vs1 vm = true →
    (WritesGroup (.vdotuVV vd vs2 vs1 vm) s vc vd vm fun i new =>
        new.toNat = ((s.hart.lowBits vc vd (wDot vc.sew vc.ediv) i).toNat +
          (List.zipWith (· * ·) ((s.hart.subs vc vs2 i).map BitVec.toNat)
            ((s.hart.subs vc vs1 i).map BitVec.toNat)).sum) % 2 ^ wDot vc.sew vc.ediv) ∧
      WritesGroup (.vdotVV vd vs2 vs1 vm) s vc vd vm fun i new =>
        new.toInt = ((s.hart.lowBits vc vd (wDot vc.sew vc.ediv) i).toInt +
          (List.zipWith (· * ·) ((s.hart.subs vc vs2 i).map BitVec.toInt)
            ((s.hart.subs vc vs1 i).map BitVec.toInt)).sum).bmod (2 ^ wDot vc.sew vc.ediv)

/-- With EDIV = 1 both dot products are a multiply-accumulate of whole elements, and they give the same state
(R223). -/
def Obligations.DotProductsUndividedAgree : Prop :=
  ∀ (s : State) (vd vs2 vs1 : RegNo) (vm : BitVec 1) (vc : VConf), vconf s.cfg s.hart.vtype = some vc →
    vc.ediv = 1 → legalVV vc vd vs2 vs1 vm = true →
    (BaseAllows s (.vdotuVV vd vs2 vs1 vm) → BaseAllows s (.vdotVV vd vs2 vs1 vm) →
        exec (.vdotuVV vd vs2 vs1 vm) s = exec (.vdotVV vd vs2 vs1 vm) s) ∧
      WritesGroup (.vdotVV vd vs2 vs1 vm) s vc vd vm fun i new =>
        new = s.hart.elem vc vd i + s.hart.elem vc vs2 i * s.hart.elem vc vs1 i

/-- `vfdot.vv` with EDIV > 1 (R231): FpNumerics.dot on the low `A` bits of the old destination and the
sub-elements, NaN-boxed to SEW, the flags of the active elements in `fflags`. -/
def Obligations.FpDotProduct : Prop :=
  ∀ (s : State) (vd vs2 vs1 : RegNo) (vm : BitVec 1) (vc : VConf) (a : Nat),
    vconf s.cfg s.hart.vtype = some vc → 1 < vc.ediv → legalVV vc vd vs2 vs1 vm = true →
    aFp vc.sew vc.ediv s.cfg.FLEN = some a → fpFormatOk s.cfg vc.se a = true →
    let r := fun i =>
      fpDot vc.se a s.hart.frm (s.hart.lowBits vc vd a i) (s.hart.subs vc vs2 i) (s.hart.subs vc vs1 i)
    WritesGroupFp (.vfdotVV vd vs2 vs1 vm) s vc vd vm (s.hart.activeFlags vc vm fun i => (r i).2) fun i new =>
      new.setWidth a = (r i).1 ∧ ∀ k, a ≤ k → k < vc.sew → new.getLsbD k = true

/-! ### Exceptions -/

/-- While `vill` is 1, and more generally while `vtype` is not supported (DEDUCED, log 23), every vector
instruction but `vsetvli` and `vsetvl` raises IllegalInstruction with its word (R32, R81, R241). In any state they raise
no other exception (R240): the faults of R244 have its code too. -/
def Obligations.UnsupportedVtypeTraps : Prop :=
  ∀ (s : State) (i : Instr), i.isVector = true →
    (vconf s.cfg s.hart.vtype = none → TrapsIllegal i s) ∧ ∀ f, exec i s = .fault f → faultCode f = 2

/-- What Base.legal rejects raises IllegalInstruction (R81, R241; which checks there are, and that a base may accept
what one of them rejects, is log 16 and log 31). In the
regular forms, the gathers and the dot products, and in the reductions with EDIV > 1: a masked instruction that writes
`v0`, and `vd` or `vs2` not aligned to LMUL. In all forms with a third vector operand: `vs1` not aligned. In a gather: a
destination that overlaps a source. In `vadc` and `vsbc`: `vm` = 1, or `v0` or an unaligned `vd` as destination; in all
carry forms and in reductions with EDIV = 1: `vs2` not aligned; in `vmadc` and `vmsbc`: `vm` = 1 where the base has no
such form; in a widening reduction with EDIV = 1: a result that does not fit. In any vector instruction: what the base
rejects beyond these. -/
def Obligations.IllegalOperandsTrap : Prop :=
  ∀ (s : State) (vd vs2 s1 : RegNo) (vm : BitVec 1) (vc : VConf), vconf s.cfg s.hart.vtype = some vc →
    let vv := [Instr.vaddVV vd vs2 s1 vm, .vsllVV vd vs2 s1 vm, .vrgatherVV vd vs2 s1 vm, .vdotuVV vd vs2 s1 vm,
      .vdotVV vd vs2 s1 vm, .vfdotVV vd vs2 s1 vm]
    let vx := [Instr.vaddVX vd vs2 s1 vm, .vaddVI vd vs2 s1 vm, .vsllVX vd vs2 s1 vm, .vsllVI vd vs2 s1 vm,
      .vrgatherVX vd vs2 s1 vm, .vrgatherVI vd vs2 s1 vm]
    let widening := [Instr.vwredsumuVS vd vs2 s1 vm, .vwredsumVS vd vs2 s1 vm, .vfwredsumVS vd vs2 s1 vm,
      .vfwredosumVS vd vs2 s1 vm]
    let reductions := widening ++ [Instr.vredsumVS vd vs2 s1 vm, .vredandVS vd vs2 s1 vm, .vredorVS vd vs2 s1 vm,
      .vredxorVS vd vs2 s1 vm, .vredminuVS vd vs2 s1 vm, .vredminVS vd vs2 s1 vm, .vredmaxuVS vd vs2 s1 vm,
      .vredmaxVS vd vs2 s1 vm, .vfredsumVS vd vs2 s1 vm, .vfredosumVS vd vs2 s1 vm, .vfredminVS vd vs2 s1 vm,
      .vfredmaxVS vd vs2 s1 vm]
    let carries := [Instr.vadcVVM vd vs2 s1 vm, .vadcVXM vd vs2 s1 vm, .vadcVIM vd vs2 s1 vm, .vsbcVVM vd vs2 s1 vm,
      .vsbcVXM vd vs2 s1 vm]
    let maskCarries := [Instr.vmadcVVM vd vs2 s1 vm, .vmadcVXM vd vs2 s1 vm, .vmadcVIM vd vs2 s1 vm,
      .vmsbcVVM vd vs2 s1 vm, .vmsbcVXM vd vs2 s1 vm]
    let carryVV := [Instr.vadcVVM vd vs2 s1 vm, .vsbcVVM vd vs2 s1 vm, .vmadcVVM vd vs2 s1 vm, .vmsbcVVM vd vs2 s1 vm]
    (maskedDestOk vd vm = false ∨ aligned vc vd = false ∨ aligned vc vs2 = false →
        (∀ i ∈ vv ++ vx, IllegalForBase i s) ∧ (1 < vc.ediv → ∀ i ∈ reductions, IllegalForBase i s)) ∧
      (aligned vc s1 = false →
        (∀ i ∈ vv ++ carryVV, IllegalForBase i s) ∧ (1 < vc.ediv → ∀ i ∈ reductions, IllegalForBase i s)) ∧
      (disjointGroups vc vd vs2 = false →
        ∀ i ∈ [Instr.vrgatherVV vd vs2 s1 vm, .vrgatherVX vd vs2 s1 vm, .vrgatherVI vd vs2 s1 vm],
          IllegalForBase i s) ∧
      (disjointGroups vc vd s1 = false → IllegalForBase (.vrgatherVV vd vs2 s1 vm) s) ∧
      (vm = 1 ∨ vd = 0 ∨ aligned vc vd = false → ∀ i ∈ carries, IllegalForBase i s) ∧
      (aligned vc vs2 = false →
        (∀ i ∈ carries ++ maskCarries, IllegalForBase i s) ∧ (vc.ediv = 1 → ∀ i ∈ reductions, IllegalForBase i s)) ∧
      (legalMaskCarry s.cfg vm = false → ∀ i ∈ maskCarries, IllegalForBase i s) ∧
      (widenFits s.cfg vc = false → ∀ i ∈ widening, IllegalForBase i s) ∧
      ∀ i : Instr, i.isVector = true →
        baseMatches s.cfg.baseRejects (encodeWith s.cfg.dot i) s.hart.vtype = true → IllegalForBase i s

/-! ### Scaffold -/

/-- `addi` (R290): its encoding, its result, and nothing else changes. -/
def Obligations.AddiResult : Prop :=
  ∀ (s : State) (rd rs1 : RegNo) (imm : BitVec 12),
    decode (imm ++ rs1 ++ 0b000#3 ++ rd ++ 0b0010011#7) = some (.addi rd rs1 imm) ∧
      ∃ t, exec (.addi rd rs1 imm) s = .next ⟨s.cfg, s.plat, t⟩ ∧ SameVector s.hart t ∧
        XWritten s.hart t rd (s.hart.readX rs1 + imm.signExtend s.cfg.XLEN) ∧ t.pc = s.hart.pc + 4 ∧
        ∀ a, t.byteAt s.plat a = s.hart.byteAt s.plat a

/-- `lw` (R291): its encoding; a misaligned address, then an address outside memory, raises its exception;
otherwise the word is loaded and nothing else changes. -/
def Obligations.LwResult : Prop :=
  ∀ (s : State) (rd rs1 : RegNo) (imm : BitVec 12),
    let addr := s.hart.readX rs1 + imm.signExtend s.cfg.XLEN
    decode (imm ++ rs1 ++ 0b010#3 ++ rd ++ 0b0000011#7) = some (.lw rd rs1 imm) ∧
      (addr.toNat % 4 ≠ 0 → exec (.lw rd rs1 imm) s =
        .fault (.trap (.addressMisaligned .load addr.toNat) s.hart.pc.toNat)) ∧
      (addr.toNat % 4 = 0 → inMemory s.plat addr 4 = false → exec (.lw rd rs1 imm) s =
        .fault (.trap (.accessFault .load addr.toNat) s.hart.pc.toNat)) ∧
      (addr.toNat % 4 = 0 → inMemory s.plat addr 4 = true →
        ∃ t, exec (.lw rd rs1 imm) s = .next ⟨s.cfg, s.plat, t⟩ ∧ SameVector s.hart t ∧
          XWritten s.hart t rd ((s.hart.byteAt s.plat (addr.toNat + 3) ++ s.hart.byteAt s.plat (addr.toNat + 2) ++
            s.hart.byteAt s.plat (addr.toNat + 1) ++ s.hart.byteAt s.plat addr.toNat).signExtend s.cfg.XLEN) ∧
          t.pc = s.hart.pc + 4 ∧ ∀ a, t.byteAt s.plat a = s.hart.byteAt s.plat a)

/-- `sw` (R292): its encoding; alignment, then access, then the program text are checked; otherwise the four
bytes at the address become those of `x[rs2]` and every other byte is unchanged. -/
def Obligations.SwResult : Prop :=
  ∀ (s : State) (rs2 rs1 : RegNo) (imm : BitVec 12),
    let addr := s.hart.readX rs1 + imm.signExtend s.cfg.XLEN
    decode (imm.extractLsb' 5 7 ++ rs2 ++ rs1 ++ 0b010#3 ++ imm.extractLsb' 0 5 ++ 0b0100011#7) =
        some (.sw rs2 rs1 imm) ∧
      (addr.toNat % 4 ≠ 0 → exec (.sw rs2 rs1 imm) s =
        .fault (.trap (.addressMisaligned .store addr.toNat) s.hart.pc.toNat)) ∧
      (addr.toNat % 4 = 0 → inMemory s.plat addr 4 = false → exec (.sw rs2 rs1 imm) s =
        .fault (.trap (.accessFault .store addr.toNat) s.hart.pc.toNat)) ∧
      (addr.toNat % 4 = 0 → inMemory s.plat addr 4 = true → meetsText s.plat addr 4 = true →
        exec (.sw rs2 rs1 imm) s = .refused (.storeToProgramText s.hart.pc.toNat)) ∧
      (addr.toNat % 4 = 0 → inMemory s.plat addr 4 = true → meetsText s.plat addr 4 = false →
        ∃ t, exec (.sw rs2 rs1 imm) s = .next ⟨s.cfg, s.plat, t⟩ ∧ SameVector s.hart t ∧ t.x = s.hart.x ∧
          t.pc = s.hart.pc + 4 ∧
          (∀ k, k < 4 → t.byteAt s.plat (addr.toNat + k) = (s.hart.readX rs2).extractLsb' (8 * k) 8) ∧
          ∀ a, a < addr.toNat ∨ addr.toNat + 4 ≤ a → t.byteAt s.plat a = s.hart.byteAt s.plat a)

/-- `bne` (R293): its encoding; a branch that is not taken goes on, a taken one checks its target. -/
def Obligations.BneResult : Prop :=
  ∀ (s : State) (rs1 rs2 : RegNo) (b12 : BitVec 1) (b11 : BitVec 1) (hi : BitVec 6) (lo : BitVec 4),
    let offset : BitVec 13 := b12 ++ b11 ++ hi ++ lo ++ 0#1
    let target := s.hart.pc + offset.signExtend s.cfg.XLEN
    decode (b12 ++ hi ++ rs2 ++ rs1 ++ 0b001#3 ++ lo ++ b11 ++ 0b1100011#7) = some (.bne rs1 rs2 offset) ∧
      (s.hart.readX rs1 = s.hart.readX rs2 → ∃ t, exec (.bne rs1 rs2 offset) s = .next ⟨s.cfg, s.plat, t⟩ ∧
        SameVector s.hart t ∧ t.x = s.hart.x ∧ t.pc = s.hart.pc + 4 ∧ ∀ a, t.byteAt s.plat a = s.hart.byteAt s.plat a) ∧
      (s.hart.readX rs1 ≠ s.hart.readX rs2 → target.toNat % 4 ≠ 0 → exec (.bne rs1 rs2 offset) s =
        .fault (.trap (.addressMisaligned .fetch target.toNat) s.hart.pc.toNat)) ∧
      (s.hart.readX rs1 ≠ s.hart.readX rs2 → target.toNat % 4 = 0 →
        ∃ t, exec (.bne rs1 rs2 offset) s = .next ⟨s.cfg, s.plat, t⟩ ∧ SameVector s.hart t ∧
          t.x = s.hart.x ∧ t.pc = target ∧ ∀ a, t.byteAt s.plat a = s.hart.byteAt s.plat a)

/-- A load after a store returns the word stored (R58). -/
def Obligations.LoadAfterStore : Prop :=
  ∀ (s : State) (rs2 rs1 rd : RegNo) (imm : BitVec 12), (s.hart.scaffoldAddr rs1 imm).toNat % 4 = 0 →
    inMemory s.plat (s.hart.scaffoldAddr rs1 imm) 4 = true →
    meetsText s.plat (s.hart.scaffoldAddr rs1 imm) 4 = false →
    ∃ t u, exec (.sw rs2 rs1 imm) s = .next ⟨s.cfg, s.plat, t⟩ ∧
      exec (.lw rd rs1 imm) ⟨s.cfg, s.plat, t⟩ = .next ⟨s.cfg, s.plat, u⟩ ∧
      XWritten s.hart u rd (((s.hart.readX rs2).setWidth 32).signExtend s.cfg.XLEN)

/-! ### The base instructions, which have no row in the opcode table -/

/-- An instruction of 41_unaffected.md does the same for every EDIV and leaves `vtype` alone (R120), in every state: with
`vtype` replaced by one that differs in `vediv` only, its value with `vediv` = 0 among them, the outcome is the same hart
but for `vtype`, or the same fault or refusal. -/
def Obligations.UnaffectedByEdiv : Prop :=
  ∀ (op : UnaffectedOp) (w : Word32) (s : State) (t : BitVec s.cfg.XLEN),
    clearEdiv s.cfg.layout t = clearEdiv s.cfg.layout s.hart.vtype →
    let run := fun h => execBase (.unaffected op) w ⟨s.cfg, s.plat, h⟩
    (∀ u, run s.hart = .next ⟨s.cfg, s.plat, u⟩ → u.vtype = s.hart.vtype ∧
        run (s.hart.setVtype t) = .next ⟨s.cfg, s.plat, u.setVtype t⟩) ∧
      (∀ f, run s.hart = .fault f → run (s.hart.setVtype t) = .fault f) ∧
      ∀ r, run s.hart = .refused r → run (s.hart.setVtype t) = .refused r

/-- `vid.v` writes the index of each active element over its whole SEW bits (R133), and an unmasked `viota.m` the count of
set mask bits of `vs2` in the elements below (R132), whatever EDIV is, even one for which `vtype` is not supported (R120).
That the rest of their meaning is as said here is the model's reading of the one-line descriptions (log 20), and so is
that `viota.m` runs with `vstart` not 0 and counts the bits below `vstart` too (log 34). -/
def Obligations.VidAndViotaResults : Prop :=
  ∀ (s : State) (w : Word32) (vc : VConf), vconf s.cfg (clearEdiv s.cfg.layout s.hart.vtype) = some vc →
    aligned vc (fRd w) = true → maskedDestOk (fRd w) (fVm w) = true →
    BaseAllowsWord s.cfg w (clearEdiv s.cfg.layout s.hart.vtype) →
    (∃ t, execBase (.unaffected .vid) w s = .next ⟨s.cfg, s.plat, t⟩ ∧ Completed s.hart t ∧
        GroupResult s.hart t vc (fRd w) (fVm w) fun i new => new.toNat = i % 2 ^ vc.sew) ∧
      (fVm w = 1 → ∃ t, execBase (.unaffected .viota) w s = .next ⟨s.cfg, s.plat, t⟩ ∧ Completed s.hart t ∧
        GroupResult s.hart t vc (fRd w) 1 fun i new =>
          new.toNat = (List.range i).countP (s.hart.maskBit vc (fRs2 w)) % 2 ^ vc.sew)

/-- The class rule R151 for a base arithmetic instruction that has no row in the opcode table: where it runs (R153),
sub-element `j` of an active element `i` is what the base's operation number `n` gives for sub-element `j` of element `i`
of `vs2`, for that of `vs1`, the scalar in `x[rs1]` or `f[rs1]` or the immediate, as `funct3` says (R71; the immediate
sign-extended except for a shift, R74), and for the old sub-element of `vd`. A fixed-point instruction ORs into `vxsat`,
and a floating-point one into `fflags`, what the operation sets for the sub-elements of the active elements (R36), and
nothing else changes. With EDIV > 1 it is refused outside RegularArith, and refused for want of an operation at SE < 8 or
without a format of SE bits. The operation and the treatment of the scalar are free (log 32). -/
def Obligations.ClassRuleForBaseArithmetic : Prop :=
  ∀ (n : Nat) (form : ArithForm) (shift fixedPoint float : Bool) (w : Word32) (s : State) (vc : VConf),
    (fFunct3 w, form, float) ∈ [(0b000#3, ArithForm.vv, false), (0b001#3, .vv, true), (0b010#3, .vv, false),
      (0b011#3, .vi, false), (0b100#3, .vx, false), (0b101#3, .vf, true), (0b110#3, .vx, false)] →
    vconf s.cfg s.hart.vtype = some vc → legalForm form vc (fRd w) (fRs2 w) (fRs1 w) (fVm w) = true →
    BaseAllowsWord s.cfg w s.hart.vtype →
    let input : Nat → Nat → BitVec vc.se := fun i j =>
      match form with
      | .vv => sub vc.se (s.hart.elem vc (fRs1 w) i) j
      | .vx => Config.regularScalar n vc.se (s.hart.readX (fRs1 w))
      | .vf => Config.regularScalar n vc.se (s.hart.readF (fRs1 w))
      | .vi => if shift then (fRs1 w).setWidth vc.se else (fRs1 w).signExtend vc.se
    let op := fun i j => Config.regularOp n vc.se s.hart.frm s.hart.vxrm (sub vc.se (s.hart.elem vc (fRs2 w) i) j)
      (input i j) (sub vc.se (s.hart.elem vc (fRd w) i) j)
    let run := execBase (.regular n shift fixedPoint) w s
    (RegularRuns s.cfg vc (.base n) → (float = true → fpFormatOk s.cfg vc.se vc.se = true) →
        ∃ t, run = .next ⟨s.cfg, s.plat, t⟩ ∧
          (GroupResult s.hart t vc (fRd w) (fVm w) fun i new => SubsAre vc new fun j => (op i j).1) ∧
          SameControl s.hart { t with vxsat := s.hart.vxsat } ∧ t.vstart = 0 ∧ t.pc = s.hart.pc + 4 ∧
          (∀ k, t.fflags.getLsbD k = true ↔ s.hart.fflags.getLsbD k = true ∨ (float = true ∧
            ∃ i j, s.hart.active vc (fVm w) i = true ∧ i < vc.vlmax s.cfg ∧ j < vc.ediv ∧
              (op i j).2.2.getLsbD k = true)) ∧
          ∀ k, t.vxsat.getLsbD k = true ↔ s.hart.vxsat.getLsbD k = true ∨ (fixedPoint = true ∧
            ∃ i j, s.hart.active vc (fVm w) i = true ∧ i < vc.vlmax s.cfg ∧ j < vc.ediv ∧
              (op i j).2.1.getLsbD k = true)) ∧
      (1 < vc.ediv → s.cfg.regular.contains (.base n) = false →
        run = .refused (.unclassifiedUnderEDIV s.hart.pc.toNat)) ∧
      (1 < vc.ediv → s.cfg.regular.contains (.base n) = true →
        vc.se < 8 ∨ (float = true ∧ fpFormatOk s.cfg vc.se vc.se = false) →
        run = .refused (.noOperationAtWidth s.hart.pc.toNat))

/-- The CSR accesses (R33; the numbers of R33): `vtype`, `vl` and `vstart` can be read, `vstart` can be written, a write
of `vtype` or `vl` is illegal (log 22). The place of the number in the word, and of `rd` and `rs1`, is the model's
choice (log 22). -/
def Obligations.CsrAccess : Prop :=
  ∀ (s : State) (w : Word32),
    (fImmI w = 0xC21#12 → ∃ t, execBase .csrr w s = .next ⟨s.cfg, s.plat, t⟩ ∧
        XWritten s.hart t (fRd w) s.hart.vtype ∧ SameVector s.hart t) ∧
      (fImmI w = 0xC20#12 → ∃ t, execBase .csrr w s = .next ⟨s.cfg, s.plat, t⟩ ∧
        XWritten s.hart t (fRd w) s.hart.vl ∧ SameVector s.hart t) ∧
      (fImmI w = 0x008#12 → ∃ t, execBase .csrr w s = .next ⟨s.cfg, s.plat, t⟩ ∧
        XWritten s.hart t (fRd w) s.hart.vstart ∧ SameVector s.hart t) ∧
      (fImmI w = 0x008#12 → ∃ t, execBase .csrw w s = .next ⟨s.cfg, s.plat, t⟩ ∧
        t.vstart = s.hart.readX (fRs1 w) ∧ t.vtype = s.hart.vtype ∧ t.vl = s.hart.vl ∧ t.x = s.hart.x) ∧
      (fImmI w = 0xC21#12 ∨ fImmI w = 0xC20#12 →
        execBase .csrw w s = .fault (.trap (.illegalInstruction w) s.hart.pc.toNat))

/-! ### The whole machine -/

/-- The step runs the instruction that the four bytes at `pc` decode to (R52, R55, R70, R80): unless the run has ended
at HALT_PC, and with `pc` in memory, the step is the meaning of that instruction, to which it adds nothing. The bytes are
those that a load reads. They must be program text, which no store changes (R61, R277), or bytes that nothing has stored
(log 4). -/
def Obligations.StepRunsDecoded : Prop :=
  ∀ (s : State) (i : Instr), s.plat.haltPc ≠ some s.hart.pc.toNat → inMemory s.plat s.hart.pc 4 = true →
    (∀ k, k < 4 → (Memory.read s.plat.text (byteAddr s.hart.pc k)).isSome = true ∨
      byteAddr s.hart.pc k ∉ s.hart.stored) →
    let byte := fun k => s.hart.byteAt s.plat (byteAddr s.hart.pc k)
    decodeBytes s.cfg.dot (byte 0) (byte 1) (byte 2) (byte 3) = some i → step s = exec i s

/-- The steps that run no instruction of the opcode table. A fetch outside memory raises AccessFault(fetch) with `pc`,
before anything else (R54, R241, R248). A fetch, outside the program text, of a byte that has been stored is refused, so
that no fetch sees modified code (R277; that it is refused is the model's choice, log 4). A word that is the word of no
instruction of the table goes to the Base decoder, and is refused when that does not know it or there is none (R84). At
HALT_PC the run has ended (R275); that the step then leaves the state as it is, is the model's choice (log 7). -/
def Obligations.StepOutsideTheTable : Prop :=
  ∀ s : State,
    let stored := ∃ k, k < 4 ∧ Memory.read s.plat.text (byteAddr s.hart.pc k) = none ∧
      byteAddr s.hart.pc k ∈ s.hart.stored
    (s.plat.haltPc ≠ some s.hart.pc.toNat → inMemory s.plat s.hart.pc 4 = false →
        step s = .fault (.trap (.accessFault .fetch s.hart.pc.toNat) s.hart.pc.toNat)) ∧
      (s.plat.haltPc ≠ some s.hart.pc.toNat → inMemory s.plat s.hart.pc 4 = true → stored →
        step s = .refused (.fetchOfStoredByte s.hart.pc.toNat)) ∧
      (s.plat.haltPc ≠ some s.hart.pc.toNat → inMemory s.plat s.hart.pc 4 = true → ¬ stored →
        (∀ i : Instr, i.wellFormed = true → encodeWith s.cfg.dot i ≠ s.fetchWord) →
        (decodeBase s.plat.baseRows s.fetchWord = none → step s = .refused (.notInScope s.hart.pc.toNat)) ∧
          ∀ op, decodeBase s.plat.baseRows s.fetchWord = some op → step s = execBase op s.fetchWord s) ∧
      (s.plat.haltPc = some s.hart.pc.toNat → step s = .next s)

/-- The invariant holds at reset; that `vtype` = 0 and `vl` = 0 there is the model's choice (log 3). -/
def Obligations.InvariantAtReset : Prop := Inv State.reset

/-- Every step keeps the parameters of the implementation and the platform, the program text among them (R8, R17, R61),
and keeps the invariant: `pc` stays a multiple of 4 (R22), `x[0]` reads as zero (R20), memory keeps its canonical form,
`vtype` stays a legal value (R32) and `vl` at most VLMAX (R26). -/
def Obligations.StepKeepsInvariant : Prop :=
  ∀ s s' : State, step s = .next s' → s'.cfg = s.cfg ∧ s'.plat = s.plat ∧ (Inv s → Inv s')

/-- Only `vsetvli` and `vsetvl` write `vl` and `vtype` (R26, R33, R34): no other instruction of the opcode table and no
instruction of the Base decoder changes them. -/
def Obligations.OnlyConfigWritesVlAndVtype : Prop :=
  ∀ s s' : State, ((∃ i : Instr, i.isConfig = false ∧ exec i s = .next s') ∨ ∃ op w, execBase op w s = .next s') →
    ∃ t, s' = ⟨s.cfg, s.plat, t⟩ ∧ t.vl = s.hart.vl ∧ t.vtype = s.hart.vtype

/-- What the instructions of the opcode table leave alone. Every vector instruction that completes, `vsetvli` and `vsetvl`
included, sets `vstart` to 0 and moves `pc` on by 4; no scaffold instruction writes `vstart` (R22, R27). No vector
instruction writes memory, an integer register, an `f` register, `frm`, `vxrm` or `vxsat` (R20, R36, R51); `fflags` only
gains bits, and only in a floating-point instruction (R35). Only `sw` adds to the addresses stored to (log 4). -/
def Obligations.VectorInstructionFrame : Prop :=
  ∀ (i : Instr) (s s' : State), exec i s = .next s' → ∃ t, s' = ⟨s.cfg, s.plat, t⟩ ∧
    (i.isVector = true ∨ i.isConfig = true → t.vstart = 0 ∧ t.pc = s.hart.pc + 4) ∧
    (i.isVector = false → i.isConfig = false → t.vstart = s.hart.vstart) ∧
    (i.isStore = false → t.stored = s.hart.stored) ∧
    (i.isVector = true → SameControl s.hart t ∧ t.fflags &&& s.hart.fflags = s.hart.fflags ∧
      (i.isFloat = false → t.fflags = s.hart.fflags))
end

