-- ==== Sys2Proof/Laws/Bits.lean ====
section
/-! SUPPORT. What `insertBits`, `pack` and the width changes do, bit by bit. -/

namespace Sys2Proof.Machine

/-- The bits of `insertBits`: those of `s` from `off` up, those of `e` elsewhere. -/
theorem getLsbD_insertBits {n w : Nat} (e : BitVec n) (off : Nat) (s : BitVec w) (k : Nat) :
    (insertBits e off s).getLsbD k =
      if off ≤ k ∧ k < off + w then decide (k < n) && s.getLsbD (k - off) else e.getLsbD k := by
  unfold insertBits
  by_cases hn : k < n
  · by_cases h1 : k < off
    · have : ¬ (off ≤ k ∧ k < off + w) := by omega
      simp [h1, this, hn]
    · by_cases h2 : k < off + w
      · have h3 : off ≤ k ∧ k < off + w := by omega
        have h4 : k - off < w := by omega
        simp [h1, h3, hn, h4]
      · have h3 : ¬ (off ≤ k ∧ k < off + w) := by omega
        have h5 : w ≤ k - off := by omega
        simp [h1, h3, hn, BitVec.getLsbD_of_ge _ _ h5]
  · have hn' : n ≤ k := by omega
    simp [hn', hn]

/-- The bits of `pack`: bit `k` below `count * w` is bit `k % w` of piece `k / w`. -/
theorem getLsbD_pack {n w : Nat} (e : BitVec n) (count : Nat) (f : Nat → BitVec w) (k : Nat) :
    (pack e count f).getLsbD k =
      if k < count * w then decide (k < n) && (f (k / w)).getLsbD (k % w) else e.getLsbD k := by
  unfold pack
  induction count with
  | zero => simp
  | succ m ih =>
    rw [List.range_succ, List.foldl_append]
    simp only [List.foldl_cons, List.foldl_nil, getLsbD_insertBits, ih]
    have hm : (m + 1) * w = m * w + w := by ring
    by_cases h1 : m * w ≤ k ∧ k < m * w + w
    · have hd : k / w = m := by
        have hw : 0 < w := by omega
        exact Nat.div_eq_of_lt_le h1.1 (by omega)
      have hr : k % w = k - m * w := by
        have := Nat.div_add_mod k w
        rw [hd, Nat.mul_comm] at this; omega
      have h2 : k < (m + 1) * w := by omega
      rw [if_pos h1, if_pos h2, hd, hr]
    · rw [if_neg h1]
      by_cases h2 : k < m * w
      · rw [if_pos h2, if_pos (by omega)]
      · rw [if_neg h2, if_neg (by omega)]

/-- A sub-element of a packed element is the piece that was put there (R15). -/
theorem sub_ofSubs {w se : Nat} (e : BitVec w) (ediv : Nat) (f : Nat → BitVec se) {j : Nat} (hj : j < ediv)
    (hw : ediv * se ≤ w) : sub se (ofSubs e ediv f) j = f j := by
  unfold sub ofSubs
  apply BitVec.eq_of_getLsbD_eq
  intro i hi
  have h1 : (j + 1) * se ≤ ediv * se := Nat.mul_le_mul_right _ hj
  have h0 : (j + 1) * se = j * se + se := by ring
  have h2 : j * se + i < ediv * se := by omega
  have hd : (j * se + i) / se = j := by
    rw [Nat.mul_comm, Nat.mul_add_div (by omega), Nat.div_eq_of_lt hi]; omega
  have hr : (j * se + i) % se = i := by
    rw [Nat.mul_comm, Nat.mul_add_mod, Nat.mod_eq_of_lt hi]
  simp only [BitVec.getLsbD_extractLsb', hi, decide_true, Bool.true_and, getLsbD_pack, h2, if_true, hd, hr]
  have h3 : j * se + i < w := by omega
  simp [h3]

/-- The bits of a NaN-boxed value (R11). -/
theorem getLsbD_nanbox {w : Nat} (n : Nat) (a : BitVec w) (k : Nat) :
    (nanbox n a).getLsbD k = (decide (k < n) && (decide (w ≤ k) || a.getLsbD k)) := by
  unfold nanbox
  rw [getLsbD_insertBits]
  by_cases h : k < w
  · have : ¬ w ≤ k := by omega
    simp [h, this]
  · have h' : w ≤ k := by omega
    simp [h, h', BitVec.getLsbD_allOnes]

end Sys2Proof.Machine
end

