-- ==== Sys2Proof/Laws/Elements.lean ====
section
/-! SUPPORT. Places and elements of a register group: reading after writing one, and what a write of many leaves. -/

namespace Sys2Proof.Machine

variable {c : Config}

/-- What `insertBits` leaves at a place beside the piece it puts in. -/
theorem extractLsb'_insertBits_other {n w : Nat} (e : BitVec n) (off off' : Nat) (s : BitVec w)
    (h : off' + w ≤ off ∨ off + w ≤ off') :
    (insertBits e off s).extractLsb' off' w = e.extractLsb' off' w := by
  apply BitVec.eq_of_getLsbD_eq
  intro i hi
  simp only [BitVec.getLsbD_extractLsb', getLsbD_insertBits]
  rw [if_neg (by omega)]

/-- The piece that `insertBits` put in. -/
theorem extractLsb'_insertBits_self {n w : Nat} (e : BitVec n) (off : Nat) (s : BitVec w) (h : off + w ≤ n) :
    (insertBits e off s).extractLsb' off w = s := by
  apply BitVec.eq_of_getLsbD_eq
  intro i hi
  simp only [BitVec.getLsbD_extractLsb', getLsbD_insertBits, hi, decide_true, Bool.true_and]
  rw [if_pos (by omega)]
  have : off + i < n := by omega
  simp [this]

/-- A vector register after one was set. -/
theorem vreg_set (v : Vector (BitVec c.VLEN) 32) (q : Nat) (a : BitVec c.VLEN) (n : Nat) :
    vreg (v.setIfInBounds q a) n = if n = q ∧ q < 32 then a else vreg v n := by
  unfold vreg
  rw [Vector.getElem?_setIfInBounds]
  by_cases h : q = n
  · subst h
    by_cases hq : q < 32
    · simp [hq]
    · simp [hq]
  · simp [h, Ne.symm h]

/-- How many elements of `w` bits a register holds, as the bound on an element's place in its register. -/
theorem slot_lt {w i : Nat} (hw : 0 < w) (h : w ≤ c.VLEN) : i % (c.VLEN / w) * w + w ≤ c.VLEN := by
  have hp : 0 < c.VLEN / w := Nat.div_pos h hw
  have h1 : i % (c.VLEN / w) < c.VLEN / w := Nat.mod_lt _ hp
  calc i % (c.VLEN / w) * w + w = (i % (c.VLEN / w) + 1) * w := by ring
    _ ≤ c.VLEN / w * w := Nat.mul_le_mul_right _ h1
    _ ≤ c.VLEN := Nat.div_mul_le_self _ _

/-- Reading a place after one was written (R13): the register of the written place must exist. -/
theorem slotAt_setSlot (v : Vector (BitVec c.VLEN) 32) (r w i k : Nat) (a : BitVec w) (hw : 0 < w)
    (h : w ≤ c.VLEN) (hr : r + i / (c.VLEN / w) < 32) :
    slotAt (setSlot v r w i a) r w k = if k = i then a else slotAt v r w k := by
  unfold slotAt setSlot
  simp only [vreg_set]
  have hs := slot_lt (c := c) (i := i) hw h
  by_cases hk : k = i
  · subst hk
    rw [if_pos ⟨rfl, hr⟩, if_pos rfl, extractLsb'_insertBits_self _ _ _ hs]
  · rw [if_neg hk]
    by_cases hq : k / (c.VLEN / w) = i / (c.VLEN / w)
    · rw [if_pos ⟨by omega, hr⟩, hq]
      have hm : k % (c.VLEN / w) ≠ i % (c.VLEN / w) := by
        intro hm
        apply hk
        rw [← Nat.div_add_mod k (c.VLEN / w), ← Nat.div_add_mod i (c.VLEN / w), hq, hm]
      apply extractLsb'_insertBits_other
      rcases Nat.lt_or_gt_of_ne hm with hlt | hgt
      · left
        calc _ = (k % (c.VLEN / w) + 1) * w := by ring
          _ ≤ _ := Nat.mul_le_mul_right _ hlt
      · right
        calc _ = (i % (c.VLEN / w) + 1) * w := by ring
          _ ≤ _ := Nat.mul_le_mul_right _ hgt
    · rw [if_neg (by omega)]

/-- A register that does not hold the place written keeps its bits. -/
theorem vreg_setSlot_other (v : Vector (BitVec c.VLEN) 32) (r w i n : Nat) (a : BitVec w)
    (h : n ≠ r + i / (c.VLEN / w)) : vreg (setSlot v r w i a) n = vreg v n := by
  unfold setSlot
  simp only [vreg_set]
  rw [if_neg (by omega)]

theorem setSlots_succ (v : Vector (BitVec c.VLEN) 32) (r w count : Nat) (place : Nat → Nat) (f : Nat → BitVec w) :
    setSlots v r w (count + 1) place f = setSlot (setSlots v r w count place f) r w (place count) (f count) := by
  simp [setSlots, List.range_succ]

/-- Reading a place after the places of `0` to `count - 1`, all distinct, were written. -/
theorem slotAt_setSlots (v : Vector (BitVec c.VLEN) 32) (r w count : Nat) {place : Nat → Nat} (f : Nat → BitVec w)
    (k : Nat) (inj : ∀ i j, place i = place j → i = j) (hw : 0 < w) (h : w ≤ c.VLEN)
    (hr : ∀ i < count, r + place i / (c.VLEN / w) < 32) :
    slotAt (setSlots v r w count place f) r w (place k) = if k < count then f k else slotAt v r w (place k) := by
  induction count with
  | zero => simp [setSlots]
  | succ n ih =>
    rw [setSlots_succ, slotAt_setSlot _ _ _ _ _ _ hw h (hr n (by omega)), ih (fun i hi => hr i (by omega))]
    by_cases hk : k = n
    · subst hk; simp
    · rw [if_neg (fun e => hk (inj _ _ e))]
      by_cases hlt : k < n
      · rw [if_pos hlt, if_pos (by omega)]
      · rw [if_neg hlt, if_neg (by omega)]

/-- A register outside the written places keeps its bits. -/
theorem vreg_setSlots_other (v : Vector (BitVec c.VLEN) 32) (r w count : Nat) (place : Nat → Nat) (f : Nat → BitVec w)
    (n : Nat) (h : ∀ i < count, n ≠ r + place i / (c.VLEN / w)) : vreg (setSlots v r w count place f) n = vreg v n := by
  induction count with
  | zero => rfl
  | succ m ih =>
    rw [setSlots_succ, vreg_setSlot_other _ _ _ _ _ _ (h m (by omega)), ih (fun i hi => h i (by omega))]

/-! ### The places of elements (R13; log 30) -/

/-- Without striping element `i` is at place `i`. -/
theorem elemPlace_flat (h : c.elements = .flat) (lmul : Lmul) (w i : Nat) : elemPlace c lmul w i = i := by
  unfold elemPlace; rw [h]

/-- The elements of a group have the places of the group. -/
theorem elemPlace_lt {lmul : Lmul} {w i : Nat} (h : i < lmul.num * c.VLEN / (lmul.den * w)) :
    elemPlace c lmul w i < lmul.num * c.VLEN / (lmul.den * w) := by
  unfold elemPlace
  split
  · exact h
  · dsimp only
    rw [dif_pos h]
    exact Fin.isLt _

/-- What lies beyond the elements of a group stays where it is. -/
theorem elemPlace_ge {lmul : Lmul} {w i : Nat} (h : lmul.num * c.VLEN / (lmul.den * w) ≤ i) :
    elemPlace c lmul w i = i := by
  unfold elemPlace
  split
  · rfl
  · dsimp only
    rw [dif_neg (by omega)]

/-- Two elements have two places. -/
theorem elemPlace_inj (lmul : Lmul) (w i j : Nat) (h : elemPlace c lmul w i = elemPlace c lmul w j) : i = j := by
  by_cases hi : i < lmul.num * c.VLEN / (lmul.den * w) <;> by_cases hj : j < lmul.num * c.VLEN / (lmul.den * w)
  · unfold elemPlace at h
    split at h
    · exact h
    · dsimp only at h
      rw [dif_pos hi, dif_pos hj] at h
      have h2 := (Config.elemOrder _ _ _ _).injective (Fin.ext h)
      exact congrArg Fin.val h2
  · have h1 := elemPlace_lt (c := c) hi
    rw [h, elemPlace_ge (by omega)] at h1
    exact absurd h1 hj
  · have h1 := elemPlace_lt (c := c) hj
    rw [← h, elemPlace_ge (by omega)] at h1
    exact absurd h1 hi
  · rwa [elemPlace_ge (by omega), elemPlace_ge (by omega)] at h

end Sys2Proof.Machine
end

