-- ==== Sys2Proof/Laws/Encoding.lean ====
section
/-! SUPPORT. The fields of the words the encoder builds. -/

namespace Sys2Proof

/-- The piece of a concatenation that lies wholly in its low part. -/
theorem extractLsb'_append_low {m n : Nat} (x : BitVec m) (y : BitVec n) (off len : Nat) (h : off + len ≤ n) :
    (x ++ y).extractLsb' off len = y.extractLsb' off len := by
  apply BitVec.eq_of_getLsbD_eq
  intro i hi
  have : off + i < n := by omega
  simp [BitVec.getLsbD_append, this]

/-- The piece of a concatenation that lies wholly in its high part. -/
theorem extractLsb'_append_high {m n : Nat} (x : BitVec m) (y : BitVec n) (off len : Nat) (h : n ≤ off) :
    (x ++ y).extractLsb' off len = x.extractLsb' (off - n) len := by
  apply BitVec.eq_of_getLsbD_eq
  intro i hi
  have h1 : ¬ off + i < n := by omega
  have h2 : off + i - n = off - n + i := by omega
  simp [BitVec.getLsbD_append, h1, h2]

section OpV

variable (f6 : BitVec 6) (vm : BitVec 1) (vs2 s1 : BitVec 5) (f3 : BitVec 3) (vd : BitVec 5)

@[simp] theorem fOpcode_opV : fOpcode (opV f6 vm vs2 s1 f3 vd) = 0b1010111#7 := by
  unfold fOpcode opV; rw [extractLsb'_append_low _ _ _ _ (by decide), BitVec.extractLsb'_eq_self]
@[simp] theorem fRd_opV : fRd (opV f6 vm vs2 s1 f3 vd) = vd := by
  unfold fRd opV
  rw [extractLsb'_append_high _ _ _ _ (by decide), extractLsb'_append_low _ _ _ _ (by decide),
    BitVec.extractLsb'_eq_self]
@[simp] theorem fFunct3_opV : fFunct3 (opV f6 vm vs2 s1 f3 vd) = f3 := by
  unfold fFunct3 opV
  rw [extractLsb'_append_high _ _ _ _ (by decide), extractLsb'_append_high _ _ _ _ (by decide),
    extractLsb'_append_low _ _ _ _ (by decide), BitVec.extractLsb'_eq_self]
@[simp] theorem fRs1_opV : fRs1 (opV f6 vm vs2 s1 f3 vd) = s1 := by
  unfold fRs1 opV
  rw [extractLsb'_append_high _ _ _ _ (by decide), extractLsb'_append_high _ _ _ _ (by decide),
    extractLsb'_append_high _ _ _ _ (by decide), extractLsb'_append_low _ _ _ _ (by decide),
    BitVec.extractLsb'_eq_self]
@[simp] theorem fRs2_opV : fRs2 (opV f6 vm vs2 s1 f3 vd) = vs2 := by
  unfold fRs2 opV
  rw [extractLsb'_append_high _ _ _ _ (by decide), extractLsb'_append_high _ _ _ _ (by decide),
    extractLsb'_append_high _ _ _ _ (by decide), extractLsb'_append_high _ _ _ _ (by decide),
    extractLsb'_append_low _ _ _ _ (by decide), BitVec.extractLsb'_eq_self]
@[simp] theorem fVm_opV : fVm (opV f6 vm vs2 s1 f3 vd) = vm := by
  unfold fVm opV
  rw [extractLsb'_append_high _ _ _ _ (by decide), extractLsb'_append_high _ _ _ _ (by decide),
    extractLsb'_append_high _ _ _ _ (by decide), extractLsb'_append_high _ _ _ _ (by decide),
    extractLsb'_append_high _ _ _ _ (by decide), extractLsb'_append_low _ _ _ _ (by decide),
    BitVec.extractLsb'_eq_self]
@[simp] theorem fFunct6_opV : fFunct6 (opV f6 vm vs2 s1 f3 vd) = f6 := by
  unfold fFunct6 opV
  rw [extractLsb'_append_high _ _ _ _ (by decide), extractLsb'_append_high _ _ _ _ (by decide),
    extractLsb'_append_high _ _ _ _ (by decide), extractLsb'_append_high _ _ _ _ (by decide),
    extractLsb'_append_high _ _ _ _ (by decide), extractLsb'_append_high _ _ _ _ (by decide),
    BitVec.extractLsb'_eq_self]

end OpV

section OpI

variable (imm : BitVec 12) (rs1 : BitVec 5) (f3 : BitVec 3) (rd : BitVec 5) (op : BitVec 7)

@[simp] theorem fOpcode_opI : fOpcode (opI imm rs1 f3 rd op) = op := by
  unfold fOpcode opI; rw [extractLsb'_append_low _ _ _ _ (by decide), BitVec.extractLsb'_eq_self]
@[simp] theorem fRd_opI : fRd (opI imm rs1 f3 rd op) = rd := by
  unfold fRd opI
  rw [extractLsb'_append_high _ _ _ _ (by decide), extractLsb'_append_low _ _ _ _ (by decide),
    BitVec.extractLsb'_eq_self]
@[simp] theorem fFunct3_opI : fFunct3 (opI imm rs1 f3 rd op) = f3 := by
  unfold fFunct3 opI
  rw [extractLsb'_append_high _ _ _ _ (by decide), extractLsb'_append_high _ _ _ _ (by decide),
    extractLsb'_append_low _ _ _ _ (by decide), BitVec.extractLsb'_eq_self]
@[simp] theorem fRs1_opI : fRs1 (opI imm rs1 f3 rd op) = rs1 := by
  unfold fRs1 opI
  rw [extractLsb'_append_high _ _ _ _ (by decide), extractLsb'_append_high _ _ _ _ (by decide),
    extractLsb'_append_high _ _ _ _ (by decide), extractLsb'_append_low _ _ _ _ (by decide),
    BitVec.extractLsb'_eq_self]
@[simp] theorem fImmI_opI : fImmI (opI imm rs1 f3 rd op) = imm := by
  unfold fImmI opI
  rw [extractLsb'_append_high _ _ _ _ (by decide), extractLsb'_append_high _ _ _ _ (by decide),
    extractLsb'_append_high _ _ _ _ (by decide), extractLsb'_append_high _ _ _ _ (by decide),
    BitVec.extractLsb'_eq_self]

end OpI

/-- Whether a category of R71 has a row with this `funct6` does not depend on the operands. -/
theorem isNone_decodeOpivv (f6 : BitVec 6) (vd vs2 vs1 : BitVec 5) (vm : BitVec 1) :
    (decodeOpivv f6 vd vs2 vs1 vm).isNone = (decodeOpivv f6 0 0 0 0).isNone := by
  simp only [decodeOpivv, apply_ite Option.isNone, Option.isNone_some]
theorem isNone_decodeOpfvv (f6 : BitVec 6) (vd vs2 vs1 : BitVec 5) (vm : BitVec 1) :
    (decodeOpfvv f6 vd vs2 vs1 vm).isNone = (decodeOpfvv f6 0 0 0 0).isNone := by
  simp only [decodeOpfvv, apply_ite Option.isNone, Option.isNone_some]
theorem isNone_decodeOpmvv (f6 : BitVec 6) (vd vs2 vs1 : BitVec 5) (vm : BitVec 1) :
    (decodeOpmvv f6 vd vs2 vs1 vm).isNone = (decodeOpmvv f6 0 0 0 0).isNone := by
  simp only [decodeOpmvv, apply_ite Option.isNone, Option.isNone_some]
theorem isNone_decodeOpivi (f6 : BitVec 6) (vd vs2 imm5 : BitVec 5) (vm : BitVec 1) :
    (decodeOpivi f6 vd vs2 imm5 vm).isNone = (decodeOpivi f6 0 0 0 0).isNone := by
  simp only [decodeOpivi, apply_ite Option.isNone, Option.isNone_some]
theorem isNone_decodeOpivx (f6 : BitVec 6) (vd vs2 rs1 : BitVec 5) (vm : BitVec 1) :
    (decodeOpivx f6 vd vs2 rs1 vm).isNone = (decodeOpivx f6 0 0 0 0).isNone := by
  simp only [decodeOpivx, apply_ite Option.isNone, Option.isNone_some]

/-- The first decoder leaves a slot that no row of R72 and R76 has to the DotEncoding, whatever the operands (R78). -/
theorem decodeOpV_of_isFree {s : DotSlot} (h : s.isFree = true) (vm : BitVec 1) (vs2 vs1 vd : BitVec 5) :
    decodeOpV (opV s.funct6 vm vs2 vs1 s.funct3 vd) = none := by
  obtain ⟨f6, f3⟩ := s
  simp only [DotSlot.isFree, Bool.and_eq_true, bne_iff_ne, ne_eq] at h
  obtain ⟨h7, h⟩ := h
  rw [← Option.isNone_iff_eq_none, ← h]
  simp only [decodeOpV, fFunct3_opV, fFunct6_opV, fRd_opV, fRs1_opV, fRs2_opV, fVm_opV, if_neg h7,
    apply_ite Option.isNone]
  rw [isNone_decodeOpivv, isNone_decodeOpfvv, isNone_decodeOpmvv, isNone_decodeOpivi, isNone_decodeOpivx]

/-- A DotEncoding reads its own rows back (R78). -/
theorem decodeWith_opV_of_isFree {d : DotEncoding} {s : DotSlot} (h : s.isFree = true) (vm : BitVec 1)
    (vs2 vs1 vd : BitVec 5) : decodeWith d (opV s.funct6 vm vs2 vs1 s.funct3 vd) =
      decodeDot d (opV s.funct6 vm vs2 vs1 s.funct3 vd) := by
  simp only [decodeWith, fOpcode_opV, if_true, decodeOpV_of_isFree h]

/-- Whether a word of the encoder lies in a slot. -/
@[simp] theorem inSlot_opV (s : DotSlot) (f6 : BitVec 6) (vm : BitVec 1) (vs2 s1 : BitVec 5) (f3 : BitVec 3)
    (vd : BitVec 5) : inSlot s (opV f6 vm vs2 s1 f3 vd) = (f6 == s.funct6 && f3 == s.funct3) := by
  simp [inSlot]

/-- A word is its four bytes put back in order (R52). -/
theorem wordOfBytes_byteOfWord (w : Word32) :
    wordOfBytes (byteOfWord w 0) (byteOfWord w 1) (byteOfWord w 2) (byteOfWord w 3) = w := by
  unfold wordOfBytes byteOfWord
  apply BitVec.eq_of_getLsbD_eq
  intro i hi
  simp only [BitVec.getLsbD_append, BitVec.getLsbD_extractLsb']
  rcases (by omega : i < 8 ∨ (8 ≤ i ∧ i < 16) ∨ (16 ≤ i ∧ i < 24) ∨ (24 ≤ i ∧ i < 32)) with h | h | h | h
  · simp [h]
  · have h1 : ¬ i < 8 := by omega
    have h2 : i - 8 < 8 := by omega
    simp [h1, h2, show 8 + (i - 8) = i by omega]
  · have h1 : ¬ i < 8 := by omega
    have h2 : ¬ i - 8 < 8 := by omega
    have h3 : i - 8 - 8 < 8 := by omega
    simp [h1, h2, h3, show 16 + (i - 8 - 8) = i by omega]
  · have h1 : ¬ i < 8 := by omega
    have h2 : ¬ i - 8 < 8 := by omega
    have h3 : ¬ i - 8 - 8 < 8 := by omega
    have h4 : i - 8 - 8 - 8 < 8 := by omega
    simp [h1, h2, h3, h4, show 24 + (i - 8 - 8 - 8) = i by omega]

end Sys2Proof
end

