-- ==== Sys2Proof/Laws/State.lean ====
section
/-! SUPPORT. One lemma per field per update of the hart, so that no later proof unfolds a record update. -/

namespace Sys2Proof.Machine

variable {c : Config}

@[simp] theorem Hart.setV_pc (h : Hart c) (a : Vector (BitVec c.VLEN) 32) : (h.setV a).pc = h.pc := rfl
@[simp] theorem Hart.setV_x (h : Hart c) (a : Vector (BitVec c.VLEN) 32) : (h.setV a).x = h.x := rfl
@[simp] theorem Hart.setV_f (h : Hart c) (a : Vector (BitVec c.VLEN) 32) : (h.setV a).f = h.f := rfl
@[simp] theorem Hart.setV_v (h : Hart c) (a : Vector (BitVec c.VLEN) 32) : (h.setV a).v = a := rfl
@[simp] theorem Hart.setV_vl (h : Hart c) (a : Vector (BitVec c.VLEN) 32) : (h.setV a).vl = h.vl := rfl
@[simp] theorem Hart.setV_vtype (h : Hart c) (a : Vector (BitVec c.VLEN) 32) : (h.setV a).vtype = h.vtype := rfl
@[simp] theorem Hart.setV_vstart (h : Hart c) (a : Vector (BitVec c.VLEN) 32) : (h.setV a).vstart = h.vstart := rfl
@[simp] theorem Hart.setV_frm (h : Hart c) (a : Vector (BitVec c.VLEN) 32) : (h.setV a).frm = h.frm := rfl
@[simp] theorem Hart.setV_fflags (h : Hart c) (a : Vector (BitVec c.VLEN) 32) : (h.setV a).fflags = h.fflags := rfl
@[simp] theorem Hart.setV_vxrm (h : Hart c) (a : Vector (BitVec c.VLEN) 32) : (h.setV a).vxrm = h.vxrm := rfl
@[simp] theorem Hart.setV_vxsat (h : Hart c) (a : Vector (BitVec c.VLEN) 32) : (h.setV a).vxsat = h.vxsat := rfl
@[simp] theorem Hart.setV_mem (h : Hart c) (a : Vector (BitVec c.VLEN) 32) : (h.setV a).mem = h.mem := rfl
@[simp] theorem Hart.setV_stored (h : Hart c) (a : Vector (BitVec c.VLEN) 32) : (h.setV a).stored = h.stored := rfl
@[simp] theorem Hart.setV_freeCount (h : Hart c) (a : Vector (BitVec c.VLEN) 32) : (h.setV a).freeCount = h.freeCount := rfl

@[simp] theorem Hart.setVl_pc (h : Hart c) (a : BitVec c.XLEN) : (h.setVl a).pc = h.pc := rfl
@[simp] theorem Hart.setVl_x (h : Hart c) (a : BitVec c.XLEN) : (h.setVl a).x = h.x := rfl
@[simp] theorem Hart.setVl_f (h : Hart c) (a : BitVec c.XLEN) : (h.setVl a).f = h.f := rfl
@[simp] theorem Hart.setVl_v (h : Hart c) (a : BitVec c.XLEN) : (h.setVl a).v = h.v := rfl
@[simp] theorem Hart.setVl_vl (h : Hart c) (a : BitVec c.XLEN) : (h.setVl a).vl = a := rfl
@[simp] theorem Hart.setVl_vtype (h : Hart c) (a : BitVec c.XLEN) : (h.setVl a).vtype = h.vtype := rfl
@[simp] theorem Hart.setVl_vstart (h : Hart c) (a : BitVec c.XLEN) : (h.setVl a).vstart = h.vstart := rfl
@[simp] theorem Hart.setVl_frm (h : Hart c) (a : BitVec c.XLEN) : (h.setVl a).frm = h.frm := rfl
@[simp] theorem Hart.setVl_fflags (h : Hart c) (a : BitVec c.XLEN) : (h.setVl a).fflags = h.fflags := rfl
@[simp] theorem Hart.setVl_vxrm (h : Hart c) (a : BitVec c.XLEN) : (h.setVl a).vxrm = h.vxrm := rfl
@[simp] theorem Hart.setVl_vxsat (h : Hart c) (a : BitVec c.XLEN) : (h.setVl a).vxsat = h.vxsat := rfl
@[simp] theorem Hart.setVl_mem (h : Hart c) (a : BitVec c.XLEN) : (h.setVl a).mem = h.mem := rfl
@[simp] theorem Hart.setVl_stored (h : Hart c) (a : BitVec c.XLEN) : (h.setVl a).stored = h.stored := rfl
@[simp] theorem Hart.setVl_freeCount (h : Hart c) (a : BitVec c.XLEN) : (h.setVl a).freeCount = h.freeCount := rfl

@[simp] theorem Hart.setVtype_pc (h : Hart c) (a : BitVec c.XLEN) : (h.setVtype a).pc = h.pc := rfl
@[simp] theorem Hart.setVtype_x (h : Hart c) (a : BitVec c.XLEN) : (h.setVtype a).x = h.x := rfl
@[simp] theorem Hart.setVtype_f (h : Hart c) (a : BitVec c.XLEN) : (h.setVtype a).f = h.f := rfl
@[simp] theorem Hart.setVtype_v (h : Hart c) (a : BitVec c.XLEN) : (h.setVtype a).v = h.v := rfl
@[simp] theorem Hart.setVtype_vl (h : Hart c) (a : BitVec c.XLEN) : (h.setVtype a).vl = h.vl := rfl
@[simp] theorem Hart.setVtype_vtype (h : Hart c) (a : BitVec c.XLEN) : (h.setVtype a).vtype = a := rfl
@[simp] theorem Hart.setVtype_vstart (h : Hart c) (a : BitVec c.XLEN) : (h.setVtype a).vstart = h.vstart := rfl
@[simp] theorem Hart.setVtype_frm (h : Hart c) (a : BitVec c.XLEN) : (h.setVtype a).frm = h.frm := rfl
@[simp] theorem Hart.setVtype_fflags (h : Hart c) (a : BitVec c.XLEN) : (h.setVtype a).fflags = h.fflags := rfl
@[simp] theorem Hart.setVtype_vxrm (h : Hart c) (a : BitVec c.XLEN) : (h.setVtype a).vxrm = h.vxrm := rfl
@[simp] theorem Hart.setVtype_vxsat (h : Hart c) (a : BitVec c.XLEN) : (h.setVtype a).vxsat = h.vxsat := rfl
@[simp] theorem Hart.setVtype_mem (h : Hart c) (a : BitVec c.XLEN) : (h.setVtype a).mem = h.mem := rfl
@[simp] theorem Hart.setVtype_stored (h : Hart c) (a : BitVec c.XLEN) : (h.setVtype a).stored = h.stored := rfl
@[simp] theorem Hart.setVtype_freeCount (h : Hart c) (a : BitVec c.XLEN) : (h.setVtype a).freeCount = h.freeCount := rfl

@[simp] theorem Hart.setMem_pc (h : Hart c) (a : Memory) : (h.setMem a).pc = h.pc := rfl
@[simp] theorem Hart.setMem_x (h : Hart c) (a : Memory) : (h.setMem a).x = h.x := rfl
@[simp] theorem Hart.setMem_f (h : Hart c) (a : Memory) : (h.setMem a).f = h.f := rfl
@[simp] theorem Hart.setMem_v (h : Hart c) (a : Memory) : (h.setMem a).v = h.v := rfl
@[simp] theorem Hart.setMem_vl (h : Hart c) (a : Memory) : (h.setMem a).vl = h.vl := rfl
@[simp] theorem Hart.setMem_vtype (h : Hart c) (a : Memory) : (h.setMem a).vtype = h.vtype := rfl
@[simp] theorem Hart.setMem_vstart (h : Hart c) (a : Memory) : (h.setMem a).vstart = h.vstart := rfl
@[simp] theorem Hart.setMem_frm (h : Hart c) (a : Memory) : (h.setMem a).frm = h.frm := rfl
@[simp] theorem Hart.setMem_fflags (h : Hart c) (a : Memory) : (h.setMem a).fflags = h.fflags := rfl
@[simp] theorem Hart.setMem_vxrm (h : Hart c) (a : Memory) : (h.setMem a).vxrm = h.vxrm := rfl
@[simp] theorem Hart.setMem_vxsat (h : Hart c) (a : Memory) : (h.setMem a).vxsat = h.vxsat := rfl
@[simp] theorem Hart.setMem_mem (h : Hart c) (a : Memory) : (h.setMem a).mem = a := rfl
@[simp] theorem Hart.setMem_stored (h : Hart c) (a : Memory) : (h.setMem a).stored = h.stored := rfl
@[simp] theorem Hart.setMem_freeCount (h : Hart c) (a : Memory) : (h.setMem a).freeCount = h.freeCount := rfl

@[simp] theorem Hart.markStored_pc (h : Hart c) (a : List (BitVec c.XLEN)) (n : Nat) : (h.markStored a n).pc = h.pc := rfl
@[simp] theorem Hart.markStored_x (h : Hart c) (a : List (BitVec c.XLEN)) (n : Nat) : (h.markStored a n).x = h.x := rfl
@[simp] theorem Hart.markStored_f (h : Hart c) (a : List (BitVec c.XLEN)) (n : Nat) : (h.markStored a n).f = h.f := rfl
@[simp] theorem Hart.markStored_v (h : Hart c) (a : List (BitVec c.XLEN)) (n : Nat) : (h.markStored a n).v = h.v := rfl
@[simp] theorem Hart.markStored_vl (h : Hart c) (a : List (BitVec c.XLEN)) (n : Nat) : (h.markStored a n).vl = h.vl := rfl
@[simp] theorem Hart.markStored_vtype (h : Hart c) (a : List (BitVec c.XLEN)) (n : Nat) : (h.markStored a n).vtype = h.vtype := rfl
@[simp] theorem Hart.markStored_vstart (h : Hart c) (a : List (BitVec c.XLEN)) (n : Nat) : (h.markStored a n).vstart = h.vstart := rfl
@[simp] theorem Hart.markStored_frm (h : Hart c) (a : List (BitVec c.XLEN)) (n : Nat) : (h.markStored a n).frm = h.frm := rfl
@[simp] theorem Hart.markStored_fflags (h : Hart c) (a : List (BitVec c.XLEN)) (n : Nat) : (h.markStored a n).fflags = h.fflags := rfl
@[simp] theorem Hart.markStored_vxrm (h : Hart c) (a : List (BitVec c.XLEN)) (n : Nat) : (h.markStored a n).vxrm = h.vxrm := rfl
@[simp] theorem Hart.markStored_vxsat (h : Hart c) (a : List (BitVec c.XLEN)) (n : Nat) : (h.markStored a n).vxsat = h.vxsat := rfl
@[simp] theorem Hart.markStored_mem (h : Hart c) (a : List (BitVec c.XLEN)) (n : Nat) : (h.markStored a n).mem = h.mem := rfl
@[simp] theorem Hart.markStored_freeCount (h : Hart c) (a : List (BitVec c.XLEN)) (n : Nat) : (h.markStored a n).freeCount = h.freeCount := rfl

@[simp] theorem Hart.withoutMem_pc (h : Hart c) : h.withoutMem.pc = h.pc := rfl
@[simp] theorem Hart.withoutMem_x (h : Hart c) : h.withoutMem.x = h.x := rfl
@[simp] theorem Hart.withoutMem_f (h : Hart c) : h.withoutMem.f = h.f := rfl
@[simp] theorem Hart.withoutMem_v (h : Hart c) : h.withoutMem.v = h.v := rfl
@[simp] theorem Hart.withoutMem_vl (h : Hart c) : h.withoutMem.vl = h.vl := rfl
@[simp] theorem Hart.withoutMem_vtype (h : Hart c) : h.withoutMem.vtype = h.vtype := rfl
@[simp] theorem Hart.withoutMem_vstart (h : Hart c) : h.withoutMem.vstart = h.vstart := rfl
@[simp] theorem Hart.withoutMem_frm (h : Hart c) : h.withoutMem.frm = h.frm := rfl
@[simp] theorem Hart.withoutMem_fflags (h : Hart c) : h.withoutMem.fflags = h.fflags := rfl
@[simp] theorem Hart.withoutMem_vxrm (h : Hart c) : h.withoutMem.vxrm = h.vxrm := rfl
@[simp] theorem Hart.withoutMem_vxsat (h : Hart c) : h.withoutMem.vxsat = h.vxsat := rfl
@[simp] theorem Hart.withoutMem_mem (h : Hart c) : h.withoutMem.mem = [] := rfl
@[simp] theorem Hart.withoutMem_stored (h : Hart c) : h.withoutMem.stored = [] := rfl
@[simp] theorem Hart.withoutMem_freeCount (h : Hart c) : h.withoutMem.freeCount = h.freeCount := rfl

@[simp] theorem Hart.setPc_pc (h : Hart c) (a : BitVec c.XLEN) : (h.setPc a).pc = a := rfl
@[simp] theorem Hart.setPc_x (h : Hart c) (a : BitVec c.XLEN) : (h.setPc a).x = h.x := rfl
@[simp] theorem Hart.setPc_f (h : Hart c) (a : BitVec c.XLEN) : (h.setPc a).f = h.f := rfl
@[simp] theorem Hart.setPc_v (h : Hart c) (a : BitVec c.XLEN) : (h.setPc a).v = h.v := rfl
@[simp] theorem Hart.setPc_vl (h : Hart c) (a : BitVec c.XLEN) : (h.setPc a).vl = h.vl := rfl
@[simp] theorem Hart.setPc_vtype (h : Hart c) (a : BitVec c.XLEN) : (h.setPc a).vtype = h.vtype := rfl
@[simp] theorem Hart.setPc_vstart (h : Hart c) (a : BitVec c.XLEN) : (h.setPc a).vstart = h.vstart := rfl
@[simp] theorem Hart.setPc_frm (h : Hart c) (a : BitVec c.XLEN) : (h.setPc a).frm = h.frm := rfl
@[simp] theorem Hart.setPc_fflags (h : Hart c) (a : BitVec c.XLEN) : (h.setPc a).fflags = h.fflags := rfl
@[simp] theorem Hart.setPc_vxrm (h : Hart c) (a : BitVec c.XLEN) : (h.setPc a).vxrm = h.vxrm := rfl
@[simp] theorem Hart.setPc_vxsat (h : Hart c) (a : BitVec c.XLEN) : (h.setPc a).vxsat = h.vxsat := rfl
@[simp] theorem Hart.setPc_mem (h : Hart c) (a : BitVec c.XLEN) : (h.setPc a).mem = h.mem := rfl
@[simp] theorem Hart.setPc_stored (h : Hart c) (a : BitVec c.XLEN) : (h.setPc a).stored = h.stored := rfl
@[simp] theorem Hart.setPc_freeCount (h : Hart c) (a : BitVec c.XLEN) : (h.setPc a).freeCount = h.freeCount := rfl

@[simp] theorem Hart.advance_pc (h : Hart c) : h.advance.pc = h.pc + 4 := rfl
@[simp] theorem Hart.advance_x (h : Hart c) : h.advance.x = h.x := rfl
@[simp] theorem Hart.advance_f (h : Hart c) : h.advance.f = h.f := rfl
@[simp] theorem Hart.advance_v (h : Hart c) : h.advance.v = h.v := rfl
@[simp] theorem Hart.advance_vl (h : Hart c) : h.advance.vl = h.vl := rfl
@[simp] theorem Hart.advance_vtype (h : Hart c) : h.advance.vtype = h.vtype := rfl
@[simp] theorem Hart.advance_vstart (h : Hart c) : h.advance.vstart = h.vstart := rfl
@[simp] theorem Hart.advance_frm (h : Hart c) : h.advance.frm = h.frm := rfl
@[simp] theorem Hart.advance_fflags (h : Hart c) : h.advance.fflags = h.fflags := rfl
@[simp] theorem Hart.advance_vxrm (h : Hart c) : h.advance.vxrm = h.vxrm := rfl
@[simp] theorem Hart.advance_vxsat (h : Hart c) : h.advance.vxsat = h.vxsat := rfl
@[simp] theorem Hart.advance_mem (h : Hart c) : h.advance.mem = h.mem := rfl
@[simp] theorem Hart.advance_stored (h : Hart c) : h.advance.stored = h.stored := rfl
@[simp] theorem Hart.advance_freeCount (h : Hart c) : h.advance.freeCount = h.freeCount := rfl

@[simp] theorem Hart.finish_pc (h : Hart c) : h.finish.pc = h.pc + 4 := rfl
@[simp] theorem Hart.finish_x (h : Hart c) : h.finish.x = h.x := rfl
@[simp] theorem Hart.finish_f (h : Hart c) : h.finish.f = h.f := rfl
@[simp] theorem Hart.finish_v (h : Hart c) : h.finish.v = h.v := rfl
@[simp] theorem Hart.finish_vl (h : Hart c) : h.finish.vl = h.vl := rfl
@[simp] theorem Hart.finish_vtype (h : Hart c) : h.finish.vtype = h.vtype := rfl
@[simp] theorem Hart.finish_vstart (h : Hart c) : h.finish.vstart = 0 := rfl
@[simp] theorem Hart.finish_frm (h : Hart c) : h.finish.frm = h.frm := rfl
@[simp] theorem Hart.finish_fflags (h : Hart c) : h.finish.fflags = h.fflags := rfl
@[simp] theorem Hart.finish_vxrm (h : Hart c) : h.finish.vxrm = h.vxrm := rfl
@[simp] theorem Hart.finish_vxsat (h : Hart c) : h.finish.vxsat = h.vxsat := rfl
@[simp] theorem Hart.finish_mem (h : Hart c) : h.finish.mem = h.mem := rfl
@[simp] theorem Hart.finish_stored (h : Hart c) : h.finish.stored = h.stored := rfl
@[simp] theorem Hart.finish_freeCount (h : Hart c) : h.finish.freeCount = h.freeCount + 1 := rfl

@[simp] theorem Hart.writeF_pc (h : Hart c) (r : RegNo) (a : BitVec c.FLEN) : (h.writeF r a).pc = h.pc := rfl
@[simp] theorem Hart.writeF_x (h : Hart c) (r : RegNo) (a : BitVec c.FLEN) : (h.writeF r a).x = h.x := rfl
@[simp] theorem Hart.writeF_f (h : Hart c) (r : RegNo) (a : BitVec c.FLEN) : (h.writeF r a).f = h.f.set r.toNat a := rfl
@[simp] theorem Hart.writeF_v (h : Hart c) (r : RegNo) (a : BitVec c.FLEN) : (h.writeF r a).v = h.v := rfl
@[simp] theorem Hart.writeF_vl (h : Hart c) (r : RegNo) (a : BitVec c.FLEN) : (h.writeF r a).vl = h.vl := rfl
@[simp] theorem Hart.writeF_vtype (h : Hart c) (r : RegNo) (a : BitVec c.FLEN) : (h.writeF r a).vtype = h.vtype := rfl
@[simp] theorem Hart.writeF_vstart (h : Hart c) (r : RegNo) (a : BitVec c.FLEN) : (h.writeF r a).vstart = h.vstart := rfl
@[simp] theorem Hart.writeF_frm (h : Hart c) (r : RegNo) (a : BitVec c.FLEN) : (h.writeF r a).frm = h.frm := rfl
@[simp] theorem Hart.writeF_fflags (h : Hart c) (r : RegNo) (a : BitVec c.FLEN) : (h.writeF r a).fflags = h.fflags := rfl
@[simp] theorem Hart.writeF_vxrm (h : Hart c) (r : RegNo) (a : BitVec c.FLEN) : (h.writeF r a).vxrm = h.vxrm := rfl
@[simp] theorem Hart.writeF_vxsat (h : Hart c) (r : RegNo) (a : BitVec c.FLEN) : (h.writeF r a).vxsat = h.vxsat := rfl
@[simp] theorem Hart.writeF_mem (h : Hart c) (r : RegNo) (a : BitVec c.FLEN) : (h.writeF r a).mem = h.mem := rfl
@[simp] theorem Hart.writeF_stored (h : Hart c) (r : RegNo) (a : BitVec c.FLEN) : (h.writeF r a).stored = h.stored := rfl
@[simp] theorem Hart.writeF_freeCount (h : Hart c) (r : RegNo) (a : BitVec c.FLEN) : (h.writeF r a).freeCount = h.freeCount := rfl

@[simp] theorem Hart.accrue_pc (h : Hart c) (a : BitVec 5) : (h.accrue a).pc = h.pc := rfl
@[simp] theorem Hart.accrue_x (h : Hart c) (a : BitVec 5) : (h.accrue a).x = h.x := rfl
@[simp] theorem Hart.accrue_f (h : Hart c) (a : BitVec 5) : (h.accrue a).f = h.f := rfl
@[simp] theorem Hart.accrue_v (h : Hart c) (a : BitVec 5) : (h.accrue a).v = h.v := rfl
@[simp] theorem Hart.accrue_vl (h : Hart c) (a : BitVec 5) : (h.accrue a).vl = h.vl := rfl
@[simp] theorem Hart.accrue_vtype (h : Hart c) (a : BitVec 5) : (h.accrue a).vtype = h.vtype := rfl
@[simp] theorem Hart.accrue_vstart (h : Hart c) (a : BitVec 5) : (h.accrue a).vstart = h.vstart := rfl
@[simp] theorem Hart.accrue_frm (h : Hart c) (a : BitVec 5) : (h.accrue a).frm = h.frm := rfl
@[simp] theorem Hart.accrue_fflags (h : Hart c) (a : BitVec 5) : (h.accrue a).fflags = h.fflags ||| a := rfl
@[simp] theorem Hart.accrue_vxrm (h : Hart c) (a : BitVec 5) : (h.accrue a).vxrm = h.vxrm := rfl
@[simp] theorem Hart.accrue_vxsat (h : Hart c) (a : BitVec 5) : (h.accrue a).vxsat = h.vxsat := rfl
@[simp] theorem Hart.accrue_mem (h : Hart c) (a : BitVec 5) : (h.accrue a).mem = h.mem := rfl
@[simp] theorem Hart.accrue_stored (h : Hart c) (a : BitVec 5) : (h.accrue a).stored = h.stored := rfl
@[simp] theorem Hart.accrue_freeCount (h : Hart c) (a : BitVec 5) : (h.accrue a).freeCount = h.freeCount := rfl

@[simp] theorem Hart.saturate_pc (h : Hart c) (a : BitVec 1) : (h.saturate a).pc = h.pc := rfl
@[simp] theorem Hart.saturate_x (h : Hart c) (a : BitVec 1) : (h.saturate a).x = h.x := rfl
@[simp] theorem Hart.saturate_f (h : Hart c) (a : BitVec 1) : (h.saturate a).f = h.f := rfl
@[simp] theorem Hart.saturate_v (h : Hart c) (a : BitVec 1) : (h.saturate a).v = h.v := rfl
@[simp] theorem Hart.saturate_vl (h : Hart c) (a : BitVec 1) : (h.saturate a).vl = h.vl := rfl
@[simp] theorem Hart.saturate_vtype (h : Hart c) (a : BitVec 1) : (h.saturate a).vtype = h.vtype := rfl
@[simp] theorem Hart.saturate_vstart (h : Hart c) (a : BitVec 1) : (h.saturate a).vstart = h.vstart := rfl
@[simp] theorem Hart.saturate_frm (h : Hart c) (a : BitVec 1) : (h.saturate a).frm = h.frm := rfl
@[simp] theorem Hart.saturate_fflags (h : Hart c) (a : BitVec 1) : (h.saturate a).fflags = h.fflags := rfl
@[simp] theorem Hart.saturate_vxrm (h : Hart c) (a : BitVec 1) : (h.saturate a).vxrm = h.vxrm := rfl
@[simp] theorem Hart.saturate_vxsat (h : Hart c) (a : BitVec 1) : (h.saturate a).vxsat = h.vxsat ||| a := rfl
@[simp] theorem Hart.saturate_mem (h : Hart c) (a : BitVec 1) : (h.saturate a).mem = h.mem := rfl
@[simp] theorem Hart.saturate_stored (h : Hart c) (a : BitVec 1) : (h.saturate a).stored = h.stored := rfl
@[simp] theorem Hart.saturate_freeCount (h : Hart c) (a : BitVec 1) : (h.saturate a).freeCount = h.freeCount := rfl

@[simp] theorem Hart.writeGroup_pc (h : Hart c) (vc : VConf) (r : RegNo) (m : BitVec 1) (a : Nat → BitVec vc.sew) : (h.writeGroup vc r m a).pc = h.pc := rfl
@[simp] theorem Hart.writeGroup_x (h : Hart c) (vc : VConf) (r : RegNo) (m : BitVec 1) (a : Nat → BitVec vc.sew) : (h.writeGroup vc r m a).x = h.x := rfl
@[simp] theorem Hart.writeGroup_f (h : Hart c) (vc : VConf) (r : RegNo) (m : BitVec 1) (a : Nat → BitVec vc.sew) : (h.writeGroup vc r m a).f = h.f := rfl
@[simp] theorem Hart.writeGroup_vl (h : Hart c) (vc : VConf) (r : RegNo) (m : BitVec 1) (a : Nat → BitVec vc.sew) : (h.writeGroup vc r m a).vl = h.vl := rfl
@[simp] theorem Hart.writeGroup_vtype (h : Hart c) (vc : VConf) (r : RegNo) (m : BitVec 1) (a : Nat → BitVec vc.sew) : (h.writeGroup vc r m a).vtype = h.vtype := rfl
@[simp] theorem Hart.writeGroup_vstart (h : Hart c) (vc : VConf) (r : RegNo) (m : BitVec 1) (a : Nat → BitVec vc.sew) : (h.writeGroup vc r m a).vstart = h.vstart := rfl
@[simp] theorem Hart.writeGroup_frm (h : Hart c) (vc : VConf) (r : RegNo) (m : BitVec 1) (a : Nat → BitVec vc.sew) : (h.writeGroup vc r m a).frm = h.frm := rfl
@[simp] theorem Hart.writeGroup_fflags (h : Hart c) (vc : VConf) (r : RegNo) (m : BitVec 1) (a : Nat → BitVec vc.sew) : (h.writeGroup vc r m a).fflags = h.fflags := rfl
@[simp] theorem Hart.writeGroup_vxrm (h : Hart c) (vc : VConf) (r : RegNo) (m : BitVec 1) (a : Nat → BitVec vc.sew) : (h.writeGroup vc r m a).vxrm = h.vxrm := rfl
@[simp] theorem Hart.writeGroup_vxsat (h : Hart c) (vc : VConf) (r : RegNo) (m : BitVec 1) (a : Nat → BitVec vc.sew) : (h.writeGroup vc r m a).vxsat = h.vxsat := rfl
@[simp] theorem Hart.writeGroup_mem (h : Hart c) (vc : VConf) (r : RegNo) (m : BitVec 1) (a : Nat → BitVec vc.sew) : (h.writeGroup vc r m a).mem = h.mem := rfl
@[simp] theorem Hart.writeGroup_stored (h : Hart c) (vc : VConf) (r : RegNo) (m : BitVec 1) (a : Nat → BitVec vc.sew) : (h.writeGroup vc r m a).stored = h.stored := rfl
@[simp] theorem Hart.writeGroup_freeCount (h : Hart c) (vc : VConf) (r : RegNo) (m : BitVec 1) (a : Nat → BitVec vc.sew) : (h.writeGroup vc r m a).freeCount = h.freeCount := rfl

@[simp] theorem Hart.writeMask_pc (h : Hart c) (vc : VConf) (r : RegNo) (m : BitVec 1) (a : Nat → Bool) : (h.writeMask vc r m a).pc = h.pc := rfl
@[simp] theorem Hart.writeMask_x (h : Hart c) (vc : VConf) (r : RegNo) (m : BitVec 1) (a : Nat → Bool) : (h.writeMask vc r m a).x = h.x := rfl
@[simp] theorem Hart.writeMask_f (h : Hart c) (vc : VConf) (r : RegNo) (m : BitVec 1) (a : Nat → Bool) : (h.writeMask vc r m a).f = h.f := rfl
@[simp] theorem Hart.writeMask_vl (h : Hart c) (vc : VConf) (r : RegNo) (m : BitVec 1) (a : Nat → Bool) : (h.writeMask vc r m a).vl = h.vl := rfl
@[simp] theorem Hart.writeMask_vtype (h : Hart c) (vc : VConf) (r : RegNo) (m : BitVec 1) (a : Nat → Bool) : (h.writeMask vc r m a).vtype = h.vtype := rfl
@[simp] theorem Hart.writeMask_vstart (h : Hart c) (vc : VConf) (r : RegNo) (m : BitVec 1) (a : Nat → Bool) : (h.writeMask vc r m a).vstart = h.vstart := rfl
@[simp] theorem Hart.writeMask_frm (h : Hart c) (vc : VConf) (r : RegNo) (m : BitVec 1) (a : Nat → Bool) : (h.writeMask vc r m a).frm = h.frm := rfl
@[simp] theorem Hart.writeMask_fflags (h : Hart c) (vc : VConf) (r : RegNo) (m : BitVec 1) (a : Nat → Bool) : (h.writeMask vc r m a).fflags = h.fflags := rfl
@[simp] theorem Hart.writeMask_vxrm (h : Hart c) (vc : VConf) (r : RegNo) (m : BitVec 1) (a : Nat → Bool) : (h.writeMask vc r m a).vxrm = h.vxrm := rfl
@[simp] theorem Hart.writeMask_vxsat (h : Hart c) (vc : VConf) (r : RegNo) (m : BitVec 1) (a : Nat → Bool) : (h.writeMask vc r m a).vxsat = h.vxsat := rfl
@[simp] theorem Hart.writeMask_mem (h : Hart c) (vc : VConf) (r : RegNo) (m : BitVec 1) (a : Nat → Bool) : (h.writeMask vc r m a).mem = h.mem := rfl
@[simp] theorem Hart.writeMask_stored (h : Hart c) (vc : VConf) (r : RegNo) (m : BitVec 1) (a : Nat → Bool) : (h.writeMask vc r m a).stored = h.stored := rfl
@[simp] theorem Hart.writeMask_freeCount (h : Hart c) (vc : VConf) (r : RegNo) (m : BitVec 1) (a : Nat → Bool) : (h.writeMask vc r m a).freeCount = h.freeCount := rfl

@[simp] theorem Hart.writeScalar_pc (h : Hart c) (vc : VConf) (r : RegNo) (w : Nat) (a : BitVec w) : (h.writeScalar vc r w a).pc = h.pc := rfl
@[simp] theorem Hart.writeScalar_x (h : Hart c) (vc : VConf) (r : RegNo) (w : Nat) (a : BitVec w) : (h.writeScalar vc r w a).x = h.x := rfl
@[simp] theorem Hart.writeScalar_f (h : Hart c) (vc : VConf) (r : RegNo) (w : Nat) (a : BitVec w) : (h.writeScalar vc r w a).f = h.f := rfl
@[simp] theorem Hart.writeScalar_vl (h : Hart c) (vc : VConf) (r : RegNo) (w : Nat) (a : BitVec w) : (h.writeScalar vc r w a).vl = h.vl := rfl
@[simp] theorem Hart.writeScalar_vtype (h : Hart c) (vc : VConf) (r : RegNo) (w : Nat) (a : BitVec w) : (h.writeScalar vc r w a).vtype = h.vtype := rfl
@[simp] theorem Hart.writeScalar_vstart (h : Hart c) (vc : VConf) (r : RegNo) (w : Nat) (a : BitVec w) : (h.writeScalar vc r w a).vstart = h.vstart := rfl
@[simp] theorem Hart.writeScalar_frm (h : Hart c) (vc : VConf) (r : RegNo) (w : Nat) (a : BitVec w) : (h.writeScalar vc r w a).frm = h.frm := rfl
@[simp] theorem Hart.writeScalar_fflags (h : Hart c) (vc : VConf) (r : RegNo) (w : Nat) (a : BitVec w) : (h.writeScalar vc r w a).fflags = h.fflags := rfl
@[simp] theorem Hart.writeScalar_vxrm (h : Hart c) (vc : VConf) (r : RegNo) (w : Nat) (a : BitVec w) : (h.writeScalar vc r w a).vxrm = h.vxrm := rfl
@[simp] theorem Hart.writeScalar_vxsat (h : Hart c) (vc : VConf) (r : RegNo) (w : Nat) (a : BitVec w) : (h.writeScalar vc r w a).vxsat = h.vxsat := rfl
@[simp] theorem Hart.writeScalar_mem (h : Hart c) (vc : VConf) (r : RegNo) (w : Nat) (a : BitVec w) : (h.writeScalar vc r w a).mem = h.mem := rfl
@[simp] theorem Hart.writeScalar_stored (h : Hart c) (vc : VConf) (r : RegNo) (w : Nat) (a : BitVec w) : (h.writeScalar vc r w a).stored = h.stored := rfl
@[simp] theorem Hart.writeScalar_freeCount (h : Hart c) (vc : VConf) (r : RegNo) (w : Nat) (a : BitVec w) : (h.writeScalar vc r w a).freeCount = h.freeCount := rfl

@[simp] theorem Hart.writeX_pc (h : Hart c) (r : RegNo) (a : BitVec c.XLEN) : (h.writeX r a).pc = h.pc := by
  unfold Hart.writeX; split <;> rfl
@[simp] theorem Hart.writeX_f (h : Hart c) (r : RegNo) (a : BitVec c.XLEN) : (h.writeX r a).f = h.f := by
  unfold Hart.writeX; split <;> rfl
@[simp] theorem Hart.writeX_v (h : Hart c) (r : RegNo) (a : BitVec c.XLEN) : (h.writeX r a).v = h.v := by
  unfold Hart.writeX; split <;> rfl
@[simp] theorem Hart.writeX_vl (h : Hart c) (r : RegNo) (a : BitVec c.XLEN) : (h.writeX r a).vl = h.vl := by
  unfold Hart.writeX; split <;> rfl
@[simp] theorem Hart.writeX_vtype (h : Hart c) (r : RegNo) (a : BitVec c.XLEN) : (h.writeX r a).vtype = h.vtype := by
  unfold Hart.writeX; split <;> rfl
@[simp] theorem Hart.writeX_vstart (h : Hart c) (r : RegNo) (a : BitVec c.XLEN) : (h.writeX r a).vstart = h.vstart := by
  unfold Hart.writeX; split <;> rfl
@[simp] theorem Hart.writeX_frm (h : Hart c) (r : RegNo) (a : BitVec c.XLEN) : (h.writeX r a).frm = h.frm := by
  unfold Hart.writeX; split <;> rfl
@[simp] theorem Hart.writeX_fflags (h : Hart c) (r : RegNo) (a : BitVec c.XLEN) : (h.writeX r a).fflags = h.fflags := by
  unfold Hart.writeX; split <;> rfl
@[simp] theorem Hart.writeX_vxrm (h : Hart c) (r : RegNo) (a : BitVec c.XLEN) : (h.writeX r a).vxrm = h.vxrm := by
  unfold Hart.writeX; split <;> rfl
@[simp] theorem Hart.writeX_vxsat (h : Hart c) (r : RegNo) (a : BitVec c.XLEN) : (h.writeX r a).vxsat = h.vxsat := by
  unfold Hart.writeX; split <;> rfl
@[simp] theorem Hart.writeX_mem (h : Hart c) (r : RegNo) (a : BitVec c.XLEN) : (h.writeX r a).mem = h.mem := by
  unfold Hart.writeX; split <;> rfl
@[simp] theorem Hart.writeX_stored (h : Hart c) (r : RegNo) (a : BitVec c.XLEN) : (h.writeX r a).stored = h.stored := by
  unfold Hart.writeX; split <;> rfl
@[simp] theorem Hart.writeX_freeCount (h : Hart c) (r : RegNo) (a : BitVec c.XLEN) : (h.writeX r a).freeCount = h.freeCount := by
  unfold Hart.writeX; split <;> rfl

@[simp] theorem Hart.readX_zero (h : Hart c) : h.readX 0 = 0 := rfl

/-- What a write of an integer register does: `x[r]` holds the value unless `r` is 0, every other register
keeps its own (R20). -/
theorem Hart.readX_writeX (h : Hart c) (r q : RegNo) (a : BitVec c.XLEN) :
    (h.writeX r a).readX q = if q = r ∧ r ≠ 0 then a else h.readX q := by
  have hne : ∀ q r : RegNo, q.toNat = r.toNat → q = r := fun q r e => BitVec.eq_of_toNat_eq e
  unfold Hart.readX Hart.writeX
  by_cases hq : q = 0
  · subst hq
    by_cases hr : r = 0 <;> simp [hr]
    intro h0; exact absurd h0.symm hr
  · by_cases hr : r = 0
    · subst hr
      simp only [if_true, if_neg hq, ne_eq, not_true, and_false, if_false]
    · simp only [hq, hr, if_false, Vector.getElem_set]
      by_cases hqr : q = r
      · subst hqr
        have hc : True ∧ ¬q = 0 := ⟨trivial, hq⟩
        simp only [ne_eq, if_true, if_pos hc]
      · have : r.toNat ≠ q.toNat := fun e => hqr (hne _ _ e.symm)
        simp [hqr, this]

/-- What a write of a floating-point register does. -/
theorem Hart.readF_writeF (h : Hart c) (r q : RegNo) (a : BitVec c.FLEN) :
    (h.writeF r a).readF q = if q = r then a else h.readF q := by
  unfold Hart.readF Hart.writeF
  by_cases hqr : q = r
  · subst hqr; simp
  · have : r.toNat ≠ q.toNat := fun e => hqr (BitVec.eq_of_toNat_eq e.symm)
    simp [hqr, this]


@[simp] theorem Hart.setV_readX (h : Hart c) (a : Vector (BitVec c.VLEN) 32) (q : RegNo) : (h.setV a).readX q = h.readX q := rfl
@[simp] theorem Hart.setV_readF (h : Hart c) (a : Vector (BitVec c.VLEN) 32) (q : RegNo) : (h.setV a).readF q = h.readF q := rfl
@[simp] theorem Hart.setVl_readX (h : Hart c) (a : BitVec c.XLEN) (q : RegNo) : (h.setVl a).readX q = h.readX q := rfl
@[simp] theorem Hart.setVl_readF (h : Hart c) (a : BitVec c.XLEN) (q : RegNo) : (h.setVl a).readF q = h.readF q := rfl
@[simp] theorem Hart.setVtype_readX (h : Hart c) (a : BitVec c.XLEN) (q : RegNo) : (h.setVtype a).readX q = h.readX q := rfl
@[simp] theorem Hart.setVtype_readF (h : Hart c) (a : BitVec c.XLEN) (q : RegNo) : (h.setVtype a).readF q = h.readF q := rfl
@[simp] theorem Hart.setMem_readX (h : Hart c) (a : Memory) (q : RegNo) : (h.setMem a).readX q = h.readX q := rfl
@[simp] theorem Hart.setMem_readF (h : Hart c) (a : Memory) (q : RegNo) : (h.setMem a).readF q = h.readF q := rfl
@[simp] theorem Hart.markStored_readX (h : Hart c) (a : List (BitVec c.XLEN)) (n : Nat) (q : RegNo) : (h.markStored a n).readX q = h.readX q := rfl
@[simp] theorem Hart.markStored_readF (h : Hart c) (a : List (BitVec c.XLEN)) (n : Nat) (q : RegNo) : (h.markStored a n).readF q = h.readF q := rfl
@[simp] theorem Hart.withoutMem_readX (h : Hart c) (q : RegNo) : h.withoutMem.readX q = h.readX q := rfl
@[simp] theorem Hart.withoutMem_readF (h : Hart c) (q : RegNo) : h.withoutMem.readF q = h.readF q := rfl
@[simp] theorem Hart.setPc_readX (h : Hart c) (a : BitVec c.XLEN) (q : RegNo) : (h.setPc a).readX q = h.readX q := rfl
@[simp] theorem Hart.setPc_readF (h : Hart c) (a : BitVec c.XLEN) (q : RegNo) : (h.setPc a).readF q = h.readF q := rfl
@[simp] theorem Hart.advance_readX (h : Hart c) (q : RegNo) : h.advance.readX q = h.readX q := rfl
@[simp] theorem Hart.advance_readF (h : Hart c) (q : RegNo) : h.advance.readF q = h.readF q := rfl
@[simp] theorem Hart.finish_readX (h : Hart c) (q : RegNo) : h.finish.readX q = h.readX q := rfl
@[simp] theorem Hart.finish_readF (h : Hart c) (q : RegNo) : h.finish.readF q = h.readF q := rfl
@[simp] theorem Hart.writeF_readX (h : Hart c) (r : RegNo) (a : BitVec c.FLEN) (q : RegNo) : (h.writeF r a).readX q = h.readX q := rfl
@[simp] theorem Hart.accrue_readX (h : Hart c) (a : BitVec 5) (q : RegNo) : (h.accrue a).readX q = h.readX q := rfl
@[simp] theorem Hart.accrue_readF (h : Hart c) (a : BitVec 5) (q : RegNo) : (h.accrue a).readF q = h.readF q := rfl
@[simp] theorem Hart.saturate_readX (h : Hart c) (a : BitVec 1) (q : RegNo) : (h.saturate a).readX q = h.readX q := rfl
@[simp] theorem Hart.saturate_readF (h : Hart c) (a : BitVec 1) (q : RegNo) : (h.saturate a).readF q = h.readF q := rfl
@[simp] theorem Hart.writeGroup_readX (h : Hart c) (vc : VConf) (r : RegNo) (m : BitVec 1) (a : Nat → BitVec vc.sew) (q : RegNo) : (h.writeGroup vc r m a).readX q = h.readX q := rfl
@[simp] theorem Hart.writeGroup_readF (h : Hart c) (vc : VConf) (r : RegNo) (m : BitVec 1) (a : Nat → BitVec vc.sew) (q : RegNo) : (h.writeGroup vc r m a).readF q = h.readF q := rfl
@[simp] theorem Hart.writeMask_readX (h : Hart c) (vc : VConf) (r : RegNo) (m : BitVec 1) (a : Nat → Bool) (q : RegNo) : (h.writeMask vc r m a).readX q = h.readX q := rfl
@[simp] theorem Hart.writeMask_readF (h : Hart c) (vc : VConf) (r : RegNo) (m : BitVec 1) (a : Nat → Bool) (q : RegNo) : (h.writeMask vc r m a).readF q = h.readF q := rfl
@[simp] theorem Hart.writeScalar_readX (h : Hart c) (vc : VConf) (r : RegNo) (w : Nat) (a : BitVec w) (q : RegNo) : (h.writeScalar vc r w a).readX q = h.readX q := rfl
@[simp] theorem Hart.writeScalar_readF (h : Hart c) (vc : VConf) (r : RegNo) (w : Nat) (a : BitVec w) (q : RegNo) : (h.writeScalar vc r w a).readF q = h.readF q := rfl
@[simp] theorem Hart.writeX_readF (h : Hart c) (r q : RegNo) (a : BitVec c.XLEN) :
    (h.writeX r a).readF q = h.readF q := by
  unfold Hart.writeX; split <;> rfl

@[simp] theorem State.onHart_next (s : State) (h : Hart s.cfg) :
    s.onHart (.next h) = .next ⟨s.cfg, s.plat, h⟩ := rfl
@[simp] theorem State.onHart_fault (s : State) (e : Fault) : s.onHart (.fault e) = .fault e := rfl
@[simp] theorem State.onHart_refused (s : State) (r : Refusal) : s.onHart (.refused r) = .refused r := rfl

/-- What an outcome of the machine says of the hart: a next state keeps the parameters (R8). -/
theorem State.onHart_eq_next {s s' : State} {r : HartOutcome s.cfg} (e : s.onHart r = .next s') :
    ∃ h', r = .next h' ∧ s' = ⟨s.cfg, s.plat, h'⟩ := by
  cases r with
  | next h => exact ⟨h, rfl, (by simpa using e.symm)⟩
  | fault r => simp at e
  | refused r => simp at e

end Sys2Proof.Machine
end

