-- ==== Sys2Proof/Laws/Vtype.lean ====
section
/-! SUPPORT. What a supported `vtype` gives: the widths, VLMAX and the extent of a register group. -/

namespace Sys2Proof.Machine

variable {c : Config}

/-- What `vconf` answers: `vill` and the reserved bits are zero, each part is read from its field, and the
limits hold (R106). -/
theorem vconf_eq_some {t : BitVec c.XLEN} {vc : VConf} (e : vconf c t = some vc) :
    t.msb = false ∧ reservedZero c.layout t = true ∧ decodeLmul (vlmulField c.layout t) = some vc.lmul ∧
      vc.sew = decodeSew (vsewField c.layout t) ∧ vc.ediv = decodeEdiv (vedivField c.layout t) ∧
      vc.vta = vtaField c.layout t ∧ vc.vma = vmaField c.layout t ∧ vc.withinLimits c = true := by
  unfold vconf at e
  split at e
  · simp at e
  · rename_i h1
    simp only [Bool.or_eq_true, not_or, Bool.not_eq_true, Bool.not_eq_false'] at h1
    split at e
    · simp at e
    · rename_i lmul hl
      simp only [Option.ite_none_right_eq_some, Option.some.injEq] at e
      obtain ⟨h2, rfl⟩ := e
      exact ⟨h1.1, by simpa using h1.2, hl, rfl, rfl, rfl, rfl, h2⟩

/-- `vconf` refuses a value whose `vill` is set (R106). -/
theorem vconf_of_vill {t : BitVec c.XLEN} (h : t.msb = true) : vconf c t = none := by
  unfold vconf; simp [h]

theorem XLEN_pos : 0 < c.XLEN := by unfold Config.XLEN; cases c.xlen <;> decide

/-- The value that marks an unsupported `vtype` is not supported (R32). -/
@[simp] theorem vconf_villOnly : vconf c (villOnly c.XLEN) = none := by
  apply vconf_of_vill
  unfold villOnly
  rw [BitVec.msb_intMin]
  simpa using XLEN_pos (c := c)

/-- `vediv` is the part of `vtype` that R120 clears; every other bit stays. -/
theorem getLsbD_clearEdiv (l : VtypeLayout) (t : BitVec c.XLEN) (k : Nat) :
    (clearEdiv l t).getLsbD k =
      (t.getLsbD k && !(if l = .l08 then k == 5 || k == 6 else k == 8 || k == 9)) := by
  cases l <;> simp only [clearEdiv, getLsbD_insertBits, reduceCtorEq, if_true, if_false]
  · by_cases h : k = 5 ∨ k = 6
    · rcases h with rfl | rfl <;> simp
    · have h1 : ¬ (5 ≤ k ∧ k < 5 + 2) := by omega
      simp only [not_or] at h
      simp [h1, h]
  all_goals
    by_cases h : k = 8 ∨ k = 9
    · rcases h with rfl | rfl <;> simp
    · have h1 : ¬ (8 ≤ k ∧ k < 8 + 2) := by omega
      simp only [not_or] at h
      simp [h1, h]

/-- The facts about a supported setting that the instructions rest on. -/
structure VConf.Sound (c : Config) (vc : VConf) : Prop where
  sewPow : ∃ k, vc.sew = 2 ^ (k + 3)
  edivPow : ∃ d, d < 4 ∧ vc.ediv = 2 ^ d
  sewLe : vc.sew * vc.lmul.den ≤ c.ELEN
  sew_den_le : vc.sew * vc.lmul.den ≤ c.VLEN
  seGe : c.SELEN ≤ vc.se

/-- Every supported setting is sound. -/
theorem sound_of_vconf {t : BitVec c.XLEN} {vc : VConf} (e : vconf c t = some vc) : vc.Sound c := by
  obtain ⟨_, _, _, hs, he, _, _, hl⟩ := vconf_eq_some e
  unfold VConf.withinLimits at hl
  simp only [Bool.and_eq_true, decide_eq_true_eq, le_min_iff] at hl
  exact
    { sewPow := ⟨(vsewField c.layout t).toNat, by rw [hs, decodeSew, pow_add]; ring⟩
      edivPow := ⟨(vedivField c.layout t).toNat, (vedivField c.layout t).isLt, he⟩
      sewLe := hl.1.1
      sew_den_le := hl.1.2
      seGe := hl.2 }

theorem Lmul.num_pos (l : Lmul) : 0 < l.num := by cases l <;> decide
theorem Lmul.den_pos (l : Lmul) : 0 < l.den := by cases l <;> decide
theorem Lmul.num_dvd (l : Lmul) : l.num ∣ 32 := by cases l <;> decide
theorem Lmul.denPow (l : Lmul) : ∃ e, l.den = 2 ^ e := by
  cases l
  exacts [⟨0, rfl⟩, ⟨0, rfl⟩, ⟨0, rfl⟩, ⟨0, rfl⟩, ⟨1, rfl⟩, ⟨2, rfl⟩, ⟨3, rfl⟩]

/-- VLEN is a power of two (R8). -/
theorem VLEN_pow (c : Config) : c.VLEN = 2 ^ c.vlenExp.val := rfl

theorem pow_dvd_of_le {a b : Nat} (h : 2 ^ a ≤ 2 ^ b) : 2 ^ a ∣ 2 ^ b :=
  Nat.pow_dvd_pow 2 ((Nat.pow_le_pow_iff_right (by omega)).1 h)

namespace VConf.Sound

variable {vc : VConf}

theorem sew_pos (s : vc.Sound c) : 0 < vc.sew := by
  obtain ⟨k, hk⟩ := s.sewPow; rw [hk]; exact Nat.two_pow_pos _

theorem eight_le_sew (s : vc.Sound c) : 8 ≤ vc.sew := by
  obtain ⟨k, hk⟩ := s.sewPow
  rw [hk, pow_add]; have := Nat.two_pow_pos k; omega

theorem sew_le (s : vc.Sound c) : vc.sew ≤ c.VLEN :=
  Nat.le_trans (Nat.le_mul_of_pos_right _ (Lmul.den_pos _)) s.sew_den_le

theorem sew_den_dvd (s : vc.Sound c) : vc.lmul.den * vc.sew ∣ c.VLEN := by
  have h := s.sew_den_le
  obtain ⟨k, hk⟩ := s.sewPow
  obtain ⟨e, he⟩ := Lmul.denPow vc.lmul
  rw [VLEN_pow, hk, he, ← pow_add] at h
  rw [VLEN_pow, hk, he, ← pow_add, Nat.add_comm e]
  exact pow_dvd_of_le h

/-- A register holds a whole number of elements. -/
theorem sew_dvd (s : vc.Sound c) : vc.sew ∣ c.VLEN := Dvd.dvd.trans (Dvd.intro_left _ rfl) s.sew_den_dvd

theorem ediv_pos (s : vc.Sound c) : 0 < vc.ediv := by
  obtain ⟨d, _, hd⟩ := s.edivPow; rw [hd]; exact Nat.two_pow_pos _

theorem ediv_dvd_sew (s : vc.Sound c) : vc.ediv ∣ vc.sew := by
  obtain ⟨k, hk⟩ := s.sewPow
  obtain ⟨d, hd, he⟩ := s.edivPow
  rw [hk, he]; exact Nat.pow_dvd_pow 2 (by omega)

/-- The sub-elements of an element fill it (R15). -/
theorem ediv_mul_se (s : vc.Sound c) : vc.ediv * vc.se = vc.sew := Nat.mul_div_cancel' s.ediv_dvd_sew

theorem se_pos (s : vc.Sound c) : 0 < vc.se := by
  rcases Nat.eq_zero_or_pos vc.se with h | h
  · have := s.ediv_mul_se; rw [h] at this; have := s.sew_pos; omega
  · exact h

theorem se_le_sew (_s : vc.Sound c) : vc.se ≤ vc.sew := Nat.div_le_self _ _

/-- SE is a power of two. -/
theorem sePow (s : vc.Sound c) : ∃ k, vc.se = 2 ^ k := by
  obtain ⟨k, hk⟩ := s.sewPow
  obtain ⟨d, hd, he⟩ := s.edivPow
  exact ⟨k + 3 - d, by unfold VConf.se; rw [hk, he, Nat.pow_div (by omega) (by omega)]⟩

/-- With EDIV = 1 the sub-element is the element (R100). -/
theorem se_eq (h : vc.ediv = 1) : vc.se = vc.sew := by unfold VConf.se; rw [h, Nat.div_one]

/-- Elements of one register. -/
theorem perReg_pos (s : vc.Sound c) : 0 < c.VLEN / vc.sew := Nat.div_pos s.sew_le s.sew_pos

/-- VLMAX elements fit in the group's registers (R13). -/
theorem vlmax_le (s : vc.Sound c) : vc.vlmax c ≤ vc.lmul.num * (c.VLEN / vc.sew) := by
  unfold VConf.vlmax
  have h1 : vc.lmul.num * c.VLEN / (vc.lmul.den * vc.sew) ≤ vc.lmul.num * c.VLEN / vc.sew :=
    Nat.div_le_div_left (Nat.le_mul_of_pos_left _ (Lmul.den_pos _)) s.sew_pos
  rwa [Nat.mul_div_assoc _ s.sew_dvd] at h1

theorem vlmax_pos (s : vc.Sound c) : 0 < vc.vlmax c := by
  unfold VConf.vlmax
  apply Nat.div_pos
  · calc vc.lmul.den * vc.sew = vc.sew * vc.lmul.den := Nat.mul_comm _ _
      _ ≤ c.VLEN := s.sew_den_le
      _ ≤ _ := Nat.le_mul_of_pos_left _ (Lmul.num_pos _)
  · exact Nat.mul_pos (Lmul.den_pos _) s.sew_pos

/-- Element `i` below VLMAX lies in one of the group's registers. -/
theorem slot_lt_num (s : vc.Sound c) {i : Nat} (h : i < vc.vlmax c) : i / (c.VLEN / vc.sew) < vc.lmul.num :=
  (Nat.div_lt_iff_lt_mul s.perReg_pos).2 (Nat.lt_of_lt_of_le h s.vlmax_le)

end VConf.Sound

/-- An aligned group ends at or below register 32. -/
theorem aligned_le {vc : VConf} {r : RegNo} (h : aligned vc r = true) : r.toNat + vc.lmul.num ≤ 32 := by
  unfold aligned at h
  have hm : r.toNat % vc.lmul.num = 0 := by simpa using h
  obtain ⟨a, ha⟩ := Nat.dvd_of_mod_eq_zero hm
  obtain ⟨b, hb⟩ := Lmul.num_dvd vc.lmul
  have hr : r.toNat < 32 := r.isLt
  have hp := Lmul.num_pos vc.lmul
  rw [ha, hb] at hr
  have hab : a < b := Nat.lt_of_mul_lt_mul_left hr
  calc r.toNat + vc.lmul.num = vc.lmul.num * (a + 1) := by rw [ha]; ring
    _ ≤ vc.lmul.num * b := Nat.mul_le_mul_left _ hab
    _ = 32 := hb.symm

/-- The registers of an aligned group exist. -/
theorem slot_exists {vc : VConf} (s : vc.Sound c) {r : RegNo} (h : aligned vc r = true) {i : Nat}
    (hi : i < vc.vlmax c) : r.toNat + i / (c.VLEN / vc.sew) < 32 := by
  have := s.slot_lt_num hi
  have := aligned_le h
  omega

end Sys2Proof.Machine
end

