-- ==== Sys2Proof/Laws/Groups.lean ====
section
/-! SUPPORT. What the three ways to write a destination leave: a group, a mask, a scalar. -/

namespace Sys2Proof.Machine

variable {c : Config}

/-- A masked-off or tail element keeps to its policy bit (R13). -/
theorem Hart.offElem_allowed {w : Nat} (h : Hart c) (agnostic : Bool) (r : RegNo) (old : BitVec w) (i : Nat) :
    offAllowed agnostic old (h.offElem agnostic r old i) := by
  unfold Hart.offElem offAllowed
  cases agnostic
  · simp
  · cases c.agnostic
    · simp
    · simp
    · simp only [Bool.not_true, Bool.false_eq_true, if_false]
      split <;> simp

/-- The case split of a destination element (R14, R151). -/
theorem Hart.newElem_result {w : Nat} (h : Hart c) (vc : VConf) (vm : BitVec 1) (r : RegNo) (old a : BitVec w)
    (i : Nat) : ElemResult h vc vm i old (h.newElem vc vm r old a i) (· = a) := by
  have hact : h.active vc vm i = true → h.prestart i = false := by
    unfold Hart.active Hart.body Hart.prestart
    intro e; simp at e; simp; omega
  have hina : h.inactive vc vm i = true → h.prestart i = false ∧ h.active vc vm i = false := by
    unfold Hart.inactive Hart.active Hart.body Hart.prestart
    intro e; simp at e; refine ⟨by simp; omega, by simp [e.2]⟩
  have htail : h.tail i = true → h.prestart i = false ∧ h.active vc vm i = false ∧ h.inactive vc vm i = false := by
    unfold Hart.tail Hart.inactive Hart.active
    intro e; simp at e; refine ⟨e.1, by simp [e.2], by simp [e.2]⟩
  constructor
  · intro e; simp [Hart.newElem, e]
  · intro e; simp [Hart.newElem, e, hact e]
  · intro e
    rw [show h.newElem vc vm r old a i = h.offElem vc.vma r old i by simp [Hart.newElem, e, hina e]]
    exact h.offElem_allowed _ _ _ _
  · intro e
    rw [show h.newElem vc vm r old a i = h.offElem vc.vta r old i by simp [Hart.newElem, htail e]]
    exact h.offElem_allowed _ _ _ _

theorem ElemResult.imp {w : Nat} {h : Hart c} {vc : VConf} {vm : BitVec 1} {i : Nat} {old new : BitVec w}
    {p q : BitVec w → Prop} (r : ElemResult h vc vm i old new p)
    (pq : h.active vc vm i = true → p new → q new) : ElemResult h vc vm i old new q :=
  ⟨r.prestart, fun e => pq e (r.active e), r.inactive, r.tail⟩

/-- The elements of the destination group after the loop (R13). -/
theorem Hart.elem_writeGroup (h : Hart c) {vc : VConf} (s : vc.Sound c) {vd : RegNo} (al : aligned vc vd = true)
    (vm : BitVec 1) (a : Nat → BitVec vc.sew) (i : Nat) :
    (h.writeGroup vc vd vm a).elem vc vd i =
      if i < vc.vlmax c then h.newElem vc vm vd (h.elem vc vd i) (a i) i else h.elem vc vd i :=
  slotAt_setSlots _ _ _ _ _ _ (elemPlace_inj _ _) s.sew_pos s.sew_le fun _ hi => slot_exists s al (elemPlace_lt hi)

/-- Registers outside the group keep their bits. -/
theorem Hart.vreg_writeGroup_other (h : Hart c) {vc : VConf} (s : vc.Sound c) (vd : RegNo) (vm : BitVec 1)
    (a : Nat → BitVec vc.sew) (n : Nat) (hn : n < vd.toNat ∨ vd.toNat + vc.lmul.num ≤ n) :
    vreg (h.writeGroup vc vd vm a).v n = vreg h.v n :=
  vreg_setSlots_other _ _ _ _ _ _ _ fun i hi => by
    have : elemPlace c vc.lmul vc.sew i / (c.VLEN / vc.sew) < vc.lmul.num := s.slot_lt_num (elemPlace_lt hi)
    have := vd.isLt
    generalize elemPlace c vc.lmul vc.sew i / (c.VLEN / vc.sew) = q at *
    omega

/-- The loop over a destination group, all at once: what an active element gets satisfies `result` if the
value computed for it does. -/
theorem Hart.writeGroup_result (h : Hart c) {vc : VConf} (s : vc.Sound c) {vd : RegNo}
    (al : aligned vc vd = true) (vm : BitVec 1) (a : Nat → BitVec vc.sew) (result : Nat → BitVec vc.sew → Prop)
    (imp : ∀ i, i < vc.vlmax c → h.active vc vm i = true → result i (a i)) :
    GroupResult h (h.writeGroup vc vd vm a) vc vd vm result where
  elems i hi := by
    rw [h.elem_writeGroup s al, if_pos hi]
    exact (h.newElem_result vc vm _ _ _ i).imp fun e p => by rw [p]; exact imp i hi e
  beyond i hi _ := by rw [h.elem_writeGroup s al, if_neg (by omega)]
  others n hn := h.vreg_writeGroup_other s vd vm a n hn

/-- The result in the group does not depend on what is done to the other state afterwards. -/
theorem GroupResult.congr {h t t' : Hart c} {vc : VConf} {vd : RegNo} {vm : BitVec 1}
    {result : Nat → BitVec vc.sew → Prop} (r : GroupResult h t vc vd vm result) (e : t'.v = t.v) :
    GroupResult h t' vc vd vm result := by
  have he : ∀ i, t'.elem vc vd i = t.elem vc vd i := fun i => by unfold Hart.elem Hart.elemOf; rw [e]
  exact ⟨fun i hi => by rw [he]; exact r.elems i hi, fun i h1 h2 => by rw [he]; exact r.beyond i h1 h2,
    fun n hn => by rw [e]; exact r.others n hn⟩

/-! ### Mask destinations -/

/-- The mask fields of all elements fit in one register (R38). -/
theorem maskStride_pow (c : Config) {vc : VConf} (s : vc.Sound c) : ∃ k, maskStride c vc = 2 ^ k := by
  unfold maskStride
  cases c.maskFormat
  · obtain ⟨k, hk⟩ := s.sewPow
    have : ∀ n d : Nat, d ≤ 3 → n = 2 ^ d → 2 ^ (k + 3) * 1 / n = 2 ^ (k + 3 - d) := by
      intro n d hd hn; rw [hn, Nat.mul_one, Nat.pow_div (by omega) (by omega)]
    rw [hk]
    cases vc.lmul
    · exact ⟨_, this 1 0 (by omega) rfl⟩
    · exact ⟨_, this 2 1 (by omega) rfl⟩
    · exact ⟨_, this 4 2 (by omega) rfl⟩
    · exact ⟨_, this 8 3 (by omega) rfl⟩
    · exact ⟨k + 3 + 1, by simp [Lmul.num, Lmul.den, pow_succ]⟩
    · exact ⟨k + 3 + 2, by rw [pow_add _ (k + 3) 2]; simp [Lmul.num, Lmul.den]⟩
    · exact ⟨k + 3 + 3, by rw [pow_add _ (k + 3) 3]; simp [Lmul.num, Lmul.den]⟩
  · exact ⟨0, rfl⟩

theorem maskStride_pos (c : Config) {vc : VConf} (s : vc.Sound c) : 0 < maskStride c vc := by
  obtain ⟨k, hk⟩ := maskStride_pow c s; rw [hk]; exact Nat.two_pow_pos _

theorem vlmax_mul_maskStride (c : Config) {vc : VConf} (s : vc.Sound c) :
    vc.vlmax c * maskStride c vc ≤ c.VLEN := by
  have h8 := s.eight_le_sew
  have hnum : vc.lmul.num ≤ 8 := by cases vc.lmul <;> decide
  have hden := Lmul.den_pos vc.lmul
  have hnum0 := Lmul.num_pos vc.lmul
  unfold maskStride VConf.vlmax
  cases c.maskFormat
  · calc vc.lmul.num * c.VLEN / (vc.lmul.den * vc.sew) * (vc.sew * vc.lmul.den / vc.lmul.num)
        ≤ vc.lmul.num * c.VLEN / (vc.lmul.den * vc.sew) * (vc.sew * vc.lmul.den) / vc.lmul.num :=
          Nat.mul_div_le_mul_div_assoc _ _ _
      _ ≤ vc.lmul.num * c.VLEN / vc.lmul.num := by
          apply Nat.div_le_div_right
          rw [Nat.mul_comm vc.sew]; exact Nat.div_mul_le_self _ _
      _ = c.VLEN := Nat.mul_div_cancel_left _ hnum0
  · simp only [Nat.mul_one]
    apply Nat.div_le_of_le_mul
    apply Nat.mul_le_mul_right
    calc vc.lmul.num ≤ 8 := hnum
      _ ≤ vc.sew := h8
      _ ≤ _ := Nat.le_mul_of_pos_left _ hden

theorem maskStride_le (c : Config) {vc : VConf} (s : vc.Sound c) : maskStride c vc ≤ c.VLEN :=
  Nat.le_trans (Nat.le_mul_of_pos_left _ s.vlmax_pos) (vlmax_mul_maskStride c s)

/-- The mask field of an element lies in the one mask register. -/
theorem mask_slot (c : Config) {vc : VConf} (s : vc.Sound c) {i : Nat} (h : i < vc.vlmax c) :
    i / (c.VLEN / maskStride c vc) = 0 := by
  apply Nat.div_eq_of_lt
  refine Nat.lt_of_lt_of_le h ?_
  rw [Nat.le_div_iff_mul_le (maskStride_pos c s)]
  exact vlmax_mul_maskStride c s

theorem Hart.field_writeMask (h : Hart c) {vc : VConf} (s : vc.Sound c) (vd : RegNo) (vm : BitVec 1) (a : Nat → Bool)
    (i : Nat) :
    (h.writeMask vc vd vm a).field vd (maskStride c vc) i =
      if i < vc.vlmax c then
        h.newElem vc vm vd (h.field vd (maskStride c vc) i) ((BitVec.ofBool (a i)).setWidth (maskStride c vc)) i
      else h.field vd (maskStride c vc) i :=
  slotAt_setSlots _ _ _ _ _ _ (fun _ _ e => e) (maskStride_pos c s) (maskStride_le c s) fun i hi => by
    rw [mask_slot c s hi]; exact vd.isLt

/-- A write of a mask, all at once. -/
theorem Hart.writeMask_result (h : Hart c) {vc : VConf} (s : vc.Sound c) (vd : RegNo) (vm : BitVec 1)
    (a : Nat → Bool) : MaskResult h (h.writeMask vc vd vm a) vc vd vm a where
  elems i hi := by
    rw [h.field_writeMask s, if_pos hi]
    exact h.newElem_result vc vm _ _ _ i
  beyond i hi _ := by rw [h.field_writeMask s, if_neg (by omega)]
  others n hn := vreg_setSlots_other _ _ _ _ _ _ _ fun i hi => by rw [mask_slot c s hi]; exact hn

theorem MaskResult.congr {h t t' : Hart c} {vc : VConf} {vd : RegNo} {vm : BitVec 1} {a : Nat → Bool}
    (r : MaskResult h t vc vd vm a) (e : t'.v = t.v) : MaskResult h t' vc vd vm a := by
  have he : ∀ i, t'.field vd (maskStride c vc) i = t.field vd (maskStride c vc) i := fun i => by
    unfold Hart.field; rw [e]
  exact ⟨fun i hi => by rw [he]; exact r.elems i hi, fun i h1 h2 => by rw [he]; exact r.beyond i h1 h2,
    fun n hn => by rw [e]; exact r.others n hn⟩

/-! ### Sub-elements as narrow elements -/

/-- Place `k` of SE bits is sub-element `k mod EDIV` of the SEW bits at place `k / EDIV` (R15, decision D8). -/
theorem slotAt_se {vc : VConf} (so : vc.Sound c) (v : Vector (BitVec c.VLEN) 32) (r k : Nat) :
    slotAt v r vc.se k = sub vc.se (slotAt v r vc.sew (k / vc.ediv)) (k % vc.ediv) := by
  have hp := so.ediv_pos
  have hm := so.ediv_mul_se
  obtain ⟨p, hP⟩ := so.sew_dvd
  have hV : c.VLEN / vc.sew = p := by rw [hP]; exact Nat.mul_div_cancel_left _ so.sew_pos
  have hV2 : c.VLEN / vc.se = vc.ediv * p := by
    rw [hP, ← hm, show vc.ediv * vc.se * p = vc.se * (vc.ediv * p) by ring]
    exact Nat.mul_div_cancel_left _ so.se_pos
  have h1 : k % (vc.ediv * p) = (k / vc.ediv % p) * vc.ediv + k % vc.ediv := by rw [Nat.mod_mul]; ring
  have hj := Nat.mod_lt k hp
  unfold slotAt sub
  rw [hV, hV2, Nat.div_div_eq_div_mul, h1]
  ext b hb
  simp only [BitVec.getElem_extractLsb', BitVec.getLsbD_extractLsb']
  have h2 : k % vc.ediv * vc.se + b < vc.sew := by
    have h3 : (k % vc.ediv + 1) * vc.se ≤ vc.ediv * vc.se := Nat.mul_le_mul_right _ hj
    rw [hm, show (k % vc.ediv + 1) * vc.se = k % vc.ediv * vc.se + vc.se by ring] at h3
    omega
  simp only [h2, decide_true, Bool.true_and]
  congr 1
  rw [← hm]
  ring

/-! ### Scalar destinations -/

/-- A scalar result of `w` bits, all at once. -/
theorem Hart.writeScalar_result (h : Hart c) (vc : VConf) (vd : RegNo) (w : Nat) (a : BitVec w) (hw : 0 < w)
    (hl : w ≤ c.VLEN) : ScalarResult h (h.writeScalar vc vd w a) vc vd w a := by
  have slot : ∀ i < c.VLEN / w, elemPlace c .m1 w i / (c.VLEN / w) = 0 := fun i hi => by
    have := elemPlace_lt (c := c) (lmul := .m1) (w := w) (i := i) (by simpa [Lmul.num, Lmul.den] using hi)
    exact Nat.div_eq_of_lt (by simpa [Lmul.num, Lmul.den] using this)
  have key : ∀ i, (h.writeScalar vc vd w a).elemOf .m1 vd w i =
      if i < c.VLEN / w then (if i = 0 then a else h.offElem vc.vta vd (h.elemOf .m1 vd w i) i)
      else h.elemOf .m1 vd w i :=
    fun i => slotAt_setSlots _ _ _ _ _ _ (elemPlace_inj _ _) hw hl fun i hi => by rw [slot i hi]; exact vd.isLt
  refine ⟨?_, ?_, ?_⟩
  · unfold Hart.scalar; rw [key, if_pos (Nat.div_pos hl hw), if_pos rfl]
  · intro i h0 hi
    rw [key, if_pos hi, if_neg (by omega)]
    exact h.offElem_allowed _ _ _ _
  · intro n hn
    exact vreg_setSlots_other _ _ _ _ _ _ _ fun i hi => by rw [slot i hi]; exact hn

theorem ScalarResult.congr {h t t' : Hart c} {vc : VConf} {vd : RegNo} {w : Nat} {a : BitVec w}
    (r : ScalarResult h t vc vd w a) (e : t'.v = t.v) : ScalarResult h t' vc vd w a := by
  have he : ∀ i, t'.elemOf .m1 vd w i = t.elemOf .m1 vd w i := fun i => by unfold Hart.elemOf; rw [e]
  exact ⟨by unfold Hart.scalar; rw [he]; exact r.elem0, fun i h1 h2 => by rw [he]; exact r.rest i h1 h2,
    fun n hn => by rw [e]; exact r.others n hn⟩

/-! ### Completion -/

/-- A hart that differs in its vector registers only completes with nothing else changed. -/
theorem completed_of_setV (h : Hart c) (v : Vector (BitVec c.VLEN) 32) : Completed h (h.setV v).finish :=
  ⟨⟨rfl, rfl, rfl, rfl, rfl, rfl, rfl, fun _ _ => rfl⟩, rfl, rfl, rfl⟩

theorem Hart.writeGroup_completed (h : Hart c) (vc : VConf) (vd : RegNo) (vm : BitVec 1) (a : Nat → BitVec vc.sew) :
    Completed h (h.writeGroup vc vd vm a).finish := completed_of_setV h _

theorem Hart.writeMask_completed (h : Hart c) (vc : VConf) (vd : RegNo) (vm : BitVec 1) (a : Nat → Bool) :
    Completed h (h.writeMask vc vd vm a).finish := completed_of_setV h _

theorem Hart.writeScalar_completed (h : Hart c) (vc : VConf) (vd : RegNo) (w : Nat) (a : BitVec w) :
    Completed h (h.writeScalar vc vd w a).finish := completed_of_setV h _

/-- The same with flags accrued. -/
theorem completedFp_of_setV (h : Hart c) (v : Vector (BitVec c.VLEN) 32) (flags : BitVec 5) :
    CompletedFp h ((h.setV v).accrue flags).finish flags :=
  ⟨⟨rfl, rfl, rfl, rfl, rfl, rfl, rfl, fun _ _ => rfl⟩, rfl, rfl, rfl⟩

end Sys2Proof.Machine
end

