-- ==== Sys2Proof/Laws/Memory.lean ====
section
/-! SUPPORT. Memory: a read after a write, and every operation keeps the canonical form. -/

namespace Sys2Proof.Machine

/-- Memory after reset has the canonical form. -/
theorem Memory.wf_nil : Memory.wf [] = true := rfl

/-- A read after a write: the byte written at its address, the old byte everywhere else. -/
theorem Memory.read_write (m : Memory) (a : Nat) (b : Byte) (q : Nat) :
    (m.write a b).read q = if q = a then some b else m.read q := by
  induction m with
  | nil =>
    by_cases h : q = a
    · simp [Memory.write, Memory.read, h]
    · simp [Memory.write, Memory.read, h]
  | cons e m ih =>
    obtain ⟨k, b'⟩ := e
    simp only [Memory.write]
    by_cases h1 : a = k
    · subst h1
      by_cases h : q = a
      · simp [Memory.read, h]
      · simp [Memory.read, h]
    · by_cases h2 : a < k
      · by_cases h : q = a
        · simp [Memory.read, h, h1, h2]
        · by_cases h3 : q < a
          · have h4 : q ≠ k := by omega
            have h5 : q < k := by omega
            simp [Memory.read, h, h1, h2, h3, h4, h5]
          · simp [Memory.read, h, h1, h2, h3]
      · simp only [h1, h2, if_false, Memory.read, ih]
        by_cases h : q = a
        · subst h; simp [h1, h2]
        · simp [h]

/-- Every listed address is at least `a`. -/
def Memory.from (a : Nat) (m : Memory) : Prop := ∀ e ∈ m, a ≤ e.1

theorem Memory.wf_cons (k : Nat) (b : Byte) (m : Memory) :
    Memory.wf ((k, b) :: m) = true ↔ Memory.wf m = true ∧ Memory.from (k + 1) m := by
  induction m generalizing k b with
  | nil => simp [Memory.wf, Memory.from]
  | cons e m ih =>
    obtain ⟨l, b'⟩ := e
    simp only [Memory.wf, Bool.and_eq_true, decide_eq_true_eq]
    constructor
    · rintro ⟨h1, h2⟩
      refine ⟨h2, ?_⟩
      intro x hx
      rcases List.mem_cons.1 hx with rfl | hx
      · exact h1
      · have := (ih l b').1 h2 |>.2 x hx
        omega
    · rintro ⟨h1, h2⟩
      exact ⟨h2 _ (List.mem_cons_self ..), h1⟩

theorem Memory.from_write {m : Memory} {l a : Nat} (b : Byte) (h : m.from l) (ha : l ≤ a) :
    (m.write a b).from l := by
  induction m with
  | nil =>
    intro e he
    simp [Memory.write] at he
    rw [he]; exact ha
  | cons e m ih =>
    obtain ⟨k, b'⟩ := e
    have hk : l ≤ k := h _ (List.mem_cons_self ..)
    have hm : Memory.from l m := fun e he => h e (List.mem_cons_of_mem _ he)
    simp only [Memory.write]
    split
    · intro e he
      rcases List.mem_cons.1 he with rfl | he
      · exact ha
      · exact hm e he
    · split
      · intro e he
        rcases List.mem_cons.1 he with rfl | he
        · exact ha
        · exact h e he
      · intro e he
        rcases List.mem_cons.1 he with rfl | he
        · exact hk
        · exact ih hm e he

/-- A write keeps the canonical form. -/
theorem Memory.wf_write {m : Memory} (a : Nat) (b : Byte) (h : m.wf = true) : (m.write a b).wf = true := by
  induction m with
  | nil => rfl
  | cons e m ih =>
    obtain ⟨k, b'⟩ := e
    have hk := (Memory.wf_cons k b' m).1 h
    simp only [Memory.write]
    split
    · rename_i h1
      subst h1
      exact (Memory.wf_cons _ _ _).2 hk
    · split
      · rename_i h1 h2
        refine (Memory.wf_cons _ _ _).2 ⟨h, ?_⟩
        intro e he
        rcases List.mem_cons.1 he with rfl | he
        · exact h2
        · have := hk.2 e he; omega
      · rename_i h1 h2
        exact (Memory.wf_cons _ _ _).2 ⟨ih hk.1, Memory.from_write b hk.2 (by omega)⟩

variable {c : Config}

/-- The stored bytes one by one: byte `k` of the value at `addr + k`, every other address as before. -/
theorem memStore_succ (m : Memory) (addr : BitVec c.XLEN) (n : Nat) (v : BitVec (8 * (n + 1))) :
    memStore m addr (n + 1) v =
      ((List.range n).foldl (fun m k => m.write (byteAddr addr k) (v.extractLsb' (8 * k) 8)) m).write
        (byteAddr addr n) (v.extractLsb' (8 * n) 8) := by
  simp [memStore, List.range_succ]

/-- A fold of writes keeps whatever each write keeps. -/
theorem foldl_write_keeps {P : Memory → Prop} (addrOf : Nat → Nat) (byteOf : Nat → Byte)
    (step : ∀ m k, P m → P (m.write (addrOf k) (byteOf k))) (ks : List Nat) (m : Memory) (h : P m) :
    P (ks.foldl (fun m k => m.write (addrOf k) (byteOf k)) m) := by
  induction ks generalizing m with
  | nil => exact h
  | cons k ks ih => exact ih _ (step m k h)

/-- A store keeps the canonical form. -/
theorem wf_memStore {m : Memory} (addr : BitVec c.XLEN) (n : Nat) (v : BitVec (8 * n)) (h : m.wf = true) :
    (memStore m addr n v).wf = true :=
  foldl_write_keeps (P := fun m => m.wf = true) (byteAddr addr) (fun k => v.extractLsb' (8 * k) 8)
    (fun _ _ hm => Memory.wf_write _ _ hm) _ _ h

/-- What a fold of writes leaves at an address it does not write to. -/
theorem read_foldl_write_other (addrOf : Nat → Nat) (byteOf : Nat → Byte) (n : Nat) (m : Memory) (q : Nat)
    (h : ∀ k < n, addrOf k ≠ q) :
    ((List.range n).foldl (fun m k => m.write (addrOf k) (byteOf k)) m).read q = m.read q := by
  induction n with
  | zero => rfl
  | succ n ih =>
    rw [List.range_succ, List.foldl_append]
    simp only [List.foldl_cons, List.foldl_nil, Memory.read_write]
    rw [if_neg (fun e => h n (by omega) e.symm), ih (fun k hk => h k (by omega))]

/-- What a fold of writes to distinct addresses leaves at one of them. -/
theorem read_foldl_write_at (addrOf : Nat → Nat) (byteOf : Nat → Byte) (n : Nat) (m : Memory)
    (inj : ∀ i < n, ∀ j < n, addrOf i = addrOf j → i = j) {k : Nat} (hk : k < n) :
    ((List.range n).foldl (fun m k => m.write (addrOf k) (byteOf k)) m).read (addrOf k) = some (byteOf k) := by
  induction n with
  | zero => omega
  | succ n ih =>
    rw [List.range_succ, List.foldl_append]
    simp only [List.foldl_cons, List.foldl_nil, Memory.read_write]
    by_cases h : k = n
    · subst h; simp
    · rw [if_neg (fun e => h (inj k hk n (by omega) e))]
      exact ih (fun i hi j hj => inj i (by omega) j (by omega)) (by omega)

/-- The addresses of the bytes of one access are distinct. -/
theorem byteAddr_inj (addr : BitVec c.XLEN) {i j : Nat} (hi : i < 2 ^ c.XLEN) (hj : j < 2 ^ c.XLEN)
    (h : byteAddr addr i = byteAddr addr j) : i = j := by
  unfold byteAddr at h
  have h1 := BitVec.eq_of_toNat_eq h
  have h2 : BitVec.ofNat c.XLEN i = BitVec.ofNat c.XLEN j := by
    have := congrArg (fun t => t - addr) h1
    simpa [BitVec.add_comm addr] using this
  have h3 := congrArg BitVec.toNat h2
  simpa [BitVec.toNat_ofNat, Nat.mod_eq_of_lt hi, Nat.mod_eq_of_lt hj] using h3

/-- A read at an address outside a store. -/
theorem read_memStore_other (m : Memory) (addr : BitVec c.XLEN) (n : Nat) (v : BitVec (8 * n)) (q : Nat)
    (h : ∀ k < n, byteAddr addr k ≠ q) : (memStore m addr n v).read q = m.read q :=
  read_foldl_write_other _ _ n m q h

/-- A read of byte `k` of a store. -/
theorem read_memStore_at (m : Memory) (addr : BitVec c.XLEN) (n : Nat) (v : BitVec (8 * n)) {k : Nat} (hk : k < n)
    (hn : n ≤ 2 ^ c.XLEN) :
    (memStore m addr n v).read (byteAddr addr k) = some (v.extractLsb' (8 * k) 8) :=
  read_foldl_write_at _ _ n m
    (fun i hi j hj => byteAddr_inj addr (by omega) (by omega)) hk

/-- No byte of an access that does not meet the program text is program text (R61). -/
theorem read_text_of_meetsText {p : Platform} {addr : BitVec c.XLEN} {n k : Nat} (h : meetsText p addr n = false)
    (hk : k < n) : Memory.read p.text (byteAddr addr k) = none := by
  unfold meetsText at h
  simpa using List.any_eq_false.1 h k (List.mem_range.2 hk)

/-- A store leaves every byte outside it as it was. -/
theorem Hart.byteAt_memStore_other (h : Hart c) (p : Platform) (addr : BitVec c.XLEN) (n : Nat) (v : BitVec (8 * n))
    (q : Nat) (hq : ∀ k < n, byteAddr addr k ≠ q) :
    (h.setMem (memStore h.mem addr n v)).byteAt p q = h.byteAt p q := by
  unfold Hart.byteAt
  rw [show (h.setMem (memStore h.mem addr n v)).mem = memStore h.mem addr n v from rfl,
    read_memStore_other _ _ _ _ _ hq]

/-- Byte `k` of a store that does not meet the program text (R52). -/
theorem Hart.byteAt_memStore_at (h : Hart c) {p : Platform} {addr : BitVec c.XLEN} {n : Nat} (v : BitVec (8 * n))
    (ht : meetsText p addr n = false) {k : Nat} (hk : k < n) (hn : n ≤ 2 ^ c.XLEN) :
    (h.setMem (memStore h.mem addr n v)).byteAt p (byteAddr addr k) = v.extractLsb' (8 * k) 8 := by
  unfold Hart.byteAt
  rw [read_text_of_meetsText ht hk, show (h.setMem (memStore h.mem addr n v)).mem = memStore h.mem addr n v from rfl,
    read_memStore_at _ _ _ _ hk hn]
  rfl

/-- A load after a store to the same address reads the value stored (R52, R58). -/
theorem Hart.memRead_memStore (h : Hart c) {p : Platform} {addr : BitVec c.XLEN} {n : Nat} (v : BitVec (8 * n))
    (ht : meetsText p addr n = false) (hn : n ≤ 2 ^ c.XLEN) :
    (h.setMem (memStore h.mem addr n v)).memRead p addr n = v := by
  unfold Hart.memRead
  apply BitVec.eq_of_getLsbD_eq
  intro i hi
  have hk : i / 8 < n := by omega
  rw [getLsbD_pack, if_pos (by omega), Hart.byteAt_memStore_at h v ht hk hn]
  have h8 : i % 8 < 8 := Nat.mod_lt _ (by omega)
  have he : 8 * (i / 8) + i % 8 = i := Nat.div_add_mod i 8
  simp [hi, h8, he]

/-- The program text reads the same whatever has been stored (R61). -/
theorem Hart.byteAt_text (h : Hart c) {p : Platform} {a : Nat} {b : Byte} (ht : Memory.read p.text a = some b) :
    h.byteAt p a = b := by
  unfold Hart.byteAt
  rw [ht]

/-! ### The addresses stored to -/

/-- An insertion puts in its address and no other. -/
theorem mem_insertAddr (l : List Nat) (a q : Nat) : q ∈ insertAddr l a ↔ q = a ∨ q ∈ l := by
  induction l with
  | nil => simp [insertAddr]
  | cons k l ih =>
    unfold insertAddr
    split
    · rename_i h; subst h; simp
    · split
      · simp
      · simp only [List.mem_cons, ih]; tauto

/-- An insertion keeps the list strictly rising. -/
theorem insertAddr_rising {l : List Nat} (a : Nat) (h : l.Pairwise (· < ·)) : (insertAddr l a).Pairwise (· < ·) := by
  induction l with
  | nil => simp [insertAddr]
  | cons k l ih =>
    obtain ⟨hk, hl⟩ := List.pairwise_cons.1 h
    unfold insertAddr
    split
    · exact h
    · split
      · rename_i _ h2
        refine List.pairwise_cons.2 ⟨fun q hq => ?_, h⟩
        rcases List.mem_cons.1 hq with rfl | hq
        · exact h2
        · exact lt_trans h2 (hk q hq)
      · refine List.pairwise_cons.2 ⟨fun q hq => ?_, ih hl⟩
        rcases (mem_insertAddr l a q).1 hq with rfl | hq
        · omega
        · exact hk q hq

/-- The addresses stored to after a store: those of its bytes too. -/
theorem Hart.mem_stored_markStored (h : Hart c) (addrs : List (BitVec c.XLEN)) (n q : Nat) :
    q ∈ (h.markStored addrs n).stored ↔ (∃ a ∈ addrs, ∃ k < n, q = byteAddr a k) ∨ q ∈ h.stored := by
  have bytes : ∀ (a : BitVec c.XLEN) (n : Nat) (l : List Nat),
      q ∈ (List.range n).foldl (fun l k => insertAddr l (byteAddr a k)) l ↔ (∃ k < n, q = byteAddr a k) ∨ q ∈ l := by
    intro a n l
    induction n with
    | zero => simp
    | succ n ih =>
      rw [List.range_succ, List.foldl_append]
      simp only [List.foldl_cons, List.foldl_nil, mem_insertAddr, ih, Nat.lt_succ_iff_lt_or_eq]
      constructor
      · rintro (h | ⟨k, hk, h⟩ | h)
        · exact .inl ⟨n, .inr rfl, h⟩
        · exact .inl ⟨k, .inl hk, h⟩
        · exact .inr h
      · rintro (⟨k, hk | rfl, h⟩ | h)
        · exact .inr (.inl ⟨k, hk, h⟩)
        · exact .inl h
        · exact .inr (.inr h)
  unfold Hart.markStored
  dsimp only
  generalize h.stored = l
  induction addrs generalizing l with
  | nil => simp
  | cons a addrs ih =>
    rw [List.foldl_cons]
    refine (ih _).trans ?_
    rw [bytes]
    simp only [List.mem_cons, exists_eq_or_imp, or_assoc]
    exact or_left_comm

end Sys2Proof.Machine
end

