-- ==== Sys2Proof/Laws/Outcomes.lean ====
section
/-! SUPPORT. What each guard and each shared shape of an instruction answers: once when it goes on, once what
follows from its having gone on. -/

namespace Sys2Proof.Machine

variable {c : Config}

/-! ### The guards -/

/-- Base.legal holds where the checks the spec names hold and Base rejects nothing else. -/
theorem baseLegal_of_named {w : Word32} {t : BitVec c.XLEN} {named : Bool} (hl : named = true)
    (hb : baseMatches c.baseRejects w t = false) : baseLegal c w t named = true := by
  simp [baseLegal, hl, hb]

/-- Base.legal fails where a check fails and Base does not accept the word all the same. -/
theorem baseLegal_eq_false {w : Word32} {t : BitVec c.XLEN} {named : Bool}
    (ha : baseMatches c.baseAccepts w t = false) (hl : named = false ∨ baseMatches c.baseRejects w t = true) :
    baseLegal c w t named = false := by
  rcases hl with hl | hl <;> simp [baseLegal, ha, hl]

/-- The checks of R81 pass: the instruction's own rule follows. -/
theorem Hart.vectorAt_of_legal {h : Hart c} {t : BitVec c.XLEN} {w : Word32} {legal : VConf → Bool}
    {body : VConf → HartOutcome c} {vc : VConf} (hv : vconf c t = some vc) (hl : legal vc = true)
    (hb : baseMatches c.baseRejects w t = false) : h.vectorAt t w legal body = body vc := by
  unfold Hart.vectorAt; rw [hv]; simp [baseLegal_of_named hl hb]

/-- Base.legal fails (R81). -/
theorem Hart.vectorAt_of_illegal {h : Hart c} {t : BitVec c.XLEN} {w : Word32} {legal : VConf → Bool}
    {body : VConf → HartOutcome c} {vc : VConf} (hv : vconf c t = some vc)
    (ha : baseMatches c.baseAccepts w t = false) (hl : legal vc = false ∨ baseMatches c.baseRejects w t = true) :
    h.vectorAt t w legal body = h.raise (.illegalInstruction w) := by
  unfold Hart.vectorAt; rw [hv]; simp [baseLegal_eq_false ha hl]

/-- `vtype` is not supported (R81). -/
theorem Hart.vectorAt_of_unsupported {h : Hart c} {t : BitVec c.XLEN} {w : Word32} {legal : VConf → Bool}
    {body : VConf → HartOutcome c} (hv : vconf c t = none) :
    h.vectorAt t w legal body = h.raise (.illegalInstruction w) := by
  unfold Hart.vectorAt; rw [hv]

/-- A vector instruction that goes on passed its checks. -/
theorem Hart.vectorAt_eq_next {h u : Hart c} {t : BitVec c.XLEN} {w : Word32} {legal : VConf → Bool}
    {body : VConf → HartOutcome c} (e : h.vectorAt t w legal body = .next u) :
    ∃ vc, vconf c t = some vc ∧ baseLegal c w t (legal vc) = true ∧ body vc = .next u := by
  unfold Hart.vectorAt at e
  split at e
  · cases e
  · rename_i vc hv
    split at e
    · rename_i hl
      exact ⟨vc, hv, hl, e⟩
    · cases e

/-- A vector instruction that faults has failed its checks, or its own rule has faulted. -/
theorem Hart.vectorAt_eq_fault {h : Hart c} {t : BitVec c.XLEN} {w : Word32} {legal : VConf → Bool}
    {body : VConf → HartOutcome c} {f : Fault} (e : h.vectorAt t w legal body = .fault f) :
    f = .trap (.illegalInstruction w) h.pc.toNat ∨ ∃ vc, vconf c t = some vc ∧ body vc = .fault f := by
  unfold Hart.vectorAt at e
  split at e
  · cases e; exact .inl rfl
  · rename_i vc hv
    split at e
    · exact .inr ⟨vc, hv, e⟩
    · cases e; exact .inl rfl

/-- EDIV is what the field says (R28). -/
theorem vconf_ediv {t : BitVec c.XLEN} {vc : VConf} (e : vconf c t = some vc) :
    vc.ediv = decodeEdiv (vedivField c.layout t) := by
  unfold vconf at e
  split at e
  · cases e
  · split at e
    · cases e
    · dsimp only at e
      split at e
      · cases e; rfl
      · cases e

/-- Base.exec is not the base's own with EDIV > 1, nor where no row says so. -/
theorem baseTakes_eq_false {w : Word32} {t : BitVec c.XLEN} {vc : VConf} (hv : vconf c t = some vc)
    (hb : decodeEdiv (vedivField c.layout t) = 1 → baseMatches c.baseOther w t = false) :
    baseTakes c vc w t = false := by
  rw [← vconf_ediv hv] at hb
  unfold baseTakes
  by_cases h : vc.ediv = 1
  · simp [h, hb h]
  · simp [h]

/-- The checks of R81 pass for an instruction of the opcode table that Base leaves to its rule. -/
theorem Hart.vector_of_allowed {s : State} {i : Instr} {legal : VConf → Bool} {body : VConf → HartOutcome s.cfg}
    {vc : VConf} (hv : vconf s.cfg s.hart.vtype = some vc) (hl : legal vc = true) (hn : i.isNew = false)
    (hb : BaseAllows s i) : s.hart.vector (encodeWith s.cfg.dot i) legal body = body vc := by
  unfold Hart.vector
  rw [Hart.vectorAt_of_legal hv hl hb.1, if_neg (by simp [baseTakes_eq_false hv (hb.2 hn)])]

/-- The same for an instruction that the source adds. -/
theorem Hart.vectorNew_of_allowed {s : State} {i : Instr} {legal : VConf → Bool} {body : VConf → HartOutcome s.cfg}
    {vc : VConf} (hv : vconf s.cfg s.hart.vtype = some vc) (hl : legal vc = true) (hb : BaseAllows s i) :
    s.hart.vectorNew (encodeWith s.cfg.dot i) legal body = body vc := Hart.vectorAt_of_legal hv hl hb.1

/-- Base.exec for a base instruction of the families of 42 to 44 has written vector registers and accrued flags
(log 35). -/
theorem Hart.baseVector_eq_next {h u : Hart c} {w : Word32} {fixedPoint : Bool}
    (e : h.baseVector w fixedPoint = .next u) :
    ∃ v sat flags, u = (((h.setV v).saturate (if fixedPoint then sat else 0)).accrue
      (if isFloatWord w then flags else 0)).finish := by
  unfold Hart.baseVector at e
  split at e <;> cases e
  exact ⟨_, _, _, rfl⟩

/-- It raises no exception but IllegalInstruction (R240). -/
theorem Hart.baseVector_eq_fault {h : Hart c} {w : Word32} {fixedPoint : Bool} {f : Fault}
    (e : h.baseVector w fixedPoint = .fault f) : f = .trap (.illegalInstruction w) h.pc.toNat := by
  unfold Hart.baseVector at e
  split at e <;> cases e
  rfl

/-- An instruction of the opcode table that goes on passed its checks, and then Base.exec or its own rule ran. -/
theorem Hart.vector_eq_next {h u : Hart c} {w : Word32} {legal : VConf → Bool} {body : VConf → HartOutcome c}
    (e : h.vector w legal body = .next u) :
    ∃ vc, vconf c h.vtype = some vc ∧ baseLegal c w h.vtype (legal vc) = true ∧
      ((vc.ediv = 1 ∧ h.baseVector w false = .next u) ∨ body vc = .next u) := by
  obtain ⟨vc, hv, hl, e⟩ := Hart.vectorAt_eq_next e
  refine ⟨vc, hv, hl, ?_⟩
  split at e
  · rename_i ht
    simp only [baseTakes, Bool.and_eq_true, beq_iff_eq] at ht
    exact .inl ⟨ht.1, e⟩
  · exact .inr e

theorem Hart.ifRegular_of_undivided {h : Hart c} {vc : VConf} {m : RegularExtra} {run : HartOutcome c}
    (he : vc.ediv = 1) : h.ifRegular vc m run = run := by
  unfold Hart.ifRegular; simp [he]

theorem Hart.ifRegular_of_member {h : Hart c} {vc : VConf} {m : RegularExtra} {run : HartOutcome c}
    (hm : c.regular.contains m = true) (hs : 8 ≤ vc.se) : h.ifRegular vc m run = run := by
  unfold Hart.ifRegular
  have : ¬ vc.se < 8 := by omega
  split <;> simp_all

/-- R153: what follows when an optional member of RegularArith goes on. -/
theorem Hart.ifRegular_eq_next {h t : Hart c} {vc : VConf} {m : RegularExtra} {run : HartOutcome c}
    (e : h.ifRegular vc m run = .next t) : run = .next t := by
  unfold Hart.ifRegular at e
  split at e
  · exact e
  · split at e
    · cases e
    · split at e
      · cases e
      · exact e

theorem Hart.unlessDivided_of_undivided {h : Hart c} {vc : VConf} {r : ReservedReason} {w : Word32}
    {run : HartOutcome c} (he : vc.ediv = 1) : h.unlessDivided vc r w run = run := by
  unfold Hart.unlessDivided; simp [he]

/-- R156 to R159, R176: an instruction reserved under EDIV > 1 goes on only with EDIV = 1 or less. -/
theorem Hart.unlessDivided_eq_next {h t : Hart c} {vc : VConf} {r : ReservedReason} {w : Word32}
    {run : HartOutcome c} (e : h.unlessDivided vc r w run = .next t) : vc.ediv ≤ 1 ∧ run = .next t := by
  unfold Hart.unlessDivided at e
  split at e
  · cases e
  · exact ⟨by omega, e⟩

theorem Hart.ifStartZero_of_zero {h : Hart c} {vc : VConf} {w : Word32} {run : HartOutcome c}
    (hs : h.vstart = 0) : h.ifStartZero vc w run = run := by
  unfold Hart.ifStartZero; rw [if_pos hs]

/-- R193: a reduction that goes on started with `vstart` zero. -/
theorem Hart.ifStartZero_eq_next {h t : Hart c} {vc : VConf} {w : Word32} {run : HartOutcome c}
    (e : h.ifStartZero vc w run = .next t) : h.vstart = 0 ∧ run = .next t := by
  unfold Hart.ifStartZero at e
  split at e
  · rename_i hs; exact ⟨hs, e⟩
  · split at e <;> cases e

/-! ### The shapes -/

/-- An integer reduction with EDIV = 1 (R192). -/
theorem Hart.intReduction_undivided {h : Hart c} {vc : VConf} {word : Word32} {op : RedOp} {w1 w : Nat}
    {signed : Bool} {vd vs2 vs1 : RegNo} {vm : BitVec 1} (hs : h.vstart = 0) (he : vc.ediv = 1) :
    h.intReduction vc word op w1 w signed vd vs2 vs1 vm =
      .next (h.writeWhole vc vd w1 (h.redWhole vc op w1 signed vs2 vs1 vm)).finish := by
  unfold Hart.intReduction; rw [Hart.ifStartZero_of_zero hs, if_pos he]

/-- An integer reduction with EDIV > 1 (R171). -/
theorem Hart.intReduction_divided {h : Hart c} {vc : VConf} {word : Word32} {op : RedOp} {w1 w : Nat}
    {signed : Bool} {vd vs2 vs1 : RegNo} {vm : BitVec 1} (hs : h.vstart = 0) (he : vc.ediv ≠ 1) :
    h.intReduction vc word op w1 w signed vd vs2 vs1 vm =
      .next (h.writeGroup vc vd vm (h.redElem vc op w signed vs2 vs1)).finish := by
  unfold Hart.intReduction; rw [Hart.ifStartZero_of_zero hs, if_neg he]

/-- What an integer reduction can do when it goes on: one of the two writes. -/
theorem Hart.intReduction_eq_next {h t : Hart c} {vc : VConf} {word : Word32} {op : RedOp} {w1 w : Nat}
    {signed : Bool} {vd vs2 vs1 : RegNo} {vm : BitVec 1}
    (e : h.intReduction vc word op w1 w signed vd vs2 vs1 vm = .next t) :
    h.vstart = 0 ∧
      ((vc.ediv = 1 ∧ t = (h.writeWhole vc vd w1 (h.redWhole vc op w1 signed vs2 vs1 vm)).finish) ∨
        (vc.ediv ≠ 1 ∧ t = (h.writeGroup vc vd vm (h.redElem vc op w signed vs2 vs1)).finish)) := by
  unfold Hart.intReduction at e
  obtain ⟨hs, e⟩ := Hart.ifStartZero_eq_next e
  refine ⟨hs, ?_⟩
  split at e
  · rename_i he; cases e; exact .inl ⟨he, rfl⟩
  · rename_i he; cases e; exact .inr ⟨he, rfl⟩

/-- What a floating-point reduction can do when it goes on (R174). -/
theorem Hart.fpReduction_eq_next {h t : Hart c} {vc : VConf} {word : Word32} {op : FpRedOp} {f : Nat}
    {box : Nat → BitVec f → BitVec vc.sew} {vd vs2 vs1 : RegNo} {vm : BitVec 1}
    (e : h.fpReduction vc word op f box vd vs2 vs1 vm = .next t) :
    fpFormatOk c vc.se f = true ∧ h.vstart = 0 ∧
      ((vc.ediv = 1 ∧ t = ((h.writeWhole vc vd f (h.fpRedWhole vc op f vs2 vs1 vm).1).accrue
          (if h.vl = 0 then 0 else (h.fpRedWhole vc op f vs2 vs1 vm).2)).finish) ∨
        (vc.ediv ≠ 1 ∧ t = ((h.writeGroup vc vd vm fun i => box i (h.fpRedElem vc op f vs2 vs1 i).1).accrue
          (h.activeFlags vc vm fun i => (h.fpRedElem vc op f vs2 vs1 i).2)).finish)) := by
  unfold Hart.fpReduction at e
  split at e
  · cases e
  · rename_i hf
    obtain ⟨hs, e⟩ := Hart.ifStartZero_eq_next e
    refine ⟨by simpa using hf, hs, ?_⟩
    split at e
    · rename_i he; cases e; exact .inl ⟨he, rfl⟩
    · rename_i he; cases e; exact .inr ⟨he, rfl⟩

/-- What `vsetvli` and `vsetvl` can do when they go on (R106). -/
theorem Hart.setVectorConfig_eq_next {h t' : Hart c} {rd rs1 : RegNo} {t : BitVec c.XLEN}
    (e : h.setVectorConfig rd rs1 t = .next t') :
    ¬ (rs1 = 0 ∧ rd = 0) ∧
      ((vconf c t = none ∧ t' = (((h.setVtype (villOnly c.XLEN)).setVl 0).writeX rd 0).finish) ∨
        ∃ vc n, vconf c t = some vc ∧
          n = BitVec.ofNat c.XLEN
            (setvl c (if rs1 = 0 then vc.vlmax c else (h.readX rs1).toNat) (vc.vlmax c)) ∧
          t' = (((h.setVtype t).setVl n).writeX rd n).finish) := by
  unfold Hart.setVectorConfig at e
  split at e
  · cases e
  · rename_i h0
    refine ⟨h0, ?_⟩
    split at e
    · rename_i hv; cases e; exact .inl ⟨hv, rfl⟩
    · rename_i vc hv; cases e; exact .inr ⟨vc, _, hv, rfl, rfl⟩

/-- The length `setvl` chooses is at most VLMAX (R106). -/
theorem setvl_le (c : Config) (avl vlmax : Nat) : setvl c avl vlmax ≤ vlmax := by
  unfold setvl
  split
  · assumption
  · split
    · exact le_rfl
    · cases c.setvl
      · exact le_rfl
      · exact min_le_left _ _

/-! ### From the outcome to the statement's terms -/

/-- A base without rows of its own allows every instruction (R13; log 31, log 35). -/
theorem baseAllows_of_nil {s : State} (hr : s.cfg.baseRejects = []) (ho : s.cfg.baseOther = []) (i : Instr) :
    BaseAllows s i := by
  simp [BaseAllows, baseMatches, hr, ho]

/-- An instruction that ends in the loop over a destination group completes with that group's result. -/
theorem writesGroup_of_exec {i : Instr} {s : State} {vc : VConf} {vd : RegNo} {vm : BitVec 1}
    {a : Nat → BitVec vc.sew} {result : Nat → BitVec vc.sew → Prop} (so : vc.Sound s.cfg)
    (al : aligned vc vd = true)
    (e : BaseAllows s i → exec i s = s.onHart (.next (s.hart.writeGroup vc vd vm a).finish))
    (imp : ∀ k, k < vc.vlmax s.cfg → s.hart.active vc vm k = true → result k (a k)) :
    WritesGroup i s vc vd vm result :=
  fun b => ⟨_, e b, s.hart.writeGroup_completed vc vd vm a, (s.hart.writeGroup_result so al vm a result imp).congr rfl⟩

/-- The same with flags. -/
theorem writesGroupFp_of_exec {i : Instr} {s : State} {vc : VConf} {vd : RegNo} {vm : BitVec 1} {flags : BitVec 5}
    {a : Nat → BitVec vc.sew} {result : Nat → BitVec vc.sew → Prop} (so : vc.Sound s.cfg)
    (al : aligned vc vd = true)
    (e : BaseAllows s i → exec i s = s.onHart (.next ((s.hart.writeGroup vc vd vm a).accrue flags).finish))
    (imp : ∀ k, k < vc.vlmax s.cfg → s.hart.active vc vm k = true → result k (a k)) :
    WritesGroupFp i s vc vd vm flags result :=
  fun b => ⟨_, e b, completedFp_of_setV s.hart _ flags, (s.hart.writeGroup_result so al vm a result imp).congr rfl⟩

/-- An instruction that ends in the write of a mask completes with that mask. -/
theorem writesMask_of_exec {i : Instr} {s : State} {vc : VConf} {vd : RegNo} {a : Nat → Bool} (so : vc.Sound s.cfg)
    (e : BaseAllows s i → exec i s = s.onHart (.next (s.hart.writeMask vc vd 1 a).finish)) : WritesMask i s vc vd a :=
  fun b => ⟨_, e b, s.hart.writeMask_completed vc vd 1 a, (s.hart.writeMask_result so vd 1 a).congr rfl⟩

/-- An instruction that ends in a whole-vector result completes with that scalar. -/
theorem writesScalar_of_exec {i : Instr} {s : State} {vc : VConf} {vd : RegNo} {w : Nat} {a : BitVec w} (hw : 0 < w)
    (hl : w ≤ s.cfg.VLEN) (e : BaseAllows s i → exec i s = s.onHart (.next (s.hart.writeWhole vc vd w a).finish)) :
    WritesScalar i s vc vd w a := by
  intro b
  replace e := e b
  unfold Hart.writeWhole at e
  by_cases hv : s.hart.vl = 0
  · rw [if_pos hv] at e
    exact ⟨_, e, ⟨⟨rfl, rfl, rfl, rfl, rfl, rfl, rfl, fun _ _ => rfl⟩, rfl, rfl, rfl⟩, fun h => absurd hv h,
      fun _ => rfl⟩
  · rw [if_neg hv] at e
    exact ⟨_, e, s.hart.writeScalar_completed vc vd w a,
      fun _ => (s.hart.writeScalar_result vc vd w a hw hl).congr rfl, fun h => absurd h hv⟩

/-- The same with flags. -/
theorem writesScalarFp_of_exec {i : Instr} {s : State} {vc : VConf} {vd : RegNo} {w : Nat}
    {r : BitVec w × BitVec 5} (hw : 0 < w) (hl : w ≤ s.cfg.VLEN)
    (e : BaseAllows s i → exec i s = s.onHart (.next ((s.hart.writeWhole vc vd w r.1).accrue
      (if s.hart.vl = 0 then 0 else r.2)).finish)) : WritesScalarFp i s vc vd w r := by
  intro b
  replace e := e b
  unfold Hart.writeWhole at e
  by_cases hv : s.hart.vl = 0
  · rw [if_pos hv] at e
    exact ⟨_, e, ⟨⟨rfl, rfl, rfl, rfl, rfl, rfl, rfl, fun _ _ => rfl⟩, rfl, rfl, rfl⟩, fun h => absurd hv h,
      fun _ => rfl⟩
  · rw [if_neg hv] at e
    exact ⟨_, e, completedFp_of_setV s.hart _ _,
      fun _ => (s.hart.writeScalar_result vc vd w r.1 hw hl).congr rfl, fun h => absurd h hv⟩

end Sys2Proof.Machine
end

