-- ==== Sys2Proof/Laws/Machine.lean ====
section
/-! SUPPORT. What the outermost operations can do: a step, and the shape every
vector instruction leaves behind. -/

namespace Sys2Proof.Machine

variable {c : Config}

/-- What a step that goes on has done: stayed at HALT_PC, run an instruction of the opcode table, or run a base
instruction of the Base decoder (R80, R84, R275). -/
theorem step_eq_next {s s' : State} (e : step s = .next s') :
    s' = s ∨ (∃ i, exec i s = .next s') ∨ ∃ op w, execBase op w s = .next s' := by
  unfold step at e
  split at e
  · cases e; exact .inl rfl
  · unfold fetchAndRun at e
    split at e
    · obtain ⟨_, h, _⟩ := State.onHart_eq_next e; cases h
    · split at e
      · obtain ⟨_, h, _⟩ := State.onHart_eq_next e; cases h
      · unfold execWord at e
        split at e
        · exact .inr (.inl ⟨_, e⟩)
        · split at e
          · exact .inr (.inr ⟨_, _, e⟩)
          · obtain ⟨_, h, _⟩ := State.onHart_eq_next e; cases h

/-! ### The shape of a completed vector instruction -/

/-- `t` is `h` with other vector registers, `flags` accrued, `vstart` zero and `pc` moved on. -/
def VectorStep (h t : Hart c) (flags : BitVec 5) : Prop := ∃ v, t = ((h.setV v).accrue flags).finish

theorem Hart.accrue_zero (h : Hart c) : h.accrue 0 = h := by unfold Hart.accrue; simp

theorem Hart.saturate_zero (h : Hart c) : h.saturate 0 = h := by unfold Hart.saturate; simp

theorem vectorStep_of_setV (h : Hart c) (v : Vector (BitVec c.VLEN) 32) : VectorStep h (h.setV v).finish 0 :=
  ⟨v, by rw [Hart.accrue_zero]⟩

/-- A completed vector instruction leaves everything but `pc`, `vstart`, vector registers and `fflags` alone. -/
theorem VectorStep.completed {h t : Hart c} {flags : BitVec 5} (e : VectorStep h t flags) :
    CompletedFp h t flags := by
  obtain ⟨v, rfl⟩ := e
  exact completedFp_of_setV h v flags

theorem Hart.writeGroup_step (h : Hart c) (vc : VConf) (vd : RegNo) (vm : BitVec 1) (a : Nat → BitVec vc.sew) :
    VectorStep h (h.writeGroup vc vd vm a).finish 0 := vectorStep_of_setV h _

theorem Hart.writeMask_step (h : Hart c) (vc : VConf) (vd : RegNo) (vm : BitVec 1) (a : Nat → Bool) :
    VectorStep h (h.writeMask vc vd vm a).finish 0 := vectorStep_of_setV h _

/-- A whole-vector result writes one vector register, or none with `vl` = 0. -/
theorem Hart.writeWhole_eq_setV (h : Hart c) (vc : VConf) (vd : RegNo) (w : Nat) (a : BitVec w) :
    ∃ v, h.writeWhole vc vd w a = h.setV v := by
  unfold Hart.writeWhole
  split
  · exact ⟨h.v, rfl⟩
  · exact ⟨_, rfl⟩

/-- Base.exec for a row of the opcode table has the shape of a vector instruction (log 35). -/
theorem Hart.baseVector_step {h t : Hart c} {w : Word32} (e : h.baseVector w false = .next t) :
    ∃ flags, VectorStep h t (if isFloatWord w then flags else 0) := by
  obtain ⟨v, _, flags, rfl⟩ := Hart.baseVector_eq_next e
  exact ⟨flags, v, by rw [if_neg Bool.false_ne_true, Hart.saturate_zero]⟩

/-- An integer reduction that goes on has only written vector registers. -/
theorem Hart.intReduction_step {h t : Hart c} {vc : VConf} {word : Word32} {op : RedOp} {w1 w : Nat}
    {signed : Bool} {vd vs2 vs1 : RegNo} {vm : BitVec 1}
    (e : h.intReduction vc word op w1 w signed vd vs2 vs1 vm = .next t) : VectorStep h t 0 := by
  obtain ⟨_, ⟨_, rfl⟩ | ⟨_, rfl⟩⟩ := Hart.intReduction_eq_next e
  · obtain ⟨v, hv⟩ := h.writeWhole_eq_setV vc vd w1 (h.redWhole vc op w1 signed vs2 vs1 vm)
    rw [hv]
    exact vectorStep_of_setV h v
  · exact h.writeGroup_step ..

/-- A floating-point reduction that goes on has written vector registers and accrued flags. -/
theorem Hart.fpReduction_step {h t : Hart c} {vc : VConf} {word : Word32} {op : FpRedOp} {f : Nat}
    {box : Nat → BitVec f → BitVec vc.sew} {vd vs2 vs1 : RegNo} {vm : BitVec 1}
    (e : h.fpReduction vc word op f box vd vs2 vs1 vm = .next t) : ∃ flags, VectorStep h t flags := by
  obtain ⟨_, _, ⟨_, rfl⟩ | ⟨_, rfl⟩⟩ := Hart.fpReduction_eq_next e
  · obtain ⟨v, hv⟩ := h.writeWhole_eq_setV vc vd f (h.fpRedWhole vc op f vs2 vs1 vm).1
    rw [hv]
    exact ⟨_, v, rfl⟩
  · exact ⟨_, _, rfl⟩

/-- A widening floating-point sum that goes on has written vector registers and accrued flags. -/
theorem Hart.fpWidening_step {h t : Hart c} {vc : VConf} {word : Word32} {op : FpRedOp} {vd vs2 vs1 : RegNo}
    {vm : BitVec 1} (e : h.fpWidening vc word op vd vs2 vs1 vm = .next t) : ∃ flags, VectorStep h t flags := by
  unfold Hart.fpWidening at e
  split at e
  · cases e
  · exact Hart.fpReduction_step e

/-! ### Memory -/

/-- A write keeps the addresses of memory below a bound. -/
theorem Memory.bounded_write {m : Memory} {n a : Nat} (b : Byte) (h : ∀ e ∈ m, e.1 < n) (ha : a < n) :
    ∀ e ∈ m.write a b, e.1 < n := by
  induction m with
  | nil =>
    intro e he
    simp only [Memory.write, List.mem_singleton] at he
    exact he ▸ ha
  | cons x m ih =>
    obtain ⟨k, b'⟩ := x
    intro e he
    unfold Memory.write at he
    split at he
    · rcases List.mem_cons.mp he with rfl | he
      · exact ha
      · exact h e (List.mem_cons_of_mem _ he)
    · split at he
      · rcases List.mem_cons.mp he with rfl | he
        · exact ha
        · exact h e he
      · rcases List.mem_cons.mp he with rfl | he
        · exact h _ (List.mem_cons_self ..)
        · exact ih (fun e he => h e (List.mem_cons_of_mem _ he)) e he

/-- A store keeps the addresses of memory within XLEN bits (R52). -/
theorem bounded_memStore {m : Memory} (addr : BitVec c.XLEN) (n : Nat) (v : BitVec (8 * n))
    (h : ∀ e ∈ m, e.1 < 2 ^ c.XLEN) : ∀ e ∈ memStore m addr n v, e.1 < 2 ^ c.XLEN := by
  unfold memStore
  generalize List.range n = l
  induction l generalizing m with
  | nil => exact h
  | cons a l ih => exact ih (Memory.bounded_write _ h (BitVec.isLt _))

/-- A vector load writes vector registers only (R123). -/
theorem Hart.loadFields_eq_setV (h : Hart c) (p : Platform) (vc : VConf) (o : MemOperands) :
    ∃ v, h.loadFields p vc o = h.setV v := by
  unfold Hart.loadFields
  generalize List.range o.nf = l
  suffices key : ∀ g : Hart c, (∃ v, g = h.setV v) → ∃ v, l.foldl (fun g k =>
      g.setElems vc (fieldReg vc o k) fun i =>
        h.newElem vc o.vm (fieldReg vc o k) (g.elem vc (fieldReg vc o k) i)
          ((h.memRead p (h.elemAddr vc o i k) (vc.sew / 8)).setWidth vc.sew) i) g = h.setV v from key _ ⟨h.v, rfl⟩
  induction l with
  | nil => exact fun g hg => hg
  | cons a l ih =>
    rintro g ⟨v, rfl⟩
    exact ih _ ⟨_, rfl⟩

/-! ### The instructions of the Base decoder -/

/-- What an instruction of the Base decoder can do to the rest of the machine: `pc` moves on, `vl` and `vtype` stay
(R26, R33), and memory changes by stores only. -/
structure BaseStep (h t : Hart c) : Prop where
  pc : t.pc = h.pc + 4
  vtype : t.vtype = h.vtype
  vl : t.vl = h.vl
  /-- What every store keeps, the instruction keeps. -/
  mem : ∀ P : Memory → Prop, P h.mem → (∀ m addr n v, P m → P (memStore (c := c) m addr n v)) → P t.mem

theorem baseStep_of_setV (h : Hart c) (v : Vector (BitVec c.VLEN) 32) : BaseStep h (h.setV v).finish :=
  ⟨rfl, rfl, rfl, fun _ p _ => p⟩

theorem baseStep_of_writeX (h : Hart c) (r : RegNo) (a : BitVec c.XLEN) : BaseStep h (h.writeX r a).finish :=
  ⟨by simp, by simp, by simp, fun _ p _ => by simpa using p⟩

/-- A move to element 0 writes one vector register or none (R135, R136). -/
theorem Hart.moveToElem0_eq_setV (h : Hart c) (vc : VConf) (vd : RegNo) (a : BitVec vc.sew) :
    ∃ v, h.moveToElem0 vc vd a = h.setV v := by
  unfold Hart.moveToElem0
  split
  · exact ⟨_, rfl⟩
  · exact ⟨h.v, rfl⟩

/-- An element insert writes one vector register or none (R134). -/
theorem Hart.insertElem_eq_setV (h : Hart c) (vc : VConf) (vd : RegNo) (k : Nat) (a : BitVec vc.sew) :
    ∃ v, h.insertElem vc vd k a = h.setV v := by
  unfold Hart.insertElem
  split
  · exact ⟨_, rfl⟩
  · exact ⟨h.v, rfl⟩

/-- A vector store that goes on has only stored (R124). -/
theorem Hart.vectorStore_step {h t : Hart c} {p : Platform} {vc : VConf} {o : MemOperands}
    (e : h.vectorStore p vc o = .next t) : BaseStep h t := by
  unfold Hart.vectorStore at e
  split at e
  · cases e
  · dsimp only at e
    split at e
    · cases e
    · cases e
      refine ⟨rfl, rfl, rfl, fun P hp hs => ?_⟩
      have key : ∀ (l : List (Nat × Nat)) (m : Memory), P m → P (l.foldl (fun m ik =>
          memStore m (h.elemAddr vc o ik.1 ik.2) (vc.sew / 8)
            ((h.elem vc (fieldReg vc o ik.2) ik.1).setWidth (8 * (vc.sew / 8)))) m) := by
        intro l
        induction l with
        | nil => exact fun m hm => hm
        | cons a l ih => exact fun m hm => ih _ (hs _ _ _ _ hm)
      exact key _ _ hp

/-- A vector AMO that goes on has stored, and written vector registers (R125). -/
theorem Hart.vectorAmo_step {h t : Hart c} {p : Platform} {vc : VConf} {o : MemOperands} {n : Nat} {writesBack : Bool}
    (e : h.vectorAmo p vc o n writesBack = .next t) : BaseStep h t := by
  unfold Hart.vectorAmo at e
  split at e
  · cases e
  · dsimp only at e
    split at e
    · cases e
    · have key : ∀ (P : Memory → Prop), P h.mem → (∀ m addr n v, P m → P (memStore (c := c) m addr n v)) →
          P (h.amoMem p vc o n (h.activeList vc o.vm)) := by
        intro P hp hs
        unfold Hart.amoMem
        generalize h.activeList vc o.vm = l
        generalize h.mem = m at hp
        induction l generalizing m with
        | nil => exact hp
        | cons a l ih => exact ih _ (hs _ _ _ _ hp)
      cases e
      cases writesBack
      · exact ⟨rfl, rfl, rfl, key⟩
      · exact ⟨rfl, rfl, rfl, key⟩

/-- Bytes stored one after the other keep what every store keeps. -/
theorem storeBytes_keeps {P : Memory → Prop} (hs : ∀ m addr n v, P m → P (memStore (c := c) m addr n v))
    (stores : List (BitVec c.XLEN × BitVec (8 * 1))) : ∀ m, P m → P (storeBytes m stores) := by
  unfold storeBytes
  induction stores with
  | nil => exact fun m hm => hm
  | cons a l ih => exact fun m hm => ih _ (hs _ _ _ _ hm)

/-- Base.exec for a word without a row, which writes neither `vl` nor `vtype` (R33; log 35). -/
theorem Hart.baseAny_step {h t : Hart c} {p : Platform} {w : Word32} (e : h.baseAny p w = .next t) : BaseStep h t := by
  unfold Hart.baseAny at e
  split at e
  · cases e
  · split at e
    · cases e
    · cases e
      exact ⟨rfl, rfl, rfl, fun _ hp hs => storeBytes_keeps hs _ _ hp⟩

theorem withVtype_eq_next {t : BitVec c.XLEN} {r : HartOutcome c} {u : Hart c} (e : withVtype t r = .next u) :
    ∃ u', r = .next u' ∧ u = u'.setVtype t := by
  unfold withVtype at e
  split at e <;> cases e
  exact ⟨_, rfl, rfl⟩

/-- An instruction of 41_unaffected.md that goes on. -/
theorem Hart.runUnaffected_step {h t : Hart c} {p : Platform} {op : UnaffectedOp} {w : Word32} {vc : VConf}
    (e : h.runUnaffected p op w vc = .next t) : BaseStep h t := by
  have move : ∀ vd a, BaseStep h (h.moveToElem0 vc vd a).finish := fun vd a => by
    obtain ⟨v, hv⟩ := h.moveToElem0_eq_setV vc vd a
    rw [hv]
    exact baseStep_of_setV h v
  cases op <;> unfold Hart.runUnaffected at e <;> dsimp only at e
  case load mode =>
    unfold Hart.vectorLoad at e
    split at e
    · cases e
      obtain ⟨v, hv⟩ := h.loadFields_eq_setV p vc (memOperands mode w)
      rw [hv]
      exact baseStep_of_setV h v
    · cases e
  case store mode => exact Hart.vectorStore_step e
  case amo n writesBack => exact Hart.vectorAmo_step e
  case vinsVX =>
    cases e
    obtain ⟨v, hv⟩ := h.insertElem_eq_setV vc (fRd w) (h.readX (fRs2 w)).toNat ((h.readX (fRs1 w)).signExtend vc.sew)
    rw [hv]
    exact baseStep_of_setV h v
  case vfmvFS =>
    split at e <;> cases e
    exact ⟨rfl, rfl, rfl, fun _ p _ => p⟩
  case vfmvSF =>
    split at e <;> cases e
    exact move ..
  all_goals cases e; first | exact baseStep_of_setV .. | exact baseStep_of_writeX .. | exact move ..

/-- What an instruction of the Base decoder has done when it goes on. -/
theorem execBase_eq_next {op : BaseOp} {w : Word32} {s s' : State} (e : execBase op w s = .next s') :
    ∃ t, s' = ⟨s.cfg, s.plat, t⟩ ∧ BaseStep s.hart t := by
  unfold execBase at e
  obtain ⟨t, he, rfl⟩ := State.onHart_eq_next e
  refine ⟨t, rfl, ?_⟩
  clear e
  rename' he => e
  cases op
  case unaffected op =>
    obtain ⟨_, _, _, e⟩ := Hart.vectorAt_eq_next e
    split at e
    · obtain ⟨u, hu, rfl⟩ := withVtype_eq_next e
      obtain ⟨h1, _, h3, h4⟩ := Hart.baseAny_step hu
      exact ⟨h1, rfl, h3, h4⟩
    · exact Hart.runUnaffected_step e
  case regular n shift fixedPoint =>
    change s.hart.execRegular n shift fixedPoint w = _ at e
    unfold Hart.execRegular at e
    split at e
    · cases e
    · obtain ⟨_, _, _, e⟩ := Hart.vectorAt_eq_next e
      split at e
      · obtain ⟨_, _, _, rfl⟩ := Hart.baseVector_eq_next e
        exact ⟨rfl, rfl, rfl, fun _ p _ => p⟩
      · replace e := Hart.ifRegular_eq_next e
        split at e <;> cases e
        exact ⟨rfl, rfl, rfl, fun _ p _ => p⟩
  case csrr =>
    change s.hart.runCsrr w = _ at e
    unfold Hart.runCsrr at e
    split at e <;> cases e
    exact ⟨by simp, by simp, by simp, fun _ p _ => by simpa using p⟩
  case csrw =>
    change s.hart.runCsrw w = _ at e
    unfold Hart.runCsrw at e
    split at e <;> cases e
    rename_i hw
    unfold Hart.writeCsr at hw
    repeat' split at hw
    all_goals cases hw <;> exact ⟨rfl, rfl, rfl, fun _ p _ => p⟩
  case unclassified =>
    obtain ⟨_, _, _, e⟩ := Hart.vectorAt_eq_next e
    split at e
    · cases e
    · exact Hart.baseAny_step e

end Sys2Proof.Machine
end

