-- ==== Sys2Proof/Laws/Numerics.lean ====
section
/-! SUPPORT. The fields of a number that `fpOf` builds, and what one addition gives where IEEE 754 gives it without
rounding. -/

namespace Sys2Proof.Machine

/-- The sign, exponent and fraction fields fill a format. -/
structure FormatWidth (w : Nat) : Prop where
  total : 1 + expBits w + fracBits w = w
  exp_pos : 0 < expBits w
  frac_pos : 0 < fracBits w

theorem formatWidth_16 : FormatWidth 16 := ⟨rfl, by decide, by decide⟩
theorem formatWidth_32 : FormatWidth 32 := ⟨rfl, by decide, by decide⟩
theorem formatWidth_64 : FormatWidth 64 := ⟨rfl, by decide, by decide⟩
theorem formatWidth_128 : FormatWidth 128 := ⟨rfl, by decide, by decide⟩

section

variable {w : Nat} (fw : FormatWidth w)
include fw

/-- The number that `fpOf` builds, as an unsigned integer. -/
theorem toNat_fpOf (negative : Bool) {fields : Nat} (h : fields < 2 ^ (w - 1)) :
    (fpOf w negative fields).toNat = (if negative then 2 ^ (w - 1) else 0) + fields := by
  have hw : 0 < w := by have := fw.total; omega
  have h2 : 2 ^ w = 2 ^ (w - 1) + 2 ^ (w - 1) := by
    conv_lhs => rw [show w = (w - 1) + 1 by omega, pow_succ]
    ring
  unfold fpOf
  rw [BitVec.toNat_ofNat, Nat.mod_eq_of_lt]
  split <;> omega

@[simp] theorem msb_fpOf (negative : Bool) {fields : Nat} (h : fields < 2 ^ (w - 1)) :
    (fpOf w negative fields).msb = negative := by
  rw [BitVec.msb_eq_decide, toNat_fpOf fw negative h]
  cases negative
  · simpa using h
  · simp

/-- The exponent field is the fields' part above the fraction. -/
theorem fpExp_fpOf (negative : Bool) {fields : Nat} (h : fields < 2 ^ (w - 1)) :
    fpExp (fpOf w negative fields) = fields / 2 ^ fracBits w := by
  have hw : w - 1 = expBits w + fracBits w := by have := fw.total; omega
  have hp : 2 ^ (w - 1) = 2 ^ fracBits w * 2 ^ expBits w := by rw [hw, pow_add, Nat.mul_comm]
  have hf : fields / 2 ^ fracBits w < 2 ^ expBits w := by
    rw [Nat.div_lt_iff_lt_mul (Nat.two_pow_pos _), Nat.mul_comm, ← hp]; exact h
  unfold fpExp
  rw [BitVec.extractLsb'_toNat, toNat_fpOf fw negative h, Nat.shiftRight_eq_div_pow]
  split
  · rw [hp, Nat.mul_add_div (Nat.two_pow_pos _), Nat.add_mod_left, Nat.mod_eq_of_lt hf]
  · rw [Nat.zero_add, Nat.mod_eq_of_lt hf]

/-- The fraction field is the fields' low part. -/
theorem fpFrac_fpOf (negative : Bool) {fields : Nat} (h : fields < 2 ^ (w - 1)) :
    fpFrac (fpOf w negative fields) = fields % 2 ^ fracBits w := by
  have hw : w - 1 = expBits w + fracBits w := by have := fw.total; omega
  have hp : 2 ^ (w - 1) = 2 ^ fracBits w * 2 ^ expBits w := by rw [hw, pow_add, Nat.mul_comm]
  unfold fpFrac
  rw [BitVec.extractLsb'_toNat, toNat_fpOf fw negative h, Nat.shiftRight_zero]
  split
  · rw [hp, Nat.mul_add_mod]
  · rw [Nat.zero_add]

end

/-- One addition of the ordered sum (R187). -/
theorem fpOsum_cons (f : Nat) (frm : BitVec 3) (acc x : BitVec f) (xs : List (BitVec f)) :
    (fpOsum f frm acc (x :: xs)).1 = (fpOsum f frm (fpAdd f frm acc x).1 xs).1 := by
  unfold fpOsum
  simp only [List.foldl_cons]
  have key : ∀ (xs : List (BitVec f)) (a b : BitVec f × BitVec 5), a.1 = b.1 →
      (xs.foldl (fun r x => let s := fpAdd f frm r.1 x; (s.1, r.2 ||| s.2)) a).1 =
        (xs.foldl (fun r x => let s := fpAdd f frm r.1 x; (s.1, r.2 ||| s.2)) b).1 := by
    intro xs
    induction xs with
    | nil => exact fun a b h => h
    | cons x xs ih => exact fun a b h => ih _ _ (by simp only [h])
  exact key _ _ _ rfl

/-- What one addition can give (R232): a quiet NaN, one of its operands, a zero, or a rounded sum. -/
theorem fpAdd_cases (f : Nat) (frm : BitVec 3) (a b : BitVec f) :
    (∃ raw, (fpAdd f frm a b).1 = quietNaN raw) ∨ fpAdd f frm a b = (a, 0) ∨ fpAdd f frm a b = (b, 0) ∨
      (fpFinite a = true ∧ fpFinite b = true ∧
        ((fpUnits a + fpUnits b = 0 ∧ ∃ negative, fpAdd f frm a b = (fpOf f negative 0, 0)) ∨
          (fpUnits a + fpUnits b ≠ 0 ∧
            (fpAdd f frm a b =
                (fpOf f (decide (fpUnits a + fpUnits b < 0))
                    (roundMagnitude f frm (decide (fpUnits a + fpUnits b < 0)) (fpUnits a + fpUnits b).natAbs).1,
                  (roundMagnitude f frm (decide (fpUnits a + fpUnits b < 0)) (fpUnits a + fpUnits b).natAbs).2) ∨
              4 < frm.toNat)))) := by
  unfold fpAdd
  dsimp only
  split
  · exact .inl ⟨_, rfl⟩
  · split
    · exact .inl ⟨_, rfl⟩
    · split
      · exact .inr (.inl rfl)
      · rename_i ha
        split
        · exact .inr (.inr (.inl rfl))
        · rename_i hb
          refine .inr (.inr (.inr ⟨by simpa using ha, by simpa using hb, ?_⟩))
          split
          · rename_i h0
            exact .inl ⟨h0, _, rfl⟩
          · rename_i h0
            refine .inr ⟨h0, ?_⟩
            split
            · rename_i hr; exact .inr hr.2
            · exact .inl rfl

end Sys2Proof.Machine
end

