-- ==== Sys2Proof/Laws/PerInstr.lean ====
section
/-! SUPPORT. The statement made instruction by instruction: the encoder's word matches the instruction's row
of spec/opcode_table.json, that is `word &&& mask = match` (R72, R76, R78, R79, R80). -/

namespace Sys2Proof

/-- The mask of the OP-V rows keeps `funct6`, `funct3` and the opcode (R76). -/
theorem opV_masked (f6 : BitVec 6) (vm : BitVec 1) (vs2 s1 : BitVec 5) (f3 : BitVec 3) (vd : BitVec 5) :
    opV f6 vm vs2 s1 f3 vd &&& 0xFC00707F#32 = opV f6 0 0 0 f3 0 := by
  apply BitVec.eq_of_getLsbD_eq
  intro i hi
  interval_cases i <;> simp only [opV, BitVec.getLsbD_and, BitVec.getLsbD_append] <;> simp

/-- The mask of the I-type rows keeps `funct3` and the opcode (R79). -/
theorem opI_masked (imm : BitVec 12) (rs1 : BitVec 5) (f3 : BitVec 3) (rd : BitVec 5) (op : BitVec 7) :
    opI imm rs1 f3 rd op &&& 0x0000707F#32 = opI 0 0 f3 0 op := by
  apply BitVec.eq_of_getLsbD_eq
  intro i hi
  interval_cases i <;> simp only [opI, BitVec.getLsbD_and, BitVec.getLsbD_append] <;> simp

namespace Laws.TableRow

/-- The word of an instruction matches its row of the opcode table. -/
def Statement (i : Instr) : Prop := encode i &&& (opcodeRow i).1 = (opcodeRow i).2

theorem vsetvli (rd rs1 : RegNo) (zimm : BitVec 11) :
    Statement (.vsetvli rd rs1 zimm) := by
  apply BitVec.eq_of_getLsbD_eq
  intro i hi
  interval_cases i <;> simp only [encode, encodeWith, opcodeRow, BitVec.getLsbD_and, BitVec.getLsbD_append] <;> simp
theorem vsetvl (rd rs1 rs2 : RegNo) :
    Statement (.vsetvl rd rs1 rs2) := by
  apply BitVec.eq_of_getLsbD_eq
  intro i hi
  interval_cases i <;> simp only [encode, encodeWith, opcodeRow, BitVec.getLsbD_and, BitVec.getLsbD_append] <;> simp
theorem vaddVV (vd vs2 vs1 : RegNo) (vm : BitVec 1) :
    Statement (.vaddVV vd vs2 vs1 vm) :=
  opV_masked _ _ _ _ _ _
theorem vaddVX (vd vs2 rs1 : RegNo) (vm : BitVec 1) :
    Statement (.vaddVX vd vs2 rs1 vm) :=
  opV_masked _ _ _ _ _ _
theorem vaddVI (vd vs2 : RegNo) (imm5 : BitVec 5) (vm : BitVec 1) :
    Statement (.vaddVI vd vs2 imm5 vm) :=
  opV_masked _ _ _ _ _ _
theorem vsllVV (vd vs2 vs1 : RegNo) (vm : BitVec 1) :
    Statement (.vsllVV vd vs2 vs1 vm) :=
  opV_masked _ _ _ _ _ _
theorem vsllVX (vd vs2 rs1 : RegNo) (vm : BitVec 1) :
    Statement (.vsllVX vd vs2 rs1 vm) :=
  opV_masked _ _ _ _ _ _
theorem vsllVI (vd vs2 : RegNo) (imm5 : BitVec 5) (vm : BitVec 1) :
    Statement (.vsllVI vd vs2 imm5 vm) :=
  opV_masked _ _ _ _ _ _
theorem vadcVVM (vd vs2 vs1 : RegNo) (vm : BitVec 1) :
    Statement (.vadcVVM vd vs2 vs1 vm) :=
  opV_masked _ _ _ _ _ _
theorem vadcVXM (vd vs2 rs1 : RegNo) (vm : BitVec 1) :
    Statement (.vadcVXM vd vs2 rs1 vm) :=
  opV_masked _ _ _ _ _ _
theorem vadcVIM (vd vs2 : RegNo) (imm5 : BitVec 5) (vm : BitVec 1) :
    Statement (.vadcVIM vd vs2 imm5 vm) :=
  opV_masked _ _ _ _ _ _
theorem vmadcVVM (vd vs2 vs1 : RegNo) (vm : BitVec 1) :
    Statement (.vmadcVVM vd vs2 vs1 vm) :=
  opV_masked _ _ _ _ _ _
theorem vmadcVXM (vd vs2 rs1 : RegNo) (vm : BitVec 1) :
    Statement (.vmadcVXM vd vs2 rs1 vm) :=
  opV_masked _ _ _ _ _ _
theorem vmadcVIM (vd vs2 : RegNo) (imm5 : BitVec 5) (vm : BitVec 1) :
    Statement (.vmadcVIM vd vs2 imm5 vm) :=
  opV_masked _ _ _ _ _ _
theorem vsbcVVM (vd vs2 vs1 : RegNo) (vm : BitVec 1) :
    Statement (.vsbcVVM vd vs2 vs1 vm) :=
  opV_masked _ _ _ _ _ _
theorem vsbcVXM (vd vs2 rs1 : RegNo) (vm : BitVec 1) :
    Statement (.vsbcVXM vd vs2 rs1 vm) :=
  opV_masked _ _ _ _ _ _
theorem vmsbcVVM (vd vs2 vs1 : RegNo) (vm : BitVec 1) :
    Statement (.vmsbcVVM vd vs2 vs1 vm) :=
  opV_masked _ _ _ _ _ _
theorem vmsbcVXM (vd vs2 rs1 : RegNo) (vm : BitVec 1) :
    Statement (.vmsbcVXM vd vs2 rs1 vm) :=
  opV_masked _ _ _ _ _ _
theorem vrgatherVV (vd vs2 vs1 : RegNo) (vm : BitVec 1) :
    Statement (.vrgatherVV vd vs2 vs1 vm) :=
  opV_masked _ _ _ _ _ _
theorem vrgatherVX (vd vs2 rs1 : RegNo) (vm : BitVec 1) :
    Statement (.vrgatherVX vd vs2 rs1 vm) :=
  opV_masked _ _ _ _ _ _
theorem vrgatherVI (vd vs2 : RegNo) (imm5 : BitVec 5) (vm : BitVec 1) :
    Statement (.vrgatherVI vd vs2 imm5 vm) :=
  opV_masked _ _ _ _ _ _
theorem vredsumVS (vd vs2 vs1 : RegNo) (vm : BitVec 1) :
    Statement (.vredsumVS vd vs2 vs1 vm) :=
  opV_masked _ _ _ _ _ _
theorem vredandVS (vd vs2 vs1 : RegNo) (vm : BitVec 1) :
    Statement (.vredandVS vd vs2 vs1 vm) :=
  opV_masked _ _ _ _ _ _
theorem vredorVS (vd vs2 vs1 : RegNo) (vm : BitVec 1) :
    Statement (.vredorVS vd vs2 vs1 vm) :=
  opV_masked _ _ _ _ _ _
theorem vredxorVS (vd vs2 vs1 : RegNo) (vm : BitVec 1) :
    Statement (.vredxorVS vd vs2 vs1 vm) :=
  opV_masked _ _ _ _ _ _
theorem vredminuVS (vd vs2 vs1 : RegNo) (vm : BitVec 1) :
    Statement (.vredminuVS vd vs2 vs1 vm) :=
  opV_masked _ _ _ _ _ _
theorem vredminVS (vd vs2 vs1 : RegNo) (vm : BitVec 1) :
    Statement (.vredminVS vd vs2 vs1 vm) :=
  opV_masked _ _ _ _ _ _
theorem vredmaxuVS (vd vs2 vs1 : RegNo) (vm : BitVec 1) :
    Statement (.vredmaxuVS vd vs2 vs1 vm) :=
  opV_masked _ _ _ _ _ _
theorem vredmaxVS (vd vs2 vs1 : RegNo) (vm : BitVec 1) :
    Statement (.vredmaxVS vd vs2 vs1 vm) :=
  opV_masked _ _ _ _ _ _
theorem vwredsumuVS (vd vs2 vs1 : RegNo) (vm : BitVec 1) :
    Statement (.vwredsumuVS vd vs2 vs1 vm) :=
  opV_masked _ _ _ _ _ _
theorem vwredsumVS (vd vs2 vs1 : RegNo) (vm : BitVec 1) :
    Statement (.vwredsumVS vd vs2 vs1 vm) :=
  opV_masked _ _ _ _ _ _
theorem vfredsumVS (vd vs2 vs1 : RegNo) (vm : BitVec 1) :
    Statement (.vfredsumVS vd vs2 vs1 vm) :=
  opV_masked _ _ _ _ _ _
theorem vfredosumVS (vd vs2 vs1 : RegNo) (vm : BitVec 1) :
    Statement (.vfredosumVS vd vs2 vs1 vm) :=
  opV_masked _ _ _ _ _ _
theorem vfredminVS (vd vs2 vs1 : RegNo) (vm : BitVec 1) :
    Statement (.vfredminVS vd vs2 vs1 vm) :=
  opV_masked _ _ _ _ _ _
theorem vfredmaxVS (vd vs2 vs1 : RegNo) (vm : BitVec 1) :
    Statement (.vfredmaxVS vd vs2 vs1 vm) :=
  opV_masked _ _ _ _ _ _
theorem vfwredsumVS (vd vs2 vs1 : RegNo) (vm : BitVec 1) :
    Statement (.vfwredsumVS vd vs2 vs1 vm) :=
  opV_masked _ _ _ _ _ _
theorem vfwredosumVS (vd vs2 vs1 : RegNo) (vm : BitVec 1) :
    Statement (.vfwredosumVS vd vs2 vs1 vm) :=
  opV_masked _ _ _ _ _ _
theorem vdotuVV (vd vs2 vs1 : RegNo) (vm : BitVec 1) :
    Statement (.vdotuVV vd vs2 vs1 vm) :=
  opV_masked _ _ _ _ _ _
theorem vdotVV (vd vs2 vs1 : RegNo) (vm : BitVec 1) :
    Statement (.vdotVV vd vs2 vs1 vm) :=
  opV_masked _ _ _ _ _ _
theorem vfdotVV (vd vs2 vs1 : RegNo) (vm : BitVec 1) :
    Statement (.vfdotVV vd vs2 vs1 vm) :=
  opV_masked _ _ _ _ _ _
theorem addi (rd rs1 : RegNo) (imm : BitVec 12) :
    Statement (.addi rd rs1 imm) :=
  opI_masked _ _ _ _ _
theorem lw (rd rs1 : RegNo) (imm : BitVec 12) :
    Statement (.lw rd rs1 imm) :=
  opI_masked _ _ _ _ _
theorem sw (rs2 rs1 : RegNo) (imm : BitVec 12) :
    Statement (.sw rs2 rs1 imm) := by
  apply BitVec.eq_of_getLsbD_eq
  intro i hi
  interval_cases i <;> simp only [encode, encodeWith, opcodeRow, BitVec.getLsbD_and, BitVec.getLsbD_append] <;> simp
theorem bne (rs1 rs2 : RegNo) (offset : BitVec 13) :
    Statement (.bne rs1 rs2 offset) := by
  apply BitVec.eq_of_getLsbD_eq
  intro i hi
  interval_cases i <;> simp only [encode, encodeWith, opcodeRow, BitVec.getLsbD_and, BitVec.getLsbD_append] <;> simp

end Laws.TableRow

end Sys2Proof
end

