-- ==== Sys2Proof/Tests/Slice0.lean ====
section
/-! SUPPORT. Tests: ill-formed terms, words written out from the spec's encodings, one-step results taken from
spec/95_test_vectors.md (cited as V1 to V8, S1 to S8) or calculated by hand from a rule, and for each statement
with hypotheses a state and operands that meet them. -/

namespace Sys2Proof.Tests

open Sys2Proof.Machine

/-! ### Well-formedness -/

theorem test_bne_odd_offset_is_ill_formed : (Instr.bne 12 0 0x1FF9).wellFormed = false := by decide

theorem test_bne_even_offset_is_well_formed : (Instr.bne 12 0 0x1FF8).wellFormed = true := by decide

/-! ### Decoding: the words are those spec/95_test_vectors.md prints, or the `match` column of
spec/opcode_table.json with the field bits of R71 (`vm` bit 25, `vs2` bits 24:20, `vs1` bits 19:15, `vd` bits 11:7)
set to 1, 2, 3, 1 -/

theorem test_decode_configuration :
    [0x211572D7, 0x010572D7, 0x806572D7].map decode =
      [some (.vsetvli 5 10 0x211), some (.vsetvli 5 10 0x010), some (.vsetvl 5 10 6)] := by decide

theorem test_decode_regular :
    [0x022180D7, 0x0221C0D7, 0x0221B0D7, 0x962180D7, 0x9620C0D7, 0x9621B0D7, 0x002180D7].map decode =
      [some (.vaddVV 1 2 3 1), some (.vaddVX 1 2 3 1), some (.vaddVI 1 2 3 1), some (.vsllVV 1 2 3 1),
        some (.vsllVX 1 2 1 1), some (.vsllVI 1 2 3 1), some (.vaddVV 1 2 3 0)] := by decide

theorem test_decode_carry :
    [0x402180D7, 0x4021C0D7, 0x4021B0D7, 0x442180D7, 0x4421C0D7, 0x4421B0D7, 0x462180D7].map decode =
      [some (.vadcVVM 1 2 3 0), some (.vadcVXM 1 2 3 0), some (.vadcVIM 1 2 3 0), some (.vmadcVVM 1 2 3 0),
        some (.vmadcVXM 1 2 3 0), some (.vmadcVIM 1 2 3 0), some (.vmadcVVM 1 2 3 1)] := by decide

theorem test_decode_borrow :
    [0x482180D7, 0x4821C0D7, 0x4C2180D7, 0x4C21C0D7].map decode =
      [some (.vsbcVVM 1 2 3 0), some (.vsbcVXM 1 2 3 0), some (.vmsbcVVM 1 2 3 0),
        some (.vmsbcVXM 1 2 3 0)] := by decide

theorem test_decode_gathers :
    [0x321101D7, 0x3215C1D7, 0x3210B257].map decode =
      [some (.vrgatherVV 3 1 2 1), some (.vrgatherVX 3 1 11 1), some (.vrgatherVI 4 1 1 1)] := by decide

theorem test_decode_integer_reductions :
    [0x0221A0D7, 0x0621A0D7, 0x0A21A0D7, 0x0E21A0D7, 0x1221A0D7, 0x1621A0D7, 0x1A21A0D7, 0x1E63A2D7,
        0xC22180D7, 0xC62180D7].map decode =
      [some (.vredsumVS 1 2 3 1), some (.vredandVS 1 2 3 1), some (.vredorVS 1 2 3 1), some (.vredxorVS 1 2 3 1),
        some (.vredminuVS 1 2 3 1), some (.vredminVS 1 2 3 1), some (.vredmaxuVS 1 2 3 1),
        some (.vredmaxVS 5 6 7 1), some (.vwredsumuVS 1 2 3 1), some (.vwredsumVS 1 2 3 1)] := by decide

theorem test_decode_fp_reductions :
    [0x062190D7, 0x0E2190D7, 0x162190D7, 0x1E2190D7, 0xC62190D7, 0xCE2190D7].map decode =
      [some (.vfredsumVS 1 2 3 1), some (.vfredosumVS 1 2 3 1), some (.vfredminVS 1 2 3 1),
        some (.vfredmaxVS 1 2 3 1), some (.vfwredsumVS 1 2 3 1), some (.vfwredosumVS 1 2 3 1)] := by decide

theorem test_decode_dot_products :
    [0xE22180D7, 0xE62180D7, 0xE42180D7, 0xE62190D7].map decode =
      [some (.vdotuVV 1 2 3 1), some (.vdotVV 1 2 3 1), some (.vdotVV 1 2 3 0), some (.vfdotVV 1 2 3 1)] := by
  decide

theorem test_decode_scaffold :
    [0x00100593, 0xFFF60613, 0x00052583, 0x00D52223, 0x00552223, 0xFE061CE3].map decode =
      [some (.addi 11 0 1), some (.addi 12 12 0xFFF), some (.lw 11 10 0), some (.sw 13 10 4), some (.sw 5 10 4),
        some (.bne 12 0 0x1FF8)] := by decide

/-- V7: `JAL` has no row; `funct3` 101 and 110 are not used, nor is bit 31 with another `funct7`. -/
theorem test_decode_rejects :
    [0x0000006F, 0x000050D7, 0x000060D7, 0x82007057, 0x40002057, 0x00001013].map decode =
      [none, none, none, none, none, none] := by decide

/-- Another DotEncoding (R8): `vdotu.vv`, `vdot.vv` and `vfdot.vv` one slot further on. -/
abbrev moved : DotEncoding := ⟨⟨0b111010#6, 0b000#3⟩, ⟨0b111011#6, 0b000#3⟩, ⟨0b111011#6, 0b001#3⟩⟩

/-- Its words, and the default words, which are then words of no row. -/
theorem test_decode_moved_dot_products :
    [0xEA2180D7, 0xEE2180D7, 0xEE2190D7, 0xE22180D7].map (decodeWith moved) =
      [some (.vdotuVV 1 2 3 1), some (.vdotVV 1 2 3 1), some (.vfdotVV 1 2 3 1), none] := by decide

theorem test_table_word_order : decodeTableWord 32 0x211572D7 = some (.vsetvli 5 10 0x211) := by decide

/-- One instruction of each row of the opcode table. -/
def samples : List Instr :=
  [.vsetvli 0 0 0, .vsetvl 0 0 0, .vaddVV 0 0 0 0, .vaddVX 0 0 0 0, .vaddVI 0 0 0 0, .vsllVV 0 0 0 0,
    .vsllVX 0 0 0 0, .vsllVI 0 0 0 0, .vadcVVM 0 0 0 0, .vadcVXM 0 0 0 0, .vadcVIM 0 0 0 0, .vmadcVVM 0 0 0 0,
    .vmadcVXM 0 0 0 0, .vmadcVIM 0 0 0 0, .vsbcVVM 0 0 0 0, .vsbcVXM 0 0 0 0, .vmsbcVVM 0 0 0 0,
    .vmsbcVXM 0 0 0 0, .vrgatherVV 0 0 0 0, .vrgatherVX 0 0 0 0, .vrgatherVI 0 0 0 0, .vredsumVS 0 0 0 0,
    .vredandVS 0 0 0 0, .vredorVS 0 0 0 0, .vredxorVS 0 0 0 0, .vredminuVS 0 0 0 0, .vredminVS 0 0 0 0,
    .vredmaxuVS 0 0 0 0, .vredmaxVS 0 0 0 0, .vwredsumuVS 0 0 0 0, .vwredsumVS 0 0 0 0, .vfredsumVS 0 0 0 0,
    .vfredosumVS 0 0 0 0, .vfredminVS 0 0 0 0, .vfredmaxVS 0 0 0 0, .vfwredsumVS 0 0 0 0,
    .vfwredosumVS 0 0 0 0, .vdotuVV 0 0 0 0, .vdotVV 0 0 0 0, .vfdotVV 0 0 0 0, .addi 0 0 0, .lw 0 0 0,
    .sw 0 0 0, .bne 0 0 0]

/-- No word matches two rows: their matches differ in a bit that both masks fix. -/
theorem test_opcode_rows_do_not_overlap :
    (samples.map opcodeRow).Pairwise fun a b => (a.1 &&& b.1) &&& (a.2 ^^^ b.2) ≠ 0 := by decide +kernel

/-! ### States and observations -/

/-- V registers of 64 bits, masked-off and tail elements left alone: the configuration of the sample programs. -/
abbrev keep : Config := { Config.default with agnostic := .undisturbed }

/-- The same with V registers of 128 bits. -/
abbrev wide : Config := { keep with vlenExp := ⟨7, by decide⟩ }

/-- The same as `keep` with sub-elements down to one bit. -/
abbrev fine : Config := { keep with selen := .s1 }

/-- Register `r` of a file that a list of numbers and values describes; the others are zero. -/
def fill (w : Nat) (vals : List (Nat × Nat)) : Vector (BitVec w) 32 :=
  Vector.ofFn fun r => BitVec.ofNat w ((vals.lookup r.val).getD 0)

/-- A state at `pc` = 0x400 with the given `vtype`, `vl`, integer and vector registers. -/
def start (c : Config) (t vl : Nat) (x v : List (Nat × Nat)) : State where
  cfg := c
  plat := Platform.default
  hart :=
    { Hart.reset c Platform.default with
      pc := 0x400, vtype := BitVec.ofNat c.XLEN t, vl := BitVec.ofNat c.XLEN vl, x := fill c.XLEN x,
      v := fill c.VLEN v }

/-- The same state with `vstart` set. -/
def State.from (s : State) (n : Nat) : State :=
  { s with hart := { s.hart with vstart := BitVec.ofNat s.cfg.XLEN n } }

abbrev Out := Host.Outcome State Fault Refusal

def vAfter (r : Nat) : Out → Option Nat
  | .next s => some (vreg s.hart.v r).toNat
  | _ => none

def xAfter (r : RegNo) : Out → Option Nat
  | .next s => some (s.hart.readX r).toNat
  | _ => none

/-- `vtype`, `vl`, `vstart` and `pc`. -/
def controlAfter : Out → Option (Nat × Nat × Nat × Nat)
  | .next s => some (s.hart.vtype.toNat, s.hart.vl.toNat, s.hart.vstart.toNat, s.hart.pc.toNat)
  | _ => none

def flagsAfter : Out → Option (BitVec 5)
  | .next s => some s.hart.fflags
  | _ => none

def bytesAfter (a n : Nat) : Out → Option (List Byte)
  | .next s => some ((List.range n).map fun k => s.hart.byteAt s.plat (a + k))
  | _ => none

def faultOf : Out → Option Fault
  | .fault f => some f
  | _ => none

def refusalOf : Out → Option Refusal
  | .refused r => some r
  | _ => none

/-- The outcome is a next state. -/
def completes : Out → Bool
  | .next _ => true
  | _ => false

/-! ### Configuration (V1), 128-bit registers -/

theorem test_vsetvli_e32m2d4 :
    let o := exec (.vsetvli 5 10 0x211) (State.from (start wide 0 0 [(10, 5)] []) 3)
    controlAfter o = some (0x211, 5, 0, 0x404) ∧ xAfter 5 o = some 5 := by decide

theorem test_vsetvli_narrow_sets_vill :
    let o := exec (.vsetvli 5 10 0x310) (start wide 0x210 3 [(5, 9), (10, 3)] [])
    controlAfter o = some (0x80000000, 0, 0, 0x404) ∧ xAfter 5 o = some 0 := by decide

theorem test_vsetvl_vill_requested :
    let o := exec (.vsetvl 5 10 6) (start wide 0x210 3 [(10, 5), (6, 0x80000000)] [])
    controlAfter o = some (0x80000000, 0, 0, 0x404) ∧ xAfter 5 o = some 0 := by decide

theorem test_vsetvl_avl_between_vlmax_and_twice_it :
    let o := exec (.vsetvl 5 10 6) (start wide 0 0 [(10, 6), (6, 0x210)] [])
    controlAfter o = some (0x210, 4, 0, 0x404) ∧ xAfter 5 o = some 4 := by decide

/-! ### Regular arithmetic (V2, P3): SEW = 32; two elements of 32 bits in a 64-bit register -/

/-- The sub-elements of P3: `v2` and `v3` of V2. -/
abbrev bytes (x : List (Nat × Nat)) : State :=
  start keep 0x210 2 x [(2, 0x7F80FF01_01FF80FF), (3, 0xAAAA0100_01010101)]

theorem test_vadd_vv_bytes :
    let o := exec (.vaddVV 1 2 3 1) (bytes [])
    vAfter 1 o = some 0x292A0001_02008100 ∧ controlAfter o = some (0x210, 2, 0, 0x404) := by decide

/-- V2, masking: element 1 is masked off and kept whole. -/
theorem test_vadd_vv_masked :
    vAfter 1 (exec (.vaddVV 1 2 3 0) (start keep 0x210 2 []
      [(0, 1), (1, 0x22222222_11111111), (2, 0x7F80FF01_01FF80FF), (3, 0xAAAA0100_01010101)])) =
      some 0x22222222_02008100 := by decide

/-- P3: the amount 9 counts modulo 8. -/
theorem test_vsll_vx_bytes : vAfter 4 (exec (.vsllVX 4 2 1 1) (bytes [(1, 9)])) = some 0xFE00FE02_02FE00FE := by
  decide

/-- V2, EDIV = 2: the amount 17 counts modulo 16. -/
theorem test_vsll_vx_halves :
    vAfter 1 (exec (.vsllVX 1 2 1 1) (start keep 0x110 1 [(1, 17)] [(2, 0x8001C000)])) = some 0x00028000 := by
  decide

/-- V2: not classified under EDIV by default. -/
theorem test_optional_forms_refused :
    [Instr.vaddVX 1 2 1 1, .vaddVI 1 2 3 1, .vsllVV 1 2 3 1, .vsllVI 1 2 3 1].map
      (fun i => refusalOf (exec i (bytes []))) =
      [some (.unclassifiedUnderEDIV 0x400), some (.unclassifiedUnderEDIV 0x400),
        some (.unclassifiedUnderEDIV 0x400), some (.unclassifiedUnderEDIV 0x400)] := by decide

/-- With EDIV = 1, by hand: the immediate 31 is -1 to an addition and 31 to a shift, an amount 33 is 1. -/
theorem test_optional_forms_undivided :
    let s := start keep 0x010 2 [(1, 0x10)] [(2, 0x80000001_00000003), (3, 0x00000021_00000002)]
    vAfter 1 (exec (.vaddVX 1 2 1 1) s) = some 0x80000011_00000013 ∧
      vAfter 1 (exec (.vaddVI 1 2 31 1) s) = some 0x80000000_00000002 ∧
      vAfter 1 (exec (.vsllVV 1 2 3 1) s) = some 0x00000002_0000000C ∧
      vAfter 1 (exec (.vsllVI 1 2 31 1) s) = some 0x80000000_80000000 := by decide

/-! ### Carry and borrow (V2, and R156 to R159 by hand): borrow and carry in are 1 for element 0 only -/

abbrev carries : State :=
  start keep 0x010 2 [(5, 2)]
    [(0, 1), (1, 0xFFFFFFFF_FFFFFFFF), (2, 0x00000005_FFFFFFFF), (3, 0x00000007_00000000)]

theorem test_carry_reserved :
    [Instr.vadcVVM 1 2 3 0, .vmadcVVM 1 2 3 0, .vsbcVVM 1 2 3 0, .vmsbcVVM 1 2 3 0].map
      (fun i => faultOf (exec i (bytes []))) =
      [some (.reserved .carryUnderEDIV 0x402180D7 0x400), some (.reserved .carryUnderEDIV 0x442180D7 0x400),
        some (.reserved .carryUnderEDIV 0x482180D7 0x400), some (.reserved .carryUnderEDIV 0x4C2180D7 0x400)] := by
  decide

theorem test_vadc :
    vAfter 1 (exec (.vadcVVM 1 2 3 0) carries) = some 0x0000000C_00000000 ∧
      vAfter 1 (exec (.vadcVXM 1 2 5 0) carries) = some 0x00000007_00000002 ∧
      vAfter 1 (exec (.vadcVIM 1 2 31 0) carries) = some 0x00000004_FFFFFFFF := by decide

theorem test_vmadc :
    vAfter 1 (exec (.vmadcVVM 1 2 3 0) carries) = some 0xFFFFFFFF_FFFFFFFD ∧
      vAfter 1 (exec (.vmadcVVM 1 2 3 1) carries) = some 0xFFFFFFFF_FFFFFFFC ∧
      vAfter 1 (exec (.vmadcVXM 1 2 5 1) carries) = some 0xFFFFFFFF_FFFFFFFD ∧
      vAfter 1 (exec (.vmadcVIM 1 2 0 0) carries) = some 0xFFFFFFFF_FFFFFFFD := by decide

theorem test_vsbc :
    vAfter 1 (exec (.vsbcVVM 1 2 3 0) carries) = some 0xFFFFFFFE_FFFFFFFE ∧
      vAfter 1 (exec (.vsbcVXM 1 2 5 0) carries) = some 0x00000003_FFFFFFFC := by decide

theorem test_vmsbc :
    vAfter 1 (exec (.vmsbcVVM 1 2 3 0) carries) = some 0xFFFFFFFF_FFFFFFFE ∧
      vAfter 1 (exec (.vmsbcVXM 1 2 5 0) carries) = some 0xFFFFFFFF_FFFFFFFC := by decide

/-! ### Gathers (S6, V4) -/

abbrev figure (x : List (Nat × Nat)) : State :=
  start keep 0x210 2 x [(1, 0x0D0E0A0D_0B0E0E0F), (2, 0x00010902_00020302)]

theorem test_vrgather_vv_figure :
    vAfter 3 (exec (.vrgatherVV 3 1 2 1) (figure [])) = some 0x0D0A000E_0F0E0B0E := by decide

/-- V4, the base gather: index 0 in both elements. -/
theorem test_vrgather_vv_undivided :
    vAfter 3 (exec (.vrgatherVV 3 1 2 1) (start keep 0x010 2 [] [(1, 0x0D0E0A0D_0B0E0E0F)])) =
      some 0x0B0E0E0F_0B0E0E0F := by decide

theorem test_vrgather_vi_figure :
    vAfter 4 (exec (.vrgatherVI 4 1 1 1) (figure [])) = some 0x0A0A0A0A_0E0E0E0E ∧
      vAfter 4 (exec (.vrgatherVI 4 1 4 1) (figure [])) = some 0 := by decide

theorem test_vrgather_vx :
    vAfter 5 (exec (.vrgatherVX 5 1 11 1) (figure [(11, 2)])) = some 0x0E0E0E0E_0E0E0E0E ∧
      vAfter 5 (exec (.vrgatherVX 5 1 11 1) (figure [(11, 4)])) = some 0 ∧
      vAfter 5 (exec (.vrgatherVX 5 1 11 1) (figure [(11, 0xFFFFFFFF)])) = some 0 := by decide

/-! ### Integer reductions (V3): element 0 is the table's, element 1 that of its last two rows -/

abbrev sums : State :=
  start keep 0x210 2 [] [(2, 0x01FF80FF_7F80FF01), (3, 0x01010101_AAAA0100), (4, 0x01010101_AAAAAA05)]

theorem test_widening_sums :
    vAfter 1 (exec (.vwredsumVS 1 2 3 1) sums) = some 0x00000080_000000FF ∧
      vAfter 1 (exec (.vwredsumuVS 1 2 3 1) sums) = some 0x00000380_000002FF := by decide

theorem test_min_max_reductions :
    [Instr.vredmaxVS 1 2 4 1, .vredmaxuVS 1 2 4 1, .vredminVS 1 2 4 1, .vredminuVS 1 2 4 1].map
      (fun i => vAfter 1 (exec i sums)) =
      [some 0x00000001_0000007F, some 0x000000FF_000000FF, some 0xFFFFFF80_FFFFFF80,
        some 0x00000001_00000001] := by decide

theorem test_bitwise_reductions :
    [Instr.vredandVS 1 2 4 1, .vredorVS 1 2 4 1, .vredxorVS 1 2 4 1].map (fun i => vAfter 1 (exec i sums)) =
      [some 0, some 0x000000FF_000000FF, some 0x00000080_00000004] := by decide

/-- V3: `RedBitwiseExt` = sign. -/
theorem test_vredor_sign_extended :
    vAfter 1 (exec (.vredorVS 1 2 4 1) (start { keep with redBitwise := .sign } 0x210 1 []
      [(2, 0x7F80FF01), (4, 0xAAAAAA05)])) = some 0xFFFFFFFF := by decide

/-- V3, SEW = 16, EDIV = 4: sub-elements of 4 bits, results of 8 bits. -/
theorem test_nibble_reductions :
    let s := start fine 0x208 1 [] [(2, 0x7F81), (3, 0xAA02)]
    [Instr.vwredsumVS 1 2 3 1, .vwredsumuVS 1 2 3 1, .vredmaxVS 1 2 3 1, .vredmaxuVS 1 2 3 1].map
      (fun i => vAfter 1 (exec i s)) = [some 0x0001, some 0x0021, some 0x0007, some 0x000F] := by decide

theorem test_vredsum_reserved :
    faultOf (exec (.vredsumVS 1 2 3 1) sums) =
      some (.reserved .singleWidthSumUnderEDIV 0x0221A0D7 0x400) := by decide

/-- R192 by hand: 5 + 1 + 2 in element 0 of `vd`, element 1 left alone. -/
theorem test_vredsum_undivided :
    vAfter 1 (exec (.vredsumVS 1 2 3 1) (start keep 0x010 2 []
      [(1, 0x77777777_66666666), (2, 0x00000002_00000001), (3, 0x00000009_00000005)])) =
      some 0x77777777_00000008 := by decide

/-- V3: `vstart` = 1 with EDIV = 4. -/
theorem test_reduction_vstart :
    refusalOf (exec (.vredmaxVS 1 2 3 1) (State.from sums 1)) = some (.vstartAtReduction 0x400) := by decide

/-! ### Floating-point reductions (V3): halves 2.0 and 1.0, scalar 3.0 -/

theorem test_fp_reductions :
    let s := start keep 0x110 1 [] [(2, 0x40003C00), (3, 0x12344200)]
    [Instr.vfredsumVS 1 2 3 1, .vfredosumVS 1 2 3 1, .vfredminVS 1 2 3 1, .vfredmaxVS 1 2 3 1].map
      (fun i => (vAfter 1 (exec i s), flagsAfter (exec i s))) =
      [(some 0xFFFF4600, some 0), (some 0xFFFF4600, some 0), (some 0xFFFF3C00, some 0),
        (some 0xFFFF4200, some 0)] := by decide

theorem test_fp_widening_sums :
    let s := start keep 0x110 1 [] [(2, 0x40003C00), (3, 0x3F800000)]
    let u := start keep 0x218 1 [] [(2, 0x4400420040003C00), (3, 0x0123456741200000)]
    [Instr.vfwredsumVS 1 2 3 1, .vfwredosumVS 1 2 3 1].map (fun i => (vAfter 1 (exec i s), vAfter 1 (exec i u))) =
      [(some 0x40800000, some 0xFFFFFFFF41A00000), (some 0x40800000, some 0xFFFFFFFF41A00000)] := by decide

theorem test_fp_reductions_without_format :
    [Instr.vfredsumVS 1 2 3 1, .vfredminVS 1 2 3 1, .vfwredsumVS 1 2 3 1, .vfdotVV 1 2 3 1].map
      (fun i => refusalOf (exec i (bytes []))) =
      [some (.noFpFormat 0x400), some (.noFpFormat 0x400), some (.noFpFormat 0x400), some (.noFpFormat 0x400)] := by
  decide

/-- R232 by hand, in half precision: 2048 + 1 lies half way between 2048 (6800) and 2050 (6801); 65504 + 65504 is too
large. Rounding to nearest even, towards zero, down, up, to nearest away from zero. -/
theorem test_fp_add_rounds :
    [0, 1, 2, 3, 4].map (fun frm => (fpAdd 16 frm 0x6800 0x3C00, fpAdd 16 frm 0x7BFF 0x7BFF)) =
      [((0x6800, 1), (0x7C00, 5)), ((0x6800, 1), (0x7BFF, 5)), ((0x6800, 1), (0x7BFF, 5)),
        ((0x6801, 1), (0x7C00, 5)), ((0x6801, 1), (0x7C00, 5))] := by decide +kernel

/-- The order counts (R187): (2048 + 1) + 1 is 2048, both additions inexact. -/
theorem test_ordered_sum_is_inexact :
    let o := exec (.vfredosumVS 1 2 3 1) (start keep 0x110 1 [] [(2, 0x3C003C00), (3, 0x00006800)])
    vAfter 1 o = some 0xFFFF6800 ∧ flagsAfter o = some 1 := by decide +kernel

/-! ### Dot products (V5, V6) -/

theorem test_vdot_bytes :
    let s := start keep 0x210 2 [] [(1, 0x00000000_00000010), (2, 0x80808080_01FF8002), (3, 0x80808080_02037FFF)]
    vAfter 1 (exec (.vdotVV 1 2 3 1) s) = some 0x00010000_FFFFC08D ∧
      vAfter 1 (exec (.vdotuVV 1 2 3 1) s) = some 0x00010000_0000448D := by decide

/-- V5, SEW = 32, EDIV = 8: a 16-bit accumulator, extended. -/
theorem test_vdot_nibbles :
    let s := start fine 0x310 2 [] [(1, 0xDEAD0000_DEAD7FFF), (2, 0x88888888_11111111), (3, 0x77777777_11111111)]
    vAfter 1 (exec (.vdotVV 1 2 3 1) s) = some 0xFFFFFE40_FFFF8007 ∧
      vAfter 1 (exec (.vdotuVV 1 2 3 1) s) = some 0x000001C0_00008007 := by decide

theorem test_vfdot_halves :
    let o := exec (.vfdotVV 1 2 3 1) (start keep 0x110 2 []
      [(1, 0x00000000_3F800000), (2, 0x3C003C00_40003C00), (3, 0x40004000_42004400)])
    vAfter 1 o = some 0x40800000_41300000 ∧ flagsAfter o = some 0 := by decide

theorem test_vfdot_boxed :
    vAfter 1 (exec (.vfdotVV 1 2 3 1) (start keep 0x218 1 []
      [(1, 0x0123456741200000), (2, 0x4400420040003C00), (3, 0x3C003C003C003C00)])) =
      some 0xFFFFFFFF41A00000 := by decide

/-! ### Scaffold (V8), through the step -/

theorem test_addi_minus_one :
    xAfter 12 (step ((start keep 0 0 [] []).withFetchWord 32 0xFFF60613)) = some 0xFFFFFFFF := by decide

/-- V8: the word at 0x1000 is 3; a misaligned address faults with code 4. -/
theorem test_lw :
    let mem := fun (s : State) => { s with hart := s.hart.setMem (memStore (c := s.cfg) s.hart.mem 0x1000 4 3) }
    xAfter 11 (step ((mem (start keep 0 0 [(10, 0x1000)] [])).withFetchWord 32 0x00052583)) = some 3 ∧
      faultOf (step ((mem (start keep 0 0 [(10, 0x1002)] [])).withFetchWord 32 0x00052583)) =
        some (.trap (.addressMisaligned .load 0x1002) 0x400) := by decide

theorem test_sw :
    bytesAfter 0x1004 4 (step ((start keep 0 0 [(10, 0x1000), (13, 0x0A0B0C0D)] []).withFetchWord 32 0x00D52223)) =
      some [0x0D, 0x0C, 0x0B, 0x0A] := by decide

/-- P2: `a0` = 0x1002. -/
theorem test_sw_misaligned :
    faultOf (step ((start keep 0 0 [(10, 0x1002), (5, 2)] []).withFetchWord 32 0x00552223)) =
      some (.trap (.addressMisaligned .store 0x1006) 0x400) := by decide

theorem test_bne :
    controlAfter (step ((start keep 0 0 [(12, 2)] []).withFetchWord 32 0xFE061CE3)) = some (0, 0, 0, 0x3F8) ∧
      controlAfter (step ((start keep 0 0 [] []).withFetchWord 32 0xFE061CE3)) = some (0, 0, 0, 0x404) := by decide

/-- R61, R277: the word at `pc` is program text, which a load reads and no store writes. -/
theorem test_program_text :
    xAfter 11 (step ((start keep 0 0 [(10, 0x400)] []).withFetchWord 32 0x00052583)) = some 0x00052583 ∧
      refusalOf (step ((start keep 0 0 [(10, 0x3FC), (13, 7)] []).withFetchWord 32 0x00D52223)) =
        some (.storeToProgramText 0x400) := by decide

/-- R277: a word that a store has made is not fetched. -/
theorem test_stored_word_is_not_fetched :
    let s := { start keep 0 0 [(10, 0x400), (13, 0x13)] [] with plat := { Platform.default with text := [(0x404, 0)] } }
    (∀ t, exec (.sw 13 10 0) s = .next t → refusalOf (step { t with hart := { t.hart with pc := 0x400 } }) =
        some (.fetchOfStoredByte 0x400)) ∧
      completes (exec (.sw 13 10 0) s) = true := by
  refine ⟨fun t h => ?_, by decide⟩
  injection h with h
  subst h
  decide

/-- A state with a word loaded into memory outside the program text, at `pc`. -/
abbrev loaded (w : Word32) : State :=
  let s := start keep 0x210 2 [(10, 0x400)] []
  { s with hart := s.hart.setMem (memStore (c := s.cfg) [] 0x400 4 w) }

/-- R41, R52: a fetch reads what the platform loaded, here `addi x1, x0, 5`, as a load does. -/
theorem test_fetch_of_loaded_data :
    let s := loaded 0x00500093
    xAfter 1 (step s) = some 5 ∧ xAfter 11 (exec (.lw 11 10 0) s) = some 0x00500093 := by decide

/-! ### What Base settles: a check of Base.legal that is not made, and a Base.exec of its own, at EDIV = 1 only -/

/-- `v3` with LMUL = 2. -/
theorem test_base_accepts :
    let c := { keep with baseAccepts := [⟨0, 0, 0, 0⟩] }
    completes (exec (.vaddVV 2 3 4 1) (start c 0x011 2 [] [])) = true ∧
      completes (exec (.vaddVV 2 3 4 1) (start keep 0x011 2 [] [])) = false := by decide

/-- A masked segment load of two fields into `v0` and `v1`, which that base accepts: both take the mask that `v0` held,
in which element 1 is off (R242), though field 0 sets the bits of `v0`. -/
theorem test_segment_load_into_the_mask :
    let c := { keep with baseAccepts := [⟨0, 0, 0, 0⟩] }
    let s := start c 0x010 2 [(1, 0x1000)] [(0, 1), (1, 0x77777777_66666666)]
    let o := execBase (.unaffected (.load .unitStride)) 0x2000E007
      { s with hart := s.hart.setMem (memStore (c := c) (memStore (c := c) [] 0x1000 4 0xFF) 0x1004 4 6) }
    vAfter 0 o = some 0x00000000_000000FF ∧ vAfter 1 o = some 0x77777777_00000006 := by decide +kernel

theorem test_base_exec_is_for_undivided_elements :
    vAfter 1 (exec (.vaddVV 1 2 3 1) (start { keep with baseOther := [⟨0, 0, 0, 0⟩] } 0x210 2 []
      [(2, 0x7F80FF01_01FF80FF), (3, 0xAAAA0100_01010101)])) = some 0x292A0001_02008100 := by decide

/-! ### Base instructions without a row, by hand from R132, R134 and R136: `vs2` has the mask bits 0 and 1 -/

theorem test_viota_counts_below_vstart :
    vAfter 1 (execBase (.unaffected .viota) 0x522820D7
      (State.from (start keep 0x010 2 [] [(1, 0x77777777_66666666), (2, 3)]) 1)) =
      some 0x00000001_66666666 := by decide +kernel

/-- Element `x[vs2]` of `vd` becomes `x[rs1]`. -/
theorem test_element_insert :
    vAfter 1 (execBase (.unaffected .vinsVX) 0x022180D7 (start keep 0x010 2 [(2, 1), (3, 9)]
      [(1, 0x77777777_66666666)])) = some 0x00000009_66666666 := by decide +kernel

theorem test_scalar_move_keeps_prestart :
    vAfter 1 (execBase (.unaffected .vmvSX) 0x0201E0D7 (State.from (start keep 0x010 2 [(3, 9)]
      [(1, 0x77777777_66666666)]) 1)) = some 0x77777777_66666666 ∧
      vAfter 1 (execBase (.unaffected .vmvSX) 0x0201E0D7 (start keep 0x010 2 [(3, 9)]
        [(1, 0x77777777_66666666)])) = some 0x77777777_00000009 := by decide +kernel

/-- R125: `vd` gets what memory held, here at `x1` and `x1 + 4`, where element 1 of the index register is 4. -/
theorem test_amo_returns_old_values :
    let s := start keep 0x210 2 [(1, 0x1000)] [(2, 0x00000004_00000000)]
    vAfter 3 (execBase (.unaffected (.amo 0 true)) 0x0220E1AF
      { s with hart := s.hart.setMem (memStore (c := s.cfg) (memStore (c := s.cfg) [] 0x1000 4 5) 0x1004 4 6) }) =
      some 0x00000006_00000005 := by decide +kernel

/-- R36: an instruction that is neither floating-point nor fixed-point sets no flag, whatever its operation gives. -/
theorem test_regular_base_flags :
    let o := execBase (.regular 7 false false) 0x0221B0D7 (start keep 0x010 2 [] [])
    flagsAfter o = some 0 ∧ controlAfter o = some (0x010, 2, 0, 0x404) := by decide +kernel

/-- R71: the forms that `funct3` selects. -/
theorem test_arith_form :
    [0x022180D7, 0x022190D7, 0x0221A0D7, 0x0221B0D7, 0x0221C0D7, 0x0221D0D7, 0x0221E0D7, 0x0221F0D7].map arithForm =
      [some .vv, some .vv, some .vv, some .vi, some .vx, some .vf, some .vx, none] := by decide

/-! ### Exceptions (V7): `vill` is 1 -/

theorem test_vill_traps :
    faultOf (exec (.vdotVV 1 2 3 0) (start keep 0x80000000 0 [] [])) =
      some (.trap (.illegalInstruction 0xE42180D7) 0x400) := by decide

/-- V7: a word without a row, where Base has no decoder. -/
theorem test_unknown_word :
    refusalOf (step ((start keep 0 0 [] []).withFetchWord 32 0x0000006F)) = some (.notInScope 0x400) := by decide

/-! ### Witnesses: for each statement with hypotheses, a state and operands that meet all of them. Where a statement
speaks of `BaseAllows`, that `baseRejects` and `baseOther` are empty gives it for every instruction
(`baseAllows_of_nil`) -/

/-- The settings of the witnesses, in registers of 64 bits. -/
abbrev e32 : VConf := ⟨32, .m1, 1, false, false⟩
abbrev e32d2 : VConf := ⟨32, .m1, 2, false, false⟩
abbrev e32d4 : VConf := ⟨32, .m1, 4, false, false⟩
abbrev e32m2 : VConf := ⟨32, .m2, 1, false, false⟩

abbrev undivided : State := start keep 0x010 2 [] []
abbrev divided : State := start keep 0x210 2 [] []
abbrev halves : State := start keep 0x110 2 [] []

theorem witness_undivided : vconf undivided.cfg undivided.hart.vtype = some e32 := by decide
theorem witness_divided : vconf divided.cfg divided.hart.vtype = some e32d4 := by decide
theorem witness_halves : vconf halves.cfg halves.hart.vtype = some e32d2 := by decide

theorem witness_DecodeEncodeRoundTrip :
    (Instr.bne 12 0 0x1FF8).wellFormed = true ∧ (Instr.vdotVV 31 31 31 0).wellFormed = true ∧
      DotEncoding.default.disjoint = true ∧ moved.disjoint = true := by decide

theorem witness_EncodeDecodeRoundTrip :
    decodeWith .default 0xFE061CE3 = some (.bne 12 0 0x1FF8) ∧
      decodeWith moved 0xEA2180D7 = some (.vdotuVV 1 2 3 1) := by decide

theorem witness_DecodeFollowsOpcodeTable :
    (0x022180D7 : Word32) &&& (opcodeRow (.vaddVV 0 0 0 0)).1 = (opcodeRow (.vaddVV 0 0 0 0)).2 := by decide

/-- LMUL 2, 1/8 and 1/2 among the seven, the policy bits, and a reserved `vlmul`. -/
theorem witness_VtypeFieldsGiveEdivAndSew :
    vconf keep 0x211 = some ⟨32, .m2, 4, false, false⟩ ∧ vconf keep 0x0C5 = some ⟨8, .mf8, 1, true, true⟩ ∧
      vconf keep 0x004 = none ∧ vconf { keep with layout := .l08 } 0x049 = some ⟨32, .m2, 4, false, false⟩ ∧
      vconf { keep with layout := .l09 } 0x229 = none ∧
      vconf { keep with layout := .l09 } 0x063 = some ⟨8, .mf2, 1, true, false⟩ ∧
      vconf { keep with layout := .l09 } 0x209 = some ⟨32, .m2, 4, false, false⟩ := by decide

theorem witness_WidthTable :
    (256, 8, 32, 64, 128, some 32, some 64, some 64) ∈ widthTable ∧
      (8, 2, 4, 8, 8, none, none, none) ∈ widthTable := by decide

theorem witness_ResultWidthsFitTheElement :
    vconf keep 0x210 = some e32d4 ∧ 1 < e32d4.ediv ∧ aFp e32d2.sew e32d2.ediv 32 = some 32 := by decide

theorem witness_SupportedVtypeIsSet :
    ¬ ((10 : RegNo) = 0 ∧ (5 : RegNo) = 0) ∧ vconf keep 0x210 = some e32d4 ∧
      (0x210 : BitVec 11).setWidth keep.XLEN = 0x210 ∧
      (start keep 0 0 [(6, 0x210)] []).hart.readX 6 = 0x210 := by decide

theorem witness_UnsupportedVtypeSetsVill :
    vconf keep 0x310 = none ∧ (0x310 : BitVec 11).setWidth keep.XLEN = 0x310 ∧
      vconf keep 0x80000000 = none ∧
      (start keep 0 0 [(6, 0x80000000)] []).hart.readX 6 = 0x80000000 := by decide

/-- SEW / EDIV = 4 in the immediate and in the register, SELEN = 8. -/
theorem witness_NarrowerThanSelenSetsVill :
    decodeSew (vsewField keep.layout ((0x310 : BitVec 11).setWidth keep.XLEN)) /
        decodeEdiv (vedivField keep.layout ((0x310 : BitVec 11).setWidth keep.XLEN)) < keep.SELEN ∧
      decodeSew (vsewField keep.layout ((start keep 0 0 [(6, 0x100)] []).hart.readX 6)) /
        decodeEdiv (vedivField keep.layout ((start keep 0 0 [(6, 0x100)] []).hart.readX 6)) < keep.SELEN := by
  decide

/-- Each range at its ends, VLMAX = 4. -/
theorem witness_SetvlRanges : 4 ≤ 4 ∧ (4 < 5 ∧ 5 < 2 * 4) ∧ (4 < 7 ∧ 7 < 2 * 4) ∧ 2 * 4 ≤ 8 := by decide

theorem witness_EdivDoesNotEnterVl :
    vconf keep 0x010 = some e32 ∧ vconf keep 0x210 = some e32d4 ∧ e32.sew = e32d4.sew ∧
      e32.lmul = e32d4.lmul ∧ (0x010 : BitVec 11).setWidth keep.XLEN = 0x010 ∧
      (0x210 : BitVec 11).setWidth keep.XLEN = 0x210 ∧
      (start keep 0 0 [(6, 0x010), (7, 0x210)] []).hart.readX 6 = 0x010 ∧
      (start keep 0 0 [(6, 0x010), (7, 0x210)] []).hart.readX 7 = 0x210 := by decide

/-- Masked and unmasked. -/
theorem witness_VaddVVAddsSubElements :
    (divided.cfg.baseRejects = [] ∧ divided.cfg.baseOther = []) ∧
      vconf divided.cfg divided.hart.vtype = some e32d4 ∧ legalVV e32d4 1 2 3 0 = true ∧
      legalVV e32d4 0 2 3 1 = true := by decide

theorem witness_VsllVXShiftsSubElements :
    (divided.cfg.baseRejects = [] ∧ divided.cfg.baseOther = []) ∧
      vconf divided.cfg divided.hart.vtype = some e32d4 ∧ legalV e32d4 1 2 0 = true ∧ legalV e32d4 0 2 1 = true := by
  decide

/-- A configuration in which the four optional members run on bytes. -/
abbrev regularAll : Config := { fine with regular := [.vaddVX, .vaddVI, .vsllVV, .vsllVI] }

theorem witness_OptionalRegularForms :
    (regularAll.baseRejects = [] ∧ regularAll.baseOther = []) ∧
      vconf regularAll 0x210 = some e32d4 ∧ legalV e32d4 1 2 1 = true ∧ legalVV e32d4 1 2 3 1 = true ∧
      (∀ m ∈ regularAll.regular, RegularRuns regularAll e32d4 m) ∧ RegularRuns keep e32 .vaddVX :=
  ⟨by decide, by decide, by decide, by decide, fun _ hm => .inr ⟨List.contains_iff_mem.mpr hm, by decide⟩, .inl rfl⟩

/-- Outside the class, and inside it at 4 bits. -/
theorem witness_OptionalRegularFormsRefused :
    ((keep.baseRejects = [] ∧ keep.baseOther = []) ∧ vconf keep 0x210 = some e32d4 ∧ 1 < e32d4.ediv ∧
        legalV e32d4 1 2 1 = true ∧ keep.regular.contains .vaddVX = false) ∧
      (regularAll.baseRejects = [] ∧ regularAll.baseOther = []) ∧
      vconf regularAll 0x310 = some ⟨32, .m1, 8, false, false⟩ ∧ regularAll.regular.contains .vaddVX = true ∧ (⟨32, .m1, 8, false, false⟩ : VConf).se < 8 := by decide

/-- `vl` = VLMAX = 2 elements of four bytes, and 8 elements of a byte. -/
theorem witness_DividedOperatesAsNarrow :
    divided.cfg.elements = .flat ∧
    (divided.cfg.baseRejects = [] ∧ divided.cfg.baseOther = []) ∧
      vconf divided.cfg divided.hart.vtype = some e32d4 ∧
      vconf divided.cfg 0x000 = some ⟨8, .m1, 1, false, false⟩ ∧ 8 = e32d4.se ∧
      (8 : BitVec divided.cfg.XLEN).toNat = divided.hart.vl.toNat * e32d4.ediv ∧
      divided.hart.vl.toNat ≤ e32d4.vlmax divided.cfg ∧ divided.hart.vstart = 0 ∧
      legalVV e32d4 1 2 3 1 = true ∧ legalV e32d4 1 2 1 = true := by decide

/-- Registers aligned to LMUL = 1, and to LMUL = 2 with an odd scalar register. -/
theorem witness_ReservedUnderEdiv :
    (divided.cfg.baseRejects = [] ∧ divided.cfg.baseOther = []) ∧
      vconf divided.cfg divided.hart.vtype = some e32d4 ∧ vconf undivided.cfg undivided.hart.vtype = some e32 ∧
      1 < e32d4.ediv ∧ legalCarry e32d4 1 0 = true ∧ legalMaskCarry keep 0 = true ∧ legalMaskCarry keep 1 = true ∧
      aligned e32d4 2 = true ∧ aligned e32d4 3 = true ∧ legalVV e32d4 1 2 3 1 = true ∧ e32.ediv = 1 ∧
      vconf keep 0x211 = some ⟨32, .m2, 4, false, false⟩ ∧ aligned ⟨32, .m2, 4, false, false⟩ 2 = true ∧
      aligned ⟨32, .m2, 4, false, false⟩ 3 = false ∧ legalCarry ⟨32, .m2, 4, false, false⟩ 4 0 = true := by decide

theorem witness_CarryElementsUndivided :
    (undivided.cfg.baseRejects = [] ∧ undivided.cfg.baseOther = []) ∧
      vconf undivided.cfg undivided.hart.vtype = some e32 ∧ e32.ediv = 1 ∧ legalCarry e32 1 0 = true ∧
      aligned e32 2 = true ∧ aligned e32 3 = true := by decide

theorem witness_CarryMasksUndivided :
    (undivided.cfg.baseRejects = [] ∧ undivided.cfg.baseOther = []) ∧
      vconf undivided.cfg undivided.hart.vtype = some e32 ∧ e32.ediv = 1 ∧
      legalMaskCarry undivided.cfg 0 = true ∧ legalMaskCarry undivided.cfg 1 = true ∧ aligned e32 2 = true ∧
      aligned e32 3 = true := by decide

theorem witness_GatherVVWithinElement :
    (divided.cfg.baseRejects = [] ∧ divided.cfg.baseOther = []) ∧
      vconf divided.cfg divided.hart.vtype = some e32d4 ∧ 1 < e32d4.ediv ∧ legalVV e32d4 3 1 2 1 = true ∧
      disjointGroups e32d4 3 1 = true ∧ disjointGroups e32d4 3 2 = true := by decide

/-- The index at its two boundary values, EDIV - 1 and EDIV. -/
theorem witness_GatherScalarSplatsWithinElement :
    (divided.cfg.baseRejects = [] ∧ divided.cfg.baseOther = []) ∧
      vconf divided.cfg divided.hart.vtype = some e32d4 ∧ legalV e32d4 3 1 1 = true ∧
      disjointGroups e32d4 3 1 = true ∧ ((start keep 0x210 2 [(11, 3)] []).hart.readX 11).toNat < e32d4.ediv ∧
      e32d4.ediv ≤ ((start keep 0x210 2 [(11, 4)] []).hart.readX 11).toNat ∧ (3 : BitVec 5).toNat < e32d4.ediv ∧
      e32d4.ediv ≤ (4 : BitVec 5).toNat := by decide

theorem witness_GathersUndivided :
    (undivided.cfg.baseRejects = [] ∧ undivided.cfg.baseOther = []) ∧
      vconf undivided.cfg undivided.hart.vtype = some e32 ∧ e32.ediv = 1 ∧ legalV e32 3 1 1 = true ∧
      aligned e32 2 = true ∧ disjointGroups e32 3 1 = true ∧ disjointGroups e32 3 2 = true := by decide

/-- The hypotheses of the divided integer reductions. -/
theorem witness_MinMaxReductionsDivided :
    (divided.cfg.baseRejects = [] ∧ divided.cfg.baseOther = []) ∧
      vconf divided.cfg divided.hart.vtype = some e32d4 ∧ 1 < e32d4.ediv ∧ legalVV e32d4 1 2 3 0 = true ∧
      divided.hart.vstart = 0 := by decide

theorem witness_BitwiseReductionsDivided :
    (divided.cfg.baseRejects = [] ∧ divided.cfg.baseOther = []) ∧
      vconf divided.cfg divided.hart.vtype = some e32d4 ∧ 1 < e32d4.ediv ∧ legalVV e32d4 1 2 3 1 = true ∧
      divided.hart.vstart = 0 := by decide

theorem witness_WideningSumsDivided :
    (halves.cfg.baseRejects = [] ∧ halves.cfg.baseOther = []) ∧
      vconf halves.cfg halves.hart.vtype = some e32d2 ∧ 1 < e32d2.ediv ∧ legalVV e32d2 1 2 3 1 = true ∧
      halves.hart.vstart = 0 := by decide

theorem witness_IntegerReductionsUndivided :
    (undivided.cfg.baseRejects = [] ∧ undivided.cfg.baseOther = []) ∧
      vconf undivided.cfg undivided.hart.vtype = some e32 ∧ e32.ediv = 1 ∧ aligned e32 2 = true ∧
      undivided.hart.vstart = 0 ∧ undivided.hart.vl ≠ 0 ∧ (start keep 0x010 0 [] []).hart.vl = 0 := by decide

theorem witness_WideningSumsUndivided :
    (undivided.cfg.baseRejects = [] ∧ undivided.cfg.baseOther = []) ∧
      vconf undivided.cfg undivided.hart.vtype = some e32 ∧ e32.ediv = 1 ∧ aligned e32 2 = true ∧
      widenFits undivided.cfg e32 = true ∧ undivided.hart.vstart = 0 := by decide

theorem witness_ReductionsNeedVstartZero :
    (divided.cfg.baseRejects = [] ∧ divided.cfg.baseOther = []) ∧
      vconf (State.from divided 1).cfg (State.from divided 1).hart.vtype = some e32d4 ∧
      vconf (State.from undivided 1).cfg (State.from undivided 1).hart.vtype = some e32 ∧
      vconf (State.from halves 1).cfg (State.from halves 1).hart.vtype = some e32d2 ∧
      legalReduction e32d2 1 2 3 1 = true ∧ legalReduction e32d4 1 2 3 1 = true ∧ legalReduction e32 1 2 3 1 = true ∧
      (State.from divided 1).hart.vstart ≠ 0 ∧ 1 < e32d4.ediv ∧ e32.ediv = 1 ∧
      widenFits divided.cfg e32d4 = true ∧ widenFits undivided.cfg e32 = true ∧ widenFits halves.cfg e32d2 = true ∧
      fpFormatOk halves.cfg e32d2.se e32d2.se = true ∧ fpFormatOk undivided.cfg e32.se e32.se = true ∧
      aFp e32d2.sew e32d2.ediv halves.cfg.FLEN = some 32 ∧ fpFormatOk halves.cfg e32d2.se 32 = true ∧
      widenFits keep ⟨16, .m1, 1, false, false⟩ = true ∧ vconf keep 0x008 = some ⟨16, .m1, 1, false, false⟩ ∧
      fpFormatOk keep 16 (2 * 16) = true := by decide

theorem witness_FpReductionsDivided :
    (halves.cfg.baseRejects = [] ∧ halves.cfg.baseOther = []) ∧
      vconf halves.cfg halves.hart.vtype = some e32d2 ∧ 1 < e32d2.ediv ∧ legalVV e32d2 1 2 3 1 = true ∧
      halves.hart.vstart = 0 ∧ fpFormatOk halves.cfg e32d2.se e32d2.se = true := by decide

theorem witness_FpWideningSumsDivided :
    (halves.cfg.baseRejects = [] ∧ halves.cfg.baseOther = []) ∧
      vconf halves.cfg halves.hart.vtype = some e32d2 ∧ 1 < e32d2.ediv ∧ legalVV e32d2 1 2 3 1 = true ∧
      halves.hart.vstart = 0 ∧ aFp e32d2.sew e32d2.ediv halves.cfg.FLEN = some 32 ∧
      fpFormatOk halves.cfg e32d2.se 32 = true := by decide

theorem witness_FpReductionsUndivided :
    (undivided.cfg.baseRejects = [] ∧ undivided.cfg.baseOther = []) ∧
      vconf undivided.cfg undivided.hart.vtype = some e32 ∧ e32.ediv = 1 ∧ aligned e32 2 = true ∧
      undivided.hart.vstart = 0 ∧ fpFormatOk undivided.cfg e32.sew e32.sew = true := by decide

/-- Halves summed to single precision. -/
theorem witness_FpWideningSumsUndivided :
    (keep.baseRejects = [] ∧ keep.baseOther = []) ∧
      vconf keep 0x008 = some ⟨16, .m1, 1, false, false⟩ ∧ aligned ⟨16, .m1, 1, false, false⟩ 2 = true ∧
      (start keep 0x008 4 [] []).hart.vstart = 0 ∧ widenFits keep ⟨16, .m1, 1, false, false⟩ = true ∧
      fpFormatOk keep 16 (2 * 16) = true := by
  decide

/-- Bytes have no format, and halves none where half precision is not supported; EDIV = 1. -/
theorem witness_FloatingPointRefusals :
    (divided.cfg.baseRejects = [] ∧ divided.cfg.baseOther = []) ∧
      (vconf divided.cfg divided.hart.vtype = some e32d4 ∧ 1 < e32d4.ediv ∧ legalVV e32d4 1 2 3 1 = true ∧
        fpFormatOk divided.cfg e32d4.se e32d4.se = false ∧
        aFp e32d4.sew e32d4.ediv divided.cfg.FLEN = none) ∧
      (vconf { keep with half := false } 0x110 = some e32d2 ∧ 1 < e32d2.ediv ∧ legalVV e32d2 1 2 3 1 = true ∧
        aFp e32d2.sew e32d2.ediv { keep with half := false }.FLEN = some 32 ∧
        fpFormatOk { keep with half := false } e32d2.se 32 = false) ∧
      vconf undivided.cfg undivided.hart.vtype = some e32 ∧ legalVV e32 1 2 3 1 = true ∧ e32.ediv = 1 := by decide

/-- 1.0 and 2.0 in half precision: the partial sums are 0, 1.0, 2.0 and 3.0. -/
theorem witness_UnorderedSumExactWhenRepresentable :
    (∀ x ∈ [0x3C00#16, 0x4000#16], fpFinite x = true) ∧
      ∀ p ∈ partialSums ([0x3C00#16, 0x4000#16].map fpUnits), ∃ b : BitVec 16, fpFinite b = true ∧ fpUnits b = p := by
  have hs : partialSums ([0x3C00#16, 0x4000#16].map fpUnits) =
      [0x0000#16, 0x3C00#16, 0x4000#16, 0x4200#16].map fpUnits := by decide +kernel
  have hf : [0x0000#16, 0x3C00#16, 0x4000#16, 0x4200#16].all fpFinite = true := by decide
  have hx : [0x3C00#16, 0x4000#16].all fpFinite = true := by decide
  rw [hs]
  constructor
  · exact List.all_eq_true.mp hx
  · intro p hp
    obtain ⟨b, hb, he⟩ := List.mem_map.mp hp
    exact ⟨b, List.all_eq_true.mp hf b hb, he⟩

theorem witness_IntegerDotProducts :
    (divided.cfg.baseRejects = [] ∧ divided.cfg.baseOther = []) ∧
      vconf divided.cfg divided.hart.vtype = some e32d4 ∧ legalVV e32d4 1 2 3 0 = true ∧
      vconf undivided.cfg undivided.hart.vtype = some e32 ∧ legalVV e32 1 1 1 1 = true := by decide

theorem witness_DotProductsUndividedAgree :
    (undivided.cfg.baseRejects = [] ∧ undivided.cfg.baseOther = []) ∧
      vconf undivided.cfg undivided.hart.vtype = some e32 ∧ e32.ediv = 1 ∧ legalVV e32 1 2 3 1 = true := by decide

theorem witness_FpDotProduct :
    (halves.cfg.baseRejects = [] ∧ halves.cfg.baseOther = []) ∧
      vconf halves.cfg halves.hart.vtype = some e32d2 ∧ 1 < e32d2.ediv ∧ legalVV e32d2 1 2 3 1 = true ∧
      aFp e32d2.sew e32d2.ediv halves.cfg.FLEN = some 32 ∧ fpFormatOk halves.cfg e32d2.se 32 = true := by decide

/-- 1.0 in single precision and 1.0 * 2.0 in half precision: the partial sums are 0, 1, 2 and 3. An infinity and a
subnormal number are widened. -/
theorem witness_DotAndWideningAreExact :
    ([0x3C00#16].length = [0x4000#16].length ∧ fpFinite 0x3F800000#32 = true ∧
        ([0x3C00#16] ++ [0x4000#16]).all fpFinite = true ∧
        ∀ p : List ℚ, p.Sublist (fpValue 0x3F800000#32 ::
            List.zipWith (fun x y => fpValue x * fpValue y) [0x3C00#16] [0x4000#16]) →
          ∃ b : BitVec 32, fpFinite b = true ∧ fpValue b = p.sum) ∧
      fpFinite 0x0001#16 = true ∧ fpFinite 0xFC00#16 = false ∧ fpNaN 0xFC00#16 = false := by
  have value : ∀ (w : Nat) (b : BitVec w) (n : ℤ), fpUnits b = n * 2 ^ quantum w → fpValue b = n := by
    intro w b n h
    rw [fpValue, h, Int.cast_mul, Int.cast_pow]
    exact mul_div_cancel_right₀ _ (pow_ne_zero _ (by norm_num))
  have h1 : fpValue 0x3F800000#32 = 1 := by simpa using value 32 0x3F800000#32 1 (by decide +kernel)
  have h2 : fpValue 0x3C00#16 = 1 := by simpa using value 16 0x3C00#16 1 (by decide +kernel)
  have h3 : fpValue 0x4000#16 = 2 := by simpa using value 16 0x4000#16 2 (by decide +kernel)
  have s0 : fpValue 0x00000000#32 = 0 := by simpa using value 32 0x00000000#32 0 (by decide +kernel)
  have s2 : fpValue 0x40000000#32 = 2 := by simpa using value 32 0x40000000#32 2 (by decide +kernel)
  have s3 : fpValue 0x40400000#32 = 3 := by simpa using value 32 0x40400000#32 3 (by decide +kernel)
  refine ⟨⟨rfl, by decide, by decide, fun p hp => ?_⟩, by decide, by decide, by decide⟩
  simp only [List.zipWith, h1, h2, h3] at hp
  have hm := List.mem_sublists.mpr hp
  simp only [List.sublists_cons, List.sublists_nil, List.bind_eq_flatMap] at hm
  simp at hm
  rcases hm with rfl | rfl | rfl | rfl
  · exact ⟨0x00000000#32, by decide, s0⟩
  · exact ⟨0x3F800000#32, by decide, by simpa using h1⟩
  · exact ⟨0x40000000#32, by decide, by simpa using s2⟩
  · exact ⟨0x40400000#32, by decide, by rw [s3]; norm_num⟩

/-- 1.0 + 2.0 = 3.0 and 1.0 - 1.0 = 0; infinities of one sign and of two; a quiet and a signalling NaN. -/
theorem witness_OrderedSumIsLeftFold :
    ([0x3C00#16, 0x4000, 0x4200, 0xBC00, 0x0000].all fpFinite = true ∧
        fpUnits 0x4200#16 = fpUnits 0x3C00#16 + fpUnits 0x4000#16 ∧
        fpUnits 0x0000#16 = fpUnits 0x3C00#16 + fpUnits 0xBC00#16 ∧ (2 : BitVec 3).toNat ≤ 4) ∧
      ([0x7C00#16, 0xFC00].all (fun b => !fpFinite b && !fpNaN b) = true ∧ (0x7C00#16).msb ≠ (0xFC00#16).msb) ∧
      [0x7E00#16, 0x7C01].all fpNaN = true := by decide +kernel

/-- 2050 and 1 units of half precision: the sum is odd and needs 12 bits. 65504 + 65504 is beyond the format: an infinity
to nearest even, and the largest finite number towards zero. -/
theorem witness_AdditionRoundsAsFrmSays :
    (0 : BitVec 3).toNat ≤ 4 ∧ (4 : BitVec 3).toNat ≤ 4 ∧ fpFinite 0x0801#16 = true ∧ fpFinite 0x0001#16 = true ∧
      (∀ c : BitVec 16, fpFinite c = true → fpUnits c ≠ fpUnits 0x0801#16 + fpUnits 0x0001#16) ∧
      fpFinite (fpAdd 16 0 0x0801#16 0x0001#16).1 = true ∧ fpFinite 0x7BFF#16 = true ∧
      fpFinite (fpAdd 16 0 0x7BFF#16 0x7BFF#16).1 = false ∧ fpFinite (fpAdd 16 1 0x7BFF#16 0x7BFF#16).1 = true ∧
      fpMagnitude (fpOf 16 false (infFields 16)) ≤ (fpUnits 0x7BFF#16 + fpUnits 0x7BFF#16).natAbs := by
  refine ⟨by decide, by decide, by decide, by decide, fun c _ h => ?_, by decide +kernel, by decide, by decide +kernel,
    by decide +kernel, by decide +kernel⟩
  rw [show fpUnits 0x0801#16 + fpUnits 0x0001#16 = 2051 by decide +kernel] at h
  have hm : fpMagnitude c = 2051 := by
    unfold fpUnits at h
    split at h <;> omega
  have hf : fpFrac c < 1024 := (c.extractLsb' 0 10).isLt
  unfold fpMagnitude at hm
  split at hm
  · omega
  · rename_i h0
    rw [show fracBits 16 = 10 from rfl] at hm
    obtain ⟨e, he⟩ : ∃ e, fpExp c - 1 = e := ⟨_, rfl⟩
    rw [he] at hm
    cases e with
    | zero => omega
    | succ e =>
      have h2 : 2 * ((2 ^ 10 + fpFrac c) * 2 ^ e) = 2051 := by rw [← hm, pow_succ]; ring
      generalize (2 ^ 10 + fpFrac c) * 2 ^ e = n at h2
      omega

/-- The scalar 1.0 with 2.0, a quiet NaN and the two infinities; a quiet NaN before 1.0; a signalling NaN. -/
theorem witness_MinMaxChoosesANumber :
    (fpNaN 0x3C00#16 = false ∧ [0x4000#16, 0x7E00, 0x7C00, 0xFC00].all (fun y => !fpSignalling y) = true ∧
        [0x7C00#16, 0xFC00].all (fun y => !fpFinite y && !fpNaN y) = true) ∧
      (fpNaN 0x7E00#16 = true ∧ fpSignalling 0x7E00#16 = false ∧ fpNaN 0x3C00#16 = false) ∧
      fpSignalling 0x7C01#16 = true := by decide +kernel

/-- `vill` set, and a value that no `vsetvli` leaves; a reserved encoding. -/
theorem witness_UnsupportedVtypeTraps :
    (Instr.vaddVV 1 2 3 1).isVector = true ∧ vconf keep 0x80000000 = none ∧ vconf keep 0x00000400 = none ∧
      (faultOf (exec (.vadcVVM 1 2 3 0) divided)).isSome = true := by decide

/-- Each clause: a masked destination `v0`, an odd register with LMUL = 2, an overlap, EDIV = 4, a layout without the
forms of `vmadc` with `vm` = 1, a widening sum of 64-bit elements, and a base that rejects every `vadd.vv` of `v31`. -/
theorem witness_IllegalOperandsTrap :
    vconf keep 0x011 = some e32m2 ∧ maskedDestOk 0 0 = false ∧ aligned e32m2 1 = false ∧
      disjointGroups e32m2 2 2 = false ∧ disjointGroups e32m2 2 4 = true ∧ e32m2.ediv = 1 ∧
      vconf keep 0x211 = some ⟨32, .m2, 4, false, false⟩ ∧ aligned ⟨32, .m2, 4, false, false⟩ 3 = false ∧
      vconf { keep with layout := .l08 } 0x008 = some e32 ∧ legalMaskCarry { keep with layout := .l08 } 1 = false ∧
      vconf keep 0x018 = some ⟨64, .m1, 1, false, false⟩ ∧ widenFits keep ⟨64, .m1, 1, false, false⟩ = false ∧
      keep.baseAccepts = [] ∧
      (let s := start { keep with baseRejects := [⟨0xFC007FFF#32, 0x00000FD7#32, 0, 0⟩] } 0x010 2 [] []
       vconf s.cfg s.hart.vtype = some e32 ∧ (Instr.vaddVV 31 2 3 1).isVector = true ∧
        baseMatches s.cfg.baseAccepts (encodeWith s.cfg.dot (.vaddVV 31 2 3 1)) s.hart.vtype = false ∧
        baseMatches s.cfg.baseRejects (encodeWith s.cfg.dot (.vaddVV 31 2 3 1)) s.hart.vtype = true) := by decide

/-- A platform whose memory is the eight bytes from 0x1000 on, the last four of them program text. -/
abbrev small : Platform :=
  { Platform.default with
    memory := [⟨0x1000, 8⟩], text := [(0x1004, 1), (0x1005, 2), (0x1006, 3), (0x1007, 4)] }

/-- The address of an access with `x10` = `n` and the offset 0. -/
def addr (n : Nat) : BitVec keep.XLEN :=
  let s := start keep 0 0 [(10, n)] []
  s.hart.readX 10 + (0 : BitVec 12).signExtend s.cfg.XLEN

theorem witness_LwResult :
    (addr 0x1001).toNat % 4 ≠ 0 ∧ (addr 0x1003).toNat % 4 ≠ 0 ∧
      ((addr 0x1008).toNat % 4 = 0 ∧ inMemory small (addr 0x1008) 4 = false) ∧
      (addr 0x1004).toNat % 4 = 0 ∧ inMemory small (addr 0x1004) 4 = true := by decide

theorem witness_SwResult :
    (addr 0x1003).toNat % 4 ≠ 0 ∧ ((addr 0x0FFC).toNat % 4 = 0 ∧ inMemory small (addr 0x0FFC) 4 = false) ∧
      ((addr 0x1004).toNat % 4 = 0 ∧ inMemory small (addr 0x1004) 4 = true ∧
        meetsText small (addr 0x1004) 4 = true) ∧
      (addr 0x1000).toNat % 4 = 0 ∧ inMemory small (addr 0x1000) 4 = true ∧
      meetsText small (addr 0x1000) 4 = false := by decide

/-- A branch not taken, one taken to a multiple of 4, one taken to a multiple of 2 only. -/
theorem witness_BneResult :
    let s := start keep 0 0 [(12, 2)] []
    s.hart.readX 0 = s.hart.readX 13 ∧ s.hart.readX 12 ≠ s.hart.readX 0 ∧
      (s.hart.pc + (0x1FF8 : BitVec 13).signExtend s.cfg.XLEN).toNat % 4 = 0 ∧
      (s.hart.pc + (0x0002 : BitVec 13).signExtend s.cfg.XLEN).toNat % 4 ≠ 0 := by decide

theorem witness_LoadAfterStore :
    let s := start keep 0 0 [(10, 0x1000)] []
    (s.hart.scaffoldAddr 10 0).toNat % 4 = 0 ∧ inMemory small (s.hart.scaffoldAddr 10 0) 4 = true ∧
      meetsText small (s.hart.scaffoldAddr 10 0) 4 = false := by decide

/-- `vid.v` runs, a misaligned load faults, a scalar move of bytes is refused; `vtype` 0x110 and 0x210, and the
unsupported 0x310, differ from 0x010 in `vediv` only. -/
theorem witness_UnaffectedByEdiv :
    clearEdiv keep.layout 0x110 = clearEdiv divided.cfg.layout divided.hart.vtype ∧
      clearEdiv keep.layout 0x310 = clearEdiv divided.cfg.layout divided.hart.vtype ∧ vconf keep 0x310 = none ∧
      completes (execBase (.unaffected .vid) 0x020000D7 divided) = true ∧
      faultOf (execBase (.unaffected (.load .unitStride)) 0x02008087 (start keep 0x210 2 [(1, 2)] [])) =
        some (.trap (.addressMisaligned .load 2) 0x400) ∧
      refusalOf (execBase (.unaffected .vfmvFS) 0 (start fine 0x000 1 [] [])) = some (.noFpFormat 0x400) := by decide

/-- EDIV = 4, and an EDIV of 8 for which `vtype` is not supported. -/
theorem witness_VidAndViotaResults :
    BaseAllowsWord divided.cfg 0x020000D7 (clearEdiv divided.cfg.layout divided.hart.vtype) ∧
      vconf divided.cfg (clearEdiv divided.cfg.layout divided.hart.vtype) = some e32 ∧
      vconf keep (clearEdiv keep.layout 0x310) = some e32 ∧ vconf keep 0x310 = none ∧
      aligned e32 (fRd 0x020000D7) = true ∧ maskedDestOk (fRd 0x020000D7) (fVm 0x020000D7) = true ∧
      fVm 0x020000D7 = 1 := by decide

/-- A configuration in which the base instruction number 7 belongs to RegularArith. -/
abbrev regularBase7 : Config := { fine with regular := [.base 7] }

/-- Inside the class on bytes and, for floating point, on halves; outside it; inside it on 4 bits and without format. -/
theorem witness_ClassRuleForBaseArithmetic :
    ((fFunct3 0x022180D7, ArithForm.vv, false) = (0b000#3, ArithForm.vv, false) ∧
        BaseAllowsWord regularBase7 0x022180D7 0x210 ∧ vconf regularBase7 0x210 = some e32d4 ∧
        legalForm .vv e32d4 (fRd 0x022180D7) (fRs2 0x022180D7) (fRs1 0x022180D7) (fVm 0x022180D7) = true ∧
        RegularRuns regularBase7 e32d4 (.base 7)) ∧
      (fFunct3 0x0221D0D7 = 0b101#3 ∧ BaseAllowsWord regularBase7 0x0221D0D7 0x110 ∧
        vconf regularBase7 0x110 = some e32d2 ∧ fpFormatOk regularBase7 e32d2.se e32d2.se = true ∧
        legalForm .vf e32d2 (fRd 0x0221D0D7) (fRs2 0x0221D0D7) (fRs1 0x0221D0D7) (fVm 0x0221D0D7) = true ∧
        RegularRuns regularBase7 e32d2 (.base 7)) ∧
      (BaseAllowsWord keep 0x022180D7 0x210 ∧ vconf keep 0x210 = some e32d4 ∧ 1 < e32d4.ediv ∧
        keep.regular.contains (.base 7) = false) ∧
      BaseAllowsWord regularBase7 0x022180D7 0x310 ∧
      vconf regularBase7 0x310 = some ⟨32, .m1, 8, false, false⟩ ∧ (⟨32, .m1, 8, false, false⟩ : VConf).se < 8 ∧
      BaseAllowsWord regularBase7 0x0221D0D7 0x210 ∧ fpFormatOk regularBase7 e32d4.se e32d4.se = false :=
  ⟨⟨by decide, by decide, by decide, by decide, .inr (by decide)⟩,
    ⟨by decide, by decide, by decide, by decide, by decide, .inr (by decide)⟩, by decide, by decide, by decide,
    by decide, by decide, by decide⟩

theorem witness_CsrAccess :
    fImmI 0xC2102573 = 0xC21#12 ∧ fImmI 0xC2002573 = 0xC20#12 ∧ fImmI 0x00802573 = 0x008#12 := by decide

/-- A state whose next instruction is `vdot.vv v1, v2, v3`. -/
abbrev atDot : State := divided.withFetchWord 32 0xE62180D7

theorem witness_StepRunsDecoded :
    (let s := loaded 0xE62180D7
     let byte := fun k => s.hart.byteAt s.plat (byteAddr s.hart.pc k)
     decodeBytes s.cfg.dot (byte 0) (byte 1) (byte 2) (byte 3) = some (.vdotVV 1 2 3 1) ∧
      ∀ k, k < 4 → byteAddr s.hart.pc k ∉ s.hart.stored) ∧
    atDot.plat.haltPc ≠ some atDot.hart.pc.toNat ∧ inMemory atDot.plat atDot.hart.pc 4 = true ∧
      (let byte := fun k => atDot.hart.byteAt atDot.plat (byteAddr atDot.hart.pc k)
       decodeBytes atDot.cfg.dot (byte 0) (byte 1) (byte 2) (byte 3) = some (.vdotVV 1 2 3 1)) ∧
      ∀ k, k < 4 → (Memory.read atDot.plat.text (byteAddr atDot.hart.pc k)).isSome = true := by decide

/-- No instruction has the opcode 1101111. -/
theorem jal_is_no_encoding (d : DotEncoding) (i : Instr) : encodeWith d i ≠ 0x0000006F := by
  intro h
  replace h := congrArg fOpcode h
  rw [show fOpcode 0x0000006F = 0b1101111#7 by decide] at h
  have low : ∀ (x : BitVec 25) (op : BitVec 7), fOpcode (x ++ op) = op := fun x op => by
    unfold fOpcode
    rw [extractLsb'_append_low _ _ _ _ (by decide), BitVec.extractLsb'_eq_self]
  cases i <;> simp [encodeWith, low] at h

/-- The state `divided` with a byte stored at `pc`. -/
abbrev storedAtPc : State := { divided with hart := (divided.hart.setMem [(0x402, 1)]).markStored [0x402] 1 }

/-- `pc` outside memory; a stored byte at `pc`; the word of `jal`, which the Base decoder does not know or knows; `pc` at HALT_PC. -/
theorem witness_StepOutsideTheTable :
    (small.haltPc ≠ some divided.hart.pc.toNat ∧ inMemory small divided.hart.pc 4 = false) ∧
      (storedAtPc.plat.haltPc ≠ some storedAtPc.hart.pc.toNat ∧ inMemory storedAtPc.plat storedAtPc.hart.pc 4 = true ∧
        2 < 4 ∧ Memory.read storedAtPc.plat.text (byteAddr storedAtPc.hart.pc 2) = none ∧
        byteAddr storedAtPc.hart.pc 2 ∈ storedAtPc.hart.stored) ∧
      (let s := divided.withFetchWord 32 0x0000006F
       s.plat.haltPc ≠ some s.hart.pc.toNat ∧ inMemory s.plat s.hart.pc 4 = true ∧ s.fetchWord = 0x0000006F ∧
        (∀ k, k < 4 → (Memory.read s.plat.text (byteAddr s.hart.pc k)).isSome = true) ∧
        (∀ i : Instr, i.wellFormed = true → encodeWith s.cfg.dot i ≠ 0x0000006F) ∧
        decodeBase s.plat.baseRows s.fetchWord = none) ∧
      decodeBase [⟨0x0000007F, 0x0000006F, .unclassified⟩] 0x0000006F = some .unclassified ∧
      ({ Platform.default with haltPc := some 0x400 } : Platform).haltPc = some divided.hart.pc.toNat :=
  ⟨by decide, by decide, ⟨by decide, by decide, by decide, by decide, fun i _ => jal_is_no_encoding _ i, by decide⟩, by decide, by decide⟩

theorem witness_StepKeepsInvariant : Inv atDot ∧ completes (step atDot) = true :=
  ⟨⟨by decide, by decide, by decide, by decide, .inl ⟨e32d4, by decide⟩, by
    show (2 : Nat) ≤ 2; decide⟩, by decide⟩

theorem witness_OnlyConfigWritesVlAndVtype :
    (Instr.vdotVV 1 2 3 1).isConfig = false ∧ completes (exec (.vdotVV 1 2 3 1) divided) = true ∧
      completes (execBase (.unaffected .vid) 0x020000D7 divided) = true := by decide

theorem witness_VectorInstructionFrame :
    completes (exec (.vdotVV 1 2 3 1) divided) = true ∧ (Instr.vdotVV 1 2 3 1).isVector = true ∧
      (Instr.vdotVV 1 2 3 1).isFloat = false ∧ completes (exec (.vsetvli 5 10 0x210) divided) = true ∧
      (Instr.vsetvli 5 10 0x210).isConfig = true ∧ completes (exec (.addi 1 0 1) divided) = true ∧
      (Instr.addi 1 0 1).isVector = false ∧ (Instr.addi 1 0 1).isConfig = false ∧
      completes (exec (.vfdotVV 1 2 3 1) halves) = true ∧ (Instr.vfdotVV 1 2 3 1).isFloat = true := by decide

end Sys2Proof.Tests
end

section
/-! SUPPORT. Words and their fields: every format of the encoder put together from its fields, and a word put together
again from the fields the decoder reads (R71, R72, R290 to R293). -/

namespace Sys2Proof

open BitVec

/-- The high part of a concatenation. -/
theorem extractLsb'_append_top {m n : Nat} (x : BitVec m) (y : BitVec n) : (x ++ y).extractLsb' n m = x := by
  rw [extractLsb'_append_high _ _ _ _ le_rfl, Nat.sub_self, extractLsb'_eq_self]

/-- The low part of a concatenation. -/
theorem extractLsb'_append_bottom {m n : Nat} (x : BitVec m) (y : BitVec n) : (x ++ y).extractLsb' 0 n = y := by
  rw [extractLsb'_append_low _ _ _ _ (Nat.zero_add n).le, extractLsb'_eq_self]

section

variable (imm : BitVec 12) (rs1 : BitVec 5) (f3 : BitVec 3) (rd : BitVec 5) (op : BitVec 7)

/-- A piece of an I-type word above `word[19]` is a piece of its immediate. -/
theorem extractLsb'_opI_imm {off len : Nat} (h : 20 ≤ off) :
    (opI imm rs1 f3 rd op).extractLsb' off len = imm.extractLsb' (off - 20) len := by
  unfold opI
  rw [extractLsb'_append_high _ _ _ _ (by omega), extractLsb'_append_high _ _ _ _ (by omega),
    extractLsb'_append_high _ _ _ _ (by omega), extractLsb'_append_high _ _ _ _ (by omega)]
  congr 1

/-- A piece of `word[11:7]` of an I-type word is a piece of its destination field. -/
theorem extractLsb'_opI_rd {off len : Nat} (h : 7 ≤ off) (hl : off - 7 + len ≤ 5) :
    (opI imm rs1 f3 rd op).extractLsb' off len = rd.extractLsb' (off - 7) len := by
  unfold opI
  rw [extractLsb'_append_high _ _ _ _ h, extractLsb'_append_low _ _ _ _ hl]

@[simp] theorem fRs2_opI : fRs2 (opI imm rs1 f3 rd op) = imm.extractLsb' 0 5 :=
  extractLsb'_opI_imm _ _ _ _ _ (by decide)

@[simp] theorem fImmS_opI : fImmS (opI imm rs1 f3 rd op) = imm.extractLsb' 5 7 ++ rd :=
  congrArg₂ (· ++ ·) (extractLsb'_opI_imm _ _ _ _ _ (by decide)) (fRd_opI imm rs1 f3 rd op)

@[simp] theorem fImmB_opI : fImmB (opI imm rs1 f3 rd op) =
    imm.extractLsb' 11 1 ++ rd.extractLsb' 0 1 ++ imm.extractLsb' 5 6 ++ rd.extractLsb' 1 4 ++ 0#1 := by
  simp [fImmB, extractLsb'_opI_imm, extractLsb'_opI_rd]

/-- The configuration instructions in terms of the top 12 bits of their word (R72). -/
@[simp] theorem decodeOpcfg_opI : decodeOpcfg (opI imm rs1 f3 rd op) =
    if imm.extractLsb' 11 1 = 0#1 then some (.vsetvli rd rs1 (imm.extractLsb' 0 11))
    else if imm.extractLsb' 5 7 = 0b1000000#7 then some (.vsetvl rd rs1 (imm.extractLsb' 0 5))
    else none := by
  simp [decodeOpcfg, fFunct7, extractLsb'_opI_imm]

end

/-! ### The formats that are I-type words with an immediate of their own -/

section

variable (d : DotEncoding)

theorem encodeWith_vsetvli (rd rs1 : RegNo) (zimm : BitVec 11) :
    encodeWith d (.vsetvli rd rs1 zimm) = opI (0#1 ++ zimm) rs1 0b111#3 rd 0b1010111#7 := rfl

theorem encodeWith_vsetvl (rd rs1 rs2 : RegNo) :
    encodeWith d (.vsetvl rd rs1 rs2) = opI (0b1000000#7 ++ rs2) rs1 0b111#3 rd 0b1010111#7 := rfl

theorem encodeWith_sw (rs2 rs1 : RegNo) (imm : BitVec 12) :
    encodeWith d (.sw rs2 rs1 imm) =
      opI (imm.extractLsb' 5 7 ++ rs2) rs1 0b010#3 (imm.extractLsb' 0 5) 0b0100011#7 := rfl

theorem encodeWith_bne (rs1 rs2 : RegNo) (offset : BitVec 13) :
    encodeWith d (.bne rs1 rs2 offset) =
      opI (offset.extractLsb' 12 1 ++ offset.extractLsb' 5 6 ++ rs2) rs1 0b001#3
        (offset.extractLsb' 1 4 ++ offset.extractLsb' 11 1) 0b1100011#7 :=
  congrArg (· ++ 0b1100011#7) (BitVec.append_assoc (x₂ := offset.extractLsb' 1 4))

end

/-! ### The branch offset (R293) -/

/-- A branch offset is even when its lowest piece is the bit the encoding leaves out. -/
theorem offsetEven_iff {o : BitVec 13} : offsetEven o = true ↔ 0#1 = o.extractLsb' 0 1 := by
  simp [offsetEven, eq_of_getLsbD_eq_iff]

theorem offsetEven_fImmB (w : Word32) : offsetEven (fImmB w) = true :=
  offsetEven_iff.2 (extractLsb'_append_low _ 0#1 0 1 (by decide)).symm

/-- An even offset is its pieces put back together. -/
theorem offset_pieces {o : BitVec 13} (h : offsetEven o = true) :
    o.extractLsb' 12 1 ++ o.extractLsb' 11 1 ++ o.extractLsb' 5 6 ++ o.extractLsb' 1 4 ++ 0#1 = o := by
  rw [offsetEven_iff.1 h]
  iterate 4 rw [extractLsb'_append_extractLsb'_eq_extractLsb' (by decide)]
  exact extractLsb'_eq_self

/-! ### A word is its fields put back together -/

theorem opI_fields (w : Word32) : opI (fImmI w) (fRs1 w) (fFunct3 w) (fRd w) (fOpcode w) = w := by
  unfold opI fImmI fRs1 fFunct3 fRd fOpcode
  iterate 4 rw [extractLsb'_append_extractLsb'_eq_extractLsb' (by decide)]
  exact extractLsb'_eq_self

theorem opV_fields {w : Word32} (ho : fOpcode w = 0b1010111#7) :
    opV (fFunct6 w) (fVm w) (fRs2 w) (fRs1 w) (fFunct3 w) (fRd w) = w := by
  unfold opV
  rw [← ho]
  unfold fFunct6 fVm fRs2 fRs1 fFunct3 fRd fOpcode
  iterate 6 rw [extractLsb'_append_extractLsb'_eq_extractLsb' (by decide)]
  exact extractLsb'_eq_self

/-- The top 12 bits of a `vsetvli` word (R72). -/
theorem fImmI_of_bit31 {w : Word32} (h : w.extractLsb' 31 1 = 0#1) : 0#1 ++ w.extractLsb' 20 11 = fImmI w := by
  rw [← h, extractLsb'_append_extractLsb'_eq_extractLsb' (by decide)]
  rfl

/-- The top 12 bits of a word by `funct7` and `rs2`. -/
theorem funct7_append_rs2 (w : Word32) : fFunct7 w ++ fRs2 w = fImmI w :=
  extractLsb'_append_extractLsb'_eq_extractLsb' (by decide)

/-- What the encoder keeps of the immediate of `sw` (R292): the top of the word, and its `word[11:7]`. -/
theorem fImmS_pieces (w : Word32) :
    (fImmS w).extractLsb' 5 7 ++ fRs2 w = fImmI w ∧ (fImmS w).extractLsb' 0 5 = fRd w := by
  unfold fImmS
  rw [extractLsb'_append_top, extractLsb'_append_bottom]
  exact ⟨funct7_append_rs2 w, rfl⟩

/-- What the encoder keeps of the offset of `bne` (R293). -/
theorem fImmB_pieces (w : Word32) :
    (fImmB w).extractLsb' 12 1 ++ (fImmB w).extractLsb' 5 6 ++ fRs2 w = fImmI w ∧
      (fImmB w).extractLsb' 1 4 ++ (fImmB w).extractLsb' 11 1 = fRd w := by
  have h12 : (fImmB w).extractLsb' 12 1 = w.extractLsb' 31 1 := by
    unfold fImmB
    iterate 3 rw [extractLsb'_append_high _ _ _ _ (by decide)]
    exact extractLsb'_append_top _ _
  have h11 : (fImmB w).extractLsb' 11 1 = w.extractLsb' 7 1 := by
    unfold fImmB
    iterate 3 rw [extractLsb'_append_high _ _ _ _ (by decide)]
    exact extractLsb'_append_bottom _ _
  have h5 : (fImmB w).extractLsb' 5 6 = w.extractLsb' 25 6 := by
    unfold fImmB
    iterate 2 rw [extractLsb'_append_high _ _ _ _ (by decide)]
    exact extractLsb'_append_bottom _ _
  have h1 : (fImmB w).extractLsb' 1 4 = w.extractLsb' 8 4 := by
    unfold fImmB
    rw [extractLsb'_append_high _ _ _ _ (by decide)]
    exact extractLsb'_append_bottom _ _
  rw [h12, h11, h5, h1]
  constructor
  · unfold fRs2
    iterate 2 rw [extractLsb'_append_extractLsb'_eq_extractLsb' (by decide)]
    rfl
  · exact extractLsb'_append_extractLsb'_eq_extractLsb' (by decide)

end Sys2Proof
end

section
/-! O1. Decoding undoes encoding: one lemma per operand category of R71 and per format outside OP-V. -/

namespace Sys2Proof

section

variable {d : DotEncoding} {f6 : BitVec 6} {vm : BitVec 1} {vs2 s1 vd : BitVec 5} {i : Instr}

/-- The rows of R72 and R76 come before those of the DotEncoding (R80). -/
theorem decodeWith_of_decodeOpV {w : Word32} (ho : fOpcode w = 0b1010111#7) (h : decodeOpV w = some i) :
    decodeWith d w = some i := by
  simp [decodeWith, ho, h]

theorem decodeWith_opivv (h : decodeOpivv f6 vd vs2 s1 vm = some i) :
    decodeWith d (opV f6 vm vs2 s1 0b000#3 vd) = some i :=
  decodeWith_of_decodeOpV (by simp) (by simpa [decodeOpV] using h)

theorem decodeWith_opfvv (h : decodeOpfvv f6 vd vs2 s1 vm = some i) :
    decodeWith d (opV f6 vm vs2 s1 0b001#3 vd) = some i :=
  decodeWith_of_decodeOpV (by simp) (by simpa [decodeOpV] using h)

theorem decodeWith_opmvv (h : decodeOpmvv f6 vd vs2 s1 vm = some i) :
    decodeWith d (opV f6 vm vs2 s1 0b010#3 vd) = some i :=
  decodeWith_of_decodeOpV (by simp) (by simpa [decodeOpV] using h)

theorem decodeWith_opivi (h : decodeOpivi f6 vd vs2 s1 vm = some i) :
    decodeWith d (opV f6 vm vs2 s1 0b011#3 vd) = some i :=
  decodeWith_of_decodeOpV (by simp) (by simpa [decodeOpV] using h)

theorem decodeWith_opivx (h : decodeOpivx f6 vd vs2 s1 vm = some i) :
    decodeWith d (opV f6 vm vs2 s1 0b100#3 vd) = some i :=
  decodeWith_of_decodeOpV (by simp) (by simpa [decodeOpV] using h)

theorem decodeWith_opcfg {imm : BitVec 12} (h : decodeOpcfg (opI imm s1 0b111#3 vd 0b1010111#7) = some i) :
    decodeWith d (opI imm s1 0b111#3 vd 0b1010111#7) = some i :=
  decodeWith_of_decodeOpV (by simp) (by simpa [decodeOpV] using h)

end

/-! ### Configuration and scaffold (R72, R79) -/

section

variable (d : DotEncoding)

theorem decodeWith_encodeWith_vsetvli (rd rs1 : RegNo) (zimm : BitVec 11) :
    decodeWith d (encodeWith d (.vsetvli rd rs1 zimm)) = some (.vsetvli rd rs1 zimm) := by
  rw [encodeWith_vsetvli]
  apply decodeWith_opcfg
  have top : (0#1 ++ zimm).extractLsb' 11 1 = 0#1 := extractLsb'_append_top _ _
  have low : (0#1 ++ zimm).extractLsb' 0 11 = zimm := extractLsb'_append_bottom _ _
  rw [decodeOpcfg_opI, if_pos top, low]

theorem decodeWith_encodeWith_vsetvl (rd rs1 rs2 : RegNo) :
    decodeWith d (encodeWith d (.vsetvl rd rs1 rs2)) = some (.vsetvl rd rs1 rs2) := by
  rw [encodeWith_vsetvl]
  apply decodeWith_opcfg
  have top : (0b1000000#7 ++ rs2).extractLsb' 11 1 = 1#1 := extractLsb'_append_high _ _ _ _ (by decide)
  have high : (0b1000000#7 ++ rs2).extractLsb' 5 7 = 0b1000000#7 := extractLsb'_append_top _ _
  have low : (0b1000000#7 ++ rs2).extractLsb' 0 5 = rs2 := extractLsb'_append_bottom _ _
  rw [decodeOpcfg_opI, top, if_neg (by decide), if_pos high, low]

theorem decodeWith_encodeWith_sw (rs2 rs1 : RegNo) (imm : BitVec 12) :
    decodeWith d (encodeWith d (.sw rs2 rs1 imm)) = some (.sw rs2 rs1 imm) := by
  rw [encodeWith_sw]
  have low : (imm.extractLsb' 5 7 ++ rs2).extractLsb' 0 5 = rs2 := extractLsb'_append_bottom _ _
  have high : (imm.extractLsb' 5 7 ++ rs2).extractLsb' 5 7 = imm.extractLsb' 5 7 := extractLsb'_append_top _ _
  have whole : imm.extractLsb' 5 7 ++ imm.extractLsb' 0 5 = imm :=
    (BitVec.extractLsb'_append_extractLsb'_eq_extractLsb' (by decide)).trans BitVec.extractLsb'_eq_self
  simp [decodeWith, low, high, whole]

theorem decodeWith_encodeWith_bne (rs1 rs2 : RegNo) {offset : BitVec 13} (he : offsetEven offset = true) :
    decodeWith d (encodeWith d (.bne rs1 rs2 offset)) = some (.bne rs1 rs2 offset) := by
  rw [encodeWith_bne]
  have low : (offset.extractLsb' 12 1 ++ offset.extractLsb' 5 6 ++ rs2).extractLsb' 0 5 = rs2 :=
    extractLsb'_append_bottom _ _
  have whole : fImmB (opI (offset.extractLsb' 12 1 ++ offset.extractLsb' 5 6 ++ rs2) rs1 0b001#3
      (offset.extractLsb' 1 4 ++ offset.extractLsb' 11 1) 0b1100011#7) = offset := by
    rw [fImmB_opI, extractLsb'_append_high _ rs2 11 _ (by decide), extractLsb'_append_top,
      extractLsb'_append_bottom, extractLsb'_append_high _ rs2 5 _ (by decide), extractLsb'_append_bottom,
      extractLsb'_append_top, offset_pieces he]
  simp [decodeWith, low, whole]

end

/-! ### The dot products (R78) -/

/-- A word in a slot lies in another slot only if the two are the same. -/
theorem inSlot_opV_iff {s s' : DotSlot} {vm : BitVec 1} {vs2 s1 vd : BitVec 5} :
    inSlot s (opV s'.funct6 vm vs2 s1 s'.funct3 vd) = true ↔ s' = s := by
  cases s
  cases s'
  simp

/-- What `disjoint` says: each slot is free of the rows of R72 and R76, and no two slots are the same (R80). -/
theorem DotEncoding.disjoint_iff {d : DotEncoding} : d.disjoint = true ↔
    (d.vdotu.isFree = true ∧ d.vdot.isFree = true ∧ d.vfdot.isFree = true) ∧
      d.vdotu ≠ d.vdot ∧ d.vdotu ≠ d.vfdot ∧ d.vdot ≠ d.vfdot := by
  simp [DotEncoding.disjoint, and_assoc]

section

variable {d : DotEncoding} (hd : d.disjoint = true) (vd vs2 vs1 : RegNo) (vm : BitVec 1)
include hd

theorem decodeWith_encodeWith_vdotuVV :
    decodeWith d (encodeWith d (.vdotuVV vd vs2 vs1 vm)) = some (.vdotuVV vd vs2 vs1 vm) := by
  obtain ⟨⟨free, _, _⟩, _⟩ := DotEncoding.disjoint_iff.1 hd
  refine (decodeWith_opV_of_isFree free vm vs2 vs1 vd).trans ?_
  rw [decodeDot, if_pos (inSlot_opV_iff.2 rfl)]
  simp

theorem decodeWith_encodeWith_vdotVV :
    decodeWith d (encodeWith d (.vdotVV vd vs2 vs1 vm)) = some (.vdotVV vd vs2 vs1 vm) := by
  obtain ⟨⟨_, free, _⟩, hu, _⟩ := DotEncoding.disjoint_iff.1 hd
  refine (decodeWith_opV_of_isFree free vm vs2 vs1 vd).trans ?_
  rw [decodeDot, if_neg (mt inSlot_opV_iff.1 hu.symm), if_pos (inSlot_opV_iff.2 rfl)]
  simp

theorem decodeWith_encodeWith_vfdotVV :
    decodeWith d (encodeWith d (.vfdotVV vd vs2 vs1 vm)) = some (.vfdotVV vd vs2 vs1 vm) := by
  obtain ⟨⟨_, _, free⟩, _, hu, hs⟩ := DotEncoding.disjoint_iff.1 hd
  refine (decodeWith_opV_of_isFree free vm vs2 vs1 vd).trans ?_
  rw [decodeDot, if_neg (mt inSlot_opV_iff.1 hu.symm), if_neg (mt inSlot_opV_iff.1 hs.symm),
    if_pos (inSlot_opV_iff.2 rfl)]
  simp

end

/-! ### The round trip -/

/-- Decoding undoes encoding under a DotEncoding whose rows overlap no other (R80). -/
theorem decodeWith_encodeWith {d : DotEncoding} (hd : d.disjoint = true) {i : Instr} (hi : i.wellFormed = true) :
    decodeWith d (encodeWith d i) = some i := by
  cases i
  case vsetvli rd rs1 zimm => exact decodeWith_encodeWith_vsetvli d rd rs1 zimm
  case vsetvl rd rs1 rs2 => exact decodeWith_encodeWith_vsetvl d rd rs1 rs2
  case vaddVV | vrgatherVV | vadcVVM | vmadcVVM | vsbcVVM | vmsbcVVM | vsllVV | vwredsumuVS | vwredsumVS =>
    exact decodeWith_opivv rfl
  case vfredsumVS | vfredosumVS | vfredminVS | vfredmaxVS | vfwredsumVS | vfwredosumVS =>
    exact decodeWith_opfvv rfl
  case vredsumVS | vredandVS | vredorVS | vredxorVS | vredminuVS | vredminVS | vredmaxuVS | vredmaxVS =>
    exact decodeWith_opmvv rfl
  case vaddVI | vrgatherVI | vadcVIM | vmadcVIM | vsllVI => exact decodeWith_opivi rfl
  case vaddVX | vrgatherVX | vadcVXM | vmadcVXM | vsbcVXM | vmsbcVXM | vsllVX => exact decodeWith_opivx rfl
  case vdotuVV vd vs2 vs1 vm => exact decodeWith_encodeWith_vdotuVV hd vd vs2 vs1 vm
  case vdotVV vd vs2 vs1 vm => exact decodeWith_encodeWith_vdotVV hd vd vs2 vs1 vm
  case vfdotVV vd vs2 vs1 vm => exact decodeWith_encodeWith_vfdotVV hd vd vs2 vs1 vm
  case addi | lw => simp [encodeWith, decodeWith]
  case sw rs2 rs1 imm => exact decodeWith_encodeWith_sw d rs2 rs1 imm
  case bne rs1 rs2 offset => exact decodeWith_encodeWith_bne d rs1 rs2 hi

/-- The slots of the default DotEncoding overlap no row of the table (R78). -/
theorem DotEncoding.default_disjoint : DotEncoding.default.disjoint = true := by decide

/-- Settles O1, from the round trip under every DotEncoding without overlap, among them the default one. -/
theorem decodeEncodeRoundTrip : Obligations.DecodeEncodeRoundTrip :=
  ⟨fun _ hi => decodeWith_encodeWith DotEncoding.default_disjoint hi, fun _ _ hd hi => decodeWith_encodeWith hd hi⟩

end Sys2Proof
end

section
/-! O2. Encoding undoes decoding: what each category of R71 reads from a word is an instruction with that word. -/

namespace Sys2Proof

/-- `i` is a well-formed instruction, and `w` is its word. -/
def Instr.Encodes (d : DotEncoding) (i : Instr) (w : Word32) : Prop := i.wellFormed = true ∧ encodeWith d i = w

section

variable {d : DotEncoding} {f6 : BitVec 6} {vm : BitVec 1} {vs2 s1 vd : BitVec 5} {i : Instr}

theorem encodes_of_decodeOpivv (h : decodeOpivv f6 vd vs2 s1 vm = some i) :
    i.Encodes d (opV f6 vm vs2 s1 0b000#3 vd) := by
  unfold decodeOpivv at h
  split_ifs at h <;> cases h
  all_goals subst f6; exact ⟨rfl, rfl⟩

theorem encodes_of_decodeOpfvv (h : decodeOpfvv f6 vd vs2 s1 vm = some i) :
    i.Encodes d (opV f6 vm vs2 s1 0b001#3 vd) := by
  unfold decodeOpfvv at h
  split_ifs at h <;> cases h
  all_goals subst f6; exact ⟨rfl, rfl⟩

theorem encodes_of_decodeOpmvv (h : decodeOpmvv f6 vd vs2 s1 vm = some i) :
    i.Encodes d (opV f6 vm vs2 s1 0b010#3 vd) := by
  unfold decodeOpmvv at h
  split_ifs at h <;> cases h
  all_goals subst f6; exact ⟨rfl, rfl⟩

theorem encodes_of_decodeOpivi (h : decodeOpivi f6 vd vs2 s1 vm = some i) :
    i.Encodes d (opV f6 vm vs2 s1 0b011#3 vd) := by
  unfold decodeOpivi at h
  split_ifs at h <;> cases h
  all_goals subst f6; exact ⟨rfl, rfl⟩

theorem encodes_of_decodeOpivx (h : decodeOpivx f6 vd vs2 s1 vm = some i) :
    i.Encodes d (opV f6 vm vs2 s1 0b100#3 vd) := by
  unfold decodeOpivx at h
  split_ifs at h <;> cases h
  all_goals subst f6; exact ⟨rfl, rfl⟩

end

section

variable {d : DotEncoding} {w : Word32} {i : Instr}

/-- A word of opcode 1010111 is the OP-V word of its fields, with its `funct3` and `funct6` as the row says. -/
theorem opV_fields_of_funct3 {f3 : BitVec 3} (ho : fOpcode w = 0b1010111#7) (h3 : fFunct3 w = f3) :
    opV (fFunct6 w) (fVm w) (fRs2 w) (fRs1 w) f3 (fRd w) = w := by
  rw [← h3, opV_fields ho]

/-- A word is the I-type word of its fields, with its `funct3` and opcode as the row says. -/
theorem opI_fields_of {f3 : BitVec 3} {op : BitVec 7} (ho : fOpcode w = op) (h3 : fFunct3 w = f3) :
    opI (fImmI w) (fRs1 w) f3 (fRd w) op = w := by
  rw [← h3, ← ho, opI_fields]

/-- `vsetvli` and `vsetvl`: the decoder has looked at every bit that the encoder fixes (R72). -/
theorem encodes_of_decodeOpcfg (ho : fOpcode w = 0b1010111#7) (h3 : fFunct3 w = 0b111#3)
    (h : decodeOpcfg w = some i) : i.Encodes d w := by
  unfold decodeOpcfg at h
  split_ifs at h with h31 h7 <;> cases h
  · exact ⟨rfl, by rw [encodeWith_vsetvli, fImmI_of_bit31 h31, opI_fields_of ho h3]⟩
  · exact ⟨rfl, by rw [encodeWith_vsetvl, ← h7, funct7_append_rs2, opI_fields_of ho h3]⟩

/-- The rows of R72 and R76. -/
theorem encodes_of_decodeOpV (ho : fOpcode w = 0b1010111#7) (h : decodeOpV w = some i) : i.Encodes d w := by
  unfold decodeOpV at h
  split_ifs at h with h3 h3 h3 h3 h3 h3
  · exact opV_fields_of_funct3 ho h3 ▸ encodes_of_decodeOpivv h
  · exact opV_fields_of_funct3 ho h3 ▸ encodes_of_decodeOpfvv h
  · exact opV_fields_of_funct3 ho h3 ▸ encodes_of_decodeOpmvv h
  · exact opV_fields_of_funct3 ho h3 ▸ encodes_of_decodeOpivi h
  · exact opV_fields_of_funct3 ho h3 ▸ encodes_of_decodeOpivx h
  · exact encodes_of_decodeOpcfg ho h3 h

/-- A word in a slot is the OP-V word of the slot and its other fields (R78). -/
theorem opV_slot {s : DotSlot} (ho : fOpcode w = 0b1010111#7) (hs : inSlot s w = true) :
    opV s.funct6 (fVm w) (fRs2 w) (fRs1 w) s.funct3 (fRd w) = w := by
  simp only [inSlot, Bool.and_eq_true, beq_iff_eq] at hs
  obtain ⟨h6, h3⟩ := hs
  rw [← h6, ← h3, opV_fields ho]

/-- The dot products, in whatever slots the DotEncoding has (R78). -/
theorem encodes_of_decodeDot (ho : fOpcode w = 0b1010111#7) (h : decodeDot d w = some i) : i.Encodes d w := by
  unfold decodeDot at h
  split_ifs at h with hs hs hs <;> cases h <;> exact ⟨rfl, opV_slot ho hs⟩

/-- `bne`: no bit of the word lies outside its fields, and its offset is even (R293). -/
theorem encodes_bne (ho : fOpcode w = 0b1100011#7) (h3 : fFunct3 w = 0b001#3) :
    (Instr.bne (fRs1 w) (fRs2 w) (fImmB w)).Encodes d w := by
  obtain ⟨himm, hrd⟩ := fImmB_pieces w
  exact ⟨offsetEven_fImmB w, by rw [encodeWith_bne, himm, hrd, opI_fields_of ho h3]⟩

/-- `sw`: no bit of the word lies outside its fields (R292). -/
theorem encodes_sw (ho : fOpcode w = 0b0100011#7) (h3 : fFunct3 w = 0b010#3) :
    (Instr.sw (fRs2 w) (fRs1 w) (fImmS w)).Encodes d w := by
  obtain ⟨himm, hrd⟩ := fImmS_pieces w
  exact ⟨rfl, by rw [encodeWith_sw, himm, hrd, opI_fields_of ho h3]⟩

/-- Encoding undoes decoding, whether or not the DotEncoding's rows overlap others. -/
theorem encodes_of_decodeWith (h : decodeWith d w = some i) : i.Encodes d w := by
  unfold decodeWith at h
  split_ifs at h with ho ho h3 ho h3 ho h3 ho h3
  · split at h
    next hv => exact encodes_of_decodeOpV ho (hv.trans h)
    next => exact encodes_of_decodeDot ho h
  · cases h; exact ⟨rfl, opI_fields_of ho h3⟩
  · cases h; exact ⟨rfl, opI_fields_of ho h3⟩
  · cases h; exact encodes_sw ho h3
  · cases h; exact encodes_bne ho h3

end

/-- Settles O2: every branch of the decoder reads the fields that the encoder puts together. -/
theorem encodeDecodeRoundTrip : Obligations.EncodeDecodeRoundTrip :=
  fun _ _ _ h => encodes_of_decodeWith h

end Sys2Proof
end

section
/-! SUPPORT. What an instruction of the opcode table can do to the hart when it goes on. `VectorOutcome` holds of the
writes and is kept by the guards, so that each instruction's fact is put together as its meaning is. -/

namespace Sys2Proof.Machine

variable {c : Config}

/-- If the outcome goes on, it has the shape of a completed vector instruction, and has accrued flags only if it is one
of the floating-point instructions (R35). -/
def VectorOutcome (float : Bool) (h : Hart c) (r : HartOutcome c) : Prop :=
  ∀ t, r = .next t → ∃ flags, VectorStep h t (if float then flags else 0)

/-- The categories OPFVV and OPFVF (R71) of a word in the OP-V format. -/
@[simp] theorem isFloatWord_opV (f6 : BitVec 6) (vm : BitVec 1) (vs2 s1 : BitVec 5) (f3 : BitVec 3) (vd : BitVec 5) :
    isFloatWord (opV f6 vm vs2 s1 f3 vd) = (f3 == 0b001#3 || f3 == 0b101#3) := by
  simp [isFloatWord]

namespace VectorOutcome

variable {float : Bool} {h : Hart c} {r : HartOutcome c}

/-! ### The writes -/

theorem of_vectorStep {t : Hart c} (e : VectorStep h t 0) : VectorOutcome float h (.next t) := by
  rintro _ ⟨⟩
  exact ⟨0, by rwa [ite_self]⟩

theorem writeGroup {vc : VConf} {vd : RegNo} {vm : BitVec 1} {a : Nat → BitVec vc.sew} :
    VectorOutcome float h (.next (h.writeGroup vc vd vm a).finish) := of_vectorStep (h.writeGroup_step ..)

theorem writeMask {vc : VConf} {vd : RegNo} {vm : BitVec 1} {a : Nat → Bool} :
    VectorOutcome float h (.next (h.writeMask vc vd vm a).finish) := of_vectorStep (h.writeMask_step ..)

theorem intReduction {vc : VConf} {word : Word32} {op : RedOp} {w1 w : Nat} {signed : Bool} {vd vs2 vs1 : RegNo}
    {vm : BitVec 1} : VectorOutcome float h (h.intReduction vc word op w1 w signed vd vs2 vs1 vm) :=
  fun _ e => of_vectorStep (Hart.intReduction_step e) _ rfl

theorem fpReduction {vc : VConf} {word : Word32} {op : FpRedOp} {f : Nat} {box : Nat → BitVec f → BitVec vc.sew}
    {vd vs2 vs1 : RegNo} {vm : BitVec 1} : VectorOutcome true h (h.fpReduction vc word op f box vd vs2 vs1 vm) :=
  fun _ e => Hart.fpReduction_step e

theorem fpWidening {vc : VConf} {word : Word32} {op : FpRedOp} {vd vs2 vs1 : RegNo} {vm : BitVec 1} :
    VectorOutcome true h (h.fpWidening vc word op vd vs2 vs1 vm) := fun _ e => Hart.fpWidening_step e

/-! ### The guards -/

/-- The checks of R81 for a base instruction: what goes on is Base.exec (log 35) or the instruction's own rule. -/
theorem vector {w : Word32} {legal : VConf → Bool} {body : VConf → HartOutcome c} (hw : isFloatWord w = float)
    (hb : ∀ vc, VectorOutcome float h (body vc)) : VectorOutcome float h (h.vector w legal body) := by
  intro t e
  obtain ⟨vc, _, _, ⟨_, e⟩ | e⟩ := Hart.vector_eq_next e
  · exact hw ▸ Hart.baseVector_step e
  · exact hb vc t e

/-- The checks of R81 for an instruction that the source adds. -/
theorem vectorNew {w : Word32} {legal : VConf → Bool} {body : VConf → HartOutcome c}
    (hb : ∀ vc, VectorOutcome float h (body vc)) : VectorOutcome float h (h.vectorNew w legal body) := by
  intro t e
  obtain ⟨vc, _, _, e⟩ := Hart.vectorAt_eq_next e
  exact hb vc t e

/-- The guard of the optional members of RegularArith (R153). -/
theorem ifRegular {vc : VConf} {m : RegularExtra} (hr : VectorOutcome float h r) :
    VectorOutcome float h (h.ifRegular vc m r) :=
  fun t e => hr t (Hart.ifRegular_eq_next e)

/-- The guard of the encodings reserved under EDIV > 1 (R156 to R159, R176). -/
theorem unlessDivided {vc : VConf} {reason : ReservedReason} {w : Word32} (hr : VectorOutcome float h r) :
    VectorOutcome float h (h.unlessDivided vc reason w r) :=
  fun t e => hr t (Hart.unlessDivided_eq_next e).2

end VectorOutcome

/-- An instruction whose outcome on the hart has the shape keeps the parameters. -/
theorem VectorOutcome.onHart {float : Bool} {s s' : State} {r : HartOutcome s.cfg} (e : s.onHart r = .next s')
    (hr : VectorOutcome float s.hart r) :
    ∃ t flags, s' = ⟨s.cfg, s.plat, t⟩ ∧ VectorStep s.hart t (if float then flags else 0) := by
  obtain ⟨t, ht, rfl⟩ := State.onHart_eq_next e
  obtain ⟨flags, hv⟩ := hr t ht
  exact ⟨t, flags, rfl, hv⟩

/-- `vfdot.vv` goes on only where it has an accumulator format (R231). -/
theorem execVfdotVV_eq_next {vd vs2 vs1 : RegNo} {vm : BitVec 1} {s s' : State}
    (e : execVfdotVV vd vs2 vs1 vm s = .next s') :
    ∃ t flags, s' = ⟨s.cfg, s.plat, t⟩ ∧ VectorStep s.hart t flags := by
  refine VectorOutcome.onHart (float := true) e (.vectorNew fun vc t e => ?_)
  split at e
  · cases e
  · split at e
    · cases e
    · split at e <;> cases e
      exact ⟨_, _, rfl⟩

/-- What a vector instruction of the opcode table can do (R27, R35): it writes vector registers, accrues flags if it is
a floating-point one, clears `vstart` and moves `pc` on. -/
theorem exec_vector_eq_next {i : Instr} {s s' : State} (hi : i.isVector = true) (e : exec i s = .next s') :
    ∃ t flags, s' = ⟨s.cfg, s.plat, t⟩ ∧ VectorStep s.hart t (if i.isFloat then flags else 0) := by
  cases i
  case vaddVV | vsllVX | vrgatherVV | vrgatherVX | vrgatherVI =>
    exact VectorOutcome.onHart e (.vector (isFloatWord_opV ..) fun _ => .writeGroup)
  case vaddVX | vaddVI | vsllVV | vsllVI =>
    exact VectorOutcome.onHart e (.vector (isFloatWord_opV ..) fun _ => .ifRegular .writeGroup)
  case vadcVVM | vadcVXM | vadcVIM | vsbcVVM | vsbcVXM =>
    exact VectorOutcome.onHart e (.vector (isFloatWord_opV ..) fun _ => .unlessDivided .writeGroup)
  case vmadcVVM | vmadcVXM | vmadcVIM | vmsbcVVM | vmsbcVXM =>
    exact VectorOutcome.onHart e (.vector (isFloatWord_opV ..) fun _ => .unlessDivided .writeMask)
  case vredsumVS => exact VectorOutcome.onHart e (.vector (isFloatWord_opV ..) fun _ => .unlessDivided .intReduction)
  case vredandVS | vredorVS | vredxorVS | vredminuVS | vredminVS | vredmaxuVS | vredmaxVS | vwredsumuVS | vwredsumVS =>
    exact VectorOutcome.onHart e (.vector (isFloatWord_opV ..) fun _ => .intReduction)
  case vfredsumVS | vfredosumVS | vfredminVS | vfredmaxVS =>
    exact VectorOutcome.onHart e (.vector (isFloatWord_opV ..) fun _ => .fpReduction)
  case vfwredsumVS | vfwredosumVS => exact VectorOutcome.onHart e (.vector (isFloatWord_opV ..) fun _ => .fpWidening)
  case vdotuVV | vdotVV => exact VectorOutcome.onHart e (.vectorNew fun _ => .writeGroup)
  case vfdotVV => exact execVfdotVV_eq_next e
  case vsetvli | vsetvl | addi | lw | sw | bne => cases hi

/-! ### The scaffold (R290 to R293) -/

/-- A write of an integer register that moves `pc` on changes neither memory nor `vl` and `vtype`. -/
theorem baseStep_of_writeX_advance (h : Hart c) (rd : RegNo) (a : BitVec c.XLEN) :
    BaseStep h (h.writeX rd a).advance :=
  ⟨by simp, by simp, by simp, fun _ p _ => by simpa using p⟩

theorem execAddi_eq_next {rd rs1 : RegNo} {imm : BitVec 12} {s s' : State} (e : execAddi rd rs1 imm s = .next s') :
    ∃ t, s' = ⟨s.cfg, s.plat, t⟩ ∧ BaseStep s.hart t := by
  cases e
  exact ⟨_, rfl, baseStep_of_writeX_advance ..⟩

theorem execLw_eq_next {rd rs1 : RegNo} {imm : BitVec 12} {s s' : State} (e : execLw rd rs1 imm s = .next s') :
    ∃ t, s' = ⟨s.cfg, s.plat, t⟩ ∧ BaseStep s.hart t := by
  obtain ⟨t, ht, rfl⟩ := State.onHart_eq_next e
  refine ⟨t, rfl, ?_⟩
  split_ifs at ht <;> cases ht
  exact baseStep_of_writeX_advance ..

theorem execSw_eq_next {rs2 rs1 : RegNo} {imm : BitVec 12} {s s' : State} (e : execSw rs2 rs1 imm s = .next s') :
    ∃ t, s' = ⟨s.cfg, s.plat, t⟩ ∧ BaseStep s.hart t := by
  obtain ⟨t, ht, rfl⟩ := State.onHart_eq_next e
  refine ⟨t, rfl, ?_⟩
  split_ifs at ht <;> cases ht
  exact ⟨rfl, rfl, rfl, fun _ p hs => hs _ _ _ _ p⟩

/-- A branch that is not taken moves `pc` on; one that is taken has an aligned target (R293). -/
theorem execBne_eq_next {rs1 rs2 : RegNo} {offset : BitVec 13} {s s' : State}
    (e : execBne rs1 rs2 offset s = .next s') :
    ∃ t, s' = ⟨s.cfg, s.plat, t⟩ ∧ (BaseStep s.hart t ∨ ∃ a, a.toNat % 4 = 0 ∧ t = s.hart.setPc a) := by
  obtain ⟨t, ht, rfl⟩ := State.onHart_eq_next e
  refine ⟨t, rfl, ?_⟩
  split_ifs at ht with heq hal <;> cases ht
  · exact .inl ⟨rfl, rfl, rfl, fun _ p _ => p⟩
  · exact .inr ⟨_, not_not.1 hal, rfl⟩

theorem VectorStep.baseStep {h t : Hart c} {flags : BitVec 5} (e : VectorStep h t flags) : BaseStep h t := by
  obtain ⟨v, rfl⟩ := e
  exact ⟨rfl, rfl, rfl, fun _ p _ => p⟩

/-- What an instruction of the opcode table can do to what the invariant speaks of: keep the shape of a base instruction,
branch to an aligned target, or configure `vl` and `vtype`. -/
theorem exec_eq_next {i : Instr} {s s' : State} (e : exec i s = .next s') :
    ∃ t, s' = ⟨s.cfg, s.plat, t⟩ ∧
      (BaseStep s.hart t ∨ (∃ a, a.toNat % 4 = 0 ∧ t = s.hart.setPc a) ∨
        ∃ rd rs1 request, i.isConfig = true ∧ s.hart.setVectorConfig rd rs1 request = .next t) := by
  by_cases hi : i.isVector = true
  · obtain ⟨t, flags, rfl, hv⟩ := exec_vector_eq_next hi e
    exact ⟨t, rfl, .inl hv.baseStep⟩
  · cases i
    case vsetvli | vsetvl =>
      obtain ⟨t, ht, rfl⟩ := State.onHart_eq_next e
      exact ⟨t, rfl, .inr (.inr ⟨_, _, _, rfl, ht⟩)⟩
    case addi =>
      obtain ⟨t, rfl, hb⟩ := execAddi_eq_next e
      exact ⟨t, rfl, .inl hb⟩
    case lw =>
      obtain ⟨t, rfl, hb⟩ := execLw_eq_next e
      exact ⟨t, rfl, .inl hb⟩
    case sw =>
      obtain ⟨t, rfl, hb⟩ := execSw_eq_next e
      exact ⟨t, rfl, .inl hb⟩
    case bne =>
      obtain ⟨t, rfl, hb⟩ := execBne_eq_next e
      exact ⟨t, rfl, hb.imp_right .inl⟩
    all_goals exact absurd rfl hi

end Sys2Proof.Machine
end

section
/-! O58. Every step keeps the parameters and the invariant. -/

namespace Sys2Proof.Machine

variable {c : Config}

/-- `pc + 4` wraps at a multiple of 4 (R22). -/
theorem toNat_add_four_mod (pc : BitVec c.XLEN) : (pc + 4).toNat % 4 = pc.toNat % 4 := by
  have hd : 4 ∣ 2 ^ c.XLEN := by unfold Config.XLEN; cases c.xlen <;> decide
  have h4 : (4 : BitVec c.XLEN).toNat % 4 = 0 := Nat.mod_mod_of_dvd 4 hd
  rw [BitVec.toNat_add, Nat.mod_mod_of_dvd _ hd, Nat.add_mod, h4, Nat.add_zero, Nat.mod_mod]

theorem Hart.vlBounded_iff_of_supported {h : Hart c} {vc : VConf} (hv : vconf c h.vtype = some vc) :
    h.vlBounded ↔ h.vl.toNat ≤ vc.vlmax c := by
  unfold Hart.vlBounded
  rw [hv]

theorem Hart.vlBounded_iff_of_unsupported {h : Hart c} (hv : vconf c h.vtype = none) : h.vlBounded ↔ h.vl = 0 := by
  unfold Hart.vlBounded
  rw [hv]

/-- An instruction that leaves `vl` and `vtype` alone keeps the invariant if `pc` and memory do. -/
theorem Inv.of_same_vtype_vl {s : State} (inv : Inv s) {t : Hart s.cfg} (hpc : t.pc.toNat % 4 = 0)
    (hvtype : t.vtype = s.hart.vtype) (hvl : t.vl = s.hart.vl) (hwf : t.mem.wf = true)
    (hbound : ∀ e ∈ t.mem, e.1 < 2 ^ s.cfg.XLEN) : Inv ⟨s.cfg, s.plat, t⟩ where
  pcAligned := hpc
  xZero := t.readX_zero
  memWf := hwf
  memBounded := hbound
  vtypeLegal := by simpa only [Hart.vtypeLegal, hvtype] using inv.vtypeLegal
  vlBounded := by simpa only [Hart.vlBounded, hvtype, hvl] using inv.vlBounded

/-- An instruction with the shape of a base instruction keeps the invariant: memory is what stores leave (R52). -/
theorem Inv.of_baseStep {s : State} (inv : Inv s) {t : Hart s.cfg} (b : BaseStep s.hart t) :
    Inv ⟨s.cfg, s.plat, t⟩ :=
  inv.of_same_vtype_vl (by rw [b.pc, toNat_add_four_mod, inv.pcAligned]) b.vtype b.vl
    (b.mem (fun m => m.wf = true) inv.memWf fun _ addr n v => wf_memStore addr n v)
    (b.mem (fun m => ∀ e ∈ m, e.1 < 2 ^ s.cfg.XLEN) inv.memBounded fun _ addr n v => bounded_memStore addr n v)

/-- A taken branch keeps the invariant (R293). -/
theorem Inv.of_setPc {s : State} (inv : Inv s) {a : BitVec s.cfg.XLEN} (ha : a.toNat % 4 = 0) :
    Inv ⟨s.cfg, s.plat, s.hart.setPc a⟩ := inv.of_same_vtype_vl ha rfl rfl inv.memWf inv.memBounded

/-- `vsetvli` and `vsetvl` leave a legal `vtype` and a `vl` of at most VLMAX (R32, R106). -/
theorem Hart.setVectorConfig_legal {h t : Hart c} {rd rs1 : RegNo} {request : BitVec c.XLEN}
    (e : h.setVectorConfig rd rs1 request = .next t) : t.vtypeLegal ∧ t.vlBounded := by
  obtain ⟨_, ⟨_, rfl⟩ | ⟨vc, n, hv, rfl, rfl⟩⟩ := Hart.setVectorConfig_eq_next e
  · exact ⟨.inr (by simp), (Hart.vlBounded_iff_of_unsupported (by simp)).2 (by simp)⟩
  · refine ⟨.inl ⟨vc, by simpa using hv⟩, (Hart.vlBounded_iff_of_supported (vc := vc) (by simpa using hv)).2 ?_⟩
    calc _ = setvl c (if rs1 = 0 then vc.vlmax c else (h.readX rs1).toNat) (vc.vlmax c) % 2 ^ c.XLEN := by simp
      _ ≤ _ := Nat.mod_le _ _
      _ ≤ vc.vlmax c := setvl_le ..

/-- `vsetvli` and `vsetvl` move `pc` on and leave memory alone (R106). -/
theorem Hart.setVectorConfig_pc_mem {h t : Hart c} {rd rs1 : RegNo} {request : BitVec c.XLEN}
    (e : h.setVectorConfig rd rs1 request = .next t) : t.pc = h.pc + 4 ∧ t.mem = h.mem := by
  obtain ⟨_, ⟨_, rfl⟩ | ⟨_, _, _, _, rfl⟩⟩ := Hart.setVectorConfig_eq_next e
  · simp
  · simp

theorem Inv.of_setVectorConfig {s : State} (inv : Inv s) {t : Hart s.cfg} {rd rs1 : RegNo} {request : BitVec s.cfg.XLEN}
    (e : s.hart.setVectorConfig rd rs1 request = .next t) : Inv ⟨s.cfg, s.plat, t⟩ := by
  obtain ⟨hlegal, hbound⟩ := Hart.setVectorConfig_legal e
  obtain ⟨hpc, hmem⟩ := Hart.setVectorConfig_pc_mem e
  exact
    { pcAligned := by
        show t.pc.toNat % 4 = 0
        rw [hpc, toNat_add_four_mod, inv.pcAligned]
      xZero := t.readX_zero
      memWf := by simpa only [hmem] using inv.memWf
      memBounded := by simpa only [hmem] using inv.memBounded
      vtypeLegal := hlegal
      vlBounded := hbound }

/-- An instruction of the opcode table keeps the parameters and the invariant. -/
theorem exec_keeps_inv {i : Instr} {s s' : State} (e : exec i s = .next s') :
    s'.cfg = s.cfg ∧ s'.plat = s.plat ∧ (Inv s → Inv s') := by
  obtain ⟨t, rfl, hb | ⟨a, ha, rfl⟩ | ⟨_, _, _, _, hc⟩⟩ := exec_eq_next e
  · exact ⟨rfl, rfl, fun inv => inv.of_baseStep hb⟩
  · exact ⟨rfl, rfl, fun inv => inv.of_setPc ha⟩
  · exact ⟨rfl, rfl, fun inv => inv.of_setVectorConfig hc⟩

/-- Settles O58, by what a step that goes on can have done. -/
theorem stepKeepsInvariant : Obligations.StepKeepsInvariant := by
  intro s s' e
  obtain rfl | ⟨i, e⟩ | ⟨op, w, e⟩ := step_eq_next e
  · exact ⟨rfl, rfl, id⟩
  · exact exec_keeps_inv e
  · obtain ⟨t, rfl, hb⟩ := execBase_eq_next e
    exact ⟨rfl, rfl, fun inv => inv.of_baseStep hb⟩

end Sys2Proof.Machine
end

section
/-! O5. The fields of `vtype` as numbers, layout by layout (R30, R31), and when a value is supported (R106). -/

namespace Sys2Proof.Machine

variable {c : Config}

/-! ### The fields (R30) -/

theorem toNat_vlmulField_l08 {n : Nat} (t : BitVec n) : (vlmulField .l08 t).toNat = t.toNat % 4 := by
  refine (BitVec.toNat_append (0#1) (t.extractLsb' 0 2)).trans ?_
  simp

theorem toNat_vlmulField_l09 {n : Nat} (t : BitVec n) :
    (vlmulField .l09 t).toNat = t.toNat % 4 + 4 * (t.toNat / 32 % 2) := by
  have hlow : t.toNat % 4 < 2 ^ 2 := Nat.mod_lt _ (by decide)
  calc (vlmulField .l09 t).toNat = (t.toNat / 32 % 2) <<< 2 ||| t.toNat % 4 := by
        refine (BitVec.toNat_append (t.extractLsb' 5 1) (t.extractLsb' 0 2)).trans ?_
        simp [Nat.shiftRight_eq_div_pow]
    _ = (t.toNat / 32 % 2) <<< 2 + t.toNat % 4 := (Nat.shiftLeft_add_eq_or_of_lt hlow _).symm
    _ = _ := by omega

theorem toNat_vlmulField_l10 {n : Nat} (t : BitVec n) : (vlmulField .l10 t).toNat = t.toNat % 8 := by
  simp [vlmulField]

theorem toNat_vsewField {n : Nat} (l : VtypeLayout) (t : BitVec n) :
    (vsewField l t).toNat = t.toNat / (if l = .l10 then 8 else 4) % 8 := by
  cases l <;> simp [vsewField, Nat.shiftRight_eq_div_pow]

theorem toNat_vedivField {n : Nat} (l : VtypeLayout) (t : BitVec n) :
    (vedivField l t).toNat = t.toNat / (if l = .l08 then 32 else 256) % 4 := by
  cases l <;> simp [vedivField, Nat.shiftRight_eq_div_pow]

theorem vtaField_eq {n : Nat} (l : VtypeLayout) (t : BitVec n) :
    vtaField l t = (l != .l08 && t.toNat / 64 % 2 == 1) := by
  rw [Bool.eq_iff_iff]
  cases l <;> simp [vtaField, BitVec.getLsbD, Nat.testBit_eq_decide_div_mod_eq]

theorem vmaField_eq {n : Nat} (l : VtypeLayout) (t : BitVec n) :
    vmaField l t = (l != .l08 && t.toNat / 128 % 2 == 1) := by
  rw [Bool.eq_iff_iff]
  cases l <;> simp [vmaField, BitVec.getLsbD, Nat.testBit_eq_decide_div_mod_eq]

/-! ### The bits that must be zero (R30, R32) -/

/-- The top bit and all bits from `k` up to it are zero when the value is below `2 ^ k`. -/
theorem msb_false_and_extractLsb'_zero_iff {n k : Nat} (hk : k < n) (t : BitVec n) :
    (t.msb = false ∧ t.extractLsb' k (n - (k + 1)) = 0) ↔ t.toNat < 2 ^ k := by
  have hn : 2 ^ (n - 1) = 2 ^ k * 2 ^ (n - (k + 1)) := by rw [← pow_add]; congr 1; omega
  have hmsb : t.msb = false ↔ t.toNat / 2 ^ k < 2 ^ (n - (k + 1)) := by
    rw [BitVec.msb_eq_false_iff_two_mul_lt, Nat.div_lt_iff_lt_mul (Nat.two_pow_pos k), Nat.mul_comm (2 ^ _), ← hn]
    have : 2 ^ n = 2 * 2 ^ (n - 1) := by rw [← pow_succ']; congr 1; omega
    omega
  have hext : t.extractLsb' k (n - (k + 1)) = 0 ↔ t.toNat / 2 ^ k % 2 ^ (n - (k + 1)) = 0 := by
    rw [← BitVec.toNat_inj, BitVec.extractLsb'_toNat, Nat.shiftRight_eq_div_pow]; rfl
  rw [hmsb, hext, ← Nat.div_eq_zero_iff_lt (Nat.two_pow_pos k)]
  constructor
  · rintro ⟨hlt, hz⟩
    rwa [Nat.mod_eq_of_lt hlt] at hz
  · intro hz
    simp [hz]

/-- `vill` and the reserved bits are zero when the value has no bit beyond the fields of its layout. -/
theorem msb_false_and_reservedZero_iff (l : VtypeLayout) (t : BitVec c.XLEN) :
    (t.msb = false ∧ reservedZero l t = true) ↔ t.toNat < (if l = .l08 then 128 else 1024) := by
  have hx : 32 ≤ c.XLEN := by unfold Config.XLEN; cases c.xlen <;> decide
  cases l
  case l08 =>
    simpa [reservedZero] using msb_false_and_extractLsb'_zero_iff (k := 7) (by omega) t
  case l09 | l10 =>
    simpa [reservedZero] using msb_false_and_extractLsb'_zero_iff (k := 10) (by omega) t

/-! ### LMUL and the limits (R31, R106) -/

/-- The table of R31: the number in `vlmul` with the numerator and the denominator of LMUL. -/
theorem decodeLmul_eq_some_iff (v : BitVec 3) (l : Lmul) :
    decodeLmul v = some l ↔ (v.toNat, l.num, l.den) ∈
      [(0, 1, 1), (1, 2, 1), (2, 4, 1), (3, 8, 1), (5, 1, 8), (6, 1, 4), (7, 1, 2)] := by
  revert v
  cases l <;> decide

theorem VConf.withinLimits_iff (vc : VConf) :
    vc.withinLimits c = true ↔
      vc.sew * vc.lmul.den ≤ c.ELEN ∧ vc.sew * vc.lmul.den ≤ c.VLEN ∧ c.SELEN ≤ vc.sew / vc.ediv := by
  simp only [VConf.withinLimits, Bool.and_eq_true, decide_eq_true_eq, le_min_iff, and_assoc]
  rfl

/-- `supported(t)` of R106, the fields read as the layout says: `vconf_eq_some` and its converse. -/
theorem vconf_eq_some_iff {t : BitVec c.XLEN} {vc : VConf} :
    vconf c t = some vc ↔
      vc.ediv = decodeEdiv (vedivField c.layout t) ∧ vc.sew = decodeSew (vsewField c.layout t) ∧
        decodeLmul (vlmulField c.layout t) = some vc.lmul ∧
        vc.vta = vtaField c.layout t ∧ vc.vma = vmaField c.layout t ∧
        (t.msb = false ∧ reservedZero c.layout t = true) ∧ vc.withinLimits c = true := by
  constructor
  · intro e
    obtain ⟨hvill, hres, hlmul, hsew, hediv, hvta, hvma, hlim⟩ := vconf_eq_some e
    exact ⟨hediv, hsew, hlmul, hvta, hvma, ⟨hvill, hres⟩, hlim⟩
  · obtain ⟨sew, lmul, ediv, vta, vma⟩ := vc
    rintro ⟨rfl, rfl, hlmul, rfl, rfl, ⟨hvill, hres⟩, hlim⟩
    dsimp only at hlmul hlim
    simp [vconf, hvill, hres, hlmul, hlim]

/-- Settles O5: each field is the number that the layout says, and `vconf` answers exactly where they are admitted. -/
theorem vtypeFieldsGiveEdivAndSew : Obligations.VtypeFieldsGiveEdivAndSew := by
  intro c t vc
  rw [vconf_eq_some_iff, decodeEdiv, toNat_vedivField, decodeSew, toNat_vsewField, decodeLmul_eq_some_iff, vtaField_eq,
    vmaField_eq, msb_false_and_reservedZero_iff, VConf.withinLimits_iff]
  cases c.layout
  case l08 => rw [toNat_vlmulField_l08]
  case l09 => rw [toNat_vlmulField_l09]
  case l10 => rw [toNat_vlmulField_l10]

end Sys2Proof.Machine
end

section
/-! O44. What a vector instruction of the opcode table does when it faults (R81, R240, R244). `FaultsIllegal` holds of the
writes and is kept by the guards, as `VectorOutcome` is for what goes on. -/

namespace Sys2Proof.Machine

variable {c : Config}

/-- If the outcome is a fault, its code is that of IllegalInstruction. -/
def FaultsIllegal (r : HartOutcome c) : Prop := ∀ f, r = .fault f → faultCode f = 2

namespace FaultsIllegal

variable {h : Hart c} {vc : VConf} {word : Word32} {run : HartOutcome c} {vd vs2 vs1 : RegNo} {vm : BitVec 1}

/-! ### The ends of an instruction -/

theorem next {t : Hart c} : FaultsIllegal (.next t) := by rintro _ ⟨⟩

theorem refuse {reason : Nat → Refusal} : FaultsIllegal (h.refuse reason) := by rintro _ ⟨⟩

theorem raise : FaultsIllegal (h.raise (.illegalInstruction word)) := by
  rintro _ ⟨⟩
  rfl

theorem reservedEncoding {reason : ReservedReason} : FaultsIllegal (h.reservedEncoding reason word) := by
  rintro _ ⟨⟩
  rfl

/-! ### The guards -/

theorem ifRegular {m : RegularExtra} (hr : FaultsIllegal run) : FaultsIllegal (h.ifRegular vc m run) := by
  unfold Hart.ifRegular
  split_ifs
  exacts [hr, refuse, refuse, hr]

theorem unlessDivided {reason : ReservedReason} (hr : FaultsIllegal run) :
    FaultsIllegal (h.unlessDivided vc reason word run) := by
  unfold Hart.unlessDivided
  split_ifs
  exacts [reservedEncoding, hr]

theorem ifStartZero (hr : FaultsIllegal run) : FaultsIllegal (h.ifStartZero vc word run) := by
  unfold Hart.ifStartZero
  split_ifs
  exacts [hr, raise, refuse]

/-! ### The shapes -/

theorem intReduction {op : RedOp} {w1 w : Nat} {signed : Bool} :
    FaultsIllegal (h.intReduction vc word op w1 w signed vd vs2 vs1 vm) := by
  refine ifStartZero ?_
  split_ifs
  exacts [next, next]

theorem fpReduction {op : FpRedOp} {f : Nat} {box : Nat → BitVec f → BitVec vc.sew} :
    FaultsIllegal (h.fpReduction vc word op f box vd vs2 vs1 vm) := by
  unfold Hart.fpReduction
  split
  · exact refuse
  · refine ifStartZero ?_
    split
    exacts [next, next]

theorem fpWidening {op : FpRedOp} : FaultsIllegal (h.fpWidening vc word op vd vs2 vs1 vm) := by
  unfold Hart.fpWidening
  split
  exacts [refuse, fpReduction]

end FaultsIllegal

/-! ### The checks of R81 -/

/-- The outcome of an instruction with the word `w` that is subject to the checks of R81: IllegalInstruction where `vtype`
is not supported, and no other exception anywhere. -/
structure VectorChecked (s : State) (w : Word32) (r : Host.Outcome State Fault Refusal) : Prop where
  unsupported : vconf s.cfg s.hart.vtype = none → r = .fault (.trap (.illegalInstruction w) s.hart.pc.toNat)
  faults : ∀ f, r = .fault f → faultCode f = 2

theorem State.onHart_eq_fault {s : State} {r : HartOutcome s.cfg} {f : Fault} (e : s.onHart r = .fault f) :
    r = .fault f := by
  cases r <;> cases e
  rfl

namespace VectorChecked

variable {s : State} {w : Word32} {legal : VConf → Bool} {body : VConf → HartOutcome s.cfg}

/-- An instruction that the source adds has its own rule behind the checks. -/
theorem vectorNew (hb : ∀ vc, FaultsIllegal (body vc)) : VectorChecked s w (s.onHart (s.hart.vectorNew w legal body)) where
  unsupported hv := congrArg s.onHart (Hart.vectorAt_of_unsupported hv)
  faults f e := by
    obtain rfl | ⟨vc, _, e⟩ := Hart.vectorAt_eq_fault (State.onHart_eq_fault e)
    · rfl
    · exact hb vc f e

/-- A base instruction has its own rule or Base.exec behind them, which raises no other exception either (log 35). -/
theorem vector (hb : ∀ vc, FaultsIllegal (body vc)) : VectorChecked s w (s.onHart (s.hart.vector w legal body)) :=
  vectorNew fun vc f e => by
    split at e
    · rw [Hart.baseVector_eq_fault e]
      rfl
    · exact hb vc f e

end VectorChecked

/-- `vfdot.vv` is refused where it does not run (R231, R233). -/
theorem execVfdotVV_checked {vd vs2 vs1 : RegNo} {vm : BitVec 1} {s : State} :
    VectorChecked s (encodeWith s.cfg.dot (.vfdotVV vd vs2 vs1 vm)) (execVfdotVV vd vs2 vs1 vm s) := by
  refine .vectorNew fun vc => ?_
  split
  · exact .refuse
  · split
    · exact .refuse
    · split
      exacts [.refuse, .next]

/-- Every vector instruction of the opcode table is subject to the checks of R81 and raises IllegalInstruction only. -/
theorem exec_vector_checked {i : Instr} (hi : i.isVector = true) (s : State) :
    VectorChecked s (encodeWith s.cfg.dot i) (exec i s) := by
  cases i
  case vaddVV | vsllVX | vrgatherVV | vrgatherVX | vrgatherVI => exact .vector fun _ => .next
  case vaddVX | vaddVI | vsllVV | vsllVI => exact .vector fun _ => .ifRegular .next
  case vadcVVM | vadcVXM | vadcVIM | vsbcVVM | vsbcVXM | vmadcVVM | vmadcVXM | vmadcVIM | vmsbcVVM | vmsbcVXM =>
    exact .vector fun _ => .unlessDivided .next
  case vredsumVS => exact .vector fun _ => .unlessDivided .intReduction
  case vredandVS | vredorVS | vredxorVS | vredminuVS | vredminVS | vredmaxuVS | vredmaxVS | vwredsumuVS | vwredsumVS =>
    exact .vector fun _ => .intReduction
  case vfredsumVS | vfredosumVS | vfredminVS | vfredmaxVS => exact .vector fun _ => .fpReduction
  case vfwredsumVS | vfwredosumVS => exact .vector fun _ => .fpWidening
  case vdotuVV | vdotVV => exact .vectorNew fun _ => .next
  case vfdotVV => exact execVfdotVV_checked
  case vsetvli | vsetvl | addi | lw | sw | bne => cases hi

/-- Settles O44, by the checks that every vector instruction makes before its own rule. -/
theorem unsupportedVtypeTraps : Obligations.UnsupportedVtypeTraps :=
  fun s _ hi => ⟨(exec_vector_checked hi s).unsupported, (exec_vector_checked hi s).faults⟩

end Sys2Proof.Machine
end

section
/-! O59, O60. What the instructions leave alone: `vl` and `vtype`, and the frame of the opcode table. -/

namespace Sys2Proof.Machine

variable {c : Config}

/-- Settles O59: what goes on without configuring has the shape of a base instruction or is a taken branch. -/
theorem onlyConfigWritesVlAndVtype : Obligations.OnlyConfigWritesVlAndVtype := by
  rintro s s' (⟨i, hi, e⟩ | ⟨op, w, e⟩)
  · obtain ⟨t, rfl, hb | ⟨_, _, rfl⟩ | ⟨_, _, _, hc, _⟩⟩ := exec_eq_next e
    · exact ⟨t, rfl, hb.vl, hb.vtype⟩
    · exact ⟨_, rfl, rfl, rfl⟩
    · cases hc.symm.trans hi
  · obtain ⟨t, rfl, hb⟩ := execBase_eq_next e
    exact ⟨t, rfl, hb.vl, hb.vtype⟩

/-! ### The vector instructions (R20, R27, R35) -/

theorem VectorStep.stored {h t : Hart c} {flags : BitVec 5} (e : VectorStep h t flags) : t.stored = h.stored := by
  obtain ⟨_, rfl⟩ := e
  rfl

/-- Flags that are accrued take none away (R35). -/
theorem accrued_and_self {w : Nat} (a b : BitVec w) : (a ||| b) &&& a = a := by
  ext k
  simp +contextual

/-! ### The configuration (R106) -/

theorem Hart.setVectorConfig_vstart_pc_stored {h t : Hart c} {rd rs1 : RegNo} {request : BitVec c.XLEN}
    (e : h.setVectorConfig rd rs1 request = .next t) : t.vstart = 0 ∧ t.pc = h.pc + 4 ∧ t.stored = h.stored := by
  obtain ⟨_, ⟨_, rfl⟩ | ⟨_, _, _, _, rfl⟩⟩ := Hart.setVectorConfig_eq_next e
  · simp
  · simp

theorem exec_config_eq_next {i : Instr} {s s' : State} (hi : i.isConfig = true) (e : exec i s = .next s') :
    ∃ t, s' = ⟨s.cfg, s.plat, t⟩ ∧ t.vstart = 0 ∧ t.pc = s.hart.pc + 4 ∧ t.stored = s.hart.stored := by
  cases i
  case vsetvli | vsetvl =>
    obtain ⟨t, ht, rfl⟩ := State.onHart_eq_next e
    exact ⟨t, rfl, Hart.setVectorConfig_vstart_pc_stored ht⟩
  all_goals cases hi

/-! ### The scaffold (R290 to R293) -/

/-- No scaffold instruction writes `vstart` (R27), and only `sw` stores (log 4). -/
theorem exec_scaffold_eq_next {i : Instr} {s s' : State} (hv : i.isVector = false) (hc : i.isConfig = false)
    (e : exec i s = .next s') :
    ∃ t, s' = ⟨s.cfg, s.plat, t⟩ ∧ t.vstart = s.hart.vstart ∧ (i.isStore = false → t.stored = s.hart.stored) := by
  cases i
  case addi =>
    cases e
    exact ⟨_, rfl, by simp, fun _ => by simp⟩
  case lw =>
    obtain ⟨t, ht, rfl⟩ := State.onHart_eq_next e
    refine ⟨t, rfl, ?_⟩
    split_ifs at ht <;> cases ht
    exact ⟨by simp, fun _ => by simp⟩
  case sw =>
    obtain ⟨t, ht, rfl⟩ := State.onHart_eq_next e
    refine ⟨t, rfl, ?_⟩
    split_ifs at ht <;> cases ht
    exact ⟨rfl, fun hs => nomatch hs⟩
  case bne =>
    obtain ⟨t, ht, rfl⟩ := State.onHart_eq_next e
    refine ⟨t, rfl, ?_⟩
    split_ifs at ht <;> cases ht <;> exact ⟨rfl, fun _ => rfl⟩
  case vsetvli | vsetvl => cases hc
  all_goals cases hv

/-- Settles O60, class by class: the vector instructions, the configuration, the scaffold. -/
theorem vectorInstructionFrame : Obligations.VectorInstructionFrame := by
  intro i s s' e
  by_cases hv : i.isVector = true
  · obtain ⟨t, flags, rfl, hstep⟩ := exec_vector_eq_next hv e
    have hdone := hstep.completed
    refine ⟨t, rfl, fun _ => ⟨hdone.vstart, hdone.pc⟩, fun hn => absurd hn (by simp [hv]),
      fun _ => hstep.stored, fun _ => ⟨hdone.same, ?_, fun hf => ?_⟩⟩
    · rw [hdone.fflags, accrued_and_self]
    · simpa [hf] using hdone.fflags
  · by_cases hc : i.isConfig = true
    · obtain ⟨t, rfl, hvstart, hpc, hstored⟩ := exec_config_eq_next hc e
      exact ⟨t, rfl, fun _ => ⟨hvstart, hpc⟩, fun _ hn => absurd hn (by simp [hc]), fun _ => hstored,
        fun h => absurd h hv⟩
    · obtain ⟨t, rfl, hvstart, hstored⟩ := exec_scaffold_eq_next (by simpa using hv) (by simpa using hc) e
      exact ⟨t, rfl, fun h => (h.elim hv hc).elim, fun _ _ => hvstart, hstored, fun h => absurd h hv⟩

end Sys2Proof.Machine
end

section
/-! O54, O57. The CSR accesses of `vtype`, `vl` and `vstart`, and the invariant at reset. -/

namespace Sys2Proof.Machine

variable {c : Config}

/-! ### The numbers of R33 -/

@[simp] theorem Hart.readCsr_vstart (h : Hart c) : h.readCsr 0x008#12 = some h.vstart := rfl
@[simp] theorem Hart.readCsr_vl (h : Hart c) : h.readCsr 0xC20#12 = some h.vl := by simp [Hart.readCsr]
@[simp] theorem Hart.readCsr_vtype (h : Hart c) : h.readCsr 0xC21#12 = some h.vtype := by simp [Hart.readCsr]
@[simp] theorem Hart.writeCsr_vstart (h : Hart c) (a : BitVec c.XLEN) :
    h.writeCsr 0x008#12 a = some { h with vstart := a } := rfl
@[simp] theorem Hart.writeCsr_vl (h : Hart c) (a : BitVec c.XLEN) : h.writeCsr 0xC20#12 a = none := by
  simp [Hart.writeCsr]
@[simp] theorem Hart.writeCsr_vtype (h : Hart c) (a : BitVec c.XLEN) : h.writeCsr 0xC21#12 a = none := by
  simp [Hart.writeCsr]

/-! ### The accesses -/

/-- A write of an integer register that moves `pc` on leaves the vector and floating-point state alone. -/
theorem sameVector_writeX_advance (h : Hart c) (rd : RegNo) (a : BitVec c.XLEN) :
    SameVector h (h.writeX rd a).advance := by
  constructor <;> simp

theorem xWritten_writeX_advance (h : Hart c) (rd : RegNo) (a : BitVec c.XLEN) :
    XWritten h (h.writeX rd a).advance rd a := fun q => by
  rw [Hart.advance_readX, Hart.readX_writeX]

/-- A read of a control register that the spec describes puts its value into `x[rd]`. -/
theorem execBase_csrr_of_readCsr {s : State} {w : Word32} {a : BitVec s.cfg.XLEN}
    (hr : s.hart.readCsr (fImmI w) = some a) :
    ∃ t, execBase .csrr w s = .next ⟨s.cfg, s.plat, t⟩ ∧ XWritten s.hart t (fRd w) a ∧ SameVector s.hart t :=
  ⟨(s.hart.writeX (fRd w) a).advance, by simp only [execBase, Hart.runCsrr, hr, State.onHart_next],
    xWritten_writeX_advance s.hart (fRd w) a, sameVector_writeX_advance ..⟩

/-- A write of a writable control register. -/
theorem execBase_csrw_of_writeCsr {s : State} {w : Word32} {h : Hart s.cfg}
    (hw : s.hart.writeCsr (fImmI w) (s.hart.readX (fRs1 w)) = some h) :
    execBase .csrw w s = .next ⟨s.cfg, s.plat, h.advance⟩ := by
  simp only [execBase, Hart.runCsrw, hw, State.onHart_next]

/-- A write of a control register that can only be read is illegal. -/
theorem execBase_csrw_of_readOnly {s : State} {w : Word32} {a : BitVec s.cfg.XLEN}
    (hw : s.hart.writeCsr (fImmI w) (s.hart.readX (fRs1 w)) = none) (hr : s.hart.readCsr (fImmI w) = some a) :
    execBase .csrw w s = .fault (.trap (.illegalInstruction w) s.hart.pc.toNat) := by
  simp only [execBase, Hart.runCsrw, hw, hr, Hart.raise, State.onHart_fault]

/-- Settles O54: each access by the number of its register. -/
theorem csrAccess : Obligations.CsrAccess := by
  intro s w
  refine ⟨fun hn => execBase_csrr_of_readCsr (by simp [hn]), fun hn => execBase_csrr_of_readCsr (by simp [hn]),
    fun hn => execBase_csrr_of_readCsr (by simp [hn]), fun hn => ?_, ?_⟩
  · have hw : s.hart.writeCsr (fImmI w) (s.hart.readX (fRs1 w)) =
        some { s.hart with vstart := s.hart.readX (fRs1 w) } := by rw [hn, Hart.writeCsr_vstart]
    exact ⟨_, execBase_csrw_of_writeCsr hw, rfl, rfl, rfl, rfl⟩
  · rintro (hn | hn)
    · exact execBase_csrw_of_readOnly (by simp [hn]) (by rw [hn, Hart.readCsr_vtype])
    · exact execBase_csrw_of_readOnly (by simp [hn]) (by rw [hn, Hart.readCsr_vl])

/-! ### Reset (R41, R270) -/

/-- The setting of the `vtype` value that reset leaves. -/
theorem vconf_reset : vconf State.reset.cfg State.reset.hart.vtype = some ⟨8, .m1, 1, false, false⟩ := by decide

/-- Settles O57: after reset memory lists nothing, `vtype` is supported and `vl` is zero. -/
theorem invariantAtReset : Obligations.InvariantAtReset where
  pcAligned := by decide
  xZero := Hart.readX_zero _
  memWf := rfl
  memBounded := by rintro _ ⟨⟩
  vtypeLegal := .inl ⟨_, vconf_reset⟩
  vlBounded := (Hart.vlBounded_iff_of_supported vconf_reset).2 (Nat.zero_le _)

end Sys2Proof.Machine
end

section
/-! O50, O55, O56. A load after a store to the same address, and which branch of the step a state takes. -/

namespace Sys2Proof.Machine

variable {c : Config}

/-! ### Load and store (R52, R58, R291, R292) -/

/-- A load reads memory alone: what a store records beside it, and where `pc` stands, do not matter. -/
@[simp] theorem Hart.memRead_markStored (h : Hart c) (addrs : List (BitVec c.XLEN)) (k : Nat) (p : Platform)
    (addr : BitVec c.XLEN) (n : Nat) : (h.markStored addrs k).memRead p addr n = h.memRead p addr n := rfl

@[simp] theorem Hart.memRead_advance (h : Hart c) (p : Platform) (addr : BitVec c.XLEN) (n : Nat) :
    h.advance.memRead p addr n = h.memRead p addr n := rfl

/-- The four bytes of a word have distinct addresses, which are taken modulo 2^XLEN (R8, R52). -/
theorem four_le_two_pow_XLEN : 4 ≤ 2 ^ c.XLEN := by
  unfold Config.XLEN
  cases c.xlen <;> decide

/-- The hart after `sw` has completed (R292). -/
def Hart.afterSw (h : Hart c) (rs2 rs1 : RegNo) (imm : BitVec 12) : Hart c :=
  ((h.setMem (memStore h.mem (h.scaffoldAddr rs1 imm) 4 ((h.readX rs2).setWidth (8 * 4)))).markStored
    [h.scaffoldAddr rs1 imm] 4).advance

@[simp] theorem Hart.afterSw_readX (h : Hart c) (rs2 rs1 q : RegNo) (imm : BitVec 12) :
    (h.afterSw rs2 rs1 imm).readX q = h.readX q := rfl

@[simp] theorem Hart.afterSw_scaffoldAddr (h : Hart c) (rs2 rs1 r : RegNo) (imm i : BitVec 12) :
    (h.afterSw rs2 rs1 imm).scaffoldAddr r i = h.scaffoldAddr r i := rfl

/-- The word that `sw` stored is the one read at its address (R52, R58). -/
theorem Hart.memRead_afterSw (h : Hart c) {p : Platform} {rs2 rs1 : RegNo} {imm : BitVec 12}
    (ht : meetsText p (h.scaffoldAddr rs1 imm) 4 = false) :
    (h.afterSw rs2 rs1 imm).memRead p (h.scaffoldAddr rs1 imm) 4 = (h.readX rs2).setWidth (8 * 4) := by
  unfold Hart.afterSw
  rw [Hart.memRead_advance, Hart.memRead_markStored, Hart.memRead_memStore h _ ht four_le_two_pow_XLEN]

/-- `sw` completes at an aligned address in memory that does not meet the program text (R292). -/
theorem exec_sw_of_writable {s : State} {rs2 rs1 : RegNo} {imm : BitVec 12}
    (ha : (s.hart.scaffoldAddr rs1 imm).toNat % 4 = 0) (hm : inMemory s.plat (s.hart.scaffoldAddr rs1 imm) 4 = true)
    (ht : meetsText s.plat (s.hart.scaffoldAddr rs1 imm) 4 = false) :
    exec (.sw rs2 rs1 imm) s = .next ⟨s.cfg, s.plat, s.hart.afterSw rs2 rs1 imm⟩ := by
  simp [exec, execSw, ha, hm, ht, Hart.afterSw]

/-- `lw` completes at an aligned address in memory (R291). -/
theorem exec_lw_of_readable {s : State} {rd rs1 : RegNo} {imm : BitVec 12}
    (ha : (s.hart.scaffoldAddr rs1 imm).toNat % 4 = 0) (hm : inMemory s.plat (s.hart.scaffoldAddr rs1 imm) 4 = true) :
    exec (.lw rd rs1 imm) s = .next ⟨s.cfg, s.plat,
      (s.hart.writeX rd ((s.hart.memRead s.plat (s.hart.scaffoldAddr rs1 imm) 4).signExtend s.cfg.XLEN)).advance⟩ := by
  simp [exec, execLw, ha, hm]

/-- Settles O50: `sw` leaves the address of the load as it was, and the load finds there what `sw` stored. -/
theorem loadAfterStore : Obligations.LoadAfterStore := by
  intro s rs2 rs1 rd imm ha hm ht
  refine ⟨_, _, exec_sw_of_writable ha hm ht, exec_lw_of_readable ha hm, fun q => ?_⟩
  rw [xWritten_writeX_advance, Hart.afterSw_readX, Hart.afterSw_scaffoldAddr, Hart.memRead_afterSw _ ht]

/-! ### The branches of a fetch (R54, R248, R275, R277) -/

/-- A fetch sees modified code just when one of its bytes is outside the program text and has been stored (log 4). -/
theorem Hart.fetchesStored_iff (h : Hart c) (p : Platform) :
    h.fetchesStored p = true ↔
      ∃ k, k < 4 ∧ Memory.read p.text (byteAddr h.pc k) = none ∧ byteAddr h.pc k ∈ h.stored := by
  simp [Hart.fetchesStored]

theorem step_at_haltPc {s : State} (hh : s.plat.haltPc = some s.hart.pc.toNat) : step s = .next s :=
  if_pos hh

section

variable {s : State} (hh : s.plat.haltPc ≠ some s.hart.pc.toNat)
include hh

theorem step_outside_memory (hm : inMemory s.plat s.hart.pc 4 = false) :
    step s = .fault (.trap (.accessFault .fetch s.hart.pc.toNat) s.hart.pc.toNat) := by
  simp [step, hh, fetchAndRun, hm, Hart.raise]

theorem step_of_fetchesStored (hm : inMemory s.plat s.hart.pc 4 = true) (hs : s.hart.fetchesStored s.plat = true) :
    step s = .refused (.fetchOfStoredByte s.hart.pc.toNat) := by
  simp [step, hh, fetchAndRun, hm, hs, Hart.refuse]

/-- A fetch in memory of unmodified code runs the word it reads, and the step adds nothing to that. -/
theorem step_eq_execWord (hm : inMemory s.plat s.hart.pc 4 = true) (hs : ¬ s.hart.fetchesStored s.plat = true) :
    step s = execWord s.fetchWord s := by
  simp [step, hh, fetchAndRun, hm, hs]

end

/-! ### The meaning of a word (R80, R84) -/

theorem execWord_of_decodeWith {w : Word32} {s : State} {i : Instr} (hd : decodeWith s.cfg.dot w = some i) :
    execWord w s = exec i s := by
  simp only [execWord, hd]

theorem execWord_of_decodeBase {w : Word32} {s : State} {op : BaseOp} (hd : decodeWith s.cfg.dot w = none)
    (hb : decodeBase s.plat.baseRows w = some op) : execWord w s = execBase op w s := by
  simp only [execWord, hd, hb]

theorem execWord_of_unknown {w : Word32} {s : State} (hd : decodeWith s.cfg.dot w = none)
    (hb : decodeBase s.plat.baseRows w = none) : execWord w s = .refused (.notInScope s.hart.pc.toNat) := by
  simp only [execWord, hd, hb, Hart.refuse, State.onHart_refused]

/-- A word that encodes no instruction decodes to none, since what decodes is the encoding of its instruction. -/
theorem decodeWith_eq_none_of_not_encoded {d : DotEncoding} {w : Word32}
    (h : ∀ i : Instr, i.wellFormed = true → encodeWith d i ≠ w) : decodeWith d w = none :=
  Option.eq_none_iff_forall_ne_some.2 fun i hi =>
    have ⟨hwf, henc⟩ := encodes_of_decodeWith hi
    h i hwf henc

/-! ### The step -/

/-- Settles O55: the fetch passes both checks, and the word of the four bytes decodes to the instruction. -/
theorem stepRunsDecoded : Obligations.StepRunsDecoded := by
  intro s i hh hm hbytes byte hd
  have hs : ¬ s.hart.fetchesStored s.plat = true := by
    rw [Hart.fetchesStored_iff]
    rintro ⟨k, hk, htext, hstored⟩
    rcases hbytes k hk with hsome | hnot
    · simp [htext] at hsome
    · exact hnot hstored
  calc step s = execWord s.fetchWord s := step_eq_execWord hh hm hs
    _ = exec i s := execWord_of_decodeWith hd

/-- Settles O56, branch by branch of the step. -/
theorem stepOutsideTheTable : Obligations.StepOutsideTheTable := by
  intro s stored
  have hiff : s.hart.fetchesStored s.plat = true ↔ stored := Hart.fetchesStored_iff ..
  refine ⟨fun hh hm => step_outside_memory hh hm, fun hh hm hs => step_of_fetchesStored hh hm (hiff.2 hs),
    fun hh hm hs hw => ?_, step_at_haltPc⟩
  have hrun : step s = execWord s.fetchWord s := step_eq_execWord hh hm (mt hiff.1 hs)
  have hd : decodeWith s.cfg.dot s.fetchWord = none := decodeWith_eq_none_of_not_encoded hw
  exact ⟨fun hb => hrun.trans (execWord_of_unknown hd hb), fun _ hb => hrun.trans (execWord_of_decodeBase hd hb)⟩

end Sys2Proof.Machine
end

section
/-! O3, O4. The decoder and the rows of spec/opcode_table.json. The bits that a row's mask keeps are whole fields of the
word; the row a word decodes to depends on these fields alone, so it is the row of any instruction that shares them. -/

namespace Sys2Proof

section

variable {w mask m : Word32}

/-- A field that the mask of a row keeps is that field of the row's match. -/
theorem extractLsb'_of_match (h : w &&& mask = m) {off len : Nat} {a : BitVec len}
    (hmask : mask.extractLsb' off len = BitVec.allOnes len) (hm : m.extractLsb' off len = a) :
    w.extractLsb' off len = a := by
  rw [← hm, ← h, BitVec.extractLsb'_and, hmask, BitVec.and_allOnes]

/-- The fields that a row of R76 or R78 fixes. -/
theorem opV_fields_of_match {f6 : BitVec 6} {f3 : BitVec 3} (h : w &&& 0xFC00707F#32 = opV f6 0 0 0 f3 0) :
    fOpcode w = 0b1010111#7 ∧ fFunct3 w = f3 ∧ fFunct6 w = f6 :=
  ⟨extractLsb'_of_match h (by decide) (fOpcode_opV ..), extractLsb'_of_match h (by decide) (fFunct3_opV ..),
    extractLsb'_of_match h (by decide) (fFunct6_opV ..)⟩

/-- The fields that a row of R79 fixes. -/
theorem opI_fields_of_match {f3 : BitVec 3} {op : BitVec 7} (h : w &&& 0x0000707F#32 = opI 0 0 f3 0 op) :
    fOpcode w = op ∧ fFunct3 w = f3 :=
  ⟨extractLsb'_of_match h (by decide) (fOpcode_opI ..), extractLsb'_of_match h (by decide) (fFunct3_opI ..)⟩

end

/-! ### The row of an OP-V word does not depend on its operands (R76, R78) -/

section

variable (f6 : BitVec 6) (vd vs2 s1 vd' vs2' s1' : BitVec 5) (vm vm' : BitVec 1)

theorem opcodeRow_decodeOpivv :
    (decodeOpivv f6 vd vs2 s1 vm).map opcodeRow = (decodeOpivv f6 vd' vs2' s1' vm').map opcodeRow := by
  simp only [decodeOpivv, apply_ite (Option.map opcodeRow), Option.map_some, opcodeRow]

theorem opcodeRow_decodeOpfvv :
    (decodeOpfvv f6 vd vs2 s1 vm).map opcodeRow = (decodeOpfvv f6 vd' vs2' s1' vm').map opcodeRow := by
  simp only [decodeOpfvv, apply_ite (Option.map opcodeRow), Option.map_some, opcodeRow]

theorem opcodeRow_decodeOpmvv :
    (decodeOpmvv f6 vd vs2 s1 vm).map opcodeRow = (decodeOpmvv f6 vd' vs2' s1' vm').map opcodeRow := by
  simp only [decodeOpmvv, apply_ite (Option.map opcodeRow), Option.map_some, opcodeRow]

theorem opcodeRow_decodeOpivi :
    (decodeOpivi f6 vd vs2 s1 vm).map opcodeRow = (decodeOpivi f6 vd' vs2' s1' vm').map opcodeRow := by
  simp only [decodeOpivi, apply_ite (Option.map opcodeRow), Option.map_some, opcodeRow]

theorem opcodeRow_decodeOpivx :
    (decodeOpivx f6 vd vs2 s1 vm).map opcodeRow = (decodeOpivx f6 vd' vs2' s1' vm').map opcodeRow := by
  simp only [decodeOpivx, apply_ite (Option.map opcodeRow), Option.map_some, opcodeRow]

end

section

variable {d : DotEncoding} {w w' : Word32}

/-- The rows of R76: `funct3` chooses the category and `funct6` the row in it. -/
theorem opcodeRow_decodeOpV (h3 : fFunct3 w = fFunct3 w') (h6 : fFunct6 w = fFunct6 w') (h7 : fFunct3 w' ≠ 0b111#3) :
    (decodeOpV w).map opcodeRow = (decodeOpV w').map opcodeRow := by
  simp only [decodeOpV, h3, h6, if_neg h7]
  split_ifs
  · exact opcodeRow_decodeOpivv ..
  · exact opcodeRow_decodeOpfvv ..
  · exact opcodeRow_decodeOpmvv ..
  · exact opcodeRow_decodeOpivi ..
  · exact opcodeRow_decodeOpivx ..
  · rfl

/-- The rows of R78: `funct6` and `funct3` are the slot. -/
theorem opcodeRow_decodeDot (h3 : fFunct3 w = fFunct3 w') (h6 : fFunct6 w = fFunct6 w') :
    (decodeDot d w).map opcodeRow = (decodeDot d w').map opcodeRow := by
  have hslot (s : DotSlot) : inSlot s w = inSlot s w' := by simp only [inSlot, h3, h6]
  simp only [decodeDot, hslot, apply_ite (Option.map opcodeRow), Option.map_some, opcodeRow]

/-- The rows of R72 and R76 come first, then those of R78. -/
theorem decodeWith_eq_or (ho : fOpcode w = 0b1010111#7) : decodeWith d w = (decodeOpV w).or (decodeDot d w) := by
  rw [decodeWith, if_pos ho]
  cases decodeOpV w <;> rfl

theorem opcodeRow_decodeWith (ho : fOpcode w = 0b1010111#7) (ho' : fOpcode w' = 0b1010111#7)
    (h3 : fFunct3 w = fFunct3 w') (h6 : fFunct6 w = fFunct6 w') (h7 : fFunct3 w' ≠ 0b111#3) :
    (decodeWith d w).map opcodeRow = (decodeWith d w').map opcodeRow := by
  rw [decodeWith_eq_or ho, decodeWith_eq_or ho', Option.map_or, Option.map_or, opcodeRow_decodeOpV h3 h6 h7,
    opcodeRow_decodeDot h3 h6]

end

/-! ### A word that matches a row -/

section

variable {w : Word32}

/-- The rows of R76 and R78: the word shares the fields of the row with the word of an instruction of the row, which
decodes to that instruction. -/
theorem decode_of_match_opV {r : Instr} {f6 : BitVec 6} {vm : BitVec 1} {vs2 s1 vd : BitVec 5} {f3 : BitVec 3}
    (hr : r.wellFormed = true) (he : encode r = opV f6 vm vs2 s1 f3 vd) (h7 : f3 ≠ 0b111#3)
    (h : w &&& 0xFC00707F#32 = opV f6 0 0 0 f3 0) : ∃ i, decode w = some i ∧ opcodeRow i = opcodeRow r := by
  obtain ⟨ho, h3, h6⟩ := opV_fields_of_match h
  have hrow : (decode w).map opcodeRow = some (opcodeRow r) := by
    calc (decode w).map opcodeRow = (decode (encode r)).map opcodeRow := by
          rw [he]
          exact opcodeRow_decodeWith ho (by simp) (by simp [h3]) (by simp [h6]) (by simpa using h7)
      _ = some (opcodeRow r) := congrArg (Option.map opcodeRow) (decodeWith_encodeWith DotEncoding.default_disjoint hr)
  exact Option.map_eq_some_iff.1 hrow

/-- The row of `vsetvli` (R72). -/
theorem decode_of_match_vsetvli (h : w &&& 0x8000707F#32 = 0x00007057#32) :
    decode w = some (.vsetvli (fRd w) (fRs1 w) (w.extractLsb' 20 11)) := by
  have ho : fOpcode w = 0b1010111#7 := extractLsb'_of_match h (by decide) rfl
  have h3 : fFunct3 w = 0b111#3 := extractLsb'_of_match h (by decide) rfl
  have h31 : w.extractLsb' 31 1 = 0#1 := extractLsb'_of_match h (by decide) rfl
  exact decodeWith_of_decodeOpV ho (by simp [decodeOpV, h3, decodeOpcfg, h31])

/-- The row of `vsetvl` (R72). -/
theorem decode_of_match_vsetvl (h : w &&& 0xFE00707F#32 = 0x80007057#32) :
    decode w = some (.vsetvl (fRd w) (fRs1 w) (fRs2 w)) := by
  have ho : fOpcode w = 0b1010111#7 := extractLsb'_of_match h (by decide) rfl
  have h3 : fFunct3 w = 0b111#3 := extractLsb'_of_match h (by decide) rfl
  have h31 : w.extractLsb' 31 1 = 1#1 := extractLsb'_of_match h (by decide) rfl
  have h7 : fFunct7 w = 0b1000000#7 := extractLsb'_of_match h (by decide) rfl
  exact decodeWith_of_decodeOpV ho (by simp [decodeOpV, h3, decodeOpcfg, h31, h7])

end

/-- Settles O3: the configuration and the scaffold field by field, every other row by what its fields decide. -/
theorem decodeFollowsOpcodeTable : Obligations.DecodeFollowsOpcodeTable := by
  intro w r h
  cases r
  case vsetvli => exact ⟨_, decode_of_match_vsetvli h, rfl⟩
  case vsetvl => exact ⟨_, decode_of_match_vsetvl h, rfl⟩
  case addi =>
    obtain ⟨ho, h3⟩ := opI_fields_of_match (f3 := 0b000#3) (op := 0b0010011#7) h
    exact ⟨.addi (fRd w) (fRs1 w) (fImmI w), by simp [decode, decodeWith, ho, h3], rfl⟩
  case lw =>
    obtain ⟨ho, h3⟩ := opI_fields_of_match (f3 := 0b010#3) (op := 0b0000011#7) h
    exact ⟨.lw (fRd w) (fRs1 w) (fImmI w), by simp [decode, decodeWith, ho, h3], rfl⟩
  case sw =>
    obtain ⟨ho, h3⟩ := opI_fields_of_match (f3 := 0b010#3) (op := 0b0100011#7) h
    exact ⟨.sw (fRs2 w) (fRs1 w) (fImmS w), by simp [decode, decodeWith, ho, h3], rfl⟩
  case bne =>
    obtain ⟨ho, h3⟩ := opI_fields_of_match (f3 := 0b001#3) (op := 0b1100011#7) h
    exact ⟨.bne (fRs1 w) (fRs2 w) (fImmB w), by simp [decode, decodeWith, ho, h3], rfl⟩
  all_goals exact decode_of_match_opV rfl rfl (by decide) h

/-- Settles O4: the words are fixed, and the decoder reads each. -/
theorem printedWordsDecode : Obligations.PrintedWordsDecode := by
  unfold Obligations.PrintedWordsDecode
  decide

end Sys2Proof
end

section
/-! SUPPORT. The checks of Base.legal that the spec names, instruction by instruction (log 16), and the shape that every
vector instruction has: the checks of R81, then a rule of its own. -/

namespace Sys2Proof.Machine

/-- The checks of Base.legal that the spec names, under the setting `vc` (log 16); none for the configuration and the
scaffold. -/
def namedLegal (c : Config) (vc : VConf) : Instr → Bool
  | .vaddVV vd vs2 vs1 vm | .vsllVV vd vs2 vs1 vm | .vdotuVV vd vs2 vs1 vm | .vdotVV vd vs2 vs1 vm
  | .vfdotVV vd vs2 vs1 vm => legalVV vc vd vs2 vs1 vm
  | .vaddVX vd vs2 _ vm | .vaddVI vd vs2 _ vm | .vsllVX vd vs2 _ vm | .vsllVI vd vs2 _ vm => legalV vc vd vs2 vm
  | .vadcVVM vd vs2 vs1 vm | .vsbcVVM vd vs2 vs1 vm => legalCarry vc vd vm && aligned vc vs2 && aligned vc vs1
  | .vadcVXM vd vs2 _ vm | .vadcVIM vd vs2 _ vm | .vsbcVXM vd vs2 _ vm => legalCarry vc vd vm && aligned vc vs2
  | .vmadcVVM _ vs2 vs1 vm | .vmsbcVVM _ vs2 vs1 vm => legalMaskCarry c vm && aligned vc vs2 && aligned vc vs1
  | .vmadcVXM _ vs2 _ vm | .vmadcVIM _ vs2 _ vm | .vmsbcVXM _ vs2 _ vm => legalMaskCarry c vm && aligned vc vs2
  | .vrgatherVV vd vs2 vs1 vm => legalVV vc vd vs2 vs1 vm && disjointGroups vc vd vs2 && disjointGroups vc vd vs1
  | .vrgatherVX vd vs2 _ vm | .vrgatherVI vd vs2 _ vm => legalV vc vd vs2 vm && disjointGroups vc vd vs2
  | .vredsumVS vd vs2 vs1 vm | .vredandVS vd vs2 vs1 vm | .vredorVS vd vs2 vs1 vm | .vredxorVS vd vs2 vs1 vm
  | .vredminuVS vd vs2 vs1 vm | .vredminVS vd vs2 vs1 vm | .vredmaxuVS vd vs2 vs1 vm | .vredmaxVS vd vs2 vs1 vm
  | .vfredsumVS vd vs2 vs1 vm | .vfredosumVS vd vs2 vs1 vm | .vfredminVS vd vs2 vs1 vm
  | .vfredmaxVS vd vs2 vs1 vm => legalReduction vc vd vs2 vs1 vm
  | .vwredsumuVS vd vs2 vs1 vm | .vwredsumVS vd vs2 vs1 vm | .vfwredsumVS vd vs2 vs1 vm
  | .vfwredosumVS vd vs2 vs1 vm => legalReduction vc vd vs2 vs1 vm && widenFits c vc
  | .vsetvli .. | .vsetvl .. | .addi .. | .lw .. | .sw .. | .bne .. => true

/-- Every vector instruction makes the checks of R81 with its own word and the checks that the spec names for it. -/
theorem exec_vector_eq {i : Instr} (hi : i.isVector = true) (s : State) :
    ∃ body, exec i s =
      s.onHart (s.hart.vectorAt s.hart.vtype (encodeWith s.cfg.dot i) (namedLegal s.cfg · i) body) := by
  cases i
  case vsetvli | vsetvl | addi | lw | sw | bne => cases hi
  all_goals exact ⟨_, rfl⟩

/-- Only a vector instruction has a named check that can fail. -/
theorem isVector_of_namedLegal {c : Config} {vc : VConf} {i : Instr} (hl : namedLegal c vc i = false) :
    i.isVector = true := by
  cases i
  case vsetvli | vsetvl | addi | lw | sw | bne => cases hl
  all_goals rfl

/-! ### The named checks with one operand less -/

/-- The checks with two vector sources are those with one, and the alignment of the other. -/
theorem legalVV_eq (vc : VConf) (vd vs2 vs1 : RegNo) (vm : BitVec 1) :
    legalVV vc vd vs2 vs1 vm = (legalV vc vd vs2 vm && aligned vc vs1) := by
  simp only [legalVV, legalV, Bool.and_assoc, Bool.and_comm, Bool.and_left_comm]

theorem legalV_eq_false_iff {vc : VConf} {vd vs2 : RegNo} {vm : BitVec 1} :
    legalV vc vd vs2 vm = false ↔ maskedDestOk vd vm = false ∨ aligned vc vd = false ∨ aligned vc vs2 = false := by
  simp only [legalV, Bool.and_eq_false_iff]
  tauto

theorem legalCarry_eq_false_iff {vc : VConf} {vd : RegNo} {vm : BitVec 1} :
    legalCarry vc vd vm = false ↔ vm = 1 ∨ vd = 0 ∨ aligned vc vd = false := by
  have hvm : ¬ vm = 0 ↔ vm = 1 := by revert vm; decide
  simp only [legalCarry, Bool.and_eq_false_iff, beq_eq_false_iff_ne, bne_eq_false_iff_eq, hvm]
  tauto

theorem legalReduction_undivided {vc : VConf} (he : vc.ediv = 1) (vd vs2 vs1 : RegNo) (vm : BitVec 1) :
    legalReduction vc vd vs2 vs1 vm = aligned vc vs2 := if_pos he

theorem legalReduction_divided {vc : VConf} (he : 1 < vc.ediv) (vd vs2 vs1 : RegNo) (vm : BitVec 1) :
    legalReduction vc vd vs2 vs1 vm = legalVV vc vd vs2 vs1 vm := if_neg he.ne'

end Sys2Proof.Machine
end

section
/-! O45. What Base.legal rejects raises IllegalInstruction: each clause of the statement is a fact about the named
checks. -/

namespace Sys2Proof.Machine

section

variable {s : State} {vc : VConf} (hv : vconf s.cfg s.hart.vtype = some vc)
include hv

/-- A vector instruction that fails a named check, or that the base rejects, raises IllegalInstruction (R81, R241). -/
theorem illegalForBase_of_vector {i : Instr} (hi : i.isVector = true)
    (hl : namedLegal s.cfg vc i = false ∨ baseMatches s.cfg.baseRejects (encodeWith s.cfg.dot i) s.hart.vtype = true) :
    IllegalForBase i s := by
  intro ha
  obtain ⟨body, he⟩ := exec_vector_eq hi s
  rw [TrapsIllegal, he, Hart.vectorAt_of_illegal hv ha hl, Hart.raise, State.onHart_fault]

theorem illegalForBase_of_named {i : Instr} (hl : namedLegal s.cfg vc i = false) : IllegalForBase i s :=
  illegalForBase_of_vector hv (isVector_of_namedLegal hl) (.inl hl)

theorem forall_illegalForBase {l : List Instr} (hl : ∀ i ∈ l, namedLegal s.cfg vc i = false) :
    ∀ i ∈ l, IllegalForBase i s :=
  fun i hi => illegalForBase_of_named hv (hl i hi)

end

/-- Settles O45: in each list of the statement, every instruction has the failing check among its named ones. -/
theorem illegalOperandsTrap : Obligations.IllegalOperandsTrap := by
  intro s vd vs2 s1 vm vc hv vv vx widening reductions carries maskCarries carryVV
  refine ⟨fun h => ?dest, fun h => ?vs1, fun h => ?overlapVs2, fun h => ?overlapVs1, fun h => ?carry,
    fun h => ?vs2, fun h => ?maskCarry, fun h => ?widen, fun i hi hr => illegalForBase_of_vector hv hi (.inr hr)⟩
  case dest =>
    have hV : legalV vc vd vs2 vm = false := legalV_eq_false_iff.2 h
    have hVV : legalVV vc vd vs2 s1 vm = false := by rw [legalVV_eq, hV, Bool.false_and]
    refine ⟨forall_illegalForBase hv ?_, fun he => forall_illegalForBase hv ?_⟩
    · simp [vv, vx, namedLegal, hV, hVV]
    · simp [reductions, widening, namedLegal, legalReduction_divided he, hVV]
  case vs1 =>
    have hVV : legalVV vc vd vs2 s1 vm = false := by rw [legalVV_eq, h, Bool.and_false]
    refine ⟨forall_illegalForBase hv ?_, fun he => forall_illegalForBase hv ?_⟩
    · simp [vv, carryVV, namedLegal, hVV, h]
    · simp [reductions, widening, namedLegal, legalReduction_divided he, hVV]
  case overlapVs2 => exact forall_illegalForBase hv (by simp [namedLegal, h])
  case overlapVs1 => exact illegalForBase_of_named hv (by simp [namedLegal, h])
  case carry =>
    have hC : legalCarry vc vd vm = false := legalCarry_eq_false_iff.2 h
    exact forall_illegalForBase hv (by simp [carries, namedLegal, hC])
  case vs2 =>
    refine ⟨forall_illegalForBase hv ?_, fun he => forall_illegalForBase hv ?_⟩
    · simp [carries, maskCarries, namedLegal, h]
    · simp [reductions, widening, namedLegal, legalReduction_undivided he, h]
  case maskCarry => exact forall_illegalForBase hv (by simp [maskCarries, namedLegal, h])
  case widen => exact forall_illegalForBase hv (by simp [widening, namedLegal, h])

end Sys2Proof.Machine
end

section
/-! O19. The encodings that are reserved under EDIV > 1 (R82, R156 to R159, R176): what they answer there, and that no
other outcome of theirs is a reserved encoding. -/

namespace Sys2Proof.Machine

variable {c : Config}

/-- Why the source reserves an instruction under EDIV > 1 (R82); `none` where it does not. -/
def reservedReason : Instr → Option ReservedReason
  | .vadcVVM .. | .vadcVXM .. | .vadcVIM .. | .vmadcVVM .. | .vmadcVXM .. | .vmadcVIM .. | .vsbcVVM .. | .vsbcVXM ..
  | .vmsbcVVM .. | .vmsbcVXM .. => some .carryUnderEDIV
  | .vredsumVS .. => some .singleWidthSumUnderEDIV
  | _ => none

/-- If the outcome is a fault, it is an exception and no reserved encoding. -/
def FaultsTrap (r : HartOutcome c) : Prop := ∀ f, r = .fault f → ∃ e pc, f = .trap e pc

theorem FaultsTrap.next {t : Hart c} : FaultsTrap (.next t) := by rintro _ ⟨⟩

/-- A reduction faults over `vstart` only (R193). -/
theorem FaultsTrap.intReduction {h : Hart c} {vc : VConf} {word : Word32} {op : RedOp} {w1 w : Nat} {signed : Bool}
    {vd vs2 vs1 : RegNo} {vm : BitVec 1} : FaultsTrap (h.intReduction vc word op w1 w signed vd vs2 vs1 vm) := by
  intro f e
  unfold Hart.intReduction Hart.ifStartZero at e
  split_ifs at e <;> cases e
  exact ⟨_, _, rfl⟩

/-- The reserved encodings: behind the checks of R81 and, with EDIV = 1, Base.exec (log 35), they are reserved with
EDIV > 1 and have a rule of their own otherwise. -/
theorem exec_reserved_eq {i : Instr} {reason : ReservedReason} (hi : reservedReason i = some reason) (s : State) :
    ∃ run : VConf → HartOutcome s.cfg, (∀ vc, FaultsTrap (run vc)) ∧
      exec i s = s.onHart (s.hart.vector (encodeWith s.cfg.dot i) (namedLegal s.cfg · i)
        fun vc => s.hart.unlessDivided vc reason (encodeWith s.cfg.dot i) (run vc)) := by
  cases i <;> cases hi
  case vredsumVS => exact ⟨_, fun _ => .intReduction, rfl⟩
  all_goals exact ⟨_, fun _ => .next, rfl⟩

/-- With EDIV > 1 a base instruction follows its own rule where Base.legal holds (R81; log 35 is about EDIV = 1). -/
theorem Hart.vector_of_divided {h : Hart c} {vc : VConf} {w : Word32} {legal : VConf → Bool}
    {body : VConf → HartOutcome c} (hv : vconf c h.vtype = some vc) (he : 1 < vc.ediv) :
    h.vector w legal body =
      if baseLegal c w h.vtype (legal vc) then body vc else h.raise (.illegalInstruction w) := by
  have ht : baseTakes c vc w h.vtype = false := baseTakes_eq_false hv fun h1 => absurd (vconf_ediv hv ▸ h1) he.ne'
  simp only [Hart.vector, Hart.vectorAt, hv, ht, Bool.false_eq_true, if_false]

section

variable {s : State} {vc : VConf} {i : Instr} {reason : ReservedReason}
  (hv : vconf s.cfg s.hart.vtype = some vc) (hi : reservedReason i = some reason)
include hv hi

/-- With EDIV > 1 such an instruction is reserved where Base.legal holds, and illegal elsewhere (R81, R244). -/
theorem exec_reserved_of_divided (he : 1 < vc.ediv) :
    exec i s = .fault (if baseLegal s.cfg (encodeWith s.cfg.dot i) s.hart.vtype (namedLegal s.cfg vc i)
      then .reserved reason (encodeWith s.cfg.dot i) s.hart.pc.toNat
      else .trap (.illegalInstruction (encodeWith s.cfg.dot i)) s.hart.pc.toNat) := by
  obtain ⟨run, _, hx⟩ := exec_reserved_eq hi s
  rw [hx, Hart.vector_of_divided hv he, Hart.unlessDivided, if_pos he]
  split_ifs <;> rfl

/-- With EDIV = 1 it is not reserved. -/
theorem exec_reserved_of_undivided (he : vc.ediv = 1) (r : ReservedReason) (w : Word32) (pc : Nat) :
    exec i s ≠ .fault (.reserved r w pc) := by
  intro e
  obtain ⟨run, htrap, hx⟩ := exec_reserved_eq hi s
  obtain hf | ⟨vc', hv', hf⟩ := Hart.vectorAt_eq_fault (State.onHart_eq_fault (hx.symm.trans e))
  · cases hf
  · cases hv.symm.trans hv'
    split at hf
    · cases Hart.baseVector_eq_fault hf
    · obtain ⟨_, _, ht⟩ := htrap vc _ ((Hart.unlessDivided_of_undivided he).symm.trans hf)
      cases ht

end

/-- The reason is recorded where the named checks hold and the base rejects nothing beyond them (R244). -/
theorem exec_reserved_of_legal {s : State} {vc : VConf} {i : Instr} {reason : ReservedReason}
    (hv : vconf s.cfg s.hart.vtype = some vc) (he : 1 < vc.ediv) (hi : reservedReason i = some reason)
    (hb : BaseAllows s i) (hl : namedLegal s.cfg vc i = true) :
    exec i s = .fault (.reserved reason (encodeWith s.cfg.dot i) s.hart.pc.toNat) := by
  rw [exec_reserved_of_divided hv hi he, if_pos (baseLegal_of_named hl hb.1)]

/-- Only vector instructions are reserved. -/
theorem isVector_of_reservedReason {i : Instr} {reason : ReservedReason} (hi : reservedReason i = some reason) :
    i.isVector = true := by
  cases i <;> cases hi <;> rfl

/-- Settles O19: the statement's instructions are those with a reason, and its conditions their named checks. -/
theorem reservedUnderEdiv : Obligations.ReservedUnderEdiv := by
  intro s vd vs2 s1 vm vc hv
  refine ⟨fun i hi => ?_, fun he h2 i hb hc => ?_, fun he hl hb => ?_⟩
  · obtain ⟨reason, hr⟩ : ∃ reason, reservedReason i = some reason := by
      revert i
      simp [reservedReason]
    refine ⟨fun he => ?_, fun he => exec_reserved_of_undivided hv hr he⟩
    have hx := exec_reserved_of_divided hv hr he
    exact ⟨_, hx, (exec_vector_checked (isVector_of_reservedReason hr) s).faults _ hx⟩
  · have hi : reservedReason i = some .carryUnderEDIV ∧ namedLegal s.cfg vc i = true := by
      simp only [List.mem_cons, List.not_mem_nil, or_false] at hc
      obtain ⟨hl, (rfl | rfl | rfl) | ⟨h1, rfl | rfl⟩⟩ | ⟨hl, (rfl | rfl | rfl) | ⟨h1, rfl | rfl⟩⟩ := hc
      all_goals simp [reservedReason, namedLegal, *]
    exact exec_reserved_of_legal hv he hi.1 hb hi.2
  · exact exec_reserved_of_legal hv he rfl hb ((legalReduction_divided he ..).trans hl)

end Sys2Proof.Machine
end

section
/-! O6 to O13. The configuration: the widths that EDIV gives (R101 to R103), and what `vsetvli` and `vsetvl` do with a
request, which both hand to the one operation of R106. -/

namespace Sys2Proof.Machine

variable {c : Config}

/-! ### The widths (R101 to R103) -/

/-- A row of the table of R101 holds of the width functions. -/
def RowHolds : Nat × Nat × Nat × Nat × Nat × Option Nat × Option Nat × Option Nat → Prop
  | (sew, ediv, se, sum, dot, f32, f64, f128) =>
    sew / ediv = se ∧ wSum sew ediv = sum ∧ wDot sew ediv = dot ∧ aFp sew ediv 32 = f32 ∧
      aFp sew ediv 64 = f64 ∧ aFp sew ediv 128 = f128

theorem rowHolds_of_mem_widthTable : ∀ row ∈ widthTable, RowHolds row := by
  unfold RowHolds
  decide

/-- Settles O6, row by row of the table. -/
theorem widthTable_entries : Obligations.WidthTable :=
  fun _ _ _ _ _ _ _ _ hrow => rowHolds_of_mem_widthTable _ hrow

/-- With EDIV > 1 an element holds two sub-elements at least (R15). -/
theorem VConf.Sound.two_mul_se_le {vc : VConf} (so : vc.Sound c) (he : 1 < vc.ediv) : 2 * vc.se ≤ vc.sew :=
  calc 2 * vc.se ≤ vc.ediv * vc.se := Nat.mul_le_mul_right _ he
    _ = vc.sew := so.ediv_mul_se

theorem aFp_le_of_eq_some {sew ediv flen a : Nat} (h : aFp sew ediv flen = some a) : a ≤ 2 * (sew / ediv) := by
  simp only [aFp, Option.ite_none_right_eq_some, Option.some.injEq] at h
  exact h.2 ▸ min_le_left _ _

/-- Settles O7: SEW is at least 8 and, with EDIV > 1, at least twice SE. -/
theorem resultWidthsFitTheElement : Obligations.ResultWidthsFitTheElement := by
  intro c t vc hv he
  have so := sound_of_vconf hv
  have h8 : 8 ≤ vc.sew := so.eight_le_sew
  have h2 : 2 * (vc.sew / vc.ediv) ≤ vc.sew := so.two_mul_se_le he
  refine ⟨le_max_right _ _, ?_, ?_, ?_, ?_, fun a ha => (aFp_le_of_eq_some ha).trans h2⟩
  all_goals simp only [wNonsum, wSum, wDot]; omega

/-! ### The length (R106, R108) -/

theorem setvl_of_le {avl vlmax : Nat} (h : avl ≤ vlmax) : setvl c avl vlmax = avl := if_pos h

theorem setvl_of_two_mul_le {avl vlmax : Nat} (h : 2 * vlmax ≤ avl) : setvl c avl vlmax = vlmax := by
  unfold setvl
  split_ifs
  · omega
  · rfl

/-- Between VLMAX and twice it, the length is at least half of what was requested, whatever the policy. -/
theorem half_le_setvl {avl vlmax : Nat} (hlt : avl < 2 * vlmax) : (avl + 1) / 2 ≤ setvl c avl vlmax := by
  unfold setvl
  split_ifs
  · omega
  · omega
  · cases c.setvl
    case minimum => show _ ≤ vlmax; omega
    case free => exact le_min (by omega) (le_max_left _ _)

/-- Settles O12, one fact a range. -/
theorem setvlRanges : Obligations.SetvlRanges := fun _ _ _ =>
  ⟨setvl_of_le, fun _ hlt => ⟨half_le_setvl hlt, setvl_le ..⟩, setvl_of_two_mul_le⟩

theorem Lmul.num_le_eight (l : Lmul) : l.num ≤ 8 := by cases l <;> decide

/-- VLMAX is at most VLEN (SEW = 8, LMUL = 8), so `vl` can hold it (R26; log 2). -/
theorem VConf.Sound.vlmax_lt {vc : VConf} (so : vc.Sound c) : vc.vlmax c < 2 ^ c.XLEN :=
  calc vc.vlmax c ≤ vc.lmul.num * (c.VLEN / vc.sew) := so.vlmax_le
    _ ≤ vc.sew * (c.VLEN / vc.sew) := Nat.mul_le_mul_right _ (vc.lmul.num_le_eight.trans so.eight_le_sew)
    _ ≤ c.VLEN := Nat.mul_div_le _ _
    _ < 2 ^ c.XLEN := Nat.pow_lt_pow_right (by decide) c.vlenExp.isLt

/-- VLMAX = LMUL * VLEN / SEW without a remainder (R13). -/
theorem VConf.Sound.vlmax_mul {vc : VConf} (so : vc.Sound c) :
    vc.vlmax c * (vc.lmul.den * vc.sew) = vc.lmul.num * c.VLEN :=
  Nat.div_mul_cancel (so.sew_den_dvd.mul_left _)

/-- VLMAX is a function of SEW and LMUL (R108). -/
theorem VConf.vlmax_congr {vc1 vc2 : VConf} (hs : vc1.sew = vc2.sew) (hl : vc1.lmul = vc2.lmul) :
    vc1.vlmax c = vc2.vlmax c := by
  simp only [VConf.vlmax, hs, hl]

/-- The `vl` of R106 for the application length in `x[rs1]`, which is VLMAX for `x0`. -/
def Hart.newVl (h : Hart c) (rs1 : RegNo) (vc : VConf) : BitVec c.XLEN :=
  BitVec.ofNat c.XLEN (setvl c (if rs1 = 0 then vc.vlmax c else (h.readX rs1).toNat) (vc.vlmax c))

/-- The length fits `vl`: it is at most VLMAX. -/
theorem Hart.toNat_newVl (h : Hart c) (rs1 : RegNo) {vc : VConf} (so : vc.Sound c) :
    (h.newVl rs1 vc).toNat = setvl c (if rs1 = 0 then vc.vlmax c else (h.readX rs1).toNat) (vc.vlmax c) :=
  (BitVec.toNat_ofNat ..).trans (Nat.mod_eq_of_lt ((setvl_le ..).trans_lt so.vlmax_lt))

/-- EDIV does not enter the length (R108). -/
theorem Hart.newVl_congr (h : Hart c) (rs1 : RegNo) {vc1 vc2 : VConf} (hm : vc1.vlmax c = vc2.vlmax c) :
    h.newVl rs1 vc1 = h.newVl rs1 vc2 := by
  simp only [Hart.newVl, hm]

/-! ### The hart with a new configuration (R106) -/

/-- The hart that `vsetvli` and `vsetvl` leave: `vtype` is `t`, `vl` and `x[rd]` are `n`. -/
def Hart.withConfig (h : Hart c) (rd : RegNo) (t n : BitVec c.XLEN) : Hart c :=
  (((h.setVtype t).setVl n).writeX rd n).finish

@[simp] theorem Hart.withConfig_vtype (h : Hart c) (rd : RegNo) (t n : BitVec c.XLEN) :
    (h.withConfig rd t n).vtype = t := by simp [Hart.withConfig]

@[simp] theorem Hart.withConfig_vl (h : Hart c) (rd : RegNo) (t n : BitVec c.XLEN) :
    (h.withConfig rd t n).vl = n := by simp [Hart.withConfig]

theorem Hart.withConfig_xWritten (h : Hart c) (rd : RegNo) (t n : BitVec c.XLEN) :
    XWritten h (h.withConfig rd t n) rd n := fun q => by simp [Hart.withConfig, Hart.readX_writeX]

/-- The frame: memory is compared byte by byte. -/
theorem Hart.withConfig_configured (h : Hart c) (rd : RegNo) (t n : BitVec c.XLEN) :
    Configured h (h.withConfig rd t n) := by
  constructor
  case mem => intro p a; simp [Hart.withConfig, Hart.byteAt]
  all_goals simp [Hart.withConfig]

theorem Hart.withConfig_configuredTo (h : Hart c) (rd rs1 : RegNo) (request : BitVec c.XLEN) {vc : VConf}
    (so : vc.Sound c) : ConfiguredTo h (h.withConfig rd request (h.newVl rs1 vc)) rd rs1 request vc :=
  ⟨h.withConfig_configured .., h.withConfig_vtype .., by rw [withConfig_vl, h.toNat_newVl rs1 so],
    by rw [withConfig_vl]; exact h.withConfig_xWritten rd request _⟩

/-- `vill` is the top bit of `villOnly` and its only one (R32). -/
theorem getLsbD_villOnly {n k : Nat} (hk : k < n - 1) : (villOnly n).getLsbD k = false := by
  rw [villOnly, BitVec.getLsbD_intMin, decide_eq_false (by omega)]

theorem msb_villOnly : (villOnly c.XLEN).msb = true := by
  simp [villOnly, BitVec.msb_intMin, XLEN_pos]

theorem Hart.withConfig_configuredToVill (h : Hart c) (rd : RegNo) :
    ConfiguredToVill h (h.withConfig rd (villOnly c.XLEN) 0) rd :=
  ⟨h.withConfig_configured .., by rw [withConfig_vtype, msb_villOnly],
    fun k hk => by rw [withConfig_vtype, getLsbD_villOnly hk], h.withConfig_vl .., h.withConfig_xWritten rd _ 0⟩

/-! ### The common operation (R106, R107) -/

section

variable {h : Hart c} {rd rs1 : RegNo} {request : BitVec c.XLEN}

theorem Hart.setVectorConfig_of_supported (h0 : ¬ (rs1 = 0 ∧ rd = 0)) {vc : VConf} (hv : vconf c request = some vc) :
    h.setVectorConfig rd rs1 request = .next (h.withConfig rd request (h.newVl rs1 vc)) := by
  unfold Hart.setVectorConfig
  rw [if_neg h0, hv]
  rfl

theorem Hart.setVectorConfig_of_unsupported (h0 : ¬ (rs1 = 0 ∧ rd = 0)) (hv : vconf c request = none) :
    h.setVectorConfig rd rs1 request = .next (h.withConfig rd (villOnly c.XLEN) 0) := by
  unfold Hart.setVectorConfig
  rw [if_neg h0, hv]
  rfl

theorem Hart.setVectorConfig_both_x0 : h.setVectorConfig 0 0 request = .refused (.vsetvlBothX0 h.pc.toNat) :=
  if_pos ⟨rfl, rfl⟩

end

/-- A request for sub-elements narrower than SELEN is not supported (R104). -/
theorem vconf_of_narrow {t : BitVec c.XLEN}
    (h : decodeSew (vsewField c.layout t) / decodeEdiv (vedivField c.layout t) < c.SELEN) : vconf c t = none := by
  rw [Option.eq_none_iff_forall_ne_some]
  intro vc hv
  obtain ⟨_, _, _, hsew, hediv, _, _, _⟩ := vconf_eq_some hv
  have hge : c.SELEN ≤ vc.sew / vc.ediv := (sound_of_vconf hv).seGe
  rw [hsew, hediv] at hge
  omega

/-! ### The two instructions -/

/-- `i` is `vsetvli` or `vsetvl` with these registers, and the setting it requests in the state `s` is `request`: its
immediate (R106), or what `x[rs2]` holds (R107). -/
inductive Requests (s : State) (rd rs1 : RegNo) : Instr → BitVec s.cfg.XLEN → Prop where
  | vsetvli (zimm : BitVec 11) : Requests s rd rs1 (.vsetvli rd rs1 zimm) (zimm.setWidth s.cfg.XLEN)
  | vsetvl (rs2 : RegNo) : Requests s rd rs1 (.vsetvl rd rs1 rs2) (s.hart.readX rs2)

namespace Requests

variable {s : State} {rd rs1 : RegNo} {i : Instr} {request : BitVec s.cfg.XLEN}

theorem exec_eq (hi : Requests s rd rs1 i request) : exec i s = s.onHart (s.hart.setVectorConfig rd rs1 request) := by
  cases hi
  case vsetvli => rfl
  case vsetvl => rfl

theorem exec_of_supported (hi : Requests s rd rs1 i request) (h0 : ¬ (rs1 = 0 ∧ rd = 0)) {vc : VConf}
    (hv : vconf s.cfg request = some vc) :
    exec i s = .next ⟨s.cfg, s.plat, s.hart.withConfig rd request (s.hart.newVl rs1 vc)⟩ := by
  rw [hi.exec_eq, Hart.setVectorConfig_of_supported h0 hv, State.onHart_next]

theorem exec_of_unsupported (hi : Requests s rd rs1 i request) (h0 : ¬ (rs1 = 0 ∧ rd = 0))
    (hv : vconf s.cfg request = none) :
    ∃ t, exec i s = .next ⟨s.cfg, s.plat, t⟩ ∧ ConfiguredToVill s.hart t rd :=
  ⟨_, by rw [hi.exec_eq, Hart.setVectorConfig_of_unsupported h0 hv, State.onHart_next],
    s.hart.withConfig_configuredToVill rd⟩

theorem exec_both_x0 (hi : Requests s 0 0 i request) : exec i s = .refused (.vsetvlBothX0 s.hart.pc.toNat) := by
  rw [hi.exec_eq, Hart.setVectorConfig_both_x0, State.onHart_refused]

end Requests

/-- Settles O8: both instructions leave the hart with the requested configuration, whose length fits `vl`. -/
theorem supportedVtypeIsSet : Obligations.SupportedVtypeIsSet := by
  intro s rd rs1 request vc h0 hv
  have hset := s.hart.withConfig_configuredTo rd rs1 request (sound_of_vconf hv)
  constructor
  · rintro zimm rfl
    exact ⟨_, (Requests.vsetvli zimm).exec_of_supported h0 hv, hset⟩
  · rintro rs2 rfl
    exact ⟨_, (Requests.vsetvl rs2).exec_of_supported h0 hv, hset⟩

/-- Settles O9: both instructions leave `villOnly`, whose top bit is its only one. -/
theorem unsupportedVtypeSetsVill : Obligations.UnsupportedVtypeSetsVill := by
  intro s rd rs1 request h0 hv
  constructor
  · rintro zimm rfl
    exact (Requests.vsetvli zimm).exec_of_unsupported h0 hv
  · rintro rs2 rfl
    exact (Requests.vsetvl rs2).exec_of_unsupported h0 hv

/-- Settles O10: such a request is not supported. -/
theorem narrowerThanSelenSetsVill : Obligations.NarrowerThanSelenSetsVill := fun _ _ _ rs2 zimm h0 =>
  ⟨fun hn => (Requests.vsetvli zimm).exec_of_unsupported h0 (vconf_of_narrow hn),
    fun hn => (Requests.vsetvl rs2).exec_of_unsupported h0 (vconf_of_narrow hn)⟩

/-- Settles O11: both instructions hand their request to the operation that refuses it. -/
theorem bothX0IsRefused : Obligations.BothX0IsRefused := fun _ zimm rs2 =>
  ⟨(Requests.vsetvli zimm).exec_both_x0, (Requests.vsetvl rs2).exec_both_x0⟩

/-- Settles O13: VLMAX and with it the length are functions of SEW and LMUL, and `x[rd]` gets the length. -/
theorem edivDoesNotEnterVl : Obligations.EdivDoesNotEnterVl := by
  intro s rd rs1 r1 r2 vc1 vc2 h0 hv1 hv2 hsew hlmul
  have hm : vc1.vlmax s.cfg = vc2.vlmax s.cfg := VConf.vlmax_congr hsew hlmul
  refine ⟨(sound_of_vconf hv1).vlmax_mul, hm.symm, fun i1 i2 hi => ?_⟩
  obtain ⟨hi1, hi2⟩ : Requests s rd rs1 i1 r1 ∧ Requests s rd rs1 i2 r2 := by
    obtain ⟨z1, z2, rfl, rfl, rfl, rfl⟩ | ⟨q1, q2, rfl, rfl, rfl, rfl⟩ := hi
    · exact ⟨.vsetvli z1, .vsetvli z2⟩
    · exact ⟨.vsetvl q1, .vsetvl q2⟩
  refine ⟨_, _, hi1.exec_of_supported h0 hv1, hi2.exec_of_supported h0 hv2, ?_, fun q => ?_⟩
  · rw [Hart.withConfig_vl, Hart.withConfig_vl, s.hart.newVl_congr rs1 hm]
  · rw [s.hart.withConfig_xWritten, s.hart.withConfig_xWritten, s.hart.newVl_congr rs1 hm]

end Sys2Proof.Machine
end

section
/-! O51. What EDIV does to the instructions of 41_unaffected.md (R120). Setting `vtype` commutes with every operation they
are made of, and the value that they run under has `vediv` = 0. -/

namespace Sys2Proof.Machine

variable {c : Config}

/-! ### Setting `vtype` around an outcome -/

@[simp] theorem Hart.setVtype_setVtype (h : Hart c) (t u : BitVec c.XLEN) :
    (h.setVtype t).setVtype u = h.setVtype u := rfl

@[simp] theorem withVtype_withVtype (t u : BitVec c.XLEN) (r : HartOutcome c) :
    withVtype t (withVtype u r) = withVtype t r := by cases r <;> rfl

theorem withVtype_ite (t : BitVec c.XLEN) (p : Prop) [Decidable p] (a b : HartOutcome c) :
    withVtype t (if p then a else b) = if p then withVtype t a else withVtype t b := apply_ite (withVtype t) p a b

/-- The checks of R81 under a value of `vtype` that is not the hart's own. -/
theorem Hart.setVtype_vectorAt (h : Hart c) (t a : BitVec c.XLEN) (w : Word32) (legal : VConf → Bool)
    (body body' : VConf → HartOutcome c) (hb : ∀ vc, body' vc = withVtype t (body vc)) :
    (h.setVtype t).vectorAt a w legal body' = withVtype t (h.vectorAt a w legal body) := by
  unfold Hart.vectorAt
  split
  · rfl
  · split
    · exact hb _
    · rfl

/-! ### The reads and the writes -/

theorem Hart.setVtype_firstProblem (h : Hart c) (t : BitVec c.XLEN) (p : Platform) (access : Access)
    (vc : VConf) (o : MemOperands) : (h.setVtype t).firstProblem p access vc o = h.firstProblem p access vc o := rfl

theorem Hart.setVtype_writeX (h : Hart c) (t : BitVec c.XLEN) (r : RegNo) (a : BitVec c.XLEN) :
    (h.setVtype t).writeX r a = (h.writeX r a).setVtype t := by
  unfold Hart.writeX; split <;> rfl

theorem Hart.setVtype_moveToElem0 (h : Hart c) (t : BitVec c.XLEN) (vc : VConf) (vd : RegNo) (a : BitVec vc.sew) :
    (h.setVtype t).moveToElem0 vc vd a = (h.moveToElem0 vc vd a).setVtype t :=
  (apply_ite (Hart.setVtype · t) (h.body 0 = true) (h.writeScalar vc vd vc.sew a) h).symm

theorem Hart.setVtype_insertElem (h : Hart c) (t : BitVec c.XLEN) (vc : VConf) (vd : RegNo) (k : Nat)
    (a : BitVec vc.sew) : (h.setVtype t).insertElem vc vd k a = (h.insertElem vc vd k a).setVtype t :=
  (apply_ite (Hart.setVtype · t) (k < vc.vlmax c ∧ ¬ h.prestart k)
    (h.setV (setSlot h.v vd.toNat vc.sew (elemPlace c vc.lmul vc.sew k) a)) h).symm

/-- The fields of a load are written one after the other. -/
theorem Hart.setVtype_loadFields (h : Hart c) (t : BitVec c.XLEN) (p : Platform) (vc : VConf) (o : MemOperands) :
    (h.setVtype t).loadFields p vc o = (h.loadFields p vc o).setVtype t :=
  List.foldl_hom (Hart.setVtype · t) fun _ _ => rfl

/-- An instruction that ends in a write with which setting `vtype` commutes. -/
theorem next_finish_eq_withVtype {t : BitVec c.XLEN} {g' g : Hart c} (hg : g' = g.setVtype t) :
    (.next g'.finish : HartOutcome c) = withVtype t (.next g.finish) := by rw [hg]; rfl

/-! ### The instructions that access memory (R123 to R125) -/

theorem Hart.setVtype_vectorLoad (h : Hart c) (t : BitVec c.XLEN) (p : Platform) (vc : VConf) (o : MemOperands) :
    (h.setVtype t).vectorLoad p vc o = withVtype t (h.vectorLoad p vc o) := by
  unfold Hart.vectorLoad
  rw [h.setVtype_firstProblem]
  split
  · exact next_finish_eq_withVtype (h.setVtype_loadFields t p vc o)
  · rfl

theorem Hart.setVtype_vectorStore (h : Hart c) (t : BitVec c.XLEN) (p : Platform) (vc : VConf) (o : MemOperands) :
    (h.setVtype t).vectorStore p vc o = withVtype t (h.vectorStore p vc o) := by
  unfold Hart.vectorStore
  rw [h.setVtype_firstProblem]
  split
  · rfl
  · dsimp only
    rw [withVtype_ite]
    rfl

theorem Hart.setVtype_vectorAmo (h : Hart c) (t : BitVec c.XLEN) (p : Platform) (vc : VConf) (o : MemOperands)
    (n : Nat) (writesBack : Bool) :
    (h.setVtype t).vectorAmo p vc o n writesBack = withVtype t (h.vectorAmo p vc o n writesBack) := by
  unfold Hart.vectorAmo
  rw [h.setVtype_firstProblem]
  split
  · rfl
  · dsimp only
    rw [withVtype_ite]
    cases writesBack <;> rfl

/-! ### All the instructions -/

/-- What the base does with EDIV = 1 depends on the setting it is given and not on the `vtype` of the hart. -/
theorem Hart.setVtype_runUnaffected (h : Hart c) (t : BitVec c.XLEN) (p : Platform) (op : UnaffectedOp) (w : Word32)
    (vc : VConf) : (h.setVtype t).runUnaffected p op w vc = withVtype t (h.runUnaffected p op w vc) := by
  cases op
  case load mode => exact h.setVtype_vectorLoad t p vc _
  case store mode => exact h.setVtype_vectorStore t p vc _
  case amo n writesBack => exact h.setVtype_vectorAmo t p vc _ n writesBack
  case vpopc | vfirst | vextXV | vmvXS => exact next_finish_eq_withVtype (h.setVtype_writeX t _ _)
  case vinsVX => exact next_finish_eq_withVtype (h.setVtype_insertElem t vc _ _ _)
  case vmvSX => exact next_finish_eq_withVtype (h.setVtype_moveToElem0 t vc _ _)
  case vfmvFS =>
    unfold Hart.runUnaffected
    dsimp only
    split <;> rfl
  case vfmvSF =>
    unfold Hart.runUnaffected
    dsimp only
    split
    · exact next_finish_eq_withVtype (h.setVtype_moveToElem0 t vc _ _)
    · rfl
  -- The others write a group or a mask.
  all_goals rfl

/-- R120: the instruction under two values of `vtype` that differ in `vediv` only. -/
theorem Hart.setVtype_execUnaffected (h : Hart c) {t : BitVec c.XLEN}
    (ht : clearEdiv c.layout t = clearEdiv c.layout h.vtype) (p : Platform) (op : UnaffectedOp) (w : Word32) :
    (h.setVtype t).execUnaffected p op w = withVtype t (h.execUnaffected p op w) := by
  unfold Hart.execUnaffected
  rw [Hart.setVtype_vtype, ht]
  refine h.setVtype_vectorAt t _ w _ _ _ fun vc => ?_
  split
  · rw [h.setVtype_setVtype, withVtype_withVtype]
  · exact h.setVtype_runUnaffected t p op w vc

/-- An outcome reads the parameters of the state only. -/
theorem State.onHart_of_hart (s : State) (h : Hart s.cfg) (r : HartOutcome s.cfg) :
    State.onHart ⟨s.cfg, s.plat, h⟩ r = s.onHart r := by cases r <;> rfl

/-- The instruction in a state with another hart. -/
theorem execBase_unaffected (op : UnaffectedOp) (w : Word32) (s : State) (h : Hart s.cfg) :
    execBase (.unaffected op) w ⟨s.cfg, s.plat, h⟩ = s.onHart (h.execUnaffected s.plat op w) :=
  s.onHart_of_hart h (h.execUnaffected s.plat op w)

/-- Settles O51: the outcome with the other `vtype` is the outcome with `vtype` replaced in it. -/
theorem unaffectedByEdiv : Obligations.UnaffectedByEdiv := by
  intro op w s t ht run
  have hrun : run (s.hart.setVtype t) = s.onHart (withVtype t (s.hart.execUnaffected s.plat op w)) :=
    (execBase_unaffected op w s _).trans (congrArg s.onHart (s.hart.setVtype_execUnaffected ht s.plat op w))
  rw [hrun, show run s.hart = _ from execBase_unaffected op w s s.hart]
  refine ⟨fun u e => ⟨?_, ?_⟩, fun f e => ?_, fun r e => ?_⟩
  · obtain ⟨_, hs, hstep⟩ := execBase_eq_next ((execBase_unaffected op w s s.hart).trans e)
    cases hs
    exact hstep.vtype
  all_goals
    revert e
    cases s.hart.execUnaffected s.plat op w <;> rintro ⟨rfl⟩
    rfl

end Sys2Proof.Machine
end

section
/-! O52. The results of `vid.v` and of an unmasked `viota.m` (R132, R133): both write a group, under the setting that
`vtype` with `vediv` = 0 means. -/

namespace Sys2Proof.Machine

variable {c : Config}

/-- Where the checks pass and Base leaves the instruction to its description, it runs with EDIV taken as 1 (R120). -/
theorem Hart.execUnaffected_of_allowed {h : Hart c} {p : Platform} {op : UnaffectedOp} {w : Word32} {vc : VConf}
    (hv : vconf c (clearEdiv c.layout h.vtype) = some vc) (hl : legalUnaffected op w vc = true)
    (hb : BaseAllowsWord c w (clearEdiv c.layout h.vtype)) :
    h.execUnaffected p op w = h.runUnaffected p op w vc := by
  obtain ⟨hrejects, hother⟩ := hb
  unfold Hart.execUnaffected
  rw [Hart.vectorAt_of_legal hv hl hrejects, baseTakes_eq_false hv hother, if_neg Bool.false_ne_true]

/-- An instruction of 41_unaffected.md that ends in the loop over a destination group completes with that group's
result. -/
theorem execBase_writesGroup {s : State} {op : UnaffectedOp} {w : Word32} {vc : VConf} {vd : RegNo} {vm : BitVec 1}
    {a : Nat → BitVec vc.sew} {result : Nat → BitVec vc.sew → Prop}
    (hv : vconf s.cfg (clearEdiv s.cfg.layout s.hart.vtype) = some vc) (hl : legalUnaffected op w vc = true)
    (hb : BaseAllowsWord s.cfg w (clearEdiv s.cfg.layout s.hart.vtype)) (al : aligned vc vd = true)
    (hr : s.hart.runUnaffected s.plat op w vc = .next (s.hart.writeGroup vc vd vm a).finish)
    (imp : ∀ i, result i (a i)) :
    ∃ t, execBase (.unaffected op) w s = .next ⟨s.cfg, s.plat, t⟩ ∧ Completed s.hart t ∧
      GroupResult s.hart t vc vd vm result :=
  ⟨_, congrArg s.onHart ((Hart.execUnaffected_of_allowed hv hl hb).trans hr), s.hart.writeGroup_completed vc vd vm a,
    (s.hart.writeGroup_result (sound_of_vconf hv) al vm a result fun i _ _ => imp i).congr rfl⟩

/-- Without a mask every set bit of `r` below element `i` counts (R132). -/
theorem Hart.iotaCount_unmasked (h : Hart c) (vc : VConf) (r : RegNo) (i : Nat) :
    h.iotaCount vc 1 r i = (List.range i).countP (h.maskBit vc r) := by
  simp [Hart.iotaCount, Hart.enabled, List.countP_eq_length_filter]

/-- Settles O52: each element gets a number as the SEW bits that hold it. -/
theorem vidAndViotaResults : Obligations.VidAndViotaResults := by
  intro s w vc hv al hm hb
  have hl : (aligned vc (fRd w) && maskedDestOk (fRd w) (fVm w)) = true := by rw [al, hm]; rfl
  refine ⟨execBase_writesGroup hv hl hb al rfl fun i => BitVec.toNat_ofNat i vc.sew, fun h1 => ?_⟩
  have hr : s.hart.runUnaffected s.plat .viota w vc = .next (s.hart.writeGroup vc (fRd w) 1 fun i =>
      BitVec.ofNat vc.sew (s.hart.iotaCount vc 1 (fRs2 w) i)).finish := h1 ▸ rfl
  refine execBase_writesGroup hv hl hb al hr fun i => ?_
  rw [BitVec.toNat_ofNat, s.hart.iotaCount_unmasked]

end Sys2Proof.Machine
end

section
/-! O14 to O16. Regular arithmetic: an instruction that runs by the class rule R151 gives each sub-element its value. -/

namespace Sys2Proof.Machine

variable {c : Config}

/-! ### The checks and the guard of the class -/

theorem aligned_of_legalV {vc : VConf} {vd vs2 : RegNo} {vm : BitVec 1} (hl : legalV vc vd vs2 vm = true) :
    aligned vc vd = true := by
  simp only [legalV, Bool.and_eq_true] at hl
  exact hl.1.1

theorem aligned_of_legalVV {vc : VConf} {vd vs2 vs1 : RegNo} {vm : BitVec 1} (hl : legalVV vc vd vs2 vs1 vm = true) :
    aligned vc vd = true := by
  rw [legalVV_eq, Bool.and_eq_true] at hl
  exact aligned_of_legalV hl.1

/-- R153 where an optional member of RegularArith runs. -/
theorem Hart.ifRegular_of_runs {h : Hart c} {vc : VConf} {m : RegularExtra} {run : HartOutcome c}
    (hr : RegularRuns c vc m) : h.ifRegular vc m run = run := by
  obtain he | ⟨hm, hs⟩ := hr
  · exact Hart.ifRegular_of_undivided he
  · exact Hart.ifRegular_of_member hm hs

/-- Behind the checks of R81 an instruction of the opcode table that Base leaves to its rule follows that rule. -/
theorem exec_vector_of_allowed {s : State} {i : Instr} {vc : VConf} {legal : VConf → Bool}
    {body : VConf → HartOutcome s.cfg} (hv : vconf s.cfg s.hart.vtype = some vc)
    (e : exec i s = s.onHart (s.hart.vector (encodeWith s.cfg.dot i) legal body)) (hl : legal vc = true)
    (hn : i.isNew = false) (hb : BaseAllows s i) : exec i s = s.onHart (body vc) := by
  rw [e, Hart.vector_of_allowed hv hl hn hb]

/-! ### The class rule (R151) -/

/-- What the class rule leaves in an element has the sub-elements the operation gives. -/
theorem subsAre_ofSubs {vc : VConf} (so : vc.Sound c) (e : BitVec vc.sew) (op : Nat → BitVec vc.se) :
    SubsAre vc (ofSubs e vc.ediv op) op :=
  fun _ hj => sub_ofSubs e vc.ediv op hj so.ediv_mul_se.le

/-- An instruction that runs by the class rule completes with its operation's result in every active sub-element. -/
theorem writesGroup_of_regular {s : State} {i : Instr} {vc : VConf} {vd : RegNo} {vm : BitVec 1}
    {legal : VConf → Bool} {body : VConf → HartOutcome s.cfg} {op : Nat → Nat → BitVec vc.se}
    (hv : vconf s.cfg s.hart.vtype = some vc)
    (e : exec i s = s.onHart (s.hart.vector (encodeWith s.cfg.dot i) legal body)) (hl : legal vc = true)
    (hn : i.isNew = false) (al : aligned vc vd = true) (hr : body vc = s.hart.regular vc vd vm op) :
    WritesGroup i s vc vd vm fun k new => SubsAre vc new (op k) :=
  have so := sound_of_vconf hv
  writesGroup_of_exec so al (fun hb => (exec_vector_of_allowed hv e hl hn hb).trans (congrArg s.onHart hr))
    fun k _ _ => subsAre_ofSubs so _ (op k)

theorem WritesGroup.imp {i : Instr} {s : State} {vc : VConf} {vd : RegNo} {vm : BitVec 1}
    {p q : Nat → BitVec vc.sew → Prop} (w : WritesGroup i s vc vd vm p) (pq : ∀ k new, p k new → q k new) :
    WritesGroup i s vc vd vm q := by
  intro hb
  obtain ⟨t, ht, hc, elems, beyond, others⟩ := w hb
  exact ⟨t, ht, hc, fun k hk => (elems k hk).imp fun _ => pq k _, beyond, others⟩

theorem toNat_opVadd {w : Nat} (a b : BitVec w) : (opVadd a b).toNat = (a.toNat + b.toNat) % 2 ^ w :=
  BitVec.toNat_add ..

theorem toNat_opVsll {w : Nat} (a : BitVec w) (amount : Nat) :
    (opVsll a amount).toNat = a.toNat * 2 ^ amount % 2 ^ w := by
  rw [opVsll, BitVec.toNat_shiftLeft, Nat.shiftLeft_eq]

/-- Settles O14: the class rule with addition as its operation. -/
theorem vaddVVAddsSubElements : Obligations.VaddVVAddsSubElements := by
  intro s vd vs2 vs1 vm vc hv hl
  refine (writesGroup_of_regular hv rfl hl rfl (aligned_of_legalVV hl) rfl).imp fun k new hnew j hj => ?_
  rw [hnew j hj]
  exact toNat_opVadd ..

/-- Settles O15: the class rule with the shift as its operation. -/
theorem vsllVXShiftsSubElements : Obligations.VsllVXShiftsSubElements := by
  intro s vd vs2 rs1 vm vc hv hl
  refine (writesGroup_of_regular hv rfl hl rfl (aligned_of_legalV hl) rfl).imp fun k new hnew j hj => ?_
  rw [hnew j hj]
  exact toNat_opVsll ..

/-- Settles O16: where one of the four runs, the guard of R153 lets the class rule through. -/
theorem optionalRegularForms : Obligations.OptionalRegularForms := by
  intro s vd vs2 s1 vm vc hv
  refine ⟨fun hl hr => ?vaddVX, fun hl hr => ?vaddVI, fun hl hr => ?vsllVV, fun hl hr => ?vsllVI⟩
  case vsllVV => exact writesGroup_of_regular hv rfl hl rfl (aligned_of_legalVV hl) (Hart.ifRegular_of_runs hr)
  all_goals exact writesGroup_of_regular hv rfl hl rfl (aligned_of_legalV hl) (Hart.ifRegular_of_runs hr)

end Sys2Proof.Machine
end

section
/-! O17. The optional members of RegularArith where they do not run (R153). -/

namespace Sys2Proof.Machine

variable {c : Config}

/-- The member of RegularArith that an instruction of the opcode table needs with EDIV > 1 (R153); `none` where it needs
none. -/
def optionalMember : Instr → Option RegularExtra
  | .vaddVX .. => some .vaddVX
  | .vaddVI .. => some .vaddVI
  | .vsllVV .. => some .vsllVV
  | .vsllVI .. => some .vsllVI
  | _ => none

/-- Such an instruction is guarded by its member behind the checks of R81. -/
theorem exec_optional_eq {i : Instr} {m : RegularExtra} (hi : optionalMember i = some m) (s : State) :
    ∃ run : VConf → HartOutcome s.cfg, i.isNew = false ∧
      exec i s = s.onHart (s.hart.vector (encodeWith s.cfg.dot i) (namedLegal s.cfg · i)
        fun vc => s.hart.ifRegular vc m (run vc)) := by
  cases i <;> cases hi
  all_goals exact ⟨_, rfl, rfl⟩

/-- Outside RegularArith an instruction that EDIV > 1 would divide is unclassified (R153). -/
theorem Hart.ifRegular_of_nonmember {h : Hart c} {vc : VConf} {m : RegularExtra} {run : HartOutcome c}
    (he : 1 < vc.ediv) (hm : c.regular.contains m = false) :
    h.ifRegular vc m run = h.refuse .unclassifiedUnderEDIV := by
  rw [Hart.ifRegular, if_neg he.ne', hm, if_pos (by rfl)]

/-- Inside it the base has no operation at SE < 8 (R153). -/
theorem Hart.ifRegular_of_narrow {h : Hart c} {vc : VConf} {m : RegularExtra} {run : HartOutcome c}
    (he : 1 < vc.ediv) (hm : c.regular.contains m = true) (hs : vc.se < 8) :
    h.ifRegular vc m run = h.refuse .noOperationAtWidth := by
  rw [Hart.ifRegular, if_neg he.ne', hm, if_neg (by decide), if_pos hs]

/-- Settles O17: the two refusals of the guard. -/
theorem optionalRegularFormsRefused : Obligations.OptionalRegularFormsRefused := by
  intro s vd vs2 s1 vm vc m i hv he hi hb
  have hml : optionalMember i = some m ∧ namedLegal s.cfg vc i = true := by
    obtain ⟨rfl, rfl, hl⟩ | ⟨rfl, rfl, hl⟩ | ⟨rfl, rfl, hl⟩ | ⟨rfl, rfl, hl⟩ := hi
    all_goals exact ⟨rfl, hl⟩
  obtain ⟨run, hn, hx⟩ := exec_optional_eq hml.1 s
  rw [exec_vector_of_allowed hv hx hml.2 hn hb]
  exact ⟨fun hm => congrArg s.onHart (Hart.ifRegular_of_nonmember he hm),
    fun hm hs => congrArg s.onHart (Hart.ifRegular_of_narrow he hm hs)⟩

end Sys2Proof.Machine
end

section
/-! O18. With flat elements the sub-elements of a divided setting are the elements of a narrow one (decision D8), so
that the results of the two follow from the statements O14 and O15 at either setting. -/

namespace Sys2Proof.Machine

variable {c : Config} {vc narrow : VConf}

/-- The narrow setting that a divided one operates as (R152): elements of SE bits, undivided, in the same registers. -/
structure VConf.NarrowOf (narrow vc : VConf) : Prop where
  sew : narrow.sew = vc.se
  ediv : narrow.ediv = 1
  lmul : narrow.lmul = vc.lmul

namespace VConf.NarrowOf

theorem se (hn : narrow.NarrowOf vc) : narrow.se = vc.se := (VConf.Sound.se_eq hn.ediv).trans hn.sew

theorem aligned_eq (hn : narrow.NarrowOf vc) (r : RegNo) : aligned narrow r = aligned vc r := by
  rw [aligned, aligned, hn.lmul]

theorem legalV_eq (hn : narrow.NarrowOf vc) (vd vs2 : RegNo) (vm : BitVec 1) :
    legalV narrow vd vs2 vm = legalV vc vd vs2 vm := by
  simp only [legalV, hn.aligned_eq]

theorem legalVV_eq (hn : narrow.NarrowOf vc) (vd vs2 vs1 : RegNo) (vm : BitVec 1) :
    legalVV narrow vd vs2 vs1 vm = legalVV vc vd vs2 vs1 vm := by
  simp only [legalVV, hn.aligned_eq]

/-- There are narrow elements for all sub-elements. -/
theorem vlmax_mul_ediv_le (hn : narrow.NarrowOf vc) (so : vc.Sound c) : vc.vlmax c * vc.ediv ≤ narrow.vlmax c := by
  unfold VConf.vlmax
  rw [hn.lmul, hn.sew, Nat.le_div_iff_mul_le (Nat.mul_pos vc.lmul.den_pos so.se_pos)]
  calc vc.lmul.num * c.VLEN / (vc.lmul.den * vc.sew) * vc.ediv * (vc.lmul.den * vc.se)
      = vc.lmul.num * c.VLEN / (vc.lmul.den * vc.sew) * (vc.lmul.den * vc.sew) := by rw [← so.ediv_mul_se]; ring
    _ ≤ vc.lmul.num * c.VLEN := Nat.div_mul_le_self ..

end VConf.NarrowOf

/-- The one sub-element of an undivided element is the element (R100). -/
theorem toNat_sub_zero (he : vc.ediv = 1) (e : BitVec vc.sew) : (sub vc.se e 0).toNat = e.toNat := by
  rw [VConf.Sound.se_eq he, sub, Nat.zero_mul, BitVec.extractLsb'_eq_self]

/-- Without striping, narrow element `k` is sub-element `k mod EDIV` of element `k / EDIV` (R15, decision D8). -/
theorem Hart.elemOf_se (h : Hart c) (so : vc.Sound c) (hf : c.elements = .flat) (r : RegNo) (k : Nat) :
    h.elemOf vc.lmul r vc.se k = sub vc.se (h.elem vc r (k / vc.ediv)) (k % vc.ediv) := by
  rw [Hart.elem, Hart.elemOf, Hart.elemOf, elemPlace_flat hf, elemPlace_flat hf, slotAt_se so]

/-- The same as numbers, which are free of the equality of the two widths. -/
theorem Hart.toNat_sub_elem_narrow (h : Hart c) (so : vc.Sound c) (hn : narrow.NarrowOf vc) (hf : c.elements = .flat)
    (r : RegNo) (k : Nat) :
    (sub narrow.se (h.elem narrow r k) 0).toNat = (sub vc.se (h.elem vc r (k / vc.ediv)) (k % vc.ediv)).toNat := by
  rw [toNat_sub_zero hn.ediv, ← h.elemOf_se so hf, Hart.elem, hn.sew, hn.lmul]

/-- From element 0 on, without a mask, the elements below `vl` are the active ones (R14). -/
theorem Hart.active_of_lt (h : Hart c) (h0 : h.vstart = 0) {k : Nat} (hk : k < h.vl.toNat) :
    h.active vc 1 k = true := by
  simp [Hart.active, Hart.body, Hart.enabled, h0, hk]

/-- The state with another setting and length. -/
abbrev State.withSetting (s : State) (t n : BitVec s.cfg.XLEN) : State :=
  ⟨s.cfg, s.plat, (s.hart.setVtype t).setVl n⟩

/-- An instruction whose results at the two settings are the same numbers leaves the same bits in the body. -/
theorem divided_as_narrow {s : State} {i : Instr} {vd : RegNo} {t' n : BitVec s.cfg.XLEN}
    {value narrowValue : Nat → Nat → Nat} (so : vc.Sound s.cfg) (hn : narrow.NarrowOf vc)
    (hf : s.cfg.elements = .flat) (hvl : n.toNat = s.hart.vl.toNat * vc.ediv)
    (hmax : s.hart.vl.toNat ≤ vc.vlmax s.cfg) (h0 : s.hart.vstart = 0)
    (hb : BaseAllows s i) (hb' : BaseAllows (s.withSetting t' n) i)
    (wide : WritesGroup i s vc vd 1 fun k new => ∀ j, j < vc.ediv → (sub vc.se new j).toNat = value k j)
    (thin : WritesGroup i (s.withSetting t' n) narrow vd 1 fun k new =>
      ∀ j, j < narrow.ediv → (sub narrow.se new j).toNat = narrowValue k j)
    (same : ∀ k, narrowValue k 0 = value (k / vc.ediv) (k % vc.ediv)) :
    ∃ t u, exec i s = .next ⟨s.cfg, s.plat, t⟩ ∧ exec i (s.withSetting t' n) = .next ⟨s.cfg, s.plat, u⟩ ∧
      ∀ k, k < n.toNat →
        u.elemOf narrow.lmul vd vc.se k = sub vc.se (t.elem vc vd (k / vc.ediv)) (k % vc.ediv) := by
  obtain ⟨t, ht, -, rt⟩ := wide hb
  obtain ⟨u, hu, -, ru⟩ := thin hb'
  refine ⟨t, u, ht, hu, fun k hk => ?_⟩
  have hi : k / vc.ediv < s.hart.vl.toNat := (Nat.div_lt_iff_lt_mul so.ediv_pos).2 (hvl ▸ hk)
  have hkmax : k < narrow.vlmax s.cfg := calc
    k < s.hart.vl.toNat * vc.ediv := hvl ▸ hk
    _ ≤ vc.vlmax s.cfg * vc.ediv := Nat.mul_le_mul_right _ hmax
    _ ≤ narrow.vlmax s.cfg := hn.vlmax_mul_ediv_le so
  have hwide := (rt.elems _ (hi.trans_le hmax)).active (s.hart.active_of_lt h0 hi) _ (Nat.mod_lt k so.ediv_pos)
  have hthin := (ru.elems k hkmax).active ((s.withSetting t' n).hart.active_of_lt h0 hk) 0 (hn.ediv ▸ Nat.one_pos)
  rw [hn.lmul, u.elemOf_se so hf]
  apply BitVec.eq_of_toNat_eq
  rw [← u.toNat_sub_elem_narrow so hn hf, hthin, same, hwide]

/-- Settles O18: the statements O14 and O15 at the two settings. -/
theorem dividedOperatesAsNarrow : Obligations.DividedOperatesAsNarrow := by
  intro s vd vs2 s1 vc narrow t' n hv hv' hf hsew hediv hlmul hvl hmax h0 i hi hb hb'
  have so := sound_of_vconf hv
  have hn : narrow.NarrowOf vc := ⟨hsew, hediv, hlmul⟩
  obtain ⟨rfl, hl⟩ | ⟨rfl, hl⟩ := hi
  · refine divided_as_narrow so hn hf hvl hmax h0 hb hb' (vaddVVAddsSubElements s vd vs2 s1 1 vc hv hl)
      (vaddVVAddsSubElements _ vd vs2 s1 1 narrow hv' (hn.legalVV_eq .. ▸ hl)) fun k => ?_
    rw [Hart.toNat_sub_elem_narrow _ so hn hf, Hart.toNat_sub_elem_narrow _ so hn hf, hn.se]
    rfl
  · refine divided_as_narrow so hn hf hvl hmax h0 hb hb' (vsllVXShiftsSubElements s vd vs2 s1 1 vc hv hl)
      (vsllVXShiftsSubElements _ vd vs2 s1 1 narrow hv' (hn.legalV_eq .. ▸ hl)) fun k => ?_
    rw [Hart.toNat_sub_elem_narrow _ so hn hf, hn.se]
    rfl

end Sys2Proof.Machine
end

section
/-! O20, O21. Add with carry and subtract with borrow with EDIV = 1 (R156 to R159): the words as numbers, and the two
writes behind the guard of the reserved encodings. -/

namespace Sys2Proof.Machine

/-! ### Sums and differences as numbers -/

theorem toNat_addCarry {w : Nat} (a b : BitVec w) (carry : Nat) :
    (addCarry a b carry).toNat = (a.toNat + b.toNat + carry) % 2 ^ w := by
  rw [addCarry, BitVec.toNat_add, BitVec.toNat_add, BitVec.toNat_ofNat, ← Nat.add_mod]

/-- A difference of words, modulo 2^w as a difference of numbers. -/
theorem toNat_sub_eq_emod {w : Nat} (a b : BitVec w) :
    ((a - b).toNat : Int) = ((a.toNat : Int) - b.toNat) % 2 ^ w := by
  have hb : b.toNat ≤ 2 ^ w := b.isLt.le
  rw [BitVec.toNat_sub]
  push_cast [hb]
  rw [show (2 : Int) ^ w - b.toNat + a.toNat = a.toNat - b.toNat + 2 ^ w by ring, Int.add_emod_right]

theorem toNat_subBorrow {w : Nat} (a b : BitVec w) (borrow : Nat) :
    ((subBorrow a b borrow).toNat : Int) = ((a.toNat : Int) - b.toNat - borrow) % 2 ^ w := by
  rw [subBorrow, toNat_sub_eq_emod, toNat_sub_eq_emod, BitVec.toNat_ofNat]
  push_cast
  rw [← Int.sub_emod]

/-! ### The two writes -/

theorem aligned_of_legalCarry {vc : VConf} {vd : RegNo} {vm : BitVec 1} (hl : legalCarry vc vd vm = true) :
    aligned vc vd = true := by
  simp only [legalCarry, Bool.and_eq_true] at hl
  exact hl.1.1

section

variable {s : State} {i : Instr} {vc : VConf} {vd : RegNo} {legal : VConf → Bool} {body : VConf → HartOutcome s.cfg}
  (hv : vconf s.cfg s.hart.vtype = some vc) (he : vc.ediv = 1)
  (e : exec i s = s.onHart (s.hart.vector (encodeWith s.cfg.dot i) legal fun vc =>
    s.hart.unlessDivided vc .carryUnderEDIV (encodeWith s.cfg.dot i) (body vc)))
  (hl : legal vc = true) (hn : i.isNew = false)
include hv he e hl hn

/-- With EDIV = 1 a carry instruction runs behind the checks of R81. -/
theorem exec_carry_of_undivided (hb : BaseAllows s i) : exec i s = s.onHart (body vc) :=
  (exec_vector_of_allowed hv e hl hn hb).trans (congrArg s.onHart (Hart.unlessDivided_of_undivided he))

/-- One that writes elements writes every body element (R156, R158). -/
theorem writesGroup_of_carryElems {a : Nat → BitVec vc.sew} (al : aligned vc vd = true)
    (hr : body vc = s.hart.carryElems vc vd a) : WritesGroup i s vc vd 1 fun k new => new = a k :=
  writesGroup_of_exec (sound_of_vconf hv) al
    (fun hb => (exec_carry_of_undivided hv he e hl hn hb).trans (congrArg s.onHart hr)) fun _ _ _ => rfl

/-- One that writes a mask writes the bit of every body element (R157, R159). -/
theorem writesMask_of_carryMask {a : Nat → Bool} (hr : body vc = s.hart.carryMask vc vd a) : WritesMask i s vc vd a :=
  writesMask_of_exec (sound_of_vconf hv)
    fun hb => (exec_carry_of_undivided hv he e hl hn hb).trans (congrArg s.onHart hr)

end

/-- Settles O20: the elements written are the words of `addCarry` and `subBorrow`. -/
theorem carryElementsUndivided : Obligations.CarryElementsUndivided := by
  intro s vd vs2 s1 vc hv he hl h2
  have al := aligned_of_legalCarry hl
  have hx : (legalCarry vc vd 0 && aligned vc vs2) = true := by rw [hl, h2]; rfl
  have hvv (h1 : aligned vc s1 = true) : (legalCarry vc vd 0 && aligned vc vs2 && aligned vc s1) = true := by
    rw [hx, h1]; rfl
  refine ⟨fun h1 => ?vadcVVM, ?vadcVXM, ?vadcVIM, fun h1 => ?vsbcVVM, ?vsbcVXM⟩
  case vadcVVM =>
    exact (writesGroup_of_carryElems hv he rfl (hvv h1) rfl al rfl).imp fun _ _ hnew => hnew ▸ toNat_addCarry ..
  case vsbcVVM =>
    exact (writesGroup_of_carryElems hv he rfl (hvv h1) rfl al rfl).imp fun _ _ hnew => hnew ▸ toNat_subBorrow ..
  case vsbcVXM =>
    exact (writesGroup_of_carryElems hv he rfl hx rfl al rfl).imp fun _ _ hnew => hnew ▸ toNat_subBorrow ..
  all_goals exact (writesGroup_of_carryElems hv he rfl hx rfl al rfl).imp fun _ _ hnew => hnew ▸ toNat_addCarry ..

/-- Settles O21: the bits written are those of `carryOut` and `borrowOut`. -/
theorem carryMasksUndivided : Obligations.CarryMasksUndivided := by
  intro s vd vs2 s1 vm vc hv he hl h2
  have hx : (legalMaskCarry s.cfg vm && aligned vc vs2) = true := by rw [hl, h2]; rfl
  have hvv (h1 : aligned vc s1 = true) : (legalMaskCarry s.cfg vm && aligned vc vs2 && aligned vc s1) = true := by
    rw [hx, h1]; rfl
  refine ⟨fun h1 => ?vmadcVVM, ?vmadcVXM, ?vmadcVIM, fun h1 => ?vmsbcVVM, ?vmsbcVXM⟩
  case vmadcVVM | vmsbcVVM => exact writesMask_of_carryMask hv he rfl (hvv h1) rfl rfl
  all_goals exact writesMask_of_carryMask hv he rfl hx rfl rfl

end Sys2Proof.Machine
end

section
/-! O53. The class rule for a base arithmetic instruction without a row (R151, R153; log 32): the flags it accrues bit
by bit, and the guards on the way to it. -/

namespace Sys2Proof.Machine

variable {c : Config}

/-! ### The accrued flags (R36) -/

/-- A bit of words OR-ed together is set where it was set at the start or one of them sets it. -/
theorem getLsbD_foldl_or {α : Type} {w : Nat} (l : List α) (f : α → BitVec w) (a : BitVec w) (k : Nat) :
    (l.foldl (fun acc x => acc ||| f x) a).getLsbD k = true ↔
      a.getLsbD k = true ∨ ∃ x ∈ l, (f x).getLsbD k = true := by
  induction l generalizing a with
  | nil => simp
  | cons x l ih => simp [ih, or_assoc]

/-- The sub-elements of the active elements. -/
theorem Hart.mem_activeSubs (h : Hart c) (vc : VConf) (vm : BitVec 1) (ij : Nat × Nat) :
    ij ∈ h.activeSubs vc vm ↔ h.active vc vm ij.1 = true ∧ ij.1 < vc.vlmax c ∧ ij.2 < vc.ediv := by
  obtain ⟨i, j⟩ := ij
  simp only [Hart.activeSubs, Hart.activeList, List.mem_flatMap, List.mem_filter, List.mem_map, List.mem_range,
    Prod.mk.injEq, exists_eq_right_right]
  tauto

/-- What the sub-elements set, OR-ed into a register where the instruction is of the kind that accrues it. -/
theorem Hart.getLsbD_accrued (h : Hart c) (vc : VConf) (vm : BitVec 1) {w : Nat} (old : BitVec w) (on : Bool)
    (f : Nat → Nat → BitVec w) (k : Nat) :
    (old ||| if on then (h.activeSubs vc vm).foldl (fun acc ij => acc ||| f ij.1 ij.2) 0 else 0).getLsbD k = true ↔
      old.getLsbD k = true ∨ (on = true ∧ ∃ i j, h.active vc vm i = true ∧ i < vc.vlmax c ∧ j < vc.ediv ∧
        (f i j).getLsbD k = true) := by
  cases on
  case false => simp
  case true => simp [getLsbD_foldl_or, h.mem_activeSubs, and_assoc]

/-! ### The result -/

/-- What the class rule leaves where it runs: the group, and the two flag registers. -/
structure RegularResult (h t : Hart c) (vc : VConf) (vd : RegNo) (vm : BitVec 1) (fixedPoint float : Bool)
    (op : Nat → Nat → BitVec vc.se × BitVec 1 × BitVec 5) : Prop where
  group : GroupResult h t vc vd vm fun i new => SubsAre vc new fun j => (op i j).1
  same : SameControl h { t with vxsat := h.vxsat }
  vstart : t.vstart = 0
  pc : t.pc = h.pc + 4
  fflags : ∀ k, t.fflags.getLsbD k = true ↔ h.fflags.getLsbD k = true ∨ (float = true ∧
    ∃ i j, h.active vc vm i = true ∧ i < vc.vlmax c ∧ j < vc.ediv ∧ (op i j).2.2.getLsbD k = true)
  vxsat : ∀ k, t.vxsat.getLsbD k = true ↔ h.vxsat.getLsbD k = true ∨ (fixedPoint = true ∧
    ∃ i j, h.active vc vm i = true ∧ i < vc.vlmax c ∧ j < vc.ediv ∧ (op i j).2.1.getLsbD k = true)

/-- The class rule completes with the operation's results and flags. -/
theorem Hart.regularBase_result (h : Hart c) {vc : VConf} (so : vc.Sound c) (n : Nat) (form : ArithForm)
    (shift fixedPoint float : Bool) {vd : RegNo} (al : aligned vc vd = true) (vs2 s1 : RegNo) (vm : BitVec 1) :
    ∃ t, h.regularBase vc n form shift fixedPoint float vd vs2 s1 vm = .next t ∧
      RegularResult h t vc vd vm fixedPoint float (h.regularSub vc n form shift vd vs2 s1) := by
  refine ⟨_, rfl, ?_⟩
  constructor
  case group => exact (h.writeGroup_result so al vm _ _ fun i _ _ => subsAre_ofSubs so _ _).congr rfl
  case same => exact ⟨rfl, rfl, rfl, rfl, rfl, rfl, rfl, fun _ _ => rfl⟩
  case vstart => rfl
  case pc => rfl
  case fflags =>
    exact h.getLsbD_accrued vc vm h.fflags float fun i j => (h.regularSub vc n form shift vd vs2 s1 i j).2.2
  case vxsat =>
    exact h.getLsbD_accrued vc vm h.vxsat fixedPoint fun i j => (h.regularSub vc n form shift vd vs2 s1 i j).2.1

/-! ### The guards -/

theorem aligned_of_legalForm {form : ArithForm} {vc : VConf} {vd vs2 s1 : RegNo} {vm : BitVec 1}
    (hl : legalForm form vc vd vs2 s1 vm = true) : aligned vc vd = true := by
  cases form
  case vv => exact aligned_of_legalVV hl
  all_goals exact aligned_of_legalV hl

/-- The form and the kind of a word, as its `funct3` says (R71). -/
theorem arithForm_and_isFloatWord {w : Word32} {form : ArithForm} {float : Bool}
    (hw : (fFunct3 w, form, float) ∈ [(0b000#3, ArithForm.vv, false), (0b001#3, .vv, true), (0b010#3, .vv, false),
      (0b011#3, .vi, false), (0b100#3, .vx, false), (0b101#3, .vf, true), (0b110#3, .vx, false)]) :
    arithForm w = some form ∧ isFloatWord w = float := by
  simp only [List.mem_cons, List.not_mem_nil, or_false, Prod.mk.injEq] at hw
  obtain ⟨h3, rfl, rfl⟩ | ⟨h3, rfl, rfl⟩ | ⟨h3, rfl, rfl⟩ | ⟨h3, rfl, rfl⟩ | ⟨h3, rfl, rfl⟩ | ⟨h3, rfl, rfl⟩ |
    ⟨h3, rfl, rfl⟩ := hw
  all_goals exact ⟨by rw [arithForm, h3]; rfl, by rw [isFloatWord, h3]; rfl⟩

/-- Where Base allows the word and its checks hold, the instruction is behind the two guards of R153. -/
theorem execBase_regular_of_allowed {n : Nat} {form : ArithForm} {shift fixedPoint : Bool} {w : Word32} {s : State}
    {vc : VConf} (hv : vconf s.cfg s.hart.vtype = some vc) (hw : arithForm w = some form)
    (hl : legalForm form vc (fRd w) (fRs2 w) (fRs1 w) (fVm w) = true) (hb : BaseAllowsWord s.cfg w s.hart.vtype) :
    execBase (.regular n shift fixedPoint) w s = s.onHart (s.hart.ifRegular vc (.base n)
      (if isFloatWord w && !fpFormatOk s.cfg vc.se vc.se then s.hart.refuse .noOperationAtWidth
        else s.hart.regularBase vc n form shift fixedPoint (isFloatWord w) (fRd w) (fRs2 w) (fRs1 w) (fVm w))) := by
  obtain ⟨hrejects, hother⟩ := hb
  simp only [execBase, Hart.execRegular, hw]
  rw [Hart.vectorAt_of_legal hv hl hrejects, baseTakes_eq_false hv hother, if_neg Bool.false_ne_true]

/-- With EDIV > 1 a member of RegularArith is refused at a width for which the base has no operation: below 8 bits, or,
if it is a floating-point instruction, without a format (R153). -/
theorem Hart.ifRegular_of_noOperation {h : Hart c} {vc : VConf} {m : RegularExtra} {float formatOk : Bool}
    {run : HartOutcome c} (he : 1 < vc.ediv) (hm : c.regular.contains m = true)
    (hw : vc.se < 8 ∨ (float = true ∧ formatOk = false)) :
    h.ifRegular vc m (if float && !formatOk then h.refuse .noOperationAtWidth else run) =
      h.refuse .noOperationAtWidth := by
  by_cases hs : vc.se < 8
  · exact Hart.ifRegular_of_narrow he hm hs
  · obtain ⟨rfl, rfl⟩ := hw.resolve_left hs
    rw [Hart.ifRegular_of_member hm (by omega)]
    rfl

/-- Settles O53: the class rule where the guards of R153 let it through, and their two refusals. -/
theorem classRuleForBaseArithmetic : Obligations.ClassRuleForBaseArithmetic := by
  intro n form shift fixedPoint float w s vc h3 hv hl hb input op run
  obtain ⟨hform, rfl⟩ := arithForm_and_isFloatWord h3
  have hrun : run = _ := execBase_regular_of_allowed hv hform hl hb
  have hop : s.hart.regularSub vc n form shift (fRd w) (fRs2 w) (fRs1 w) = op := by
    have hinput : s.hart.regularInput vc n form shift (fRs1 w) = input := by
      cases form
      case vi => cases shift <;> rfl
      all_goals rfl
    funext i j
    rw [Hart.regularSub, hinput]
    rfl
  refine ⟨fun hr hfmt => ?runs, fun he hm => ?nonmember, fun he hm hw => ?noOperation⟩
  case runs =>
    obtain ⟨t, ht, r⟩ := s.hart.regularBase_result (sound_of_vconf hv) n form shift fixedPoint (isFloatWord w)
      (aligned_of_legalForm hl) (fRs2 w) (fRs1 w) (fVm w)
    have hfmt' : ¬ (isFloatWord w && !fpFormatOk s.cfg vc.se vc.se) = true := by simpa using hfmt
    rw [Hart.ifRegular_of_runs hr, if_neg hfmt', ht] at hrun
    rw [hop] at r
    exact ⟨t, hrun, r.group, r.same, r.vstart, r.pc, r.fflags, r.vxsat⟩
  case nonmember => exact hrun.trans (congrArg s.onHart (Hart.ifRegular_of_nonmember he hm))
  case noOperation => exact hrun.trans (congrArg s.onHart (Hart.ifRegular_of_noOperation he hm hw))

end Sys2Proof.Machine
end

section
/-! O25 to O27. The integer reductions with EDIV > 1 (R171 to R173): the fold over the sub-elements of an element,
read as numbers or bit by bit. -/

namespace Sys2Proof.Machine

variable {c : Config}

/-! ### Width changes (R11) -/

theorem toNat_extendTo {m n : Nat} (h : m ≤ n) (x : BitVec m) : (extendTo false n x).toNat = x.toNat :=
  BitVec.toNat_setWidth_of_le h

theorem toInt_extendTo {m n : Nat} (h : m ≤ n) (x : BitVec m) : (extendTo true n x).toInt = x.toInt :=
  BitVec.toInt_signExtend_of_le h

theorem getLsbD_extendTo {m n k : Nat} (signed : Bool) (h : m ≤ n) (x : BitVec m) (hk : k < m) :
    (extendTo signed n x).getLsbD k = x.getLsbD k := by
  cases signed
  case false => simp [extendTo, hk.trans_le h]
  case true => rw [extendTo, if_pos rfl, BitVec.getLsbD_signExtend, if_pos hk, decide_eq_true (hk.trans_le h),
      Bool.true_and]

/-- The low bits of an extended value are the value. -/
theorem setWidth_extendTo {m n : Nat} (signed : Bool) (h : m ≤ n) (x : BitVec m) :
    (extendTo signed n x).setWidth m = x := by
  apply BitVec.eq_of_getLsbD_eq
  intro k hk
  rw [BitVec.getLsbD_setWidth, getLsbD_extendTo signed h x hk, decide_eq_true hk, Bool.true_and]

@[simp] theorem extendTo_self {w : Nat} (signed : Bool) (x : BitVec w) : extendTo signed w x = x := by
  cases signed
  exacts [BitVec.setWidth_eq x, BitVec.signExtend_eq x]

/-! ### The widths (R102) -/

theorem VConf.se_le_wNonsum (vc : VConf) : vc.se ≤ wNonsum vc.sew vc.ediv := le_max_right _ _

theorem VConf.Sound.wNonsum_le_sew {vc : VConf} (so : vc.Sound c) : wNonsum vc.sew vc.ediv ≤ vc.sew :=
  max_le so.eight_le_sew so.se_le_sew

theorem VConf.Sound.se_le_wSum {vc : VConf} (so : vc.Sound c) : vc.se ≤ wSum vc.sew vc.ediv :=
  le_max_of_le_right (le_min so.se_le_sew (Nat.le_mul_of_pos_left _ Nat.two_pos))

theorem VConf.Sound.wSum_le_sew {vc : VConf} (so : vc.Sound c) : wSum vc.sew vc.ediv ≤ vc.sew :=
  max_le so.eight_le_sew (min_le_left _ _)

/-! ### The fold (R171, R172) -/

/-- The result on an element is the fold over the list of its sub-elements, the scalar first. -/
theorem Hart.redElem_eq (h : Hart c) (vc : VConf) (op : RedOp) (w : Nat) (signed : Bool) (vs2 vs1 : RegNo) (i : Nat) :
    h.redElem vc op w signed vs2 vs1 i = extendTo signed vc.sew
      ((h.subs vc vs2 i).foldl (fun acc e => op w acc (extendTo signed w e)) (h.lowBits vc vs1 w i)) := by
  rw [Hart.subs, List.foldl_map]
  rfl

/-- A reading of words that extension keeps and that takes the operation to `g` takes the fold to the fold of `g`. -/
theorem Hart.read_redElem {α : Type} (h : Hart c) {vc : VConf} {op : RedOp} {w : Nat} {signed : Bool}
    (read : {n : Nat} → BitVec n → α) (g : α → α → α)
    (hext : ∀ {m n : Nat}, m ≤ n → ∀ x : BitVec m, read (extendTo signed n x) = read x)
    (hop : ∀ a b : BitVec w, read (op w a b) = g (read a) (read b)) (hse : vc.se ≤ w) (hw : w ≤ vc.sew)
    (vs2 vs1 : RegNo) (i : Nat) :
    read (h.redElem vc op w signed vs2 vs1 i) =
      ((h.subs vc vs2 i).map read).foldl g (read (h.lowBits vc vs1 w i)) := by
  rw [h.redElem_eq, hext hw, List.foldl_map]
  exact (List.foldl_hom read fun a e => by rw [hop, hext hse]).symm

/-- A bitwise reduction: the result is a value of `w` bits, extended, whose bits are the folds of `g`, if the operation
acts bit by bit as `g` (R173, R177 to R179). -/
theorem Hart.redElem_bitwise (h : Hart c) {vc : VConf} {op : RedOp} {w : Nat} (signed : Bool)
    {g : Bool → Bool → Bool} (hop : ∀ (a b : BitVec w) k, (op w a b).getLsbD k = g (a.getLsbD k) (b.getLsbD k))
    (hw : w ≤ vc.sew) (vs2 vs1 : RegNo) (i : Nat) :
    h.redElem vc op w signed vs2 vs1 i =
        extendTo signed vc.sew ((h.redElem vc op w signed vs2 vs1 i).setWidth w) ∧
      ∀ k, k < w → (h.redElem vc op w signed vs2 vs1 i).getLsbD k =
        ((h.subs vc vs2 i).map fun e => (extendTo signed w e).getLsbD k).foldl g
          ((h.lowBits vc vs1 w i).getLsbD k) := by
  rw [h.redElem_eq, setWidth_extendTo signed hw]
  refine ⟨rfl, fun k hk => ?_⟩
  rw [getLsbD_extendTo signed hw _ hk, List.foldl_map]
  exact (List.foldl_hom (BitVec.getLsbD · k) fun a e => (hop a _ k).symm).symm

/-- A sum brought into range after every addition is the exact sum brought into range once. -/
theorem foldl_add_reduced {α : Type} [AddMonoid α] (reduce : α → α)
    (hr : ∀ a b, reduce (reduce a + b) = reduce (a + b)) (l : List α) (a : α) :
    l.foldl (fun acc b => reduce (acc + b)) (reduce a) = reduce (a + l.sum) := by
  induction l generalizing a with
  | nil => simp
  | cons b l ih => rw [List.foldl_cons, hr, ih, List.sum_cons, add_assoc]

/-! ### The operations as numbers (R180 to R185) -/

theorem toNat_redMinu {w : Nat} (a b : BitVec w) : (redMinu w a b).toNat = min a.toNat b.toNat := by
  rw [redMinu, apply_ite BitVec.toNat, min_def]

theorem toInt_redMin {w : Nat} (a b : BitVec w) : (redMin w a b).toInt = min a.toInt b.toInt := by
  rw [redMin, apply_ite BitVec.toInt, min_def]

theorem toNat_redMaxu {w : Nat} (a b : BitVec w) : (redMaxu w a b).toNat = max a.toNat b.toNat := by
  rw [redMaxu, apply_ite BitVec.toNat, max_comm, max_def]

theorem toInt_redMax {w : Nat} (a b : BitVec w) : (redMax w a b).toInt = max a.toInt b.toInt := by
  rw [redMax, apply_ite BitVec.toInt, max_comm, max_def]

/-! ### The instructions -/

/-- With EDIV > 1 and `vstart` zero an integer reduction behind the checks of R81 writes the result on each element. -/
theorem writesGroup_of_intReduction {s : State} {i : Instr} {vc : VConf} {legal : VConf → Bool}
    {body : VConf → HartOutcome s.cfg} {word : Word32} {op : RedOp} {w1 w : Nat} {signed : Bool} {vd vs2 vs1 : RegNo}
    {vm : BitVec 1} {result : Nat → BitVec vc.sew → Prop}
    (hv : vconf s.cfg s.hart.vtype = some vc) (he : 1 < vc.ediv) (h0 : s.hart.vstart = 0)
    (e : exec i s = s.onHart (s.hart.vector (encodeWith s.cfg.dot i) legal body)) (hl : legal vc = true)
    (hn : i.isNew = false) (al : aligned vc vd = true)
    (hr : body vc = s.hart.intReduction vc word op w1 w signed vd vs2 vs1 vm)
    (imp : ∀ k, result k (s.hart.redElem vc op w signed vs2 vs1 k)) : WritesGroup i s vc vd vm result :=
  writesGroup_of_exec (sound_of_vconf hv) al
    (fun hb => by rw [exec_vector_of_allowed hv e hl hn hb, hr, Hart.intReduction_divided h0 he.ne'])
    fun k _ _ => imp k

/-- With EDIV > 1 the named checks of a widening sum are those of the groups (log 16). -/
theorem legal_widening_divided {vc : VConf} {vd vs2 vs1 : RegNo} {vm : BitVec 1} (he : 1 < vc.ediv)
    (hl : legalVV vc vd vs2 vs1 vm = true) : (legalReduction vc vd vs2 vs1 vm && widenFits c vc) = true := by
  rw [legalReduction_divided he, hl, widenFits, bne_iff_ne.2 he.ne']
  rfl

/-- Settles O25: the four operations are the minimum and maximum of numbers. -/
theorem minMaxReductionsDivided : Obligations.MinMaxReductionsDivided := by
  intro s vd vs2 vs1 vm vc hv he hl h0
  have hl' := (legalReduction_divided he vd vs2 vs1 vm).trans hl
  have al := aligned_of_legalVV hl
  have hse := vc.se_le_wNonsum
  have hw := (sound_of_vconf hv).wNonsum_le_sew
  refine ⟨?minu, ?min, ?maxu, ?max⟩
  case minu =>
    exact writesGroup_of_intReduction hv he h0 rfl hl' rfl al rfl
      (s.hart.read_redElem BitVec.toNat min toNat_extendTo toNat_redMinu hse hw vs2 vs1)
  case min =>
    exact writesGroup_of_intReduction hv he h0 rfl hl' rfl al rfl
      (s.hart.read_redElem BitVec.toInt min toInt_extendTo toInt_redMin hse hw vs2 vs1)
  case maxu =>
    exact writesGroup_of_intReduction hv he h0 rfl hl' rfl al rfl
      (s.hart.read_redElem BitVec.toNat max toNat_extendTo toNat_redMaxu hse hw vs2 vs1)
  case max =>
    exact writesGroup_of_intReduction hv he h0 rfl hl' rfl al rfl
      (s.hart.read_redElem BitVec.toInt max toInt_extendTo toInt_redMax hse hw vs2 vs1)

/-- Settles O26: the three operations act bit by bit. -/
theorem bitwiseReductionsDivided : Obligations.BitwiseReductionsDivided := by
  intro s vd vs2 vs1 vm vc hv he hl h0 w signed bits
  have hl' := (legalReduction_divided he vd vs2 vs1 vm).trans hl
  have al := aligned_of_legalVV hl
  have hw : w ≤ vc.sew := (sound_of_vconf hv).wNonsum_le_sew
  refine ⟨?and, ?or, ?xor⟩
  case and =>
    exact writesGroup_of_intReduction hv he h0 rfl hl' rfl al rfl
      (s.hart.redElem_bitwise signed (fun _ _ _ => BitVec.getLsbD_and) hw vs2 vs1)
  case or =>
    exact writesGroup_of_intReduction hv he h0 rfl hl' rfl al rfl
      (s.hart.redElem_bitwise signed (fun _ _ _ => BitVec.getLsbD_or) hw vs2 vs1)
  case xor =>
    exact writesGroup_of_intReduction hv he h0 rfl hl' rfl al rfl
      (s.hart.redElem_bitwise signed (fun _ _ _ => BitVec.getLsbD_xor) hw vs2 vs1)

/-- Settles O27: addition modulo 2^`W_sum` at every step is the exact sum reduced once. -/
theorem wideningSumsDivided : Obligations.WideningSumsDivided := by
  intro s vd vs2 vs1 vm vc hv he hl h0
  have so := sound_of_vconf hv
  have hl' := legal_widening_divided (c := s.cfg) he hl
  have al := aligned_of_legalVV hl
  have hse := so.se_le_wSum
  have hw := so.wSum_le_sew
  refine ⟨?unsigned, ?signed⟩
  case unsigned =>
    refine writesGroup_of_intReduction hv he h0 rfl hl' rfl al rfl fun i => ?_
    rw [s.hart.read_redElem BitVec.toNat (fun a b => (a + b) % 2 ^ wSum vc.sew vc.ediv) toNat_extendTo
        BitVec.toNat_add hse hw, ← foldl_add_reduced (· % _) fun a b => Nat.mod_add_mod a _ b,
      Nat.mod_eq_of_lt (BitVec.isLt _)]
  case signed =>
    refine writesGroup_of_intReduction hv he h0 rfl hl' rfl al rfl fun i => ?_
    rw [s.hart.read_redElem BitVec.toInt (fun a b => (a + b).bmod (2 ^ wSum vc.sew vc.ediv)) toInt_extendTo
        BitVec.toInt_add hse hw, ← foldl_add_reduced (Int.bmod · _) fun a b => Int.bmod_add_bmod,
      BitVec.toInt_bmod_cancel]

end Sys2Proof.Machine
end

section
/-! O28, O29. The integer reductions with EDIV = 1 (R192, R194): the fold over the active elements. -/

namespace Sys2Proof.Machine

variable {c : Config}

/-! ### The fold (R192) -/

/-- The result is the fold over the list of the active elements, the scalar first. -/
theorem Hart.redWhole_eq (h : Hart c) (vc : VConf) (op : RedOp) (w : Nat) (signed : Bool) (vs2 vs1 : RegNo)
    (vm : BitVec 1) :
    h.redWhole vc op w signed vs2 vs1 vm =
      (h.activeElems vc vm vs2).foldl (fun acc e => op w acc (extendTo signed w e)) (h.scalar vs1 w) := by
  rw [Hart.activeElems, List.foldl_map]
  rfl

theorem foldl_add_eq_add_sum {α : Type} [AddMonoid α] (l : List α) (a : α) :
    l.foldl (fun acc b => acc + b) a = a + l.sum :=
  foldl_add_reduced id (fun _ _ => rfl) l a

/-! ### The operations with the comparisons of words (R180 to R183) -/

theorem redMinu_eq {w : Nat} (a b : BitVec w) : redMinu w a b = if a.ule b then a else b := by
  simp only [redMinu, BitVec.ule_iff_le, BitVec.le_def]

theorem redMin_eq {w : Nat} (a b : BitVec w) : redMin w a b = if a.sle b then a else b := by
  simp only [redMin, BitVec.sle_iff_toInt_le]

theorem redMaxu_eq {w : Nat} (a b : BitVec w) : redMaxu w a b = if b.ule a then a else b := by
  simp only [redMaxu, BitVec.ule_iff_le, BitVec.le_def]

theorem redMax_eq {w : Nat} (a b : BitVec w) : redMax w a b = if b.sle a then a else b := by
  simp only [redMax, BitVec.sle_iff_toInt_le]

/-! ### The instructions -/

/-- A widening result with EDIV = 1 fits a register (log 16). -/
theorem two_mul_sew_le_of_widenFits {vc : VConf} (he : vc.ediv = 1) (hf : widenFits c vc = true) :
    2 * vc.sew ≤ c.VLEN := by
  simp only [widenFits, he, bne_self_eq_false, Bool.false_or, decide_eq_true_eq] at hf
  exact hf.trans (min_le_right _ _)

theorem legal_widening_undivided {vc : VConf} {vs2 : RegNo} (he : vc.ediv = 1) (al : aligned vc vs2 = true)
    (hf : widenFits c vc = true) (vd vs1 : RegNo) (vm : BitVec 1) :
    (legalReduction vc vd vs2 vs1 vm && widenFits c vc) = true := by
  rw [legalReduction_undivided he, al, hf, Bool.and_self]

section

variable {s : State} {i : Instr} {vc : VConf} {legal : VConf → Bool} {body : VConf → HartOutcome s.cfg} {word : Word32}
  {op : RedOp} {w1 w : Nat} {signed : Bool} {vd vs2 vs1 : RegNo} {vm : BitVec 1}
  (hv : vconf s.cfg s.hart.vtype = some vc) (he : vc.ediv = 1) (h0 : s.hart.vstart = 0)
  (e : exec i s = s.onHart (s.hart.vector (encodeWith s.cfg.dot i) legal body)) (hl : legal vc = true)
  (hn : i.isNew = false)
include hv he h0 e hl hn

/-- With EDIV = 1 and `vstart` zero an integer reduction behind the checks of R81 writes its scalar. -/
theorem writesScalar_of_intReduction (hw : 0 < w1) (hle : w1 ≤ s.cfg.VLEN)
    (hr : body vc = s.hart.intReduction vc word op w1 w signed vd vs2 vs1 vm) :
    WritesScalar i s vc vd w1 ((s.hart.activeElems vc vm vs2).foldl (fun acc e => op w1 acc (extendTo signed w1 e))
      (s.hart.scalar vs1 w1)) := by
  rw [← Hart.redWhole_eq]
  exact writesScalar_of_exec hw hle fun hb => by
    rw [exec_vector_of_allowed hv e hl hn hb, hr, Hart.intReduction_undivided h0 he]

/-- A single-width one folds the elements as they are. -/
theorem writesScalar_of_nonsumReduction {g : BitVec vc.sew → BitVec vc.sew → BitVec vc.sew}
    (hop : ∀ a b, op vc.sew a b = g a b)
    (hr : body vc = s.hart.nonsumReduction vc word op signed vd vs2 vs1 vm) :
    WritesScalar i s vc vd vc.sew ((s.hart.activeElems vc vm vs2).foldl g (s.hart.scalar vs1 vc.sew)) := by
  have so := sound_of_vconf hv
  have key := writesScalar_of_intReduction hv he h0 e hl hn so.sew_pos so.sew_le hr
  simpa only [extendTo_self, hop] using key

/-- A widening sum adds the extended elements to the scalar. -/
theorem writesScalar_of_wideningSum (hf : widenFits s.cfg vc = true)
    (hr : body vc = s.hart.wideningSum vc word signed vd vs2 vs1 vm) :
    WritesScalar i s vc vd (2 * vc.sew) (s.hart.scalar vs1 (2 * vc.sew) +
      ((s.hart.activeElems vc vm vs2).map fun e => extendTo signed (2 * vc.sew) e).sum) := by
  rw [← foldl_add_eq_add_sum, List.foldl_map]
  exact writesScalar_of_intReduction hv he h0 e hl hn (Nat.mul_pos Nat.two_pos (sound_of_vconf hv).sew_pos)
    (two_mul_sew_le_of_widenFits he hf) hr

end

/-- Settles O28: each instruction folds its operation over the active elements; `vredsum.vs` is not reserved with
EDIV = 1. -/
theorem integerReductionsUndivided : Obligations.IntegerReductionsUndivided := by
  intro s vd vs2 vs1 vm vc hv he al h0 fold
  have hl := (legalReduction_undivided he vd vs2 vs1 vm).trans al
  refine ⟨?sum, ?and, ?or, ?xor, ?minu, ?min, ?maxu, ?max⟩
  case sum =>
    exact writesScalar_of_nonsumReduction hv he h0 rfl hl rfl (fun _ _ => rfl) (Hart.unlessDivided_of_undivided he)
  case and | or | xor => exact writesScalar_of_nonsumReduction hv he h0 rfl hl rfl (fun _ _ => rfl) rfl
  case minu => exact writesScalar_of_nonsumReduction hv he h0 rfl hl rfl redMinu_eq rfl
  case min => exact writesScalar_of_nonsumReduction hv he h0 rfl hl rfl redMin_eq rfl
  case maxu => exact writesScalar_of_nonsumReduction hv he h0 rfl hl rfl redMaxu_eq rfl
  case max => exact writesScalar_of_nonsumReduction hv he h0 rfl hl rfl redMax_eq rfl

/-- Settles O29: the sums at 2 * SEW bits, zero-extended and sign-extended. -/
theorem wideningSumsUndivided : Obligations.WideningSumsUndivided := by
  intro s vd vs2 vs1 vm vc hv he al hf h0
  have hl := legal_widening_undivided he al hf vd vs1 vm
  exact ⟨writesScalar_of_wideningSum (signed := false) hv he h0 rfl hl rfl hf rfl,
    writesScalar_of_wideningSum (signed := true) hv he h0 rfl hl rfl hf rfl⟩

end Sys2Proof.Machine
end

section
/-! O31 to O34. The floating-point reductions (R174, R186 to R192): FpNumerics on the sub-elements of each element,
or on the active elements of the vector. -/

namespace Sys2Proof.Machine

variable {c : Config}

/-! ### The shape (R174) -/

/-- A reduction that has its format goes on to the test of `vstart` (log 27). -/
theorem Hart.fpReduction_of_format {h : Hart c} {vc : VConf} {word : Word32} {op : FpRedOp} {f : Nat}
    {box : Nat → BitVec f → BitVec vc.sew} {vd vs2 vs1 : RegNo} {vm : BitVec 1} (hf : fpFormatOk c vc.se f = true) :
    ∃ run, h.fpReduction vc word op f box vd vs2 vs1 vm = h.ifStartZero vc word run ∧
      (vc.ediv = 1 → run = .next ((h.writeWhole vc vd f (h.fpRedWhole vc op f vs2 vs1 vm).1).accrue
        (if h.vl = 0 then 0 else (h.fpRedWhole vc op f vs2 vs1 vm).2)).finish) ∧
      (1 < vc.ediv → run = .next ((h.writeGroup vc vd vm fun i => box i (h.fpRedElem vc op f vs2 vs1 i).1).accrue
        (h.activeFlags vc vm fun i => (h.fpRedElem vc op f vs2 vs1 i).2)).finish) := by
  rw [Hart.fpReduction, hf]
  exact ⟨_, rfl, fun he => if_pos he, fun he => if_neg he.ne'⟩

/-- One that has none is refused (R174). -/
theorem Hart.fpReduction_of_noFormat {h : Hart c} {vc : VConf} {word : Word32} {op : FpRedOp} {f : Nat}
    {box : Nat → BitVec f → BitVec vc.sew} {vd vs2 vs1 : RegNo} {vm : BitVec 1} (hf : fpFormatOk c vc.se f = false) :
    h.fpReduction vc word op f box vd vs2 vs1 vm = h.refuse .noFpFormat := by
  rw [Hart.fpReduction, hf]
  rfl

theorem fpWideWidth_undivided {vc : VConf} (he : vc.ediv = 1) : fpWideWidth c vc = some (2 * vc.sew) := if_pos he

theorem fpWideWidth_divided {vc : VConf} (he : 1 < vc.ediv) : fpWideWidth c vc = aFp vc.sew vc.ediv c.FLEN :=
  if_neg he.ne'

/-- A widening sum is a reduction at its result width (R190, R191). -/
theorem Hart.fpWidening_of_width {h : Hart c} {vc : VConf} {word : Word32} {op : FpRedOp} {f : Nat}
    {vd vs2 vs1 : RegNo} {vm : BitVec 1} (hf : fpWideWidth c vc = some f) :
    h.fpWidening vc word op vd vs2 vs1 vm = h.fpReduction vc word op f (fun _ => nanbox vc.sew) vd vs2 vs1 vm := by
  rw [Hart.fpWidening, hf]

/-! ### The results -/

/-- A value that has the width is not converted (R232). -/
theorem map_fpWiden_self {w : Nat} (xs : List (BitVec w)) : xs.map (fpWiden w w) = xs := by
  have hself : fpWiden w w = id := funext fun x => (if_pos rfl).trans (BitVec.setWidth_eq x)
  rw [hself, List.map_id]

/-- The result on an element: FpNumerics on its converted sub-elements (R174). -/
theorem Hart.fpRedElem_eq (h : Hart c) (vc : VConf) (op : FpRedOp) (f : Nat) (vs2 vs1 : RegNo) (i : Nat) :
    h.fpRedElem vc op f vs2 vs1 i = op f h.frm (h.lowBits vc vs1 f i) ((h.subs vc vs2 i).map (fpWiden vc.se f)) := by
  rw [Hart.subs, List.map_map]
  rfl

/-- The result on the vector: FpNumerics on its converted active elements (R192). -/
theorem Hart.fpRedWhole_eq (h : Hart c) (vc : VConf) (op : FpRedOp) (f : Nat) (vs2 vs1 : RegNo) (vm : BitVec 1) :
    h.fpRedWhole vc op f vs2 vs1 vm =
      op f h.frm (h.scalar vs1 f) ((h.activeElems vc vm vs2).map (fpWiden vc.sew f)) := by
  rw [Hart.activeElems, List.map_map]
  rfl

/-! ### The bits above the result (R174) -/

theorem sub_zero_insertBits {n w : Nat} (e : BitVec n) (a : BitVec w) (hw : w ≤ n) :
    sub w (insertBits e 0 a) 0 = a := by
  rw [sub, Nat.zero_mul]
  exact extractLsb'_insertBits_self e 0 a (by omega)

theorem sub_zero_setWidth {n w : Nat} (a : BitVec w) (hw : w ≤ n) : sub w (a.setWidth n) 0 = a := by
  rw [sub, Nat.zero_mul, ← BitVec.setWidth_eq_extractLsb' hw, BitVec.setWidth_setWidth_of_le _ hw, BitVec.setWidth_eq]

/-- Whatever FpRedSingleExt says, the result is in the low bits. -/
theorem Hart.sub_zero_boxSingle (h : Hart c) {sew w : Nat} (i : Nat) (a : BitVec w) (hw : w ≤ sew) :
    sub w (h.boxSingle sew i a) 0 = a := by
  unfold Hart.boxSingle
  cases c.fpRedSingle
  case zero => exact sub_zero_setWidth a hw
  all_goals exact sub_zero_insertBits _ a hw

theorem Hart.boxSingle_nanbox (h : Hart c) {sew w : Nat} (i : Nat) (a : BitVec w) (hx : c.fpRedSingle = .nanbox) :
    h.boxSingle sew i a = nanbox sew a := by
  rw [Hart.boxSingle, hx]

theorem Hart.boxSingle_zero (h : Hart c) {sew w : Nat} (i : Nat) (a : BitVec w) (hx : c.fpRedSingle = .zero) :
    h.boxSingle sew i a = a.setWidth sew := by
  rw [Hart.boxSingle, hx]

/-! ### The instructions -/

section

variable {s : State} {i : Instr} {vc : VConf} {legal : VConf → Bool} {body : VConf → HartOutcome s.cfg} {word : Word32}
  {op : FpRedOp} {f : Nat} {vd vs2 vs1 : RegNo} {vm : BitVec 1}
  (hv : vconf s.cfg s.hart.vtype = some vc) (h0 : s.hart.vstart = 0)
  (e : exec i s = s.onHart (s.hart.vector (encodeWith s.cfg.dot i) legal body)) (hl : legal vc = true)
  (hn : i.isNew = false)
include hv h0 e hl hn

/-- With EDIV > 1 and `vstart` zero a floating-point reduction that has its format writes the boxed result on each
element and accrues the flags of the active ones. -/
theorem writesGroupFp_of_fpReduction {box : Nat → BitVec f → BitVec vc.sew} {result : Nat → BitVec vc.sew → Prop}
    (he : 1 < vc.ediv) (al : aligned vc vd = true) (hf : fpFormatOk s.cfg vc.se f = true)
    (hr : body vc = s.hart.fpReduction vc word op f box vd vs2 vs1 vm)
    (imp : ∀ k, result k (box k (s.hart.fpRedElem vc op f vs2 vs1 k).1)) :
    WritesGroupFp i s vc vd vm (s.hart.activeFlags vc vm fun k => (s.hart.fpRedElem vc op f vs2 vs1 k).2) result := by
  obtain ⟨run, hrun, -, hdivided⟩ := s.hart.fpReduction_of_format hf
  exact writesGroupFp_of_exec (sound_of_vconf hv) al
    (fun hb => by rw [exec_vector_of_allowed hv e hl hn hb, hr, hrun, Hart.ifStartZero_of_zero h0, hdivided he])
    fun k _ _ => imp k

/-- With EDIV = 1 it writes its scalar and accrues its flags. -/
theorem writesScalarFp_of_fpReduction {box : Nat → BitVec f → BitVec vc.sew} (he : vc.ediv = 1) (hw : 0 < f)
    (hle : f ≤ s.cfg.VLEN) (hf : fpFormatOk s.cfg vc.se f = true)
    (hr : body vc = s.hart.fpReduction vc word op f box vd vs2 vs1 vm) :
    WritesScalarFp i s vc vd f (s.hart.fpRedWhole vc op f vs2 vs1 vm) := by
  obtain ⟨run, hrun, hundivided, -⟩ := s.hart.fpReduction_of_format hf
  exact writesScalarFp_of_exec hw hle fun hb => by
    rw [exec_vector_of_allowed hv e hl hn hb, hr, hrun, Hart.ifStartZero_of_zero h0, hundivided he]

/-- A single-width reduction with EDIV > 1 (R186 to R189). -/
theorem writesGroupFp_of_fpSingle (he : 1 < vc.ediv) (al : aligned vc vd = true)
    (hf : fpFormatOk s.cfg vc.se vc.se = true) (hr : body vc = s.hart.fpSingle vc word op vd vs2 vs1 vm) :
    let r := fun k => op vc.se s.hart.frm (s.hart.lowBits vc vs1 vc.se k) (s.hart.subs vc vs2 k)
    WritesGroupFp i s vc vd vm (s.hart.activeFlags vc vm fun k => (r k).2) fun k new =>
      sub vc.se new 0 = (r k).1 ∧ (s.cfg.fpRedSingle = .nanbox → new = nanbox vc.sew (r k).1) ∧
        (s.cfg.fpRedSingle = .zero → new = (r k).1.setWidth vc.sew) := by
  intro r
  have hres : s.hart.fpRedElem vc op vc.se vs2 vs1 = r := funext fun k => by rw [Hart.fpRedElem_eq, map_fpWiden_self]
  rw [← hres]
  exact writesGroupFp_of_fpReduction hv h0 e hl hn he al hf hr fun k =>
    ⟨s.hart.sub_zero_boxSingle k _ (sound_of_vconf hv).se_le_sew, s.hart.boxSingle_nanbox k _,
      s.hart.boxSingle_zero k _⟩

/-- A widening sum with EDIV > 1 (R190, R191). -/
theorem writesGroupFp_of_fpWidening (he : 1 < vc.ediv) (al : aligned vc vd = true)
    (ha : aFp vc.sew vc.ediv s.cfg.FLEN = some f) (hf : fpFormatOk s.cfg vc.se f = true)
    (hr : body vc = s.hart.fpWidening vc word op vd vs2 vs1 vm) :
    let r := fun k =>
      op f s.hart.frm (s.hart.lowBits vc vs1 f k) ((s.hart.subs vc vs2 k).map (fpWiden vc.se f))
    WritesGroupFp i s vc vd vm (s.hart.activeFlags vc vm fun k => (r k).2) fun k new =>
      new = nanbox vc.sew (r k).1 := by
  intro r
  have hres : s.hart.fpRedElem vc op f vs2 vs1 = r := funext (s.hart.fpRedElem_eq vc op f vs2 vs1)
  rw [← hres]
  exact writesGroupFp_of_fpReduction hv h0 e hl hn he al hf
    (hr.trans (Hart.fpWidening_of_width ((fpWideWidth_divided he).trans ha))) fun _ => rfl

/-- A single-width reduction with EDIV = 1 (R192), whose sub-elements are the elements. -/
theorem writesScalarFp_of_fpSingle (he : vc.ediv = 1) (hf : fpFormatOk s.cfg vc.sew vc.sew = true)
    (hr : body vc = s.hart.fpSingle vc word op vd vs2 vs1 vm) :
    WritesScalarFp i s vc vd vc.sew
      (op vc.sew s.hart.frm (s.hart.scalar vs1 vc.sew) (s.hart.activeElems vc vm vs2)) := by
  have so := sound_of_vconf hv
  have hse : vc.se = vc.sew := VConf.Sound.se_eq he
  have key := writesScalarFp_of_fpReduction hv h0 e hl hn he so.se_pos (so.se_le_sew.trans so.sew_le)
    (by rw [hse]; exact hf) hr
  rwa [hse, Hart.fpRedWhole_eq, map_fpWiden_self] at key

/-- A widening sum with EDIV = 1 (R192). -/
theorem writesScalarFp_of_fpWidening (he : vc.ediv = 1) (hwide : widenFits s.cfg vc = true)
    (hf : fpFormatOk s.cfg vc.sew (2 * vc.sew) = true)
    (hr : body vc = s.hart.fpWidening vc word op vd vs2 vs1 vm) :
    WritesScalarFp i s vc vd (2 * vc.sew) (op (2 * vc.sew) s.hart.frm (s.hart.scalar vs1 (2 * vc.sew))
      ((s.hart.activeElems vc vm vs2).map (fpWiden vc.sew (2 * vc.sew)))) := by
  rw [← s.hart.fpRedWhole_eq vc op]
  exact writesScalarFp_of_fpReduction hv h0 e hl hn he (Nat.mul_pos Nat.two_pos (sound_of_vconf hv).sew_pos)
    (two_mul_sew_le_of_widenFits he hwide) (by rw [VConf.Sound.se_eq he]; exact hf)
    (hr.trans (Hart.fpWidening_of_width (fpWideWidth_undivided he)))

end

/-- Settles O31: the four are one shape, whose sub-elements have the width of the result already. -/
theorem fpReductionsDivided : Obligations.FpReductionsDivided := by
  intro s vd vs2 vs1 vm vc hv he hl h0 hf p hp
  have hl' := (legalReduction_divided he vd vs2 vs1 vm).trans hl
  have al := aligned_of_legalVV hl
  simp only [List.mem_cons, List.not_mem_nil, or_false] at hp
  obtain rfl | rfl | rfl | rfl := hp
  · exact writesGroupFp_of_fpSingle (op := fpUsum) hv h0 rfl hl' rfl he al hf rfl
  · exact writesGroupFp_of_fpSingle (op := fpOsum) hv h0 rfl hl' rfl he al hf rfl
  · exact writesGroupFp_of_fpSingle (op := fun f _ => fpMin f) hv h0 rfl hl' rfl he al hf rfl
  · exact writesGroupFp_of_fpSingle (op := fun f _ => fpMax f) hv h0 rfl hl' rfl he al hf rfl

/-- Settles O32: the same shape at the width `A`. -/
theorem fpWideningSumsDivided : Obligations.FpWideningSumsDivided := by
  intro s vd vs2 vs1 vm vc a hv he hl h0 ha hf p hp
  have hl' := legal_widening_divided (c := s.cfg) he hl
  have al := aligned_of_legalVV hl
  simp only [List.mem_cons, List.not_mem_nil, or_false] at hp
  obtain rfl | rfl := hp
  · exact writesGroupFp_of_fpWidening (op := fpUsum) hv h0 rfl hl' rfl he al ha hf rfl
  · exact writesGroupFp_of_fpWidening (op := fpOsum) hv h0 rfl hl' rfl he al ha hf rfl

/-- Settles O33: with EDIV = 1 the width SE of the shape is SEW. -/
theorem fpReductionsUndivided : Obligations.FpReductionsUndivided := by
  intro s vd vs2 vs1 vm vc hv he al h0 hf on
  have hl := (legalReduction_undivided he vd vs2 vs1 vm).trans al
  refine ⟨?usum, ?osum, ?min, ?max⟩
  case usum => exact writesScalarFp_of_fpSingle (op := fpUsum) hv h0 rfl hl rfl he hf rfl
  case osum => exact writesScalarFp_of_fpSingle (op := fpOsum) hv h0 rfl hl rfl he hf rfl
  case min => exact writesScalarFp_of_fpSingle (op := fun f _ => fpMin f) hv h0 rfl hl rfl he hf rfl
  case max => exact writesScalarFp_of_fpSingle (op := fun f _ => fpMax f) hv h0 rfl hl rfl he hf rfl

/-- Settles O34: the same shape at 2 * SEW bits. -/
theorem fpWideningSumsUndivided : Obligations.FpWideningSumsUndivided := by
  intro s vd vs2 vs1 vm vc hv he al h0 hwide hf on
  have hl := legal_widening_undivided he al hwide vd vs1 vm
  refine ⟨?usum, ?osum⟩
  case usum => exact writesScalarFp_of_fpWidening (op := fpUsum) hv h0 rfl hl rfl he hwide hf rfl
  case osum => exact writesScalarFp_of_fpWidening (op := fpOsum) hv h0 rfl hl rfl he hwide hf rfl

end Sys2Proof.Machine
end

section
/-! O30, O35. The reductions and the floating-point dot product where they do not run: `vstart` (R193), the format
(R174, R231), and the undivided dot product (R233). -/

namespace Sys2Proof.Machine

variable {c : Config}

/-! ### `vstart` (R193) -/

theorem Hart.ifStartZero_of_divided {h : Hart c} {vc : VConf} {w : Word32} {run : HartOutcome c} (hs : h.vstart ≠ 0)
    (he : 1 < vc.ediv) : h.ifStartZero vc w run = h.refuse .vstartAtReduction := by
  rw [Hart.ifStartZero, if_neg hs, if_neg he.ne']

theorem Hart.ifStartZero_of_undivided {h : Hart c} {vc : VConf} {w : Word32} {run : HartOutcome c} (hs : h.vstart ≠ 0)
    (he : vc.ediv = 1) : h.ifStartZero vc w run = h.raise (.illegalInstruction w) := by
  rw [Hart.ifStartZero, if_neg hs, if_pos he]

/-- Behind the checks of R81 the instruction's own rule tests `vstart` first, once what is checked before it holds. -/
def TestsVstart (s : State) (vc : VConf) (i : Instr) : Prop :=
  ∃ (legal : VConf → Bool) (body : VConf → HartOutcome s.cfg) (run : HartOutcome s.cfg),
    exec i s = s.onHart (s.hart.vector (encodeWith s.cfg.dot i) legal body) ∧ legal vc = true ∧ i.isNew = false ∧
      body vc = s.hart.ifStartZero vc (encodeWith s.cfg.dot i) run

/-- Such an instruction does not run with `vstart` not zero (R193). -/
theorem TestsVstart.stops {s : State} {vc : VConf} {i : Instr} (ht : TestsVstart s vc i)
    (hv : vconf s.cfg s.hart.vtype = some vc) (hs : s.hart.vstart ≠ 0) (hb : BaseAllows s i) :
    (1 < vc.ediv → exec i s = .refused (.vstartAtReduction s.hart.pc.toNat)) ∧ (vc.ediv = 1 → TrapsIllegal i s) := by
  obtain ⟨legal, body, run, e, hl, hn, hr⟩ := ht
  rw [TrapsIllegal, exec_vector_of_allowed hv e hl hn hb, hr]
  exact ⟨fun he => congrArg s.onHart (Hart.ifStartZero_of_divided hs he),
    fun he => congrArg s.onHart (Hart.ifStartZero_of_undivided hs he)⟩

section

variable {s : State} {vc : VConf} {i : Instr} {legal : VConf → Bool} {body : VConf → HartOutcome s.cfg}
  {vd vs2 vs1 : RegNo} {vm : BitVec 1}
  (e : exec i s = s.onHart (s.hart.vector (encodeWith s.cfg.dot i) legal body)) (hl : legal vc = true)
  (hn : i.isNew = false)
include e hl hn

theorem testsVstart_of_intReduction {op : RedOp} {w1 w : Nat} {signed : Bool}
    (hr : body vc = s.hart.intReduction vc (encodeWith s.cfg.dot i) op w1 w signed vd vs2 vs1 vm) :
    TestsVstart s vc i :=
  ⟨legal, body, _, e, hl, hn, hr⟩

theorem testsVstart_of_fpReduction {op : FpRedOp} {f : Nat} {box : Nat → BitVec f → BitVec vc.sew}
    (hf : fpFormatOk s.cfg vc.se f = true)
    (hr : body vc = s.hart.fpReduction vc (encodeWith s.cfg.dot i) op f box vd vs2 vs1 vm) : TestsVstart s vc i := by
  obtain ⟨run, hrun, -, -⟩ := s.hart.fpReduction_of_format hf
  exact ⟨legal, body, run, e, hl, hn, hr.trans hrun⟩

theorem testsVstart_of_fpWidening {op : FpRedOp} {f : Nat} (hw : fpWideWidth s.cfg vc = some f)
    (hf : fpFormatOk s.cfg vc.se f = true)
    (hr : body vc = s.hart.fpWidening vc (encodeWith s.cfg.dot i) op vd vs2 vs1 vm) : TestsVstart s vc i :=
  testsVstart_of_fpReduction e hl hn hf (hr.trans (Hart.fpWidening_of_width hw))

end

/-- Settles O30: each of the sixteen tests `vstart` behind its checks. -/
theorem reductionsNeedVstartZero : Obligations.ReductionsNeedVstartZero := by
  intro s vd vs2 vs1 vm vc i hv hl hs hi hb
  refine TestsVstart.stops ?_ hv hs hb
  simp only [List.mem_cons, List.not_mem_nil, or_false] at hi
  have hwide (hf : widenFits s.cfg vc = true) : (legalReduction vc vd vs2 vs1 vm && widenFits s.cfg vc) = true := by
    rw [hl, hf, Bool.and_self]
  obtain hnonsum | ⟨hsum, hfit⟩ | ⟨hfp, hf⟩ | ⟨hfpsum, hfit, f, hw, hf⟩ | ⟨rfl, he⟩ := hi
  · obtain rfl | rfl | rfl | rfl | rfl | rfl | rfl := hnonsum
    all_goals exact testsVstart_of_intReduction rfl hl rfl rfl
  · obtain rfl | rfl := hsum
    all_goals exact testsVstart_of_intReduction rfl (hwide hfit) rfl rfl
  · obtain rfl | rfl | rfl | rfl := hfp
    all_goals exact testsVstart_of_fpReduction rfl hl rfl hf rfl
  · obtain rfl | rfl := hfpsum
    all_goals exact testsVstart_of_fpWidening rfl (hwide hfit) rfl hw hf rfl
  · exact testsVstart_of_intReduction rfl hl rfl (Hart.unlessDivided_of_undivided he)

/-! ### The format (R174, R231) -/

/-- A widening sum whose result has no format is refused. -/
theorem Hart.fpWidening_of_noFormat {h : Hart c} {vc : VConf} {word : Word32} {op : FpRedOp} {vd vs2 vs1 : RegNo}
    {vm : BitVec 1} (hf : ∀ a, fpWideWidth c vc = some a → fpFormatOk c vc.se a = false) :
    h.fpWidening vc word op vd vs2 vs1 vm = h.refuse .noFpFormat := by
  unfold Hart.fpWidening
  split
  · rfl
  · rename_i a ha
    exact Hart.fpReduction_of_noFormat (hf a ha)

/-- The rule of `vfdot.vv` behind the checks of R81. -/
theorem exec_vfdotVV_of_allowed {s : State} {vc : VConf} {vd vs2 vs1 : RegNo} {vm : BitVec 1}
    (hv : vconf s.cfg s.hart.vtype = some vc) (hl : legalVV vc vd vs2 vs1 vm = true)
    (hb : BaseAllows s (.vfdotVV vd vs2 vs1 vm)) :
    (vc.ediv = 1 → exec (.vfdotVV vd vs2 vs1 vm) s = s.onHart (s.hart.refuse .fpDotUndivided)) ∧
      (1 < vc.ediv → (∀ a, aFp vc.sew vc.ediv s.cfg.FLEN = some a → fpFormatOk s.cfg vc.se a = false) →
        exec (.vfdotVV vd vs2 vs1 vm) s = s.onHart (s.hart.refuse .noFpFormat)) := by
  have hx : exec (.vfdotVV vd vs2 vs1 vm) s = s.onHart _ := congrArg s.onHart (Hart.vectorNew_of_allowed hv hl hb)
  rw [hx]
  refine ⟨fun he => ?_, fun he hf => ?_⟩
  · rw [if_pos he]
  · rw [if_neg he.ne']
    split
    · rfl
    · rename_i a ha
      rw [hf a ha]
      rfl

/-- Settles O35: the format is looked at before anything else of the rule. -/
theorem floatingPointRefusals : Obligations.FloatingPointRefusals := by
  intro s vd vs2 vs1 vm vc hv
  refine ⟨fun he hl => ⟨fun hf i hi hb => ?single, fun hf i hi hb => ?widening⟩, fun he hl hb => ?undivided⟩
  case single =>
    have hl' := (legalReduction_divided he vd vs2 vs1 vm).trans hl
    simp only [List.mem_cons, List.not_mem_nil, or_false] at hi
    obtain rfl | rfl | rfl | rfl := hi
    all_goals
      exact (exec_vector_of_allowed hv rfl hl' rfl hb).trans (congrArg s.onHart (Hart.fpReduction_of_noFormat hf))
  case widening =>
    have hl' := legal_widening_divided (c := s.cfg) he hl
    have hf' : ∀ a, fpWideWidth s.cfg vc = some a → fpFormatOk s.cfg vc.se a = false :=
      fun a ha => hf a ((fpWideWidth_divided he).symm.trans ha)
    simp only [List.mem_cons, List.not_mem_nil, or_false] at hi
    obtain rfl | rfl | rfl := hi
    case inr.inr => exact (exec_vfdotVV_of_allowed hv hl hb).2 he hf
    all_goals
      exact (exec_vector_of_allowed hv rfl hl' rfl hb).trans (congrArg s.onHart (Hart.fpWidening_of_noFormat hf'))
  case undivided => exact (exec_vfdotVV_of_allowed hv hl hb).1 he

end Sys2Proof.Machine
end

section
/-! SUPPORT. The magnitude of a floating-point number as a function of its exponent and fraction fields taken as one
number: it rises with them, by a step that the exponent gives (GK12). -/

namespace Sys2Proof.Machine

/-! ### The fields as one number -/

/-- The exponent and fraction fields together: all bits but the sign. -/
def fpFields {w : Nat} (b : BitVec w) : Nat := (b.extractLsb' 0 (w - 1)).toNat

theorem fpFields_eq_mod {w : Nat} (b : BitVec w) : fpFields b = b.toNat % 2 ^ (w - 1) := by
  rw [fpFields, BitVec.extractLsb'_toNat, Nat.shiftRight_zero]

theorem fpExp_le {w : Nat} (b : BitVec w) : fpExp b ≤ 2 ^ expBits w - 1 := Nat.le_sub_one_of_lt (BitVec.isLt _)

theorem FormatWidth.of_mem {f : Nat} (hf : f ∈ fpFormats) : FormatWidth f := by
  simp only [fpFormats, List.mem_cons, List.not_mem_nil, or_false] at hf
  obtain rfl | rfl | rfl | rfl := hf
  exacts [formatWidth_16, formatWidth_32, formatWidth_64, formatWidth_128]

/-- A magnitude with a sign. -/
def withSign (negative : Bool) (k : Nat) : Int := if negative then -(k : Int) else k

@[simp] theorem withSign_false (k : Nat) : withSign false k = k := rfl

@[simp] theorem withSign_true (k : Nat) : withSign true k = -(k : Int) := rfl

@[simp] theorem natAbs_withSign (negative : Bool) (k : Nat) : (withSign negative k).natAbs = k := by
  cases negative
  exacts [Int.natAbs_natCast k, (Int.natAbs_neg _).trans (Int.natAbs_natCast k)]

theorem decide_withSign_lt_zero {negative : Bool} {k : Nat} (h : withSign negative k ≠ 0) :
    decide (withSign negative k < 0) = negative := by
  cases negative
  case false => exact decide_eq_false (by simp)
  case true => exact decide_eq_true (by rw [withSign_true] at h ⊢; omega)

/-- The magnitude that the fields `k` stand for with a fraction of `p` bits, in units of the smallest positive number;
an infinity's fields stand for the next magnitude after the largest finite one. -/
def fieldsMagnitude (p k : Nat) : Nat :=
  if k / 2 ^ p = 0 then k % 2 ^ p else (2 ^ p + k % 2 ^ p) * 2 ^ (k / 2 ^ p - 1)

section

variable {w : Nat} (fw : FormatWidth w)
include fw

theorem two_pow_fields : 2 ^ (w - 1) = 2 ^ fracBits w * 2 ^ expBits w := by
  rw [← pow_add]
  congr 1
  have := fw.total
  omega

theorem fpExp_eq_div (b : BitVec w) : fpExp b = fpFields b / 2 ^ fracBits w := by
  rw [fpFields_eq_mod, two_pow_fields fw, Nat.mod_mul_right_div_self, fpExp, BitVec.extractLsb'_toNat,
    Nat.shiftRight_eq_div_pow]

theorem fpFrac_eq_mod (b : BitVec w) : fpFrac b = fpFields b % 2 ^ fracBits w := by
  rw [fpFields_eq_mod, two_pow_fields fw, Nat.mod_mul_right_mod, fpFrac, BitVec.extractLsb'_toNat, Nat.shiftRight_zero]

theorem fpMagnitude_eq (b : BitVec w) : fpMagnitude b = fieldsMagnitude (fracBits w) (fpFields b) := by
  rw [fpMagnitude, fpExp_eq_div fw, fpFrac_eq_mod fw, fieldsMagnitude]

theorem fpUnits_eq (b : BitVec w) : fpUnits b = withSign b.msb (fieldsMagnitude (fracBits w) (fpFields b)) := by
  rw [fpUnits, fpMagnitude_eq fw, withSign]

theorem natAbs_fpUnits (b : BitVec w) : (fpUnits b).natAbs = fieldsMagnitude (fracBits w) (fpFields b) := by
  rw [fpUnits_eq fw, natAbs_withSign]

theorem infFields_pos : 0 < infFields w :=
  Nat.mul_pos (Nat.sub_pos_of_lt (Nat.one_lt_two_pow fw.exp_pos.ne')) (Nat.two_pow_pos _)

theorem infFields_lt : infFields w < 2 ^ (w - 1) := by
  rw [two_pow_fields fw, Nat.mul_comm, infFields]
  exact Nat.mul_lt_mul_of_pos_right (Nat.sub_lt (Nat.two_pow_pos _) Nat.one_pos) (Nat.two_pow_pos _)

theorem infFields_mod_two : infFields w % 2 = 0 :=
  Nat.mod_eq_zero_of_dvd (Dvd.dvd.mul_left (dvd_pow_self 2 fw.frac_pos.ne') _)

theorem fpFinite_iff (b : BitVec w) : fpFinite b = true ↔ fpFields b < infFields w := by
  have hle := fpExp_le b
  rw [fpFinite, bne_iff_ne, infFields, ← Nat.div_lt_iff_lt_mul (Nat.two_pow_pos _), ← fpExp_eq_div fw]
  omega

theorem fpFinite_eq_false_iff (b : BitVec w) : fpFinite b = false ↔ infFields w ≤ fpFields b := by
  rw [← Bool.not_eq_true, fpFinite_iff fw, not_lt]

theorem fpNaN_iff (b : BitVec w) : fpNaN b = true ↔ infFields w < fpFields b := by
  have hdm := Nat.div_add_mod (fpFields b) (2 ^ fracBits w)
  rw [fpNaN, Bool.and_eq_true, Bool.not_eq_true', bne_iff_ne, fpFrac_eq_mod fw]
  constructor
  · rintro ⟨hinf, hfrac⟩
    have hexp : fpExp b = 2 ^ expBits w - 1 := by simpa [fpFinite] using hinf
    rw [← fpExp_eq_div fw, hexp, Nat.mul_comm] at hdm
    unfold infFields
    omega
  · intro hlt
    have hinf := (fpFinite_eq_false_iff fw b).2 hlt.le
    have hexp : fpExp b = 2 ^ expBits w - 1 := by simpa [fpFinite] using hinf
    rw [← fpExp_eq_div fw, hexp, Nat.mul_comm] at hdm
    unfold infFields at hlt
    exact ⟨hinf, by omega⟩

theorem fpNaN_eq_false_iff (b : BitVec w) : fpNaN b = false ↔ fpFields b ≤ infFields w := by
  rw [← Bool.not_eq_true, fpNaN_iff fw, not_lt]

theorem fpFields_fpOf (negative : Bool) {k : Nat} (h : k < 2 ^ (w - 1)) : fpFields (fpOf w negative k) = k := by
  rw [fpFields_eq_mod, toNat_fpOf fw negative h]
  split
  · rw [Nat.add_mod_left, Nat.mod_eq_of_lt h]
  · rw [Nat.zero_add, Nat.mod_eq_of_lt h]

/-- A number is put together from its sign and its fields. -/
theorem fpOf_msb_fpFields (b : BitVec w) : fpOf w b.msb (fpFields b) = b := by
  have hlt := b.isLt
  have hfields : fpFields b < 2 ^ (w - 1) := by rw [fpFields_eq_mod]; exact Nat.mod_lt _ (Nat.two_pow_pos _)
  have htop : 2 ^ w = 2 ^ (w - 1) + 2 ^ (w - 1) := by
    rw [← Nat.two_mul, ← pow_succ', Nat.sub_add_cancel (by have := fw.total; omega)]
  apply BitVec.eq_of_toNat_eq
  rw [toNat_fpOf fw _ hfields, BitVec.msb_eq_decide, fpFields_eq_mod]
  simp only [decide_eq_true_eq]
  split
  · rw [Nat.mod_eq_sub_mod ‹_›, Nat.mod_eq_of_lt (by omega)]
    omega
  · rw [Nat.mod_eq_of_lt (by omega), Nat.zero_add]

theorem fpUnits_fpOf (negative : Bool) {k : Nat} (h : k < 2 ^ (w - 1)) :
    fpUnits (fpOf w negative k) = withSign negative (fieldsMagnitude (fracBits w) k) := by
  rw [fpUnits_eq fw, msb_fpOf fw negative h, fpFields_fpOf fw negative h]

/-- The lowest bit of a number is that of its fields. -/
theorem getLsbD_zero_fpOf (negative : Bool) {k : Nat} (h : k < 2 ^ (w - 1)) :
    (fpOf w negative k).getLsbD 0 = decide (k % 2 = 1) := by
  have heven : 2 ^ (w - 1) % 2 = 0 :=
    Nat.mod_eq_zero_of_dvd (dvd_pow_self 2 (by have := fw.total; have := fw.frac_pos; omega))
  rw [BitVec.getLsbD, toNat_fpOf fw negative h, Nat.testBit_zero]
  congr 2
  split
  · rw [Nat.add_mod, heven, Nat.zero_add, Nat.mod_mod]
  · rw [Nat.zero_add]

end

/-! ### The magnitudes rise (GK12) -/

theorem fieldsMagnitude_of_parts {p e k : Nat} (hk : k < 2 ^ p) :
    fieldsMagnitude p (e * 2 ^ p + k) = if e = 0 then k else (2 ^ p + k) * 2 ^ (e - 1) := by
  have hdiv : (e * 2 ^ p + k) / 2 ^ p = e := by
    rw [Nat.mul_comm, Nat.mul_add_div (Nat.two_pow_pos p), Nat.div_eq_of_lt hk, Nat.add_zero]
  have hmod : (e * 2 ^ p + k) % 2 ^ p = k := by rw [Nat.mul_comm, Nat.mul_add_mod, Nat.mod_eq_of_lt hk]
  rw [fieldsMagnitude, hdiv, hmod]

/-- With a leading one that is counted as part of the fraction: `q` units of `2 ^ t`. -/
theorem fieldsMagnitude_scaled {p t q : Nat} (hq : q ≤ 2 ^ (p + 1)) (ht : t = 0 ∨ 2 ^ p ≤ q) :
    fieldsMagnitude p (t * 2 ^ p + q) = q * 2 ^ t := by
  have hpow : 2 ^ (p + 1) = 2 ^ p + 2 ^ p := by rw [pow_succ, Nat.mul_two]
  have hp := Nat.two_pow_pos p
  rcases lt_or_ge q (2 ^ p) with hlt | hge
  · obtain rfl : t = 0 := ht.resolve_right hlt.not_ge
    rw [fieldsMagnitude_of_parts hlt, if_pos rfl, pow_zero, Nat.mul_one]
  · obtain ⟨d, rfl⟩ := Nat.exists_eq_add_of_le hge
    rw [← Nat.add_assoc, ← Nat.succ_mul]
    rcases (show d ≤ 2 ^ p by omega).lt_or_eq with hd | rfl
    · rw [fieldsMagnitude_of_parts hd, if_neg (Nat.succ_ne_zero t), Nat.succ_sub_one]
    · rw [← Nat.succ_mul, ← Nat.add_zero (_ * _), fieldsMagnitude_of_parts hp, if_neg (Nat.succ_ne_zero _),
        Nat.succ_sub_one, Nat.add_zero, pow_succ]
      ring

/-- From one number of a format to the next the magnitude rises. -/
theorem fieldsMagnitude_strictMono (p : Nat) : StrictMono (fieldsMagnitude p) := by
  refine strictMono_nat_of_lt_succ fun k => ?_
  have hp := Nat.two_pow_pos p
  have hpow : 2 ^ (p + 1) = 2 ^ p + 2 ^ p := by rw [pow_succ, Nat.mul_two]
  have hmod := Nat.mod_lt k hp
  have hk : k = k / 2 ^ p * 2 ^ p + k % 2 ^ p := by rw [Nat.mul_comm, Nat.div_add_mod]
  generalize k / 2 ^ p = e at hk
  generalize k % 2 ^ p = d at hk hmod
  subst hk
  cases e with
  | zero =>
    rw [Nat.add_assoc, fieldsMagnitude_scaled (by omega) (.inl rfl), fieldsMagnitude_scaled (by omega) (.inl rfl)]
    exact Nat.mul_lt_mul_of_pos_right (Nat.lt_succ_self d) (Nat.two_pow_pos 0)
  | succ t =>
    rw [Nat.succ_mul, Nat.add_assoc, Nat.add_assoc, fieldsMagnitude_scaled (by omega) (.inr (by omega)),
      fieldsMagnitude_scaled (by omega) (.inr (by omega))]
    exact Nat.mul_lt_mul_of_pos_right (by omega) (Nat.two_pow_pos t)

@[simp] theorem fieldsMagnitude_zero (p : Nat) : fieldsMagnitude p 0 = 0 := by
  simp [fieldsMagnitude]

end Sys2Proof.Machine
end

section
/-! O38, O39. One addition: the exact sum of two finite numbers lies between two neighbouring numbers of the format, and
the rounding mode takes one of them (R187, R232; log 12). -/

namespace Sys2Proof.Machine

/-! ### The rounding of a magnitude (R35) -/

/-- The magnitude `k` lies at `lo` or between `lo` and the next number, `r` above the one of the two that are `step`
apart. -/
structure LiesAbove (p k lo r step : Nat) : Prop where
  here : fieldsMagnitude p lo + r = k
  next : fieldsMagnitude p (lo + 1) = fieldsMagnitude p lo + step
  lt : r < step

/-- The rounding looks at no more of the quotient than whether it is odd. -/
theorem roundsUp_congr {q lo : Nat} (h : q % 2 = lo % 2) (frm : BitVec 3) (negative : Bool) (r m : Nat) :
    roundsUp frm negative q r m = roundsUp frm negative lo r m := by
  rw [roundsUp, roundsUp, h]

/-- Where a mode rounds up between two numbers it rounds up to infinity too. -/
theorem roundsUp_overflow {frm : BitVec 3} {negative : Bool} {q r m : Nat} (h : roundsUp frm negative q r m = true) :
    roundsUp frm negative 1 1 2 = true := by
  unfold roundsUp at h ⊢
  split_ifs at h ⊢
  exacts [rfl, h, h, rfl]

/-- The outcome of a rounding between the neighbours `lo` and `lo + 1`: one of them, or an overflow. -/
inductive RoundsTo (w : Nat) (frm : BitVec 3) (negative : Bool) (lo r step : Nat) :
    Nat → BitVec 5 → Prop where
  | exactly (hlt : lo < infFields w) (hr : r = 0) : RoundsTo w frm negative lo r step lo 0
  | down (hlt : lo < infFields w) (hr : r ≠ 0) (hup : roundsUp frm negative lo r step = false) :
      RoundsTo w frm negative lo r step lo flagNX
  | up (hlt : lo + 1 < infFields w) (hr : r ≠ 0) (hup : roundsUp frm negative lo r step = true) :
      RoundsTo w frm negative lo r step (lo + 1) flagNX
  | upToInfinity (heq : lo + 1 = infFields w) (hr : r ≠ 0) (hup : roundsUp frm negative lo r step = true) :
      RoundsTo w frm negative lo r step (infFields w) (flagOF ||| flagNX)
  | overflowUp (hge : infFields w ≤ lo) (hup : roundsUp frm negative 1 1 2 = true) :
      RoundsTo w frm negative lo r step (infFields w) (flagOF ||| flagNX)
  | overflowDown (hge : infFields w ≤ lo) (hup : roundsUp frm negative 1 1 2 = false) :
      RoundsTo w frm negative lo r step (infFields w - 1) (flagOF ||| flagNX)

/-- The bounded choice between two neighbours. -/
theorem roundsTo_of_lo (w : Nat) (frm : BitVec 3) (negative : Bool) (lo r step : Nat) :
    let fields := lo + (if r ≠ 0 ∧ roundsUp frm negative lo r step = true then 1 else 0)
    let out := if infFields w ≤ fields then
        (if roundsUp frm negative 1 1 2 then infFields w else infFields w - 1, flagOF ||| flagNX)
      else (fields, if r = 0 then 0 else flagNX)
    RoundsTo w frm negative lo r step out.1 out.2 := by
  intro fields out
  subst out fields
  by_cases hge : infFields w ≤ lo
  · rw [if_pos (Nat.le_add_right_of_le hge)]
    cases hup : roundsUp frm negative 1 1 2
    exacts [.overflowDown hge hup, .overflowUp hge hup]
  have hlt := not_le.1 hge
  by_cases hr : r = 0
  · simpa [hr, hge] using RoundsTo.exactly hlt hr
  cases hup : roundsUp frm negative lo r step
  · simpa [hr, hge] using RoundsTo.down hlt hr hup
  · rcases (Nat.succ_le_of_lt hlt).lt_or_eq with hlt' | heq
    · simpa [hr, hlt'.not_ge] using RoundsTo.up hlt' hr hup
    · simpa [hr, heq.ge, roundsUp_overflow hup] using RoundsTo.upToInfinity heq hr hup

/-- The magnitude is between two neighbours, one of which is taken unless the format has it not. -/
theorem roundMagnitude_cases {w : Nat} (fw : FormatWidth w) (frm : BitVec 3) (negative : Bool) (k : Nat) :
    ∃ lo r step, LiesAbove (fracBits w) k lo r step ∧
      RoundsTo w frm negative lo r step (roundMagnitude w frm negative k).1 (roundMagnitude w frm negative k).2 := by
  generalize ht : Nat.log2 k - fracBits w = t
  have hstep := Nat.two_pow_pos t
  have hlt : k / 2 ^ t < 2 ^ (fracBits w + 1) := by
    rw [Nat.div_lt_iff_lt_mul hstep, ← pow_add]
    exact Nat.lt_log2_self.trans_le (Nat.pow_le_pow_right Nat.two_pos (by omega))
  have hnormal : t = 0 ∨ 2 ^ fracBits w ≤ k / 2 ^ t := by
    rcases Nat.eq_zero_or_pos t with h0 | hpos
    · exact .inl h0
    · have hk : k ≠ 0 := by rintro rfl; simp at ht; omega
      rw [Nat.le_div_iff_mul_le hstep, ← pow_add, show fracBits w + t = Nat.log2 k by omega]
      exact .inr (Nat.log2_self_le hk)
  refine ⟨t * 2 ^ fracBits w + k / 2 ^ t, k % 2 ^ t, 2 ^ t, ⟨?here, ?next, Nat.mod_lt k hstep⟩, ?rounds⟩
  case here => rw [fieldsMagnitude_scaled hlt.le hnormal, Nat.mul_comm, Nat.div_add_mod]
  case next =>
    rw [Nat.add_assoc, fieldsMagnitude_scaled hlt (hnormal.imp_right Nat.le_succ_of_le),
      fieldsMagnitude_scaled hlt.le hnormal, Nat.succ_mul]
  case rounds =>
    have hodd : k / 2 ^ t % 2 = (t * 2 ^ fracBits w + k / 2 ^ t) % 2 := by
      obtain ⟨d, hd⟩ : 2 ∣ 2 ^ fracBits w := dvd_pow_self 2 fw.frac_pos.ne'
      rw [hd, Nat.mul_left_comm, Nat.mul_add_mod]
    have key := roundsTo_of_lo w frm negative (t * 2 ^ fracBits w + k / 2 ^ t) (k % 2 ^ t) (2 ^ t)
    rw [← roundsUp_congr hodd] at key
    rw [roundMagnitude, ht]
    exact key

/-- A magnitude that is a number of the format is the lower neighbour. -/
theorem LiesAbove.eq_of_magnitude {p k lo r step C : Nat} (h : LiesAbove p k lo r step)
    (hC : fieldsMagnitude p C = k) : lo = C ∧ r = 0 := by
  obtain ⟨hhere, hnext, hlt⟩ := h
  have hmono := fieldsMagnitude_strictMono p
  have h1 : lo ≤ C := hmono.le_iff_le.1 (by omega)
  have h2 : C < lo + 1 := hmono.lt_iff_lt.1 (by omega)
  obtain rfl : lo = C := by omega
  exact ⟨rfl, by omega⟩

/-- A number of the format is not changed (R232). -/
theorem roundMagnitude_of_exact {w : Nat} (fw : FormatWidth w) (frm : BitVec 3) (negative : Bool) {C : Nat}
    (hC : C < infFields w) : roundMagnitude w frm negative (fieldsMagnitude (fracBits w) C) = (C, 0) := by
  obtain ⟨lo, r, step, h, hto⟩ := roundMagnitude_cases fw frm negative (fieldsMagnitude (fracBits w) C)
  obtain ⟨rfl, rfl⟩ := h.eq_of_magnitude rfl
  rw [Prod.ext_iff]
  generalize (roundMagnitude w frm negative (fieldsMagnitude (fracBits w) lo)).1 = fields at hto
  generalize (roundMagnitude w frm negative (fieldsMagnitude (fracBits w) lo)).2 = flags at hto
  cases hto with
  | exactly => exact ⟨rfl, rfl⟩
  | down _ hr | up _ hr | upToInfinity _ hr => exact absurd rfl hr
  | overflowUp hge | overflowDown hge => omega

/-! ### The five modes (log 12) -/

/-- The mode rounds to the smaller magnitude. -/
def TowardsZero (frm : BitVec 3) (negative : Bool) : Prop :=
  frm = 1 ∨ (frm = 2 ∧ negative = false) ∨ (frm = 3 ∧ negative = true)

/-- The mode rounds to the larger magnitude. -/
def AwayFromZero (frm : BitVec 3) (negative : Bool) : Prop :=
  (frm = 2 ∧ negative = true) ∨ (frm = 3 ∧ negative = false)

theorem roundsUp_towardsZero {frm : BitVec 3} {negative : Bool} (hm : TowardsZero frm negative) (q r m : Nat) :
    roundsUp frm negative q r m = false := by
  obtain rfl | ⟨rfl, rfl⟩ | ⟨rfl, rfl⟩ := hm <;> rfl

theorem roundsUp_awayFromZero {frm : BitVec 3} {negative : Bool} (hm : AwayFromZero frm negative) (q r m : Nat) :
    roundsUp frm negative q r m = true := by
  obtain ⟨rfl, rfl⟩ | ⟨rfl, rfl⟩ := hm <;> rfl

/-- To nearest: a tie goes to the even neighbour in mode 0, up in mode 4. -/
theorem roundsUp_nearest {frm : BitVec 3} (hm : frm = 0 ∨ frm = 4) (negative : Bool) (q r m : Nat) :
    roundsUp frm negative q r m = true ↔ m < 2 * r ∨ (2 * r = m ∧ (frm = 0 → q % 2 = 1)) := by
  obtain rfl | rfl := hm
  · simp [roundsUp]
  · simp [roundsUp]
    omega

/-- To nearest, the lower neighbour is taken in its half of the step, and from a tie in mode 0 if it is even. -/
theorem lower_half_of_nearest {frm : BitVec 3} {negative : Bool} {lo r step : Nat} (hm : frm = 0 ∨ frm = 4)
    (hlt : r < step) (hr : r = 0 ∨ roundsUp frm negative lo r step = false) :
    2 * r < step ∨ (2 * r = step ∧ frm = 0 ∧ lo % 2 = 0) := by
  rcases hr with rfl | hdown
  · exact .inl hlt
  · have hnot := (roundsUp_nearest hm negative lo r step).not.1 (by rw [hdown]; exact Bool.false_ne_true)
    push Not at hnot
    obtain ⟨hle, htie⟩ := hnot
    exact hle.lt_or_eq.imp_right fun heq => ⟨heq, (htie heq).1, by have := (htie heq).2; omega⟩

section

variable {w : Nat} (fw : FormatWidth w) (frm : BitVec 3) (negative : Bool) (k : Nat)
include fw

/-- An infinite result is above the largest finite number. -/
theorem roundMagnitude_le : (roundMagnitude w frm negative k).1 ≤ infFields w ∧
    ((roundMagnitude w frm negative k).1 = infFields w → fieldsMagnitude (fracBits w) (infFields w - 1) < k) := by
  obtain ⟨lo, r, step, ⟨hhere, hnext, hlt⟩, hto⟩ := roundMagnitude_cases fw frm negative k
  have hmono := fieldsMagnitude_strictMono (fracBits w)
  have hpos := infFields_pos fw
  generalize (roundMagnitude w frm negative k).1 = fields at hto ⊢
  generalize (roundMagnitude w frm negative k).2 = flags at hto ⊢
  cases hto with
  | exactly hlt | down hlt | up hlt => exact ⟨hlt.le, fun he => absurd he hlt.ne⟩
  | overflowDown => exact ⟨Nat.sub_le _ _, fun he => absurd he (Nat.sub_lt hpos Nat.one_pos).ne⟩
  | upToInfinity heq hr =>
    refine ⟨le_rfl, fun _ => ?_⟩
    rw [← heq, Nat.add_sub_cancel]
    omega
  | overflowUp hge =>
    have := hmono (show infFields w - 1 < lo by omega)
    exact ⟨le_rfl, fun _ => by omega⟩

/-- OF and NX are set by an overflow, NX alone by a finite result that is not exact (R35). -/
theorem roundMagnitude_flags : (roundMagnitude w frm negative k).2 =
    if (roundMagnitude w frm negative k).1 < infFields w ∧ k < fieldsMagnitude (fracBits w) (infFields w) then
      if fieldsMagnitude (fracBits w) (roundMagnitude w frm negative k).1 = k then 0 else flagNX
    else flagOF ||| flagNX := by
  obtain ⟨lo, r, step, ⟨hhere, hnext, hlt⟩, hto⟩ := roundMagnitude_cases fw frm negative k
  have hmono := (fieldsMagnitude_strictMono (fracBits w)).monotone
  generalize (roundMagnitude w frm negative k).1 = fields at hto ⊢
  generalize (roundMagnitude w frm negative k).2 = flags at hto ⊢
  cases hto with
  | exactly hlo hr =>
    have := hmono (show lo + 1 ≤ infFields w from hlo)
    rw [if_pos ⟨hlo, by omega⟩, if_pos (by omega)]
  | down hlo hr =>
    have := hmono (show lo + 1 ≤ infFields w from hlo)
    rw [if_pos ⟨hlo, by omega⟩, if_neg (by omega)]
  | up hlo hr =>
    have := hmono hlo.le
    rw [if_pos ⟨hlo, by omega⟩, if_neg (by omega)]
  | upToInfinity | overflowUp => rw [if_neg fun h => lt_irrefl _ h.1]
  | overflowDown hge =>
    have := hmono hge
    rw [if_neg fun h => by omega]

/-- Towards zero: the largest finite number that is not above the magnitude. -/
theorem roundMagnitude_towardsZero (hm : TowardsZero frm negative) :
    (roundMagnitude w frm negative k).1 < infFields w ∧
      fieldsMagnitude (fracBits w) (roundMagnitude w frm negative k).1 ≤ k ∧
      ∀ C < infFields w, fieldsMagnitude (fracBits w) C ≤ k → C ≤ (roundMagnitude w frm negative k).1 := by
  obtain ⟨lo, r, step, ⟨hhere, hnext, hlt⟩, hto⟩ := roundMagnitude_cases fw frm negative k
  have hmono := fieldsMagnitude_strictMono (fracBits w)
  have hpos := infFields_pos fw
  have hdown := roundsUp_towardsZero hm
  have hle : ∀ C, fieldsMagnitude (fracBits w) C ≤ k → C ≤ lo := fun C hC =>
    Nat.le_of_lt_succ (hmono.lt_iff_lt.1 (by simp only [Nat.succ_eq_add_one]; omega))
  generalize (roundMagnitude w frm negative k).1 = fields at hto ⊢
  generalize (roundMagnitude w frm negative k).2 = flags at hto ⊢
  cases hto with
  | exactly hlo | down hlo => exact ⟨hlo, Nat.le.intro hhere, fun C _ => hle C⟩
  | overflowDown hge =>
    have := hmono.monotone (show infFields w - 1 ≤ lo by omega)
    exact ⟨Nat.sub_lt hpos Nat.one_pos, by omega, fun C hC _ => Nat.le_sub_one_of_lt hC⟩
  | up _ _ hup | upToInfinity _ _ hup | overflowUp _ hup => exact absurd hup (by rw [hdown]; exact Bool.false_ne_true)

/-- Away from zero: the smallest number that is not below the magnitude, if it is finite. -/
theorem roundMagnitude_awayFromZero (hm : AwayFromZero frm negative)
    (hfin : (roundMagnitude w frm negative k).1 < infFields w) :
    k ≤ fieldsMagnitude (fracBits w) (roundMagnitude w frm negative k).1 ∧
      ∀ C, k ≤ fieldsMagnitude (fracBits w) C → (roundMagnitude w frm negative k).1 ≤ C := by
  obtain ⟨lo, r, step, ⟨hhere, hnext, hlt⟩, hto⟩ := roundMagnitude_cases fw frm negative k
  have hmono := fieldsMagnitude_strictMono (fracBits w)
  have hup := roundsUp_awayFromZero hm
  generalize (roundMagnitude w frm negative k).1 = fields at hto hfin ⊢
  generalize (roundMagnitude w frm negative k).2 = flags at hto ⊢
  cases hto with
  | exactly _ hr => exact ⟨by omega, fun C hC => hmono.le_iff_le.1 (by omega)⟩
  | up _ hr => exact ⟨by omega, fun C hC => hmono.lt_iff_lt.1 (by omega)⟩
  | upToInfinity | overflowUp => exact absurd hfin (lt_irrefl _)
  | down _ _ hdown | overflowDown _ hdown => exact absurd hdown (by rw [hup]; exact Bool.true_eq_false_eq_False)

/-- To nearest: finite below the middle between the largest finite magnitude and the next one, infinite from there
on. -/
theorem roundMagnitude_nearest_overflow (hm : frm = 0 ∨ frm = 4) :
    (roundMagnitude w frm negative k).1 < infFields w ↔
      2 * k < fieldsMagnitude (fracBits w) (infFields w - 1) + fieldsMagnitude (fracBits w) (infFields w) := by
  obtain ⟨lo, r, step, ⟨hhere, hnext, hlt⟩, hto⟩ := roundMagnitude_cases fw frm negative k
  have hmono := fieldsMagnitude_strictMono (fracBits w)
  have hpos := infFields_pos fw
  have hlast := hmono (Nat.sub_lt hpos Nat.one_pos)
  have hbelow (hlo : lo + 1 < infFields w) := hmono.monotone (show lo + 1 ≤ infFields w - 1 by omega)
  have htop (heq : lo + 1 = infFields w) : fieldsMagnitude (fracBits w) lo =
      fieldsMagnitude (fracBits w) (infFields w - 1) ∧ fieldsMagnitude (fracBits w) lo + step =
        fieldsMagnitude (fracBits w) (infFields w) ∧ lo % 2 = 1 := by
    have := infFields_mod_two fw
    refine ⟨?_, ?_, by omega⟩
    · rw [← heq, Nat.add_sub_cancel]
    · rw [← heq, hnext]
  have hlower (hlo : lo < infFields w) (hr : r = 0 ∨ roundsUp frm negative lo r step = false) :
      2 * k < fieldsMagnitude (fracBits w) (infFields w - 1) + fieldsMagnitude (fracBits w) (infFields w) := by
    have hhalf := lower_half_of_nearest hm hlt hr
    rcases (show lo + 1 ≤ infFields w from hlo).lt_or_eq with hlo' | heq
    · have := hbelow hlo'
      omega
    · obtain ⟨h1, h2, h3⟩ := htop heq
      omega
  generalize (roundMagnitude w frm negative k).1 = fields at hto ⊢
  generalize (roundMagnitude w frm negative k).2 = flags at hto ⊢
  cases hto with
  | exactly hlo hr => exact iff_of_true hlo (hlower hlo (.inl hr))
  | down hlo _ hdown => exact iff_of_true hlo (hlower hlo (.inr hdown))
  | up hlo =>
    have := hbelow hlo
    exact iff_of_true hlo (by omega)
  | upToInfinity heq _ hup =>
    have hhalf := (roundsUp_nearest hm negative lo r step).1 hup
    obtain ⟨h1, h2, -⟩ := htop heq
    exact iff_of_false (lt_irrefl _) (by omega)
  | overflowUp hge =>
    have := hmono.monotone hge
    exact iff_of_false (lt_irrefl _) (by omega)
  | overflowDown _ hdown =>
    have hup := (roundsUp_nearest hm negative 1 1 2).2 (.inr ⟨rfl, fun _ => rfl⟩)
    exact absurd (hup.symm.trans hdown) Bool.noConfusion

/-- To nearest: no number is nearer; of two that are equally near, the even one is taken in mode 0 and the larger one in
mode 4. -/
theorem roundMagnitude_nearest (hm : frm = 0 ∨ frm = 4) (hfin : (roundMagnitude w frm negative k).1 < infFields w)
    (C : Nat) :
    let distance := fun fields : Nat => ((fieldsMagnitude (fracBits w) fields : Int) - k).natAbs
    let fields := (roundMagnitude w frm negative k).1
    distance fields ≤ distance C ∧
      (distance C = distance fields → (frm = 0 → C ≠ fields → fields % 2 = 0) ∧ (frm = 4 → C ≤ fields)) := by
  obtain ⟨lo, r, step, ⟨hhere, hnext, hlt⟩, hto⟩ := roundMagnitude_cases fw frm negative k
  have hmono := fieldsMagnitude_strictMono (fracBits w)
  have h04 : frm = 4 → frm ≠ 0 := by rintro rfl; decide
  have hC : (C = lo ∨ fieldsMagnitude (fracBits w) C < fieldsMagnitude (fracBits w) lo ∧ C < lo) ∨
      C = lo + 1 ∨ fieldsMagnitude (fracBits w) (lo + 1) < fieldsMagnitude (fracBits w) C ∧ lo + 1 < C := by
    rcases lt_trichotomy C lo with hlt | rfl | hgt
    · exact .inl (.inr ⟨hmono hlt, hlt⟩)
    · exact .inl (.inl rfl)
    · exact .inr ((show lo + 1 ≤ C from hgt).eq_or_lt.imp Eq.symm fun hlt => ⟨hmono hlt, hlt⟩)
  have hlower (hr : r = 0 ∨ roundsUp frm negative lo r step = false) :
      let distance := fun fields : Nat => ((fieldsMagnitude (fracBits w) fields : Int) - k).natAbs
      distance lo ≤ distance C ∧
        (distance C = distance lo → (frm = 0 → C ≠ lo → lo % 2 = 0) ∧ (frm = 4 → C ≤ lo)) := by
    have hhalf := lower_half_of_nearest hm hlt hr
    dsimp only
    rcases hC with (rfl | hC) | (rfl | hC)
    all_goals refine ⟨by omega, fun heq => ⟨fun h0 hne => by omega, fun h4 => ?_⟩⟩
    all_goals
      have hlow := hhalf.resolve_right fun h => h04 h4 h.2.1
      omega
  generalize (roundMagnitude w frm negative k).1 = fields at hto hfin ⊢
  generalize (roundMagnitude w frm negative k).2 = flags at hto ⊢
  cases hto with
  | exactly _ hr => exact hlower (.inl hr)
  | down _ _ hdown => exact hlower (.inr hdown)
  | up _ _ hup =>
    have hhalf := (roundsUp_nearest hm negative lo r step).1 hup
    dsimp only
    rcases hC with (rfl | hC) | (rfl | hC)
    all_goals refine ⟨by omega, fun heq => ⟨fun h0 hne => ?_, fun h4 => by omega⟩⟩
    all_goals
      have hodd := hhalf.imp_right fun h => And.intro h.1 (h.2 h0)
      omega
  | upToInfinity | overflowUp => exact absurd hfin (lt_irrefl _)
  | overflowDown _ hdown =>
    have hup := (roundsUp_nearest hm negative 1 1 2).2 (.inr ⟨rfl, fun _ => rfl⟩)
    exact absurd (hup.symm.trans hdown) Bool.noConfusion

end

end Sys2Proof.Machine
end

section
/-! O38, O39. One addition (R187, R232; log 12): where the format has the exact sum it is given, otherwise it is
rounded; what infinities and NaNs give. -/

namespace Sys2Proof.Machine

/-! ### NaNs -/

/-- A quiet NaN is a NaN that does not signal, whatever its payload. -/
theorem quietNaN_isQuiet {w : Nat} (fw : FormatWidth w) (raw : BitVec w) :
    fpNaN (quietNaN raw) = true ∧ fpSignalling (quietNaN raw) = false := by
  have hfrac := fw.frac_pos
  have htop : 2 ^ fracBits w = 2 * 2 ^ (fracBits w - 1) := by rw [← pow_succ', Nat.sub_add_cancel hfrac]
  have hquiet := Nat.two_pow_pos (fracBits w - 1)
  have hlt : infFields w + 2 ^ (fracBits w - 1) < 2 ^ (w - 1) := by
    rw [two_pow_fields fw, infFields, Nat.mul_comm, Nat.mul_sub, Nat.mul_one]
    have := Nat.le_mul_of_pos_right (2 ^ fracBits w) (Nat.two_pow_pos (expBits w))
    omega
  have hw : 2 ^ (w - 1) ≤ 2 ^ w := Nat.pow_le_pow_right Nat.two_pos (Nat.sub_le w 1)
  constructor
  · rw [fpNaN_iff fw, fpFields_eq_mod, quietNaN, BitVec.toNat_or, BitVec.toNat_ofNat,
      Nat.mod_eq_of_lt (hlt.trans_le hw), Nat.or_mod_two_pow, Nat.mod_eq_of_lt hlt]
    exact (Nat.lt_add_of_pos_right hquiet).trans_le Nat.right_le_or
  · have hbit : (infFields w + 2 ^ (fracBits w - 1)).testBit (fracBits w - 1) = true := by
      rw [Nat.add_comm, Nat.testBit_two_pow_add_eq, infFields, Nat.testBit_mul_two_pow]
      simp [show ¬ fracBits w ≤ fracBits w - 1 by omega]
    have hset : (quietNaN raw).getLsbD (fracBits w - 1) = true := by
      have hin : fracBits w - 1 < w := by have := fw.total; omega
      rw [quietNaN, BitVec.getLsbD_or, BitVec.getLsbD_ofNat, hbit, decide_eq_true hin, Bool.true_and, Bool.or_true]
    rw [fpSignalling, hset, Bool.not_true, Bool.and_false]

/-! ### The operands (R232) -/

section

variable {f : Nat} (frm : BitVec 3) {a b : BitVec f}

theorem fpNaN_of_finite (ha : fpFinite a = true) : fpNaN a = false := by rw [fpNaN, ha]; rfl

theorem fpAdd_of_nan (h : fpNaN a = true ∨ fpNaN b = true) :
    fpAdd f frm a b =
      (quietNaN (Config.rawAdd f frm a b).1, if fpSignalling a || fpSignalling b then flagNV else 0) := by
  rw [fpAdd, if_pos (by simpa using h)]

/-- Opposite infinities. -/
theorem fpAdd_of_opposite (ha : fpFinite a = false) (hna : fpNaN a = false) (hb : fpFinite b = false)
    (hnb : fpNaN b = false) (hs : a.msb ≠ b.msb) :
    fpAdd f frm a b = (quietNaN (Config.rawAdd f frm a b).1, flagNV) := by
  simp [fpAdd, ha, hna, hb, hnb, hs]

/-- An infinity stays. -/
theorem fpAdd_of_infinity_left (ha : fpFinite a = false) (hna : fpNaN a = false) (hnb : fpNaN b = false)
    (h : fpFinite b = true ∨ a.msb = b.msb) : fpAdd f frm a b = (a, 0) := by
  obtain h | h := h <;> simp [fpAdd, ha, hna, hnb, h]

theorem fpAdd_of_infinity_right (ha : fpFinite a = true) (hb : fpFinite b = false) (hnb : fpNaN b = false) :
    fpAdd f frm a b = (b, 0) := by
  simp [fpAdd, ha, fpNaN_of_finite ha, hb, hnb]

/-- An exact zero has a sign of its own. -/
theorem fpAdd_of_zero_sum (ha : fpFinite a = true) (hb : fpFinite b = true) (h0 : fpUnits a + fpUnits b = 0) :
    fpAdd f frm a b = (fpOf f (zeroSumNegative frm a b (Config.rawAdd f frm a b).1) 0, 0) := by
  simp [fpAdd, ha, hb, fpNaN_of_finite ha, fpNaN_of_finite hb, h0]

/-- Any other sum of finite numbers is rounded, where `frm` names a mode or nothing needs one. -/
theorem fpAdd_of_finite (ha : fpFinite a = true) (hb : fpFinite b = true) (h0 : fpUnits a + fpUnits b ≠ 0)
    (hm : frm.toNat ≤ 4 ∨ (roundMagnitude f frm (decide (fpUnits a + fpUnits b < 0))
      (fpUnits a + fpUnits b).natAbs).2 = 0) :
    fpAdd f frm a b =
      (fpOf f (decide (fpUnits a + fpUnits b < 0))
          (roundMagnitude f frm (decide (fpUnits a + fpUnits b < 0)) (fpUnits a + fpUnits b).natAbs).1,
        (roundMagnitude f frm (decide (fpUnits a + fpUnits b < 0)) (fpUnits a + fpUnits b).natAbs).2) := by
  rw [fpAdd]
  simp only [ha, hb, fpNaN_of_finite ha, fpNaN_of_finite hb, h0, Bool.not_true, Bool.or_self, Bool.and_self,
    Bool.false_and, Bool.false_eq_true, if_false]
  rw [if_neg]
  rintro ⟨hflags, hmode⟩
  exact hm.elim (fun h => h.not_gt hmode) hflags

/-- The sum is its magnitude with a sign, and the result the rounded magnitude with the same sign. -/
theorem fpAdd_rounded (fw : FormatWidth f) (ha : fpFinite a = true) (hb : fpFinite b = true) (hm : frm.toNat ≤ 4) :
    ∃ negative k, fpUnits a + fpUnits b = withSign negative k ∧
      fpAdd f frm a b = (fpOf f negative (roundMagnitude f frm negative k).1, (roundMagnitude f frm negative k).2) := by
  by_cases h0 : fpUnits a + fpUnits b = 0
  · refine ⟨zeroSumNegative frm a b (Config.rawAdd f frm a b).1, 0, ?_, ?_⟩
    · rw [h0, withSign]
      split <;> rfl
    · have hround := roundMagnitude_of_exact fw frm (zeroSumNegative frm a b (Config.rawAdd f frm a b).1)
        (infFields_pos fw)
      rw [fieldsMagnitude_zero] at hround
      rw [fpAdd_of_zero_sum frm ha hb h0, hround]
  · refine ⟨decide (fpUnits a + fpUnits b < 0), (fpUnits a + fpUnits b).natAbs, ?_,
      fpAdd_of_finite frm ha hb h0 (.inl hm)⟩
    rw [withSign]
    split <;> rename_i h <;> simp at h <;> omega

/-- Where the format has the exact sum, not zero, the addition gives it without flags, whatever `frm` is. -/
theorem fpAdd_of_exact (fw : FormatWidth f) (ha : fpFinite a = true) (hb : fpFinite b = true) {s : BitVec f}
    (hs : fpFinite s = true) (hsum : fpUnits s = fpUnits a + fpUnits b) (h0 : fpUnits a + fpUnits b ≠ 0) :
    fpAdd f frm a b = (s, 0) := by
  have hunits := hsum.symm.trans (fpUnits_eq fw s)
  have hround := roundMagnitude_of_exact fw frm s.msb ((fpFinite_iff fw s).1 hs)
  have hneg : decide (fpUnits a + fpUnits b < 0) = s.msb := by
    rw [hunits] at h0 ⊢
    exact decide_withSign_lt_zero h0
  have key := fpAdd_of_finite frm ha hb h0
  rw [hneg, hunits, natAbs_withSign, hround, fpOf_msb_fpFields fw] at key
  exact key (.inr rfl)

end

/-! ### The ordered sum (R187, R191) -/

theorem fpOsum_nil (f : Nat) (frm : BitVec 3) (acc : BitVec f) : fpOsum f frm acc [] = (acc, 0) := rfl

theorem fpOsum_append_singleton (f : Nat) (frm : BitVec 3) (acc x : BitVec f) (xs : List (BitVec f)) :
    fpOsum f frm acc (xs ++ [x]) = ((fpAdd f frm (fpOsum f frm acc xs).1 x).1,
      (fpOsum f frm acc xs).2 ||| (fpAdd f frm (fpOsum f frm acc xs).1 x).2) :=
  List.foldl_append

/-- Settles O38: the cases of the addition in which nothing is rounded. -/
theorem orderedSumIsLeftFold : Obligations.OrderedSumIsLeftFold := by
  intro f hf frm
  have fw := FormatWidth.of_mem hf
  refine ⟨fun acc x xs => ⟨fpOsum_nil f frm acc, fpOsum_append_singleton f frm acc x xs⟩, fun a b => ?_⟩
  refine ⟨fun ha hb s hs hsum => ?exactly, fun ha hna hnb => ⟨fun h => ?stays, fun hb hmsb => ?opposite⟩,
    fun ha hb hnb => fpAdd_of_infinity_right frm ha hb hnb, fun h => ?nan⟩
  case exactly =>
    by_cases h0 : fpUnits a + fpUnits b = 0
    · have hlt : 0 < 2 ^ (f - 1) := Nat.two_pow_pos _
      simp only [fpAdd_of_zero_sum frm ha hb h0, msb_fpOf fw _ hlt, fpFinite_iff fw, fpFields_fpOf fw _ hlt,
        fpUnits_fpOf fw _ hlt, fieldsMagnitude_zero, infFields_pos fw, true_and]
      refine ⟨?_, fun _ hm => ?_⟩
      · rw [h0, withSign]
        split <;> rfl
      · rw [zeroSumNegative, if_neg (show ¬ 4 < frm.toNat by omega)]
    · rw [fpAdd_of_exact frm fw ha hb hs hsum h0]
      exact ⟨hs, hsum, rfl, fun h => absurd (hsum.symm.trans h) h0⟩
  case stays => exact fpAdd_of_infinity_left frm ha hna hnb h
  case opposite =>
    rw [fpAdd_of_opposite frm ha hna hb hnb hmsb]
    exact ⟨(quietNaN_isQuiet fw _).1, rfl⟩
  case nan =>
    rw [fpAdd_of_nan frm h]
    exact ⟨(quietNaN_isQuiet fw _).1, (quietNaN_isQuiet fw _).2, rfl⟩

end Sys2Proof.Machine
end

section
/-! O39. The rounding of a sum in the five modes (R187, R232; log 12): the magnitudes of the rounding, with their
signs. -/

namespace Sys2Proof.Machine

/-! ### Distances with a sign -/

/-- The distance of two numbers of one sign is that of their magnitudes. -/
theorem natAbs_withSign_sub (negative : Bool) (x k : Nat) :
    (withSign negative x - withSign negative k).natAbs = ((x : Int) - k).natAbs := by
  cases negative
  case false => rfl
  case true =>
    rw [withSign_true, withSign_true]
    omega

/-- Any number is at least as far away as its magnitude is. -/
theorem natAbs_sub_le_natAbs_withSign_sub (negative' negative : Bool) (x k : Nat) :
    ((x : Int) - k).natAbs ≤ (withSign negative' x - withSign negative k).natAbs := by
  cases negative' <;> cases negative <;> simp only [withSign_true, withSign_false] <;> omega

/-- A number that is as near as a nearest magnitude `y` is as near with its magnitude `x`, and is the same number if
that is `y`: it can have the other sign only if it is zero. -/
theorem eq_of_withSign_tie {negative' negative : Bool} {x y k : Nat}
    (hle : ((y : Int) - k).natAbs ≤ ((x : Int) - k).natAbs) (hzero : ((y : Int) - k).natAbs ≤ k)
    (heq : (withSign negative' x - withSign negative k).natAbs = ((y : Int) - k).natAbs) :
    ((x : Int) - k).natAbs = ((y : Int) - k).natAbs ∧ (x = y → withSign negative' x = withSign negative y) := by
  cases negative' <;> cases negative <;> simp only [withSign_true, withSign_false] at heq ⊢ <;> omega

/-! ### The modes -/

section

variable {w : Nat} (fw : FormatWidth w) {frm : BitVec 3} {negative : Bool} {k : Nat}
include fw

/-- To nearest (modes 0 and 4). -/
theorem nearest_withSign (hm : frm = 0 ∨ frm = 4) (hfin : (roundMagnitude w frm negative k).1 < infFields w)
    (c : BitVec w) :
    let r := withSign negative (fieldsMagnitude (fracBits w) (roundMagnitude w frm negative k).1)
    (r - withSign negative k).natAbs ≤ (fpUnits c - withSign negative k).natAbs ∧
      ((fpUnits c - withSign negative k).natAbs = (r - withSign negative k).natAbs →
        (frm = 0 → fpUnits c ≠ r → (roundMagnitude w frm negative k).1 % 2 = 0) ∧
          (frm = 4 → (fpUnits c).natAbs ≤ r.natAbs)) := by
  obtain ⟨hle, htie⟩ := roundMagnitude_nearest fw frm negative k hm hfin (fpFields c)
  have hzero := (roundMagnitude_nearest fw frm negative k hm hfin 0).1
  have hmono := (fieldsMagnitude_strictMono (fracBits w)).monotone
  simp only [fieldsMagnitude_zero, Nat.cast_zero, zero_sub, Int.natAbs_neg, Int.natAbs_natCast] at hzero hle htie
  simp only [natAbs_withSign, natAbs_withSign_sub, fpUnits_eq fw]
  refine ⟨hle.trans (natAbs_sub_le_natAbs_withSign_sub ..), fun heq => ?_⟩
  obtain ⟨htied, hsame⟩ := eq_of_withSign_tie hle hzero heq
  obtain ⟨heven, hlarger⟩ := htie htied
  exact ⟨fun h0 hne => heven h0 fun hfields => hne (hsame (by rw [hfields])), fun h4 => hmono (hlarger h4)⟩

/-- Towards zero (mode 1, and 2 and 3 on their side). -/
theorem towardsZero_withSign (hm : TowardsZero frm negative) :
    (roundMagnitude w frm negative k).1 < infFields w ∧
      fieldsMagnitude (fracBits w) (roundMagnitude w frm negative k).1 ≤ k ∧
      ∀ c : BitVec w, fpFinite c = true → (fpUnits c).natAbs ≤ k →
        (fpUnits c).natAbs ≤ fieldsMagnitude (fracBits w) (roundMagnitude w frm negative k).1 := by
  obtain ⟨hfin, hle, hlargest⟩ := roundMagnitude_towardsZero fw frm negative k hm
  refine ⟨hfin, hle, fun c hc hck => ?_⟩
  rw [natAbs_fpUnits fw] at hck ⊢
  exact (fieldsMagnitude_strictMono _).monotone (hlargest _ ((fpFinite_iff fw c).1 hc) hck)

/-- Away from zero (modes 2 and 3 on their other side). -/
theorem awayFromZero_withSign (hm : AwayFromZero frm negative)
    (hfin : (roundMagnitude w frm negative k).1 < infFields w) :
    k ≤ fieldsMagnitude (fracBits w) (roundMagnitude w frm negative k).1 ∧
      ∀ c : BitVec w, k ≤ (fpUnits c).natAbs →
        fieldsMagnitude (fracBits w) (roundMagnitude w frm negative k).1 ≤ (fpUnits c).natAbs := by
  obtain ⟨hle, hleast⟩ := roundMagnitude_awayFromZero fw frm negative k hm hfin
  refine ⟨hle, fun c hck => ?_⟩
  rw [natAbs_fpUnits fw] at hck ⊢
  exact (fieldsMagnitude_strictMono _).monotone (hleast _ hck)

/-- Down (mode 2): the largest number that is not above. -/
theorem down_withSign (hfin : (roundMagnitude w 2 negative k).1 < infFields w) (c : BitVec w) (hc : fpFinite c = true) :
    let r := withSign negative (fieldsMagnitude (fracBits w) (roundMagnitude w 2 negative k).1)
    r ≤ withSign negative k ∧ (fpUnits c ≤ withSign negative k → fpUnits c ≤ r) := by
  cases negative
  case false =>
    obtain ⟨-, hle, hlargest⟩ := towardsZero_withSign (frm := 2) (k := k) fw (.inr (.inl ⟨rfl, rfl⟩))
    have := hlargest c hc
    simp only [withSign_false]
    omega
  case true =>
    obtain ⟨hle, hleast⟩ := awayFromZero_withSign fw (.inl ⟨rfl, rfl⟩) hfin
    have := hleast c
    simp only [withSign_true]
    omega

/-- Up (mode 3): the smallest number that is not below. -/
theorem up_withSign (hfin : (roundMagnitude w 3 negative k).1 < infFields w) (c : BitVec w) (hc : fpFinite c = true) :
    let r := withSign negative (fieldsMagnitude (fracBits w) (roundMagnitude w 3 negative k).1)
    withSign negative k ≤ r ∧ (withSign negative k ≤ fpUnits c → r ≤ fpUnits c) := by
  cases negative
  case false =>
    obtain ⟨hle, hleast⟩ := awayFromZero_withSign fw (.inr ⟨rfl, rfl⟩) hfin
    have := hleast c
    simp only [withSign_false]
    omega
  case true =>
    obtain ⟨-, hle, hlargest⟩ := towardsZero_withSign (frm := 3) (k := k) fw (.inr (.inr ⟨rfl, rfl⟩))
    have := hlargest c hc
    simp only [withSign_true]
    omega

/-- Where the result is infinite, the mode does not round towards zero, and every finite number is smaller. -/
theorem infinite_withSign (hinf : (roundMagnitude w frm negative k).1 = infFields w) :
    frm ≠ 1 ∧ (frm = 2 → negative = true) ∧ (frm = 3 → negative = false) ∧ 0 < k ∧
      ∀ c : BitVec w, fpFinite c = true → (fpUnits c).natAbs < k := by
  have hmode : ¬ TowardsZero frm negative := fun hm =>
    (roundMagnitude_towardsZero fw frm negative k hm).1.ne hinf
  have hlarge := (roundMagnitude_le fw frm negative k).2 hinf
  refine ⟨fun h => hmode (.inl h), fun h => ?_, fun h => ?_, by omega, fun c hc => ?_⟩
  · exact Bool.eq_true_of_not_eq_false fun hneg => hmode (.inr (.inl ⟨h, hneg⟩))
  · exact Bool.eq_false_of_not_eq_true fun hneg => hmode (.inr (.inr ⟨h, hneg⟩))
  · rw [natAbs_fpUnits fw]
    have hc' := (fpFinite_iff fw c).1 hc
    exact ((fieldsMagnitude_strictMono _).monotone (Nat.le_sub_one_of_lt hc')).trans_lt hlarge

end

theorem sign_of_withSign {negative : Bool} {k : Nat} (hk : 0 < k) : negative = decide (withSign negative k < 0) :=
  (decide_withSign_lt_zero fun h => by rw [← natAbs_withSign negative k, h] at hk; exact lt_irrefl _ hk).symm

theorem withSign_inj {negative : Bool} {x k : Nat} : withSign negative x = withSign negative k ↔ x = k := by
  cases negative
  case false => exact Int.natCast_inj
  case true => exact neg_inj.trans Int.natCast_inj

/-- Two numbers of one sign have a product that is not negative. -/
theorem withSign_mul_withSign_nonneg (negative : Bool) (x k : Nat) : 0 ≤ withSign negative x * withSign negative k := by
  cases negative
  case false => exact Int.mul_nonneg (Int.natCast_nonneg x) (Int.natCast_nonneg k)
  case true =>
    rw [withSign_true, withSign_true, neg_mul_neg]
    exact Int.mul_nonneg (Int.natCast_nonneg x) (Int.natCast_nonneg k)

/-- Settles O39: the two operands are rounded as their exact sum's magnitude is. -/
theorem additionRoundsAsFrmSays : Obligations.AdditionRoundsAsFrmSays := by
  intro f hf frm a b hm ha hb
  have fw := FormatWidth.of_mem hf
  obtain ⟨negative, k, hn, hr⟩ := fpAdd_rounded frm fw ha hb hm
  have hinflt := infFields_lt fw
  have hle := (roundMagnitude_le fw frm negative k).1
  have hlt := hle.trans_lt hinflt
  simp only [hn, hr, natAbs_withSign, fpFinite_iff fw, fpFinite_eq_false_iff fw, fpNaN_eq_false_iff fw,
    fpFields_fpOf fw negative hlt, fpUnits_fpOf fw negative hlt, msb_fpOf fw negative hlt,
    getLsbD_zero_fpOf fw negative hlt, fpMagnitude_eq fw, fpFields_fpOf fw false hinflt,
    fpFields_fpOf fw false ((Nat.sub_le _ 1).trans_lt hinflt)]
  have hflags := roundMagnitude_flags fw frm negative k
  refine ⟨fun hfin => ⟨?flags, fun hnear => ?middle⟩, fun hfin c hc => ?modes, fun hge => ?infinite⟩
  case flags =>
    simp only [hfin, true_and, ← not_le, ite_not] at hflags
    simp only [hflags, withSign_inj]
  case middle => exact (roundMagnitude_nearest_overflow fw frm negative k hnear).1 hfin
  case modes =>
    have hc' := (fpFinite_iff fw c).2 hc
    refine ⟨fun hnear => (nearest_withSign fw hnear hfin c).1, fun h0 => ?even, fun h4 => ?away, fun h1 => ?zero, ?down,
      ?up⟩
    case even =>
      intro htie hne
      have := ((nearest_withSign fw (.inl h0) hfin c).2 htie).1 h0 hne
      exact decide_eq_false (by omega)
    case away =>
      intro htie
      have := ((nearest_withSign fw (.inr h4) hfin c).2 htie).2 h4
      rwa [natAbs_withSign] at this
    case zero =>
      obtain ⟨-, hle, hlargest⟩ := towardsZero_withSign (k := k) fw (.inl h1 : TowardsZero frm negative)
      exact ⟨withSign_mul_withSign_nonneg .., hle, hlargest c hc'⟩
    case down =>
      rintro rfl
      exact down_withSign fw hfin c hc'
    case up =>
      rintro rfl
      exact up_withSign fw hfin c hc'
  case infinite =>
    obtain ⟨h1, h2, h3, hpos, hlarge⟩ := infinite_withSign fw (le_antisymm hle hge)
    rw [if_neg fun h => h.1.not_ge hge] at hflags
    refine ⟨hle, sign_of_withSign hpos, hflags, h1, fun h => ?down, fun h => ?up, fun hnear => ?middle,
      fun c hc => hlarge c ((fpFinite_iff fw c).2 hc)⟩
    case down =>
      rw [h2 h, withSign_true]
      omega
    case up =>
      rw [h3 h, withSign_false]
      omega
    case middle => exact not_lt.1 fun h => ((roundMagnitude_nearest_overflow fw frm negative k hnear).2 h).not_ge hge

end Sys2Proof.Machine
end

section
/-! O40. The floating-point minimum and maximum (R188, R189): left folds of one choice, which on numbers is that of an
order. -/

namespace Sys2Proof.Machine

/-! ### The order of the numbers (R188) -/

theorem fpKey_eq {w : Nat} (b : BitVec w) : fpKey b = if b.msb then -(fpFields b : Int) - 1 else (fpFields b : Int) :=
  rfl

/-- The key orders the numbers as their values do, an infinity beyond the finite ones and -0.0 below +0.0. -/
theorem fpBelow_iff {w : Nat} (fw : FormatWidth w) {a b : BitVec w} (ha : fpNaN a = false) (hb : fpNaN b = false) :
    fpBelow a b ↔ fpKey a ≤ fpKey b := by
  have hmono := fieldsMagnitude_strictMono (fracBits w)
  have hlt := hmono.lt_iff_lt (a := fpFields a) (b := fpFields b)
  have hgt := hmono.lt_iff_lt (a := fpFields b) (b := fpFields a)
  have ha' := (fpNaN_eq_false_iff fw a).1 ha
  have hb' := (fpNaN_eq_false_iff fw b).1 hb
  simp only [fpBelow, fpKey_eq, fpFinite_iff fw, fpFinite_eq_false_iff fw, fpUnits_eq fw]
  -- whether each is finite, then the two signs: the fields compare as the magnitudes do
  by_cases hfa : fpFields a < infFields w <;> by_cases hfb : fpFields b < infFields w
  all_goals
    simp only [hfa, hfb, if_true, if_false]
    cases a.msb <;> cases b.msb <;> simp only [withSign_true, withSign_false, Bool.false_eq_true, if_true, if_false]
    all_goals simp <;> omega

/-! ### The choice between two operands -/

section

variable {f : Nat} (better : Int → Int → Bool) (raw : BitVec f → BitVec f → BitVec f)

/-- The left fold that `fpMin` and `fpMax` are. -/
def fpPickAll (acc : BitVec f) (xs : List (BitVec f)) : BitVec f × BitVec 5 :=
  xs.foldl (fun r x => ((fpPick better raw r.1 x).1, r.2 ||| (fpPick better raw r.1 x).2)) (acc, 0)

end

theorem fpMin_eq (f : Nat) : fpMin f = fpPickAll (fun a b => decide (a ≤ b)) (Config.rawMin f) := rfl

theorem fpMax_eq (f : Nat) : fpMax f = fpPickAll (fun a b => decide (b ≤ a)) (Config.rawMax f) := rfl

section

variable {f : Nat} {better : Int → Int → Bool} {raw : BitVec f → BitVec f → BitVec f} {a b acc x : BitVec f}
  {xs : List (BitVec f)}

theorem not_signalling_of_number (h : fpNaN a = false) : fpSignalling a = false := by rw [fpSignalling, h]; rfl

theorem fpPick_snd : (fpPick better raw a b).2 = if fpSignalling a || fpSignalling b then flagNV else 0 := by
  unfold fpPick
  split_ifs <;> rfl

/-- A number is preferred to a quiet NaN. -/
theorem fpPick_of_quiet_right (ha : fpNaN a = false) (hb : fpNaN b = true) (hs : fpSignalling b = false) :
    fpPick better raw a b = (a, 0) := by
  simp [fpPick, not_signalling_of_number ha, hs, ha, hb]

theorem fpPick_of_quiet_left (ha : fpNaN a = true) (hs : fpSignalling a = false) (hb : fpNaN b = false) :
    fpPick better raw a b = (b, 0) := by
  simp [fpPick, not_signalling_of_number hb, hs, ha, hb]

theorem fpPick_of_numbers (ha : fpNaN a = false) (hb : fpNaN b = false) :
    fpPick better raw a b = (if better (fpKey a) (fpKey b) then a else b, 0) := by
  simp [fpPick, not_signalling_of_number ha, not_signalling_of_number hb, ha, hb]

/-! ### The fold -/

theorem fpPickAll_singleton : fpPickAll better raw acc [x] = fpPick better raw acc x := by
  simp [fpPickAll]

theorem fpPickAll_append_singleton : fpPickAll better raw acc (xs ++ [x]) =
    ((fpPickAll better raw (fpPickAll better raw acc xs).1 [x]).1,
      (fpPickAll better raw acc xs).2 ||| (fpPickAll better raw (fpPickAll better raw acc xs).1 [x]).2) := by
  simp only [fpPickAll_singleton]
  exact List.foldl_append

/-- A first choice that raises no flag is the scalar of the rest. -/
theorem fpPickAll_cons_of_quiet (h : fpPick better raw acc x = (b, 0)) :
    fpPickAll better raw acc (x :: xs) = fpPickAll better raw b xs := by
  simp only [fpPickAll, List.foldl_cons, h, BitVec.or_self]

/-- What a choice needs to be one of a best number: `better` is a total order. -/
structure KeyOrder (better : Int → Int → Bool) : Prop where
  total : ∀ i j, better i j = true ∨ better j i = true
  trans : ∀ i j k, better i j = true → better j k = true → better i k = true

theorem KeyOrder.refl (ho : KeyOrder better) (i : Int) : better i i = true := (ho.total i i).elim id id

theorem KeyOrder.of_not (ho : KeyOrder better) {i j : Int} (h : better i j = false) : better j i = true :=
  (ho.total i j).resolve_left fun h' => Bool.noConfusion (h'.symm.trans h)

theorem keyOrder_le : KeyOrder fun i j => decide (i ≤ j) where
  total i j := (Int.le_total i j).imp decide_eq_true decide_eq_true
  trans _ _ _ hij hjk := decide_eq_true ((of_decide_eq_true hij).trans (of_decide_eq_true hjk))

theorem keyOrder_ge : KeyOrder fun i j => decide (j ≤ i) where
  total i j := (Int.le_total j i).imp decide_eq_true decide_eq_true
  trans _ _ _ hij hjk := decide_eq_true ((of_decide_eq_true hjk).trans (of_decide_eq_true hij))

/-- The choice between two numbers is one of them, and no worse than either. -/
theorem fpPick_best (ho : KeyOrder better) (ha : fpNaN a = false) (hb : fpNaN b = false) :
    ∃ r, (r = a ∨ r = b) ∧ fpNaN r = false ∧ fpPick better raw a b = (r, 0) ∧
      better (fpKey r) (fpKey a) = true ∧ better (fpKey r) (fpKey b) = true := by
  rw [fpPick_of_numbers ha hb]
  cases h : better (fpKey a) (fpKey b)
  case false => exact ⟨b, .inr rfl, hb, rfl, ho.of_not h, ho.refl _⟩
  case true => exact ⟨a, .inl rfl, ha, rfl, ho.refl _, h⟩

/-- Among numbers and quiet NaNs the result is a best number, without flags. -/
theorem fpPickAll_best (ho : KeyOrder better) (hacc : fpNaN acc = false)
    (hxs : ∀ y ∈ xs, fpSignalling y = false) :
    ∃ r ∈ acc :: xs, fpNaN r = false ∧ fpPickAll better raw acc xs = (r, 0) ∧
      ∀ y ∈ acc :: xs, fpNaN y = false → better (fpKey r) (fpKey y) = true := by
  induction xs generalizing acc with
  | nil => exact ⟨acc, List.mem_singleton_self acc, hacc, rfl, fun y hy _ => List.mem_singleton.1 hy ▸ ho.refl _⟩
  | cons x xs ih =>
    obtain ⟨hx, hxs⟩ := List.forall_mem_cons.1 hxs
    cases hnan : fpNaN x
    case true =>
      obtain ⟨r, hr, hrn, hall, hbest⟩ := ih hacc hxs
      obtain ⟨hbacc, hbxs⟩ := List.forall_mem_cons.1 hbest
      refine ⟨r, ?_, hrn, (fpPickAll_cons_of_quiet (fpPick_of_quiet_right hacc hnan hx)).trans hall, ?_⟩
      · exact List.cons_subset_cons acc (List.subset_cons_self x xs) hr
      · have hbx : fpNaN x = false → better (fpKey r) (fpKey x) = true := by simp [hnan]
        exact List.forall_mem_cons.2 ⟨hbacc, List.forall_mem_cons.2 ⟨hbx, hbxs⟩⟩
    case false =>
      obtain ⟨b, hb, hbn, hpick, hba, hbx⟩ := fpPick_best (raw := raw) ho hacc hnan
      obtain ⟨r, hr, hrn, hall, hbest⟩ := ih hbn hxs
      obtain ⟨hrb, hbxs⟩ := List.forall_mem_cons.1 hbest
      refine ⟨r, ?_, hrn, (fpPickAll_cons_of_quiet hpick).trans hall, ?_⟩
      · obtain rfl | hr := List.mem_cons.1 hr
        · obtain rfl | rfl := hb <;> simp
        · simp [hr]
      · exact List.forall_mem_cons.2 ⟨fun _ => ho.trans _ _ _ (hrb hbn) hba,
          List.forall_mem_cons.2 ⟨fun _ => ho.trans _ _ _ (hrb hbn) hbx, hbxs⟩⟩

/-- The flags of the fold from any flags of its own: once NV is set it stays, and a signalling NaN sets it. -/
theorem foldl_fpPick_flags {flags : BitVec 5} (hflags : flags = 0 ∨ flags = flagNV)
    (h : flags = flagNV ∨ (xs ≠ [] ∧ ∃ y ∈ acc :: xs, fpSignalling y = true)) :
    (xs.foldl (fun r x => ((fpPick better raw r.1 x).1, r.2 ||| (fpPick better raw r.1 x).2)) (acc, flags)).2 =
      flagNV := by
  induction xs generalizing acc flags with
  | nil => exact h.resolve_right fun h => h.1 rfl
  | cons x xs ih =>
    have hor : flags ||| (fpPick better raw acc x).2 =
        if flags = flagNV ∨ fpSignalling acc = true ∨ fpSignalling x = true then flagNV else 0 := by
      rw [fpPick_snd]
      obtain rfl | rfl := hflags <;> cases fpSignalling acc <;> cases fpSignalling x <;> decide
    rw [List.foldl_cons]
    simp only [hor]
    split_ifs with hset
    · exact ih (.inr rfl) (.inl rfl)
    · refine ih (.inl rfl) (.inr ?_)
      obtain ⟨-, y, hy, hsig⟩ := h.resolve_left fun h => hset (.inl h)
      have hmem : y ∈ xs := by
        obtain rfl | hy := List.mem_cons.1 hy
        · exact absurd (.inr (.inl hsig)) hset
        · exact (List.mem_cons.1 hy).resolve_left fun h => hset (.inr (.inr (h ▸ hsig)))
      exact ⟨List.ne_nil_of_mem hmem, y, List.mem_cons_of_mem _ hmem, hsig⟩

end

/-- What the statement says of either fold. -/
theorem fpPickAll_chooses {f : Nat} {better : Int → Int → Bool} (ho : KeyOrder better) {smaller : Bool}
    (raw : BitVec f → BitVec f → BitVec f)
    (hbetter : ∀ r y : BitVec f, fpNaN r = false → fpNaN y = false → better (fpKey r) (fpKey y) = true →
      fpNoWorse smaller r y)
    (acc x : BitVec f) (xs : List (BitVec f)) :
    let all := fpPickAll better raw
    (all acc [] = (acc, 0) ∧
        all acc (xs ++ [x]) = ((all (all acc xs).1 [x]).1, (all acc xs).2 ||| (all (all acc xs).1 [x]).2)) ∧
      (fpNaN acc = false → (∀ y ∈ xs, fpSignalling y = false) →
        ∃ r ∈ acc :: xs, fpNaN r = false ∧ all acc xs = (r, 0) ∧
          ∀ y ∈ acc :: xs, fpNaN y = false → fpNoWorse smaller r y) ∧
      (fpNaN acc = true → fpSignalling acc = false → fpNaN x = false → all acc (x :: xs) = all x xs) ∧
      (xs ≠ [] → (∃ y ∈ acc :: xs, fpSignalling y = true) → (all acc xs).2 = flagNV) := by
  refine ⟨⟨rfl, fpPickAll_append_singleton⟩, fun hacc hxs => ?best, fun ha hs hx => ?quiet, fun hne hsig => ?flags⟩
  case best =>
    obtain ⟨r, hr, hrn, hall, hbest⟩ := fpPickAll_best (raw := raw) ho hacc hxs
    exact ⟨r, hr, hrn, hall, fun y hy hyn => hbetter r y hrn hyn (hbest y hy hyn)⟩
  case quiet => exact fpPickAll_cons_of_quiet (fpPick_of_quiet_left ha hs hx)
  case flags => exact foldl_fpPick_flags (.inl rfl) (.inr ⟨hne, hsig⟩)

/-- Settles O40: both are folds of the choice, by the order of the keys and by its converse. -/
theorem minMaxChoosesANumber : Obligations.MinMaxChoosesANumber := by
  intro f hf p hp acc x xs
  have fw := FormatWidth.of_mem hf
  simp only [List.mem_cons, List.not_mem_nil, or_false] at hp
  obtain rfl | rfl := hp
  · rw [fpMin_eq]
    exact fpPickAll_chooses (smaller := true) keyOrder_le (Config.rawMin f)
      (fun _ _ hr hy h => (fpBelow_iff fw hr hy).2 (of_decide_eq_true h)) acc x xs
  · rw [fpMax_eq]
    exact fpPickAll_chooses (smaller := false) keyOrder_ge (Config.rawMax f)
      (fun _ _ hr hy h => (fpBelow_iff fw hy hr).2 (of_decide_eq_true h)) acc x xs

end Sys2Proof.Machine
end

section
/-! O22 to O24. Register gathers: within each element when EDIV > 1 (R211 to R213), across the register group when
EDIV = 1 (R216). -/

namespace Sys2Proof.Machine

variable {c : Config}

/-! ### One element -/

/-- An element all of whose sub-elements are zero is zero. -/
theorem ofSubs_zero (w se ediv : Nat) : ofSubs (0 : BitVec w) ediv (fun _ => (0 : BitVec se)) = 0 := by
  apply BitVec.eq_of_getLsbD_eq
  intro b _
  simp [ofSubs, getLsbD_pack]

section

variable (h : Hart c) (vc : VConf) (vs2 : RegNo)

theorem Hart.gatherSub_of_lt {k : Nat} (hk : k < vc.ediv) (i : Nat) :
    h.gatherSub vc vs2 i k = sub vc.se (h.elem vc vs2 i) k := if_pos hk

theorem Hart.gatherSub_of_ge {k : Nat} (hk : vc.ediv ≤ k) (i : Nat) : h.gatherSub vc vs2 i k = 0 :=
  if_neg hk.not_gt

/-- R216 in the order in which the spec tests the index. -/
theorem Hart.gatherElem_eq (k : Nat) : h.gatherElem vc vs2 k = if vc.vlmax c ≤ k then 0 else h.elem vc vs2 k := by
  simp only [Hart.gatherElem, ← Nat.not_lt, ite_not]

/-- One index for the whole element splats a sub-element, or leaves zero (R212, R213). -/
theorem Hart.gatherSub_splat {vc : VConf} (so : vc.Sound c) (i k : Nat) :
    let new : BitVec vc.sew := ofSubs 0 vc.ediv fun _ => h.gatherSub vc vs2 i k
    (k < vc.ediv → SubsAre vc new fun _ => sub vc.se (h.elem vc vs2 i) k) ∧ (vc.ediv ≤ k → new = 0) := by
  refine ⟨fun hk => ?inside, fun hk => ?beyond⟩
  case inside =>
    rw [h.gatherSub_of_lt vc vs2 hk]
    exact subsAre_ofSubs so 0 _
  case beyond =>
    rw [h.gatherSub_of_ge vc vs2 hk]
    exact ofSubs_zero ..

end

/-! ### The instructions -/

section

variable {s : State} {i : Instr} {vc : VConf} {vd vs2 : RegNo} {vm : BitVec 1} {legal : VConf → Bool}
  {body : VConf → HartOutcome s.cfg} {indexElem : Nat → Nat} {indexSub : Nat → Nat → Nat}
  {result : Nat → BitVec vc.sew → Prop}
  (hv : vconf s.cfg s.hart.vtype = some vc)
  (e : exec i s = s.onHart (s.hart.vector (encodeWith s.cfg.dot i) legal body)) (hl : legal vc = true)
  (hn : i.isNew = false) (al : aligned vc vd = true)
include hv e hl hn al

/-- An instruction whose rule writes a destination group without flags completes with that group's result. -/
theorem writesGroup_of_vector {a : Nat → BitVec vc.sew}
    (hr : body vc = .next (s.hart.writeGroup vc vd vm a).finish) (imp : ∀ k, result k (a k)) :
    WritesGroup i s vc vd vm result :=
  writesGroup_of_exec (sound_of_vconf hv) al
    (fun hb => (exec_vector_of_allowed hv e hl hn hb).trans (congrArg s.onHart hr)) fun k _ _ => imp k

/-- With EDIV > 1 a gather puts each element together from sub-elements of the same element (R211). -/
theorem writesGroup_of_gather_divided (he : 1 < vc.ediv)
    (hr : body vc = s.hart.gather vc vd vs2 vm indexElem indexSub)
    (imp : ∀ k, result k (ofSubs 0 vc.ediv fun j => s.hart.gatherSub vc vs2 k (indexSub k j))) :
    WritesGroup i s vc vd vm result :=
  writesGroup_of_vector hv e hl hn al (hr.trans (by simp only [Hart.gather, if_neg he.ne'])) imp

/-- With EDIV = 1 it takes an element of the register group (R216). -/
theorem writesGroup_of_gather_undivided (he : vc.ediv = 1)
    (hr : body vc = s.hart.gather vc vd vs2 vm indexElem indexSub) :
    WritesGroup i s vc vd vm fun k new =>
      new = if vc.vlmax s.cfg ≤ indexElem k then 0 else s.hart.elem vc vs2 (indexElem k) :=
  writesGroup_of_vector hv e hl hn al (hr.trans (by simp only [Hart.gather, if_pos he]))
    fun _ => s.hart.gatherElem_eq ..

end

/-- Settles O22: the sub-elements put together are those that the indices name. -/
theorem gatherVVWithinElement : Obligations.GatherVVWithinElement := by
  intro s vd vs2 vs1 vm vc
  refine ⟨decodeWith_opivv rfl, fun hv he hl h2 h1 => ?_⟩
  have hx : (legalVV vc vd vs2 vs1 vm && disjointGroups vc vd vs2 && disjointGroups vc vd vs1) = true := by
    rw [hl, h2, h1]; rfl
  exact writesGroup_of_gather_divided hv rfl hx rfl (aligned_of_legalVV hl) he rfl
    fun k => subsAre_ofSubs (sound_of_vconf hv) 0 _

/-- Settles O23: both forms have one index for the whole element. -/
theorem gatherScalarSplatsWithinElement : Obligations.GatherScalarSplatsWithinElement := by
  intro s vd vs2 s1 vm vc
  refine ⟨decodeWith_opivx rfl, decodeWith_opivi rfl, fun hv he hl h2 => ?_⟩
  have hx : (legalV vc vd vs2 vm && disjointGroups vc vd vs2) = true := by rw [hl, h2]; rfl
  have splat := s.hart.gatherSub_splat vs2 (sound_of_vconf hv)
  refine ⟨?vx, ?vi⟩
  case vx => exact writesGroup_of_gather_divided hv rfl hx rfl (aligned_of_legalV hl) he rfl fun k => splat k _
  case vi => exact writesGroup_of_gather_divided hv rfl hx rfl (aligned_of_legalV hl) he rfl fun k => splat k _

/-- Settles O24: each of the three takes an element of the group by its own index. -/
theorem gathersUndivided : Obligations.GathersUndivided := by
  intro s vd vs2 s1 vm vc hv he hl h2
  have al := aligned_of_legalV hl
  have hx : (legalV vc vd vs2 vm && disjointGroups vc vd vs2) = true := by rw [hl, h2]; rfl
  refine ⟨fun h1 hd1 => ?vv, ?vx, ?vi⟩
  case vv =>
    have hvv : (legalVV vc vd vs2 s1 vm && disjointGroups vc vd vs2 && disjointGroups vc vd s1) = true := by
      rw [legalVV_eq, hl, h1, h2, hd1]; rfl
    exact writesGroup_of_gather_undivided hv rfl hvv rfl al he rfl
  case vx => exact writesGroup_of_gather_undivided hv rfl hx rfl al he rfl
  case vi => exact writesGroup_of_gather_undivided hv rfl hx rfl al he rfl

end Sys2Proof.Machine
end

section
/-! O41, O42. The integer dot products (R221 to R224): the fold over the pairs of sub-elements read as numbers, and what
it is with EDIV = 1. -/

namespace Sys2Proof.Machine

variable {c : Config}

/-! ### The width of the accumulator (R102) -/

theorem VConf.Sound.se_le_wDot {vc : VConf} (so : vc.Sound c) : vc.se ≤ wDot vc.sew vc.ediv :=
  le_max_of_le_right (le_min so.se_le_sew (Nat.le_mul_of_pos_left _ four_pos))

theorem VConf.Sound.wDot_le_sew {vc : VConf} (so : vc.Sound c) : wDot vc.sew vc.ediv ≤ vc.sew :=
  max_le so.eight_le_sew (min_le_left _ _)

/-- With EDIV = 1 both bounds meet. -/
theorem VConf.Sound.wDot_undivided {vc : VConf} (so : vc.Sound c) (he : vc.ediv = 1) : wDot vc.sew vc.ediv = vc.sew :=
  le_antisymm so.wDot_le_sew ((VConf.Sound.se_eq he).symm.trans_le so.se_le_wDot)

/-! ### The fold (R224) -/

section

variable (h : Hart c) (vc : VConf) (signed : Bool) (vd vs2 vs1 : RegNo) (i : Nat)

/-- The result on an element is the fold over the pairs of its sub-elements, the old destination first. -/
theorem Hart.dotElem_eq :
    h.dotElem vc signed vd vs2 vs1 i = extendTo signed vc.sew
      (((h.subs vc vs2 i).zip (h.subs vc vs1 i)).foldl
        (fun acc e => acc + extendTo signed (wDot vc.sew vc.ediv) e.1 * extendTo signed (wDot vc.sew vc.ediv) e.2)
        (h.lowBits vc vd (wDot vc.sew vc.ediv) i)) := by
  rw [Hart.subs, Hart.subs, List.zip_map', List.foldl_map]
  rfl

variable {vc signed}

/-- A reading of words that extension keeps, and that takes a multiply-accumulate to that of numbers brought into range
by `reduce`, takes the result to the exact sum of products brought into range once. -/
theorem Hart.read_dotElem {α : Type} [Semiring α] (so : vc.Sound c) (read : {n : Nat} → BitVec n → α)
    (reduce : α → α)
    (hext : ∀ {m n : Nat}, m ≤ n → ∀ x : BitVec m, read (extendTo signed n x) = read x)
    (hmac : ∀ acc a b : BitVec (wDot vc.sew vc.ediv), read (acc + a * b) = reduce (read acc + read a * read b))
    (hread : ∀ a : BitVec (wDot vc.sew vc.ediv), reduce (read a) = read a)
    (hadd : ∀ a b, reduce (reduce a + b) = reduce (a + b)) :
    read (h.dotElem vc signed vd vs2 vs1 i) = reduce (read (h.lowBits vc vd (wDot vc.sew vc.ediv) i) +
      (List.zipWith (· * ·) ((h.subs vc vs2 i).map read) ((h.subs vc vs1 i).map read)).sum) := by
  have hprods : List.zipWith (· * ·) ((h.subs vc vs2 i).map read) ((h.subs vc vs1 i).map read) =
      ((h.subs vc vs2 i).zip (h.subs vc vs1 i)).map fun e => read e.1 * read e.2 := by
    rw [List.zipWith_map, List.map_zip_eq_zipWith]
    rfl
  rw [h.dotElem_eq, hext so.wDot_le_sew, hprods, ← foldl_add_reduced reduce hadd, hread, List.foldl_map]
  exact (List.foldl_hom read fun acc e => by rw [hmac, hext so.se_le_wDot, hext so.se_le_wDot]).symm

/-- The one sub-element of an undivided element is the element (R15, R100). -/
theorem extendTo_sub_whole {w se : Nat} (hse : se = w) (e : BitVec w) : extendTo signed w (sub se e 0) = e := by
  subst hse
  simp [sub]

/-- With EDIV = 1 the result is a multiply-accumulate of whole elements, signed or not (R223). -/
theorem Hart.dotElem_undivided (so : vc.Sound c) (he : vc.ediv = 1) :
    h.dotElem vc signed vd vs2 vs1 i = h.elem vc vd i + h.elem vc vs2 i * h.elem vc vs1 i := by
  have hw := so.wDot_undivided he
  have hse := VConf.Sound.se_eq he
  have hsubs (r : RegNo) : h.subs vc r i = [sub vc.se (h.elem vc r i) 0] := by rw [Hart.subs, he]; rfl
  rw [h.dotElem_eq, hsubs, hsubs, hw]
  simp [extendTo_sub_whole hse, Hart.lowBits]

end

/-! ### The instructions -/

section

variable {s : State} {i : Instr} {vc : VConf} {signed : Bool} {vd vs2 vs1 : RegNo} {vm : BitVec 1}
  (hv : vconf s.cfg s.hart.vtype = some vc) (hl : legalVV vc vd vs2 vs1 vm = true)
  (e : exec i s = s.onHart (s.hart.vectorNew (encodeWith s.cfg.dot i) (legalVV · vd vs2 vs1 vm) fun vc =>
    .next (s.hart.writeGroup vc vd vm (s.hart.dotElem vc signed vd vs2 vs1)).finish))
include hv hl e

/-- Behind the checks of R81 an integer dot product writes the result on each element, for every EDIV. -/
theorem exec_dot_of_allowed (hb : BaseAllows s i) :
    exec i s = s.onHart (.next (s.hart.writeGroup vc vd vm (s.hart.dotElem vc signed vd vs2 vs1)).finish) :=
  e.trans (congrArg s.onHart (Hart.vectorNew_of_allowed hv hl hb))

theorem writesGroup_of_dot {result : Nat → BitVec vc.sew → Prop}
    (imp : ∀ k, result k (s.hart.dotElem vc signed vd vs2 vs1 k)) : WritesGroup i s vc vd vm result :=
  writesGroup_of_exec (sound_of_vconf hv) (aligned_of_legalVV hl) (exec_dot_of_allowed hv hl e) fun k _ _ => imp k

end

/-- Settles O41: a multiply-accumulate modulo 2^`W_dot` at every step is the exact sum reduced once. -/
theorem integerDotProducts : Obligations.IntegerDotProducts := by
  intro s vd vs2 vs1 vm vc hv hl
  have so := sound_of_vconf hv
  refine ⟨?unsigned, ?signed⟩
  case unsigned =>
    exact writesGroup_of_dot hv hl rfl fun k =>
      s.hart.read_dotElem vd vs2 vs1 k so BitVec.toNat (· % 2 ^ wDot vc.sew vc.ediv) toNat_extendTo
        (fun acc a b => by rw [BitVec.toNat_add, BitVec.toNat_mul, Nat.add_mod_mod])
        (fun a => Nat.mod_eq_of_lt a.isLt) fun a b => Nat.mod_add_mod a _ b
  case signed =>
    exact writesGroup_of_dot hv hl rfl fun k =>
      s.hart.read_dotElem vd vs2 vs1 k so BitVec.toInt (Int.bmod · (2 ^ wDot vc.sew vc.ediv)) toInt_extendTo
        (fun acc a b => by rw [BitVec.toInt_add, BitVec.toInt_mul, Int.add_bmod_bmod])
        (fun _ => BitVec.toInt_bmod_cancel _) fun _ _ => Int.bmod_add_bmod

/-- Settles O42: with EDIV = 1 both write the same multiply-accumulate. -/
theorem dotProductsUndividedAgree : Obligations.DotProductsUndividedAgree := by
  intro s vd vs2 vs1 vm vc hv he hl
  have so := sound_of_vconf hv
  refine ⟨fun hbu hb => ?agree, ?result⟩
  case agree =>
    have hsame : s.hart.dotElem vc false vd vs2 vs1 = s.hart.dotElem vc true vd vs2 vs1 := by
      funext k
      rw [s.hart.dotElem_undivided vd vs2 vs1 k so he, s.hart.dotElem_undivided vd vs2 vs1 k so he]
    rw [exec_dot_of_allowed hv hl rfl hbu, exec_dot_of_allowed hv hl rfl hb, hsame]
  case result => exact writesGroup_of_dot hv hl rfl fun k => s.hart.dotElem_undivided vd vs2 vs1 k so he

end Sys2Proof.Machine
end

section
/-! O36, O37. What is exact (R190, R191, R232): a number of a format is what the encoder gives for its value, the exact
sums are sums of sub-lists, and a number of a narrow format is one of a wide format. -/

namespace Sys2Proof.Machine

/-! ### The fields of a magnitude -/

/-- The fields as `q` units of `2 ^ t`, the leading one counted as part of the fraction. -/
theorem exists_scaled_fields (p k : Nat) : ∃ t q, k = t * 2 ^ p + q ∧ q < 2 ^ (p + 1) ∧ (t = 0 ∨ 2 ^ p ≤ q) := by
  have hmod := Nat.mod_lt k (Nat.two_pow_pos p)
  have hk : k / 2 ^ p * 2 ^ p + k % 2 ^ p = k := Nat.div_add_mod' k _
  have hpow : 2 ^ (p + 1) = 2 ^ p + 2 ^ p := by rw [pow_succ, Nat.mul_two]
  cases he : k / 2 ^ p with
  | zero => exact ⟨0, k % 2 ^ p, by rw [← he, hk], by omega, .inl rfl⟩
  | succ t =>
    rw [he, Nat.succ_mul, Nat.add_assoc] at hk
    exact ⟨t, 2 ^ p + k % 2 ^ p, hk.symm, by omega, .inr (Nat.le_add_right ..)⟩

/-- The encoder undoes the magnitude. -/
theorem encodeMagnitude_fieldsMagnitude {w k : Nat} (hk : k < infFields w) :
    encodeMagnitude w (fieldsMagnitude (fracBits w) k) = some k := by
  obtain ⟨t, q, rfl, hq, ht⟩ := exists_scaled_fields (fracBits w) k
  rw [fieldsMagnitude_scaled hq.le ht, encodeMagnitude]
  rcases Nat.eq_zero_or_pos t with rfl | hpos
  · simp [hq]
  have hge := ht.resolve_left hpos.ne'
  have hq0 : q ≠ 0 := ((Nat.two_pow_pos _).trans_le hge).ne'
  have hbig : ¬ q * 2 ^ t < 2 ^ (fracBits w + 1) := by
    rw [not_lt, pow_succ]
    exact Nat.mul_le_mul hge (Nat.le_self_pow hpos.ne' 2)
  have hlog : Nat.log2 (q * 2 ^ t) = fracBits w + t := by
    rw [Nat.log2_eq_iff (Nat.mul_pos (Nat.pos_of_ne_zero hq0) (Nat.two_pow_pos t)).ne', pow_add, Nat.add_right_comm,
      pow_add]
    exact ⟨Nat.mul_le_mul_right _ hge, Nat.mul_lt_mul_of_pos_right hq (Nat.two_pow_pos t)⟩
  have hexp : t + 1 < 2 ^ expBits w - 1 := by
    refine Nat.lt_of_mul_lt_mul_right (a := 2 ^ fracBits w) ?_
    rw [Nat.succ_mul]
    exact (Nat.add_le_add_left hge _).trans_lt hk
  simp [hbig, hlog, hexp]

/-- Twice a magnitude is a magnitude. -/
theorem exists_fieldsMagnitude_double (p k : Nat) : ∃ k', fieldsMagnitude p k' = fieldsMagnitude p k * 2 := by
  obtain ⟨t, q, rfl, hq, ht⟩ := exists_scaled_fields p k
  rw [fieldsMagnitude_scaled hq.le ht]
  rcases lt_or_ge q (2 ^ p) with hlt | hge
  · obtain rfl := ht.resolve_right hlt.not_ge
    exact ⟨0 * 2 ^ p + q * 2, by rw [fieldsMagnitude_scaled (by rw [pow_succ]; omega) (.inl rfl)]; ring⟩
  · exact ⟨(t + 1) * 2 ^ p + q, by rw [fieldsMagnitude_scaled hq.le (.inr hge), pow_succ]; ring⟩

/-- With no bound on the exponent every product of a fraction and a power of two is a magnitude. -/
theorem exists_fieldsMagnitude {p q : Nat} (hq : q < 2 ^ (p + 1)) (s : Nat) :
    ∃ k, fieldsMagnitude p k = q * 2 ^ s := by
  induction s with
  | zero => exact ⟨0 * 2 ^ p + q, fieldsMagnitude_scaled hq.le (.inl rfl)⟩
  | succ s ih =>
    obtain ⟨k, hk⟩ := ih
    obtain ⟨k', hk'⟩ := exists_fieldsMagnitude_double p k
    exact ⟨k', by rw [hk', hk, pow_succ, Nat.mul_assoc]⟩

section

variable {w : Nat} (fw : FormatWidth w)
include fw

/-- What an infinity's fields stand for. -/
theorem fieldsMagnitude_infFields :
    fieldsMagnitude (fracBits w) (infFields w) = 2 ^ (fracBits w + (2 ^ expBits w - 2)) := by
  have htwo : 2 ≤ 2 ^ expBits w := Nat.le_self_pow fw.exp_pos.ne' 2
  have hsplit : infFields w = (2 ^ expBits w - 2) * 2 ^ fracBits w + 2 ^ fracBits w := by
    rw [← Nat.succ_mul, infFields]
    congr 1
    omega
  rw [hsplit, fieldsMagnitude_scaled (Nat.pow_le_pow_right Nat.two_pos (Nat.le_succ _)) (.inr le_rfl), pow_add]

theorem lt_infFields_iff (k : Nat) :
    k < infFields w ↔ fieldsMagnitude (fracBits w) k < 2 ^ (fracBits w + (2 ^ expBits w - 2)) := by
  rw [← fieldsMagnitude_infFields fw, (fieldsMagnitude_strictMono _).lt_iff_lt]

/-! ### The encoder (R232) -/

theorem fpFinite_fpOf (negative : Bool) {k : Nat} (hk : k < infFields w) : fpFinite (fpOf w negative k) = true := by
  rwa [fpFinite_iff fw, fpFields_fpOf fw negative (hk.trans (infFields_lt fw))]

/-- The value in a finer unit. -/
theorem fpUnits_mul_two_pow (b : BitVec w) (d : Nat) :
    fpUnits b * 2 ^ d = withSign b.msb (fieldsMagnitude (fracBits w) (fpFields b) * 2 ^ d) := by
  rw [fpUnits_eq fw]
  cases b.msb <;> simp

theorem fpFields_eq_zero_iff (b : BitVec w) : fpFields b = 0 ↔ fpUnits b = 0 := by
  rw [← Int.natAbs_eq_zero, natAbs_fpUnits fw]
  exact ((fieldsMagnitude_strictMono _).injective.eq_iff' (fieldsMagnitude_zero _)).symm

/-- The encoder gives the number whose value it is given; a zero has the sign asked for. -/
theorem encodeUnits_fpUnits (shift : Nat) (negZero : Bool) {b : BitVec w} (hb : fpFinite b = true) :
    encodeUnits w shift negZero (fpUnits b * 2 ^ shift) =
      some (if fpUnits b = 0 then fpOf w negZero 0 else b) := by
  have hunits := fpUnits_mul_two_pow fw b shift
  have habs := congrArg Int.natAbs hunits
  rw [natAbs_withSign] at habs
  rw [encodeUnits, habs, if_pos (Nat.mul_mod_left _ _), Nat.mul_div_cancel _ (Nat.two_pow_pos shift),
    encodeMagnitude_fieldsMagnitude ((fpFinite_iff fw b).1 hb), Option.map_some]
  by_cases h0 : fpUnits b = 0
  · rw [h0, (fpFields_eq_zero_iff fw b).2 h0, Int.zero_mul, if_pos rfl, if_pos rfl]
  · have hn : fpUnits b * 2 ^ shift ≠ 0 := mul_ne_zero h0 (pow_ne_zero _ two_ne_zero)
    have hsign : decide (fpUnits b * 2 ^ shift < 0) = b.msb := by
      rw [hunits] at hn ⊢
      exact decide_withSign_lt_zero hn
    rw [if_neg hn, if_neg h0, hsign, fpOf_msb_fpFields fw]

/-- With the sign of the number itself the encoder gives that number. -/
theorem encodeUnits_fpUnits_self (shift : Nat) {b : BitVec w} (hb : fpFinite b = true) :
    encodeUnits w shift b.msb (fpUnits b * 2 ^ shift) = some b := by
  rw [encodeUnits_fpUnits fw shift b.msb hb]
  split
  · rw [← (fpFields_eq_zero_iff fw b).2 ‹_›, fpOf_msb_fpFields fw]
  · rfl

/-- Whatever the sign of a zero, the number has the value. -/
theorem exists_encodeUnits (shift : Nat) (negZero : Bool) {n : Int}
    (hn : ∃ b : BitVec w, fpFinite b = true ∧ fpUnits b * 2 ^ shift = n) :
    ∃ r, encodeUnits w shift negZero n = some r ∧ fpFinite r = true ∧ fpUnits r * 2 ^ shift = n := by
  obtain ⟨b, hb, rfl⟩ := hn
  refine ⟨_, encodeUnits_fpUnits fw shift negZero hb, ?_⟩
  split
  · rename_i h0
    have hunits : fpUnits (fpOf w negZero 0) = 0 := by
      rw [← fpFields_eq_zero_iff fw, fpFields_fpOf fw negZero (Nat.two_pow_pos _)]
    exact ⟨fpFinite_fpOf fw negZero (infFields_pos fw), by rw [hunits, h0]⟩
  · exact ⟨hb, rfl⟩

end

/-! ### The partial sums (R232) -/

theorem partialSums_append_singleton (terms : List Int) (t : Int) :
    partialSums (terms ++ [t]) = partialSums terms ++ (partialSums terms).map (· + t) :=
  List.foldl_append

/-- The sum of all terms is one of the partial sums. -/
theorem sum_mem_partialSums (terms : List Int) : terms.sum ∈ partialSums terms := by
  induction terms using List.reverseRecOn with
  | nil => exact List.mem_singleton_self 0
  | append_singleton terms t ih =>
    rw [partialSums_append_singleton, List.sum_append, List.sum_singleton]
    exact List.mem_append_right _ (List.mem_map_of_mem ih)

/-- A partial sum is the sum of some of the terms. -/
theorem exists_sublist_of_mem_partialSums {terms : List Int} {p : Int} (hp : p ∈ partialSums terms) :
    ∃ l : List Int, l.Sublist terms ∧ l.sum = p := by
  induction terms using List.reverseRecOn generalizing p with
  | nil => exact ⟨[], List.nil_sublist _, (List.mem_singleton.1 hp).symm⟩
  | append_singleton terms t ih =>
    rw [partialSums_append_singleton, List.mem_append, List.mem_map] at hp
    obtain hp | ⟨p, hp, rfl⟩ := hp
    · obtain ⟨l, hl, hsum⟩ := ih hp
      exact ⟨l, hl.trans (List.sublist_append_left _ _), hsum⟩
    · obtain ⟨l, hl, rfl⟩ := ih hp
      exact ⟨l ++ [t], hl.append_right [t], by rw [List.sum_append, List.sum_singleton]⟩

/-- Where the format has all partial sums, the exact sum is a number with the value of the sum. -/
theorem exists_exactSum {w : Nat} (fw : FormatWidth w) (shift : Nat) (negZero : Bool) {terms : List Int}
    (hp : ∀ p ∈ partialSums terms, ∃ b : BitVec w, fpFinite b = true ∧ fpUnits b * 2 ^ shift = p) :
    ∃ r, exactSum w shift negZero terms = some r ∧ fpFinite r = true ∧ fpUnits r * 2 ^ shift = terms.sum := by
  have hall : ((partialSums terms).all fun s => (encodeUnits w shift false s).isSome) = true := by
    refine List.all_eq_true.2 fun p hmem => ?_
    obtain ⟨r, hr, -⟩ := exists_encodeUnits fw shift false (hp p hmem)
    rw [hr, Option.isSome_some]
  rw [exactSum, if_pos hall]
  exact exists_encodeUnits fw shift negZero (hp _ (sum_mem_partialSums terms))

/-! ### The unordered sum (R232) -/

theorem fpUsum_of_exactSum {f : Nat} {frm : BitVec 3} {acc r : BitVec f} {xs : List (BitVec f)}
    (hfin : ∀ x ∈ acc :: xs, fpFinite x = true)
    (hr : exactSum f 0 (Config.rawUsum f frm acc xs).1.msb ((acc :: xs).map fpUnits) = some r) :
    fpUsum f frm acc xs = (r, 0) := by
  rw [fpUsum, if_pos (List.all_eq_true.2 hfin), hr]

/-- Settles O36: where the format has all partial sums, the encoder has the sum. -/
theorem unorderedSumExactWhenRepresentable : Obligations.UnorderedSumExactWhenRepresentable := by
  intro f hf frm acc xs hfin hp
  obtain ⟨r, hr, hrfin, hunits⟩ := exists_exactSum (FormatWidth.of_mem hf) 0 (Config.rawUsum f frm acc xs).1.msb
    fun p hmem => by simpa using hp p hmem
  rw [fpUsum_of_exactSum hfin hr]
  exact ⟨hrfin, by simpa using hunits, rfl⟩

/-! ### The dot product (R232) -/

/-- The unit `2 ^ -(dotScale se a)` divides the products of two numbers of `se` bits and the numbers of `a` bits. -/
def dotScale (se a : Nat) : Nat := max (2 * quantum se) (quantum a)

theorem two_mul_quantum_le_dotScale (se a : Nat) : 2 * quantum se ≤ dotScale se a := le_max_left _ _

theorem quantum_le_dotScale (se a : Nat) : quantum a ≤ dotScale se a := le_max_right _ _

/-- The accumulator and the exact products in that unit. -/
def dotTerms {se a : Nat} (acc : BitVec a) (as bs : List (BitVec se)) : List Int :=
  fpUnits acc * 2 ^ (dotScale se a - quantum a) ::
    List.zipWith (fun x y => fpUnits x * fpUnits y * 2 ^ (dotScale se a - 2 * quantum se)) as bs

/-- The rational number that is `n` units of `2 ^ -scale`. -/
def unitsValue (scale : Nat) (n : Int) : ℚ := n / 2 ^ scale

theorem unitsValue_mul_two_pow {q scale : Nat} (h : q ≤ scale) (n : Int) :
    unitsValue scale (n * 2 ^ (scale - q)) = unitsValue q n := by
  have hsplit : (2 : ℚ) ^ scale = 2 ^ q * 2 ^ (scale - q) := by rw [← pow_add, Nat.add_sub_cancel' h]
  rw [unitsValue, unitsValue, hsplit, Int.cast_mul, Int.cast_pow, Int.cast_ofNat,
    mul_div_mul_right _ _ (pow_ne_zero _ two_ne_zero)]

theorem unitsValue_injective (scale : Nat) : Function.Injective (unitsValue scale) := fun _ _ h =>
  Int.cast_injective ((div_left_inj' (pow_ne_zero scale two_ne_zero)).1 h)

theorem sum_map_unitsValue (scale : Nat) (l : List Int) : (l.map (unitsValue scale)).sum = unitsValue scale l.sum := by
  induction l with
  | nil => simp [unitsValue]
  | cons n l ih =>
    rw [List.map_cons, List.sum_cons, List.sum_cons, ih]
    simp only [unitsValue, Int.cast_add, add_div]

/-- A number of a format in a finer unit. -/
theorem unitsValue_fpUnits {w scale : Nat} (h : quantum w ≤ scale) (b : BitVec w) :
    unitsValue scale (fpUnits b * 2 ^ (scale - quantum w)) = fpValue b :=
  unitsValue_mul_two_pow h _

theorem unitsValue_product {se scale : Nat} (h : 2 * quantum se ≤ scale) (x y : BitVec se) :
    unitsValue scale (fpUnits x * fpUnits y * 2 ^ (scale - 2 * quantum se)) = fpValue x * fpValue y := by
  rw [unitsValue_mul_two_pow h, unitsValue, fpValue, fpValue, Int.cast_mul, Nat.two_mul, pow_add, div_mul_div_comm]

/-- The terms of the model have the values of the exact products. -/
theorem map_unitsValue_dotTerms {se a : Nat} (acc : BitVec a) (as bs : List (BitVec se)) :
    (dotTerms acc as bs).map (unitsValue (dotScale se a)) =
      fpValue acc :: List.zipWith (fun x y => fpValue x * fpValue y) as bs := by
  rw [dotTerms, List.map_cons, List.map_zipWith, unitsValue_fpUnits (quantum_le_dotScale se a)]
  simp only [unitsValue_product (two_mul_quantum_le_dotScale se a)]

theorem fpDot_of_exactSum {se a : Nat} {frm : BitVec 3} {acc r : BitVec a} {as bs : List (BitVec se)}
    (hacc : fpFinite acc = true) (hfin : ∀ x ∈ as ++ bs, fpFinite x = true)
    (hr : exactSum a (dotScale se a - quantum a) (Config.rawDot se a frm acc as bs).1.msb (dotTerms acc as bs) =
      some r) :
    fpDot se a frm acc as bs = (r, 0) := by
  have has : as.all fpFinite = true := List.all_eq_true.2 fun x hx => hfin x (List.mem_append_left _ hx)
  have hbs : bs.all fpFinite = true := List.all_eq_true.2 fun x hx => hfin x (List.mem_append_right _ hx)
  rw [dotTerms, dotScale] at hr
  rw [fpDot, hacc, has, hbs]
  simp only [Bool.and_self, if_true, hr]

/-- Where the result format has all partial sums, the dot product is the exact sum. -/
theorem fpDot_exact {se a : Nat} (fw : FormatWidth a) (frm : BitVec 3) {acc : BitVec a} {as bs : List (BitVec se)}
    (hacc : fpFinite acc = true) (hfin : ∀ x ∈ as ++ bs, fpFinite x = true)
    (hp : ∀ p : List ℚ, p.Sublist ((dotTerms acc as bs).map (unitsValue (dotScale se a))) →
      ∃ b : BitVec a, fpFinite b = true ∧ fpValue b = p.sum) :
    ∃ r : BitVec a, fpDot se a frm acc as bs = (r, 0) ∧ fpFinite r = true ∧
      fpValue r = ((dotTerms acc as bs).map (unitsValue (dotScale se a))).sum := by
  have hscale := quantum_le_dotScale se a
  have hnumbers : ∀ p ∈ partialSums (dotTerms acc as bs),
      ∃ b : BitVec a, fpFinite b = true ∧ fpUnits b * 2 ^ (dotScale se a - quantum a) = p := by
    intro p hmem
    obtain ⟨l, hl, rfl⟩ := exists_sublist_of_mem_partialSums hmem
    obtain ⟨b, hb, hvalue⟩ := hp _ (hl.map _)
    refine ⟨b, hb, unitsValue_injective (dotScale se a) ?_⟩
    rw [unitsValue_fpUnits hscale, hvalue, sum_map_unitsValue]
  obtain ⟨r, hr, hrfin, hunits⟩ := exists_exactSum fw _ (Config.rawDot se a frm acc as bs).1.msb hnumbers
  refine ⟨r, fpDot_of_exactSum hacc hfin hr, hrfin, ?_⟩
  rw [← unitsValue_fpUnits hscale, hunits, sum_map_unitsValue]

/-! ### The conversion to a wider format (R190, R191, R232) -/

/-- Every finite number of the format of `se` bits is in the format of `f` bits: the fraction and the exponent range
are no smaller. -/
structure WiderFormat (se f : Nat) : Prop where
  narrow : FormatWidth se
  wide : FormatWidth f
  exp_le : expBits se ≤ expBits f
  frac_le : fracBits se ≤ fracBits f

theorem WiderFormat.of_mem {se f : Nat} (hse : se ∈ fpFormats) (hf : f ∈ fpFormats) (h : se ≤ f) :
    WiderFormat se f := by
  have hfields : ∀ se ∈ fpFormats, ∀ f ∈ fpFormats, se ≤ f → expBits se ≤ expBits f ∧ fracBits se ≤ fracBits f := by
    decide
  obtain ⟨hexp, hfrac⟩ := hfields se hse f hf h
  exact ⟨.of_mem hse, .of_mem hf, hexp, hfrac⟩

theorem fpWiden_self {w : Nat} (x : BitVec w) : fpWiden w w x = x := (if_pos rfl).trans (BitVec.setWidth_eq x)

theorem fpWiden_of_finite {se f : Nat} (hne : se ≠ f) {x : BitVec se} (hx : fpFinite x = true) :
    fpWiden se f x = (encodeUnits f 0 x.msb (fpUnits x * 2 ^ (quantum f - quantum se))).getD 0 := by
  rw [fpWiden, if_neg hne, if_pos hx]

theorem fpWiden_of_infinite {se f : Nat} (hne : se ≠ f) {x : BitVec se} (hx : fpFinite x = false)
    (hn : fpNaN x = false) : fpWiden se f x = fpOf f x.msb (infFields f) := by
  simp [fpWiden, hne, hx, hn]

section

variable {se f : Nat} (wf : WiderFormat se f)
include wf

theorem WiderFormat.quantum_le : quantum se ≤ quantum f := by
  have hpow : 2 ^ (expBits se - 1) ≤ 2 ^ (expBits f - 1) :=
    Nat.pow_le_pow_right Nat.two_pos (Nat.sub_le_sub_right wf.exp_le 1)
  exact Nat.add_le_add (Nat.sub_le_sub_right hpow 2) wf.frac_le

/-- The range of the narrow format ends below that of the wide one. -/
theorem WiderFormat.range_le :
    fracBits se + (2 ^ expBits se - 2) + (quantum f - quantum se) ≤ fracBits f + (2 ^ expBits f - 2) := by
  have hhalf {w : Nat} (fw : FormatWidth w) : 2 ^ expBits w = 2 * 2 ^ (expBits w - 1) := by
    rw [← pow_succ', Nat.sub_add_cancel fw.exp_pos]
  have hpow : 2 ^ (expBits se - 1) ≤ 2 ^ (expBits f - 1) :=
    Nat.pow_le_pow_right Nat.two_pos (Nat.sub_le_sub_right wf.exp_le 1)
  have hse := hhalf wf.narrow
  have hf := hhalf wf.wide
  have hfrac := wf.frac_le
  unfold quantum
  omega

/-- The wide format has every finite number of the narrow one, with its sign. -/
theorem WiderFormat.exists_same {x : BitVec se} (hx : fpFinite x = true) :
    ∃ b : BitVec f, fpFinite b = true ∧ b.msb = x.msb ∧ fpUnits b = fpUnits x * 2 ^ (quantum f - quantum se) := by
  obtain ⟨t, q, hfields, hq, ht⟩ := exists_scaled_fields (fracBits se) (fpFields x)
  have hmag : fieldsMagnitude (fracBits se) (fpFields x) = q * 2 ^ t := hfields ▸ fieldsMagnitude_scaled hq.le ht
  obtain ⟨k, hk⟩ := exists_fieldsMagnitude
    (hq.trans_le (Nat.pow_le_pow_right Nat.two_pos (Nat.succ_le_succ wf.frac_le))) (t + (quantum f - quantum se))
  rw [pow_add, ← Nat.mul_assoc, ← hmag] at hk
  have hlt : k < infFields f := by
    rw [lt_infFields_iff wf.wide, hk]
    refine lt_of_lt_of_le ?_ (Nat.pow_le_pow_right Nat.two_pos wf.range_le)
    rw [pow_add]
    exact Nat.mul_lt_mul_of_pos_right ((lt_infFields_iff wf.narrow _).1 ((fpFinite_iff wf.narrow x).1 hx))
      (Nat.two_pow_pos _)
  have hlt' := hlt.trans (infFields_lt wf.wide)
  refine ⟨fpOf f x.msb k, fpFinite_fpOf wf.wide _ hlt, msb_fpOf wf.wide _ hlt', ?_⟩
  rw [fpUnits_fpOf wf.wide _ hlt', fpUnits_mul_two_pow wf.narrow, hk]

/-- A finite number keeps its value and its sign. -/
theorem fpWiden_finite {x : BitVec se} (hx : fpFinite x = true) :
    fpFinite (fpWiden se f x) = true ∧ fpValue (fpWiden se f x) = fpValue x ∧ (fpWiden se f x).msb = x.msb := by
  by_cases hne : se = f
  · subst hne
    rw [fpWiden_self]
    exact ⟨hx, rfl, rfl⟩
  obtain ⟨b, hb, hmsb, hunits⟩ := wf.exists_same hx
  have hsame : fpWiden se f x = b := by
    have henc := encodeUnits_fpUnits_self wf.wide 0 hb
    rw [pow_zero, Int.mul_one, hmsb, hunits] at henc
    rw [fpWiden_of_finite hne hx, henc, Option.getD_some]
  have hvalue : fpValue b = fpValue x := by
    rw [← unitsValue_fpUnits wf.quantum_le, ← hunits]
    rfl
  rw [hsame]
  exact ⟨hb, hvalue, hmsb⟩

/-- An infinity becomes the infinity of its sign. -/
theorem fpWiden_infinite {x : BitVec se} (hx : fpFinite x = false) (hn : fpNaN x = false) :
    fpFinite (fpWiden se f x) = false ∧ fpNaN (fpWiden se f x) = false ∧ (fpWiden se f x).msb = x.msb := by
  by_cases hne : se = f
  · subst hne
    rw [fpWiden_self]
    exact ⟨hx, hn, rfl⟩
  have hlt := infFields_lt wf.wide
  rw [fpWiden_of_infinite hne hx hn, fpFinite_eq_false_iff wf.wide, fpNaN_eq_false_iff wf.wide,
    fpFields_fpOf wf.wide _ hlt]
  exact ⟨le_rfl, le_rfl, msb_fpOf wf.wide _ hlt⟩

end

/-- Settles O37: the dot product in the unit that divides all its terms, and the conversion. -/
theorem dotAndWideningAreExact : Obligations.DotAndWideningAreExact := by
  intro se hse a ha hle
  have wf := WiderFormat.of_mem hse ha hle
  refine ⟨?dot, fun x => ⟨fpWiden_finite wf, fpWiden_infinite wf⟩⟩
  case dot =>
    intro frm acc as bs _ hacc hfin terms hp
    have hterms : terms = (dotTerms acc as bs).map (unitsValue (dotScale se a)) :=
      (map_unitsValue_dotTerms acc as bs).symm
    rw [hterms] at hp ⊢
    obtain ⟨r, hr, hrfin, hvalue⟩ := fpDot_exact wf.wide frm hacc hfin hp
    rw [hr]
    exact ⟨hrfin, hvalue, rfl⟩

end Sys2Proof.Machine
end

section
/-! O43. The floating-point dot product with EDIV > 1 (R231): FpNumerics.dot on each element, boxed. -/

namespace Sys2Proof.Machine

variable {c : Config}

/-- The value in a box. -/
theorem setWidth_nanbox {n w : Nat} (a : BitVec w) (hw : w ≤ n) : (nanbox n a).setWidth w = a := by
  rw [BitVec.setWidth_eq_extractLsb' hw, nanbox, extractLsb'_insertBits_self _ 0 a (by omega)]

/-- The bits of a box above the value. -/
theorem getLsbD_nanbox_of_ge {n w k : Nat} (a : BitVec w) (hw : w ≤ k) (hk : k < n) :
    (nanbox n a).getLsbD k = true := by
  rw [getLsbD_nanbox, decide_eq_true hk, decide_eq_true hw, Bool.true_or, Bool.true_and]

/-- The result on an element. -/
theorem Hart.fpDotElem_eq (h : Hart c) (vc : VConf) (a : Nat) (vd vs2 vs1 : RegNo) (i : Nat) :
    h.fpDotElem vc a vd vs2 vs1 i =
      fpDot vc.se a h.frm (h.lowBits vc vd a i) (h.subs vc vs2 i) (h.subs vc vs1 i) := rfl

/-- Behind the checks of R81, and with formats for SE and `A`, it runs (R231). -/
theorem exec_vfdotVV_of_format {s : State} {vc : VConf} {vd vs2 vs1 : RegNo} {vm : BitVec 1} {a : Nat}
    (hv : vconf s.cfg s.hart.vtype = some vc) (he : 1 < vc.ediv) (hl : legalVV vc vd vs2 vs1 vm = true)
    (ha : aFp vc.sew vc.ediv s.cfg.FLEN = some a) (hf : fpFormatOk s.cfg vc.se a = true)
    (hb : BaseAllows s (.vfdotVV vd vs2 vs1 vm)) :
    exec (.vfdotVV vd vs2 vs1 vm) s = s.onHart (.next
      (((s.hart.writeGroup vc vd vm fun i => nanbox vc.sew (s.hart.fpDotElem vc a vd vs2 vs1 i).1).accrue
        (s.hart.activeFlags vc vm fun i => (s.hart.fpDotElem vc a vd vs2 vs1 i).2)).finish)) := by
  have hx : exec (.vfdotVV vd vs2 vs1 vm) s = s.onHart _ := congrArg s.onHart (Hart.vectorNew_of_allowed hv hl hb)
  rw [hx, if_neg he.ne']
  simp only [ha, hf]
  rfl

/-- Settles O43: the accumulator is no wider than the element, so that the box holds the result. -/
theorem fpDotProduct : Obligations.FpDotProduct := by
  intro s vd vs2 vs1 vm vc a hv he hl ha hf r
  have so := sound_of_vconf hv
  have hle : a ≤ vc.sew := (aFp_le_of_eq_some ha).trans (so.two_mul_se_le he)
  have hr : r = s.hart.fpDotElem vc a vd vs2 vs1 := funext fun i => (s.hart.fpDotElem_eq vc a vd vs2 vs1 i).symm
  rw [hr]
  exact writesGroupFp_of_exec so (aligned_of_legalVV hl) (exec_vfdotVV_of_format hv he hl ha hf) fun _ _ _ =>
    ⟨setWidth_nanbox _ hle, fun _ => getLsbD_nanbox_of_ge _⟩

end Sys2Proof.Machine
end

section
/-! O46 to O49. The scaffold (R290 to R293): the words, the bytes of an aligned access, and what each instruction
does. -/

namespace Sys2Proof.Machine

variable {c : Config}

/-! ### The words -/

theorem decode_encode {i : Instr} (hi : i.wellFormed = true) : decode (encode i) = some i :=
  decodeWith_encodeWith DotEncoding.default_disjoint hi

/-- A branch offset put together from its fields is even. -/
theorem offsetEven_append_zero (o : BitVec 12) : offsetEven (o ++ 0#1) = true :=
  offsetEven_iff.2 (extractLsb'_append_bottom o 0#1).symm

/-- The word of `bne` by the fields of its offset (R293). -/
theorem encode_bne_of_fields (rs1 rs2 : RegNo) (b12 b11 : BitVec 1) (hi : BitVec 6) (lo : BitVec 4) :
    encode (.bne rs1 rs2 (b12 ++ b11 ++ hi ++ lo ++ 0#1)) =
      b12 ++ hi ++ rs2 ++ rs1 ++ 0b001#3 ++ lo ++ b11 ++ 0b1100011#7 := by
  have h12 : (b12 ++ b11 ++ hi ++ lo ++ 0#1).extractLsb' 12 1 = b12 := by
    iterate 3 rw [extractLsb'_append_high _ _ _ _ (by decide)]
    exact extractLsb'_append_top _ _
  have h11 : (b12 ++ b11 ++ hi ++ lo ++ 0#1).extractLsb' 11 1 = b11 := by
    iterate 3 rw [extractLsb'_append_high _ _ _ _ (by decide)]
    exact extractLsb'_append_bottom _ _
  have h5 : (b12 ++ b11 ++ hi ++ lo ++ 0#1).extractLsb' 5 6 = hi := by
    iterate 2 rw [extractLsb'_append_high _ _ _ _ (by decide)]
    exact extractLsb'_append_bottom _ _
  have h1 : (b12 ++ b11 ++ hi ++ lo ++ 0#1).extractLsb' 1 4 = lo := by
    rw [extractLsb'_append_high _ _ _ _ (by decide)]
    exact extractLsb'_append_bottom _ _
  simp only [encode, encodeWith, h12, h11, h5, h1]

/-! ### The bytes of an aligned access (R52) -/

theorem four_dvd_two_pow_XLEN : 4 ∣ 2 ^ c.XLEN := by
  unfold Config.XLEN
  cases c.xlen <;> decide

/-- An aligned access of four bytes does not wrap around the address space. -/
theorem byteAddr_of_aligned {addr : BitVec c.XLEN} (ha : addr.toNat % 4 = 0) {k : Nat} (hk : k < 4) :
    byteAddr addr k = addr.toNat + k := by
  have hfit : addr.toNat + k < 2 ^ c.XLEN := by
    have hlt := addr.isLt
    obtain ⟨m, hm⟩ := four_dvd_two_pow_XLEN (c := c)
    omega
  rw [byteAddr, BitVec.toNat_add, BitVec.toNat_ofNat, Nat.add_mod_mod, Nat.mod_eq_of_lt hfit]

/-- The word read at an aligned address is the four bytes from it up, little-endian. -/
theorem Hart.memRead_four_of_aligned (h : Hart c) (p : Platform) {addr : BitVec c.XLEN} (ha : addr.toNat % 4 = 0) :
    h.memRead p addr 4 = h.byteAt p (addr.toNat + 3) ++ h.byteAt p (addr.toNat + 2) ++ h.byteAt p (addr.toNat + 1) ++
      h.byteAt p addr.toNat := by
  have byte : ∀ k < 4, byteOfWord (h.memRead p addr 4) k = h.byteAt p (addr.toNat + k) := fun k hk => by
    have piece := sub_ofSubs (0 : Word32) 4 (fun k => h.byteAt p (byteAddr addr k)) hk (by decide)
    rwa [sub, Nat.mul_comm, byteAddr_of_aligned ha hk] at piece
  rw [← wordOfBytes_byteOfWord (h.memRead p addr 4), byte 0 (by decide), byte 1 (by decide), byte 2 (by decide),
    byte 3 (by decide)]
  rfl

/-- The bytes of memory are a matter of memory alone. -/
theorem Hart.byteAt_congr {h t : Hart c} (e : t.mem = h.mem) (p : Platform) (a : Nat) :
    t.byteAt p a = h.byteAt p a := by
  unfold Hart.byteAt
  rw [e]

theorem Hart.byteAt_writeX_advance (h : Hart c) (rd : RegNo) (v : BitVec c.XLEN) (p : Platform) (a : Nat) :
    (h.writeX rd v).advance.byteAt p a = h.byteAt p a :=
  Hart.byteAt_congr (by simp) p a

/-! ### `addi` (R290) -/

/-- Settles O46: it never faults, and writes `x[rd]` and `pc` alone. -/
theorem addiResult : Obligations.AddiResult := fun s rd rs1 imm =>
  ⟨decode_encode (i := .addi rd rs1 imm) rfl, _, rfl, sameVector_writeX_advance .., xWritten_writeX_advance _ _ _,
    by simp, s.hart.byteAt_writeX_advance rd _ s.plat⟩

/-! ### `lw` (R291) -/

section

variable {s : State} {rd rs1 : RegNo} {imm : BitVec 12}

theorem exec_lw_of_misaligned (ha : (s.hart.scaffoldAddr rs1 imm).toNat % 4 ≠ 0) :
    exec (.lw rd rs1 imm) s = .fault (.trap (.addressMisaligned .load (s.hart.scaffoldAddr rs1 imm).toNat)
      s.hart.pc.toNat) := by
  simp [exec, execLw, Hart.raise, ha]

theorem exec_lw_outside_memory (ha : (s.hart.scaffoldAddr rs1 imm).toNat % 4 = 0)
    (hm : inMemory s.plat (s.hart.scaffoldAddr rs1 imm) 4 = false) :
    exec (.lw rd rs1 imm) s = .fault (.trap (.accessFault .load (s.hart.scaffoldAddr rs1 imm).toNat)
      s.hart.pc.toNat) := by
  simp [exec, execLw, Hart.raise, ha, hm]

end

/-- Settles O47, check by check; the word read is the four bytes because an aligned address does not wrap. -/
theorem lwResult : Obligations.LwResult := by
  intro s rd rs1 imm addr
  refine ⟨decode_encode (i := .lw rd rs1 imm) rfl, exec_lw_of_misaligned, exec_lw_outside_memory, fun ha hm => ?_⟩
  rw [← s.hart.memRead_four_of_aligned s.plat ha]
  exact ⟨_, exec_lw_of_readable ha hm, sameVector_writeX_advance .., xWritten_writeX_advance _ _ _, by simp,
    s.hart.byteAt_writeX_advance rd _ s.plat⟩

/-! ### `sw` (R292) -/

section

variable {s : State} {rs2 rs1 : RegNo} {imm : BitVec 12}

theorem exec_sw_of_misaligned (ha : (s.hart.scaffoldAddr rs1 imm).toNat % 4 ≠ 0) :
    exec (.sw rs2 rs1 imm) s = .fault (.trap (.addressMisaligned .store (s.hart.scaffoldAddr rs1 imm).toNat)
      s.hart.pc.toNat) := by
  simp [exec, execSw, Hart.raise, ha]

theorem exec_sw_outside_memory (ha : (s.hart.scaffoldAddr rs1 imm).toNat % 4 = 0)
    (hm : inMemory s.plat (s.hart.scaffoldAddr rs1 imm) 4 = false) :
    exec (.sw rs2 rs1 imm) s = .fault (.trap (.accessFault .store (s.hart.scaffoldAddr rs1 imm).toNat)
      s.hart.pc.toNat) := by
  simp [exec, execSw, Hart.raise, ha, hm]

theorem exec_sw_of_meetsText (ha : (s.hart.scaffoldAddr rs1 imm).toNat % 4 = 0)
    (hm : inMemory s.plat (s.hart.scaffoldAddr rs1 imm) 4 = true)
    (ht : meetsText s.plat (s.hart.scaffoldAddr rs1 imm) 4 = true) :
    exec (.sw rs2 rs1 imm) s = .refused (.storeToProgramText s.hart.pc.toNat) := by
  simp [exec, execSw, Hart.refuse, ha, hm, ht]

end

section

variable (h : Hart c) {p : Platform} {rs2 rs1 : RegNo} {imm : BitVec 12}

theorem Hart.sameVector_afterSw : SameVector h (h.afterSw rs2 rs1 imm) := by
  constructor <;> rfl

/-- Only the store itself bears on memory: neither the record of it nor the step of `pc` does. -/
theorem Hart.byteAt_afterSw (a : Nat) : (h.afterSw rs2 rs1 imm).byteAt p a =
    (h.setMem (memStore h.mem (h.scaffoldAddr rs1 imm) 4 ((h.readX rs2).setWidth (8 * 4)))).byteAt p a := rfl

/-- The stored word is `x[rs2][31:0]`, so that its byte `k` is that of the register. -/
theorem Hart.byteAt_afterSw_at (ha : (h.scaffoldAddr rs1 imm).toNat % 4 = 0)
    (ht : meetsText p (h.scaffoldAddr rs1 imm) 4 = false) {k : Nat} (hk : k < 4) :
    (h.afterSw rs2 rs1 imm).byteAt p ((h.scaffoldAddr rs1 imm).toNat + k) =
      (h.readX rs2).extractLsb' (8 * k) 8 := by
  rw [← byteAddr_of_aligned ha hk, Hart.byteAt_afterSw, Hart.byteAt_memStore_at h _ ht hk four_le_two_pow_XLEN,
    BitVec.extractLsb'_setWidth_of_le (by omega)]

theorem Hart.byteAt_afterSw_other (ha : (h.scaffoldAddr rs1 imm).toNat % 4 = 0) {a : Nat}
    (hout : a < (h.scaffoldAddr rs1 imm).toNat ∨ (h.scaffoldAddr rs1 imm).toNat + 4 ≤ a) :
    (h.afterSw rs2 rs1 imm).byteAt p a = h.byteAt p a := by
  rw [Hart.byteAt_afterSw, Hart.byteAt_memStore_other]
  intro k hk
  rw [byteAddr_of_aligned ha hk]
  omega

end

/-- Settles O48, check by check; an aligned address does not wrap, so that the bytes stored are those from it up. -/
theorem swResult : Obligations.SwResult := by
  intro s rs2 rs1 imm addr
  refine ⟨decode_encode (i := .sw rs2 rs1 imm) rfl, exec_sw_of_misaligned, exec_sw_outside_memory,
    exec_sw_of_meetsText, fun ha hm ht => ?_⟩
  exact ⟨_, exec_sw_of_writable ha hm ht, s.hart.sameVector_afterSw, rfl, rfl,
    fun _ hk => s.hart.byteAt_afterSw_at ha ht hk, fun _ hout => s.hart.byteAt_afterSw_other ha hout⟩

/-! ### `bne` (R293) -/

section

variable {s : State} {rs1 rs2 : RegNo} {offset : BitVec 13}

theorem exec_bne_not_taken (heq : s.hart.readX rs1 = s.hart.readX rs2) :
    exec (.bne rs1 rs2 offset) s = .next ⟨s.cfg, s.plat, s.hart.advance⟩ := by
  simp [exec, execBne, heq]

theorem exec_bne_of_misaligned (hne : s.hart.readX rs1 ≠ s.hart.readX rs2)
    (ha : (s.hart.pc + offset.signExtend s.cfg.XLEN).toNat % 4 ≠ 0) :
    exec (.bne rs1 rs2 offset) s = .fault (.trap
      (.addressMisaligned .fetch (s.hart.pc + offset.signExtend s.cfg.XLEN).toNat) s.hart.pc.toNat) := by
  simp only [exec, execBne, if_neg hne, if_pos ha, Hart.raise, State.onHart_fault]

theorem exec_bne_taken (hne : s.hart.readX rs1 ≠ s.hart.readX rs2)
    (ha : (s.hart.pc + offset.signExtend s.cfg.XLEN).toNat % 4 = 0) :
    exec (.bne rs1 rs2 offset) s =
      .next ⟨s.cfg, s.plat, s.hart.setPc (s.hart.pc + offset.signExtend s.cfg.XLEN)⟩ := by
  simp only [exec, execBne, if_neg hne, if_neg (not_not.2 ha), State.onHart_next]

end

theorem Hart.sameVector_setPc (h : Hart c) (a : BitVec c.XLEN) : SameVector h (h.setPc a) := by
  constructor <;> rfl

/-- Settles O49: both branches that go on set `pc` alone. -/
theorem bneResult : Obligations.BneResult := by
  intro s rs1 rs2 b12 b11 hi lo offset target
  refine ⟨?word, fun heq => ?not_taken, exec_bne_of_misaligned, fun hne ha => ?taken⟩
  case word =>
    rw [← encode_bne_of_fields]
    exact decode_encode (offsetEven_append_zero _)
  case not_taken =>
    exact ⟨_, exec_bne_not_taken heq, s.hart.sameVector_setPc _, rfl, rfl, fun _ => rfl⟩
  case taken =>
    exact ⟨_, exec_bne_taken hne ha, s.hart.sameVector_setPc _, rfl, rfl, fun _ => rfl⟩

end Sys2Proof.Machine
end
